-- ==== Sys2Proof/Word.lean ====
section
/-! DEFINITION. The word types of the formatter (00_scope.md rules R9, R10): bytes, the 16-bit units of a
burst, the 32-bit registers and counts, and the opaque 64-bit timestamps. -/

namespace Sys2Proof

/-- One byte of a byte sequence (rule R11). -/
abbrev Byte := BitVec 8

/-- One 16-bit unit of a burst, or a header field (rules R9, R77). -/
abbrev Half := BitVec 16

/-- A 32-bit host register, command word or count (rules R24, R90). -/
abbrev Word := BitVec 32

/-- An opaque 64-bit timestamp, copied and never interpreted (rule R45). -/
abbrev Stamp := BitVec 64

end Sys2Proof
end

