-- ==== Sys2Proof/Config.lean ====
section
/-! DEFINITION. The implementation parameters of 00_scope.md rule R8 that are numbers, and the values
the spec leaves open. The byte strings among the parameters stand in `Sys2Proof/Machine/Rom.lean`
(the ROM space), the parser functions in `Sys2Proof/Machine/Parsers.lean`. -/

namespace Sys2Proof

/-- `HDR`: bytes of the burst header. -/
def Config.hdr : Nat := 8

/-- `SYNC1`. -/
def Config.sync1 : Half := 0xF872

/-- `SYNC2`. -/
def Config.sync2 : Half := 0x4E1F

/-- `STD_RATE` in Hz. -/
def Config.stdRate : Nat := 48000

/-- `AC3_SAMPLES`. -/
def Config.ac3Samples : Nat := 1536

/-- `P_AC3_CAPACITY` in bytes (decision D11). -/
def Config.ac3Capacity : Nat := 6144

/-- `P_AC3_CEILING` in bytes (decision D11). -/
def Config.ac3Ceiling : Nat := 6144

/-- `P_EAC3_CAPACITY` in bytes (decision D13; PRESUMED, 93_implementation_defined.md G1). -/
def Config.eac3Capacity : Nat := 24576

/-- `EAC3_BLOCKS_PER_PACKET`. -/
def Config.eac3BlocksPerPacket : Nat := 6

/-- `MAT_FRAME_SIZE` in bytes. -/
def Config.matFrameSize : Nat := 61424

/-- `P_TRUEHD_CAPACITY` in bytes. -/
def Config.truehdCapacity : Nat := 61440

/-- `MAT_GAP` in bytes. -/
def Config.matGap : Nat := 16

/-- The padding limit of rule R190, half the MAT frame. -/
def Config.matPadLimit : Nat := 30712

/-- `THD_BYTES_PER_UNIT`. -/
def Config.thdBytesPerUnit : Nat := 2560

/-- `P_OUTBUF_BYTES`, the size of the `OB` space (decision D38). -/
def Config.outbufBytes : Nat := 65536

/-- `P_MAX_FRAME_BYTES`, the largest input frame (decision D37). -/
def Config.maxFrameBytes : Nat := 65536

/-- `P_REG_BASE`, the base address of the register window in the host's map. The spec leaves it open
(decision D3), so nothing is known of it. -/
opaque Config.regBase : Nat

/-- The sample metadata `capacity / S_BPF` when `S_BPF` is 0, as a function of the capacity: a FREE VALUE
(notes/assumptions/7.md). OPEN refuses BPF = 0 (rule R210), so no open stream has `S_BPF` = 0 and the
spec gives the quotient no value. -/
opaque Config.samplesForZeroBpf : Nat → Word

/-- Which of the seven contract-fault causes FINALIZE records for a CURSOR inside the header: a FREE VALUE
(notes/assumptions/12.md). 93_implementation_defined.md U16 says that it faults, and 60_exceptions.md rule R236
names no cause for it. -/
opaque Config.finalizeLowCursorCause : Fin 7

end Sys2Proof
end

