-- ==== Sys2Proof/Syntax.lean ====
section
/-! DEFINITION. The operations of spec/opcode_table.json, one constructor each, and the three kinds of
code the table gives them: a 32-bit CMD word (rule R90), the 11-bit effective opcode of a SUBMIT
(rule R92) and the internal number of a micro-operation (rule R94). -/

namespace Sys2Proof

/-- The formatter's operations (30_encoding.md rules R91, R92, R94). No command word carries an operand
(rule R93), and no micro-operation number does; the operands come from the registers, from FRAME_IN and,
for a micro-operation run on its own, from the micro-operation port of the state. -/
inductive Instr where
  /-- OPEN, command 0x01 (rule R210). -/
  | openStream
  /-- SUBMIT, command 0x02 (rule R211). -/
  | submit
  /-- FLUSH, command 0x03 (rule R215). -/
  | flush
  /-- CLOSE, command 0x04 (rule R216). -/
  | closeStream
  /-- Every other command word (rule R217); the word itself is kept. -/
  | illegal (w : Word)
  /-- EOP 0x002: a SUBMIT with no stream open (rule R211). -/
  | submitNotOpen
  /-- EOP 0x102 (rule R150). -/
  | encAc3
  /-- EOP 0x202 (rule R160). -/
  | encEac3
  /-- EOP 0x302 (rule R170). -/
  | encDts
  /-- EOP 0x402 (rule R180). -/
  | encDtshd
  /-- EOP 0x502 (rule R191). -/
  | encTruehd
  /-- EOP 0x602 (low = 0) and 0x702 (low = 1), never produced (rules R52, R92). -/
  | submitUnreachable (low : BitVec 1)
  /-- BEGIN, micro-operation 1 (rule R130). -/
  | beginPacket
  /-- WRITE_BYTES, micro-operation 2 (rule R131). -/
  | writeBytes
  /-- WRITE16_BE, micro-operation 3 (rule R132). -/
  | write16Be
  /-- WRITE_PADDING, micro-operation 4 (rule R133). -/
  | writePadding
  /-- FINALIZE, micro-operation 5 (rule R134). -/
  | finalize
  /-- A52_PARSE, micro-operation 6 (rule R111). -/
  | a52Parse
  /-- DTS_PARSE, micro-operation 7 (rule R112). -/
  | dtsParse
  /-- CONVERT14, micro-operation 8 (rule R113). -/
  | convert14
  deriving DecidableEq, Repr

/-- A code of one of the table's three formats. -/
inductive CodeWord where
  /-- Format `cmd32`: a word written to CMD. -/
  | cmd (w : Word)
  /-- Format `eop11`: S_VARIANT above OPCODE. -/
  | eop (e : BitVec 11)
  /-- Format `micro`: a micro-operation number. -/
  | micro (n : Byte)
  deriving DecidableEq, Repr

end Sys2Proof
end

