-- ==== Sys2Proof/WellFormed.lean ====
section
/-! DEFINITION. Which terms of `Instr` are instructions. Only an illegal command carries data that can be
wrong: its word must be none of the four legal command words (30_encoding.md rule R101). -/

namespace Sys2Proof

/-- The four legal command words (rule R91). -/
def legalCommandWords : List Word := [1, 2, 3, 4]

/-- An illegal command's word is not a legal command word; every other operation is well formed. -/
def Instr.wellFormed : Instr → Bool
  | .illegal w => !legalCommandWords.contains w
  | .openStream | .submit | .flush | .closeStream | .submitNotOpen => true
  | .encAc3 | .encEac3 | .encDts | .encDtshd | .encTruehd => true
  | .submitUnreachable _ => true
  | .beginPacket | .writeBytes | .write16Be | .writePadding | .finalize => true
  | .a52Parse | .dtsParse | .convert14 => true

end Sys2Proof
end

