-- ==== Sys2Proof/Decode.lean ====
section
/-! DEFINITION. The decoder of the three code formats (30_encoding.md rules R90 to R94, R101), total on
every code and rejecting by name, and after it the encoder. -/

namespace Sys2Proof

/-- Why a code is no operation of the table. Every CMD word is an operation (the illegal ones are
ILLEGAL), so only the two internal formats can be rejected. -/
inductive DecodeError where
  /-- An effective opcode whose OPCODE part is not SUBMIT (rule R92 lists SUBMIT's only). -/
  | eopNotSubmit
  /-- A micro-operation number other than 1 to 8 (rule R94). -/
  | noSuchMicroOp
  deriving DecidableEq, Repr

/-- `OPCODE`, bits [7:0] of a command word (rule R90). -/
def commandOpcode (w : Word) : Byte := w.extractLsb' 0 8

/-- The reserved bits [31:8] of a command word (rule R90). -/
def commandReserved (w : Word) : BitVec 24 := w.extractLsb' 8 24

/-- A CMD word (rules R90, R91, R101): the reserved bits must be 0 and the opcode 1 to 4. -/
def decodeCommand (w : Word) : Instr :=
  if commandReserved w ≠ 0 then .illegal w
  else match (commandOpcode w).toNat with
    | 1 => .openStream
    | 2 => .submit
    | 3 => .flush
    | 4 => .closeStream
    | _ => .illegal w

/-- An effective opcode `{S_VARIANT, OPCODE}` (rule R92). -/
def decodeEop (e : BitVec 11) : Except DecodeError Instr :=
  if (e.extractLsb' 0 8) ≠ (2 : Byte) then .error .eopNotSubmit
  else match (e.extractLsb' 8 3).toNat with
    | 0 => .ok .submitNotOpen
    | 1 => .ok .encAc3
    | 2 => .ok .encEac3
    | 3 => .ok .encDts
    | 4 => .ok .encDtshd
    | 5 => .ok .encTruehd
    | _ => .ok (.submitUnreachable (e.extractLsb' 8 1))

/-- A micro-operation number (rule R94). -/
def decodeMicro (n : Byte) : Except DecodeError Instr :=
  match n.toNat with
  | 1 => .ok .beginPacket
  | 2 => .ok .writeBytes
  | 3 => .ok .write16Be
  | 4 => .ok .writePadding
  | 5 => .ok .finalize
  | 6 => .ok .a52Parse
  | 7 => .ok .dtsParse
  | 8 => .ok .convert14
  | _ => .error .noSuchMicroOp

/-- The decoder of a code in any of the three formats. -/
def decode : CodeWord → Except DecodeError Instr
  | .cmd w => .ok (decodeCommand w)
  | .eop e => decodeEop e
  | .micro n => decodeMicro n

/-- The code of an operation, from the same tables (rules R91, R92, R94). -/
def encode : Instr → CodeWord
  | .openStream => .cmd 0x00000001
  | .submit => .cmd 0x00000002
  | .flush => .cmd 0x00000003
  | .closeStream => .cmd 0x00000004
  | .illegal w => .cmd w
  | .submitNotOpen => .eop 0x002
  | .encAc3 => .eop 0x102
  | .encEac3 => .eop 0x202
  | .encDts => .eop 0x302
  | .encDtshd => .eop 0x402
  | .encTruehd => .eop 0x502
  | .submitUnreachable low => .eop ((3 : BitVec 2) ++ low ++ (2 : Byte))
  | .beginPacket => .micro 1
  | .writeBytes => .micro 2
  | .write16Be => .micro 3
  | .writePadding => .micro 4
  | .finalize => .micro 5
  | .a52Parse => .micro 6
  | .dtsParse => .micro 7
  | .convert14 => .micro 8

/-- The code that a row of spec/opcode_table.json means by the number `w` of `nbits` bits: the table's
formats are told apart by their widths (8 bits `micro`, 11 bits `eop11`, 32 bits `cmd32`). -/
def tableCode (nbits w : Nat) : Option CodeWord :=
  if nbits ≤ 8 then (if w < 2 ^ 8 then some (.micro (BitVec.ofNat 8 w)) else none)
  else if nbits ≤ 16 then (if w < 2 ^ 11 then some (.eop (BitVec.ofNat 11 w)) else none)
  else if w < 2 ^ 32 then some (.cmd (BitVec.ofNat 32 w)) else none

/-- The instruction the decoder reads from a row's number. -/
def decodeTableWord (nbits w : Nat) : Option Instr :=
  match tableCode nbits w with
  | none => none
  | some c => match decode c with
    | .ok i => some i
    | .error _ => none

end Sys2Proof
end

