-- ==== Sys2Proof/Machine/Memory.lean ====
section
/-! DEFINITION. One byte-addressed space (20_memory.md rule R70): the bytes that have a value, as
(address, byte) pairs with strictly rising addresses. A byte that nothing has written has no value
(rule R74, decision D53; notes/assumptions/2.md). -/

namespace Sys2Proof.Machine

/-- A space's written bytes, addresses strictly rising. -/
abbrev Memory := List Host.Cell

/-- The canonical form of a space of `size` bytes: every address is inside it and the addresses rise
strictly. An unlisted address has no value, so no entry can equal what one reads as. -/
abbrev Memory.wf (size : Nat) (m : Memory) : Prop :=
  m.Pairwise (fun x y => x.1 < y.1) ∧ ∀ c ∈ m, c.1 < size

/-- The value of one byte, or none where nothing has written it. -/
def Memory.get? : Memory → Nat → Option Byte
  | [], _ => none
  | (x, b) :: m, a => if x = a then some b else Memory.get? m a

/-- The bytes `bs` at ascending addresses from `a`. -/
def Memory.cells : Nat → List Byte → Memory
  | _, [] => []
  | a, b :: bs => (a, b) :: Memory.cells (a + 1) bs

/-- `MemWrite` of the sequence `bs` at `a` (00_scope.md rule R12). -/
def Memory.write (m : Memory) (a : Nat) (bs : List Byte) : Memory :=
  if bs.isEmpty then m
  else m.filter (fun c => c.1 < a) ++ (Memory.cells a bs ++ m.filter (fun c => a + bs.length ≤ c.1))

/-- `MemRead` of `n` bytes at `a` (rule R12), or none where one of them has no value. -/
def Memory.read? (m : Memory) (a n : Nat) : Option (List Byte) :=
  let cs := m.filter (fun c => a ≤ c.1 && c.1 < a + n)
  if cs.map (·.1) = List.range' a n then some (cs.map (·.2)) else none

end Sys2Proof.Machine
end

