-- ==== Sys2Proof/Machine/State.lean ====
section
/-! DEFINITION. The state of the formatter (10_state.md), the reasons a step can stop, and the state
after reset (70_reset_and_hazards.md rule R260). -/

namespace Sys2Proof.Machine

/-- STATUS.VERDICT (10_state.md rules R29, R30). -/
inductive Verdict where
  | none | packet | more | error
  deriving DecidableEq, Repr

/-- STATUS.ERRKIND, the error kinds of 60_exceptions.md rule R231. -/
inductive ErrKind where
  | none | malformedHeader | sizeMismatch | unsupportedFraming | stateViolation
  | resourceExhaustion | badCommand | notOpen
  deriving DecidableEq, Repr

/-- FAULT_CAUSE, the contract-fault causes of 60_exceptions.md rule R236. -/
inductive FaultCause where
  | none | badCapacity | beginActive | overflow | badFinalize | notActive | matIndex | inputOverread
  deriving DecidableEq, Repr

/-- The stored address spaces of 20_memory.md rule R70. -/
inductive Space where
  | ob | mat0 | mat1
  deriving DecidableEq, Repr

/-- FRAME_IN (10_state.md rule R45). `L` is the length of `data`. -/
structure Frame where
  data : List Byte
  nbSamples : Word
  rate : Word
  pts : Stamp
  dts : Stamp
  deriving DecidableEq, Repr

/-- What PKT_OUT holds (10_state.md rule R46). -/
structure Packet where
  data : List Byte
  nbSamples : Word
  pts : Stamp
  dts : Stamp
  deriving DecidableEq, Repr

/-- The stream type of an AC-3 or E-AC-3 syncframe (40_header_parsers.md rule R111). -/
inductive StreamType where
  | independent | dependent | convert
  deriving DecidableEq, Repr

/-- The record A52_PARSE returns (rule R111). -/
structure A52Header where
  size : Nat
  samples : Nat
  blocks : Nat
  isEac3 : Bool
  strmtyp : StreamType
  rate : Nat
  deriving DecidableEq, Repr

/-- The DTS core syncword variants (rule R112). -/
inductive DtsVariant where
  | be16 | le16 | be14 | le14
  deriving DecidableEq, Repr

/-- The record DTS_PARSE returns (rule R112). -/
structure DtsHeader where
  variant : DtsVariant
  frameSize : Nat
  frameLength : Nat
  rate : Nat
  deriving DecidableEq, Repr

/-- One access of the host, in the order the host makes them (20_memory.md rule R83). Widths are in
bits and offsets are in the 256-byte register window (10_state.md rule R24). -/
inductive HostAccess where
  /-- A register write (rule R82); a write to CMD issues a command. -/
  | write (width : Nat) (offset : Byte) (value : Word)
  /-- A register read (rule R41). -/
  | read (width : Nat) (offset : Byte)
  /-- The host drives FRAME_IN (rule R45). -/
  | drive (f : Frame)
  /-- The platform's reset input (70_reset_and_hazards.md rule R260). -/
  | reset
  deriving DecidableEq, Repr

/-- THE MODEL'S OWN: the port through which a micro-operation (30_encoding.md rule R94) can be run alone:
the pending number, the operands the pseudocode of 40 and 41 passes as arguments, and the values the
parsers return. Nothing the host does reaches it; no SUBMIT reads or writes it
(notes/assumptions/5.md). -/
structure MicroPort where
  pending : Option Byte
  cap : Word
  samples : Word
  pts : Stamp
  dts : Stamp
  data : List Byte
  srcBe : Bool
  value : Half
  count : Word
  dataType : Half
  unit : Word
  le : Bool
  a52 : Option A52Header
  dtsHeader : Option DtsHeader
  converted : List Byte
  deriving DecidableEq, Repr

/-- The whole state, under the names of 10_state.md. -/
structure State where
  /-- `S_OPEN` (rule R22). -/
  sOpen : Bool
  /-- `S_VARIANT` (rules R22, R52). -/
  sVariant : BitVec 3
  /-- `S_OUT_BE`: big-endian output (rule R22). -/
  sOutBe : Bool
  /-- `S_OUT_RATE` (rule R22). -/
  sOutRate : Word
  /-- `S_BPF` (rule R22). -/
  sBpf : Byte
  /-- `OB_ACTIVE` (rules R22, R43). -/
  obActive : Bool
  /-- `OB_CAP` (rules R22, R43). -/
  obCap : BitVec 17
  /-- `CURSOR` (rules R22, R43). -/
  cursor : BitVec 17
  /-- `OB_SAMPLES` (rules R22, R43). -/
  obSamples : Word
  /-- `OB_PTS` (rules R22, R43). -/
  obPts : Stamp
  /-- `OB_DTS` (rules R22, R43). -/
  obDts : Stamp
  /-- `EAC3_BLOCKS` (rules R22, R44). -/
  eac3Blocks : BitVec 3
  /-- `DTSHD_SKIP` (rules R22, R44). -/
  dtshdSkip : Bool
  /-- `MAT_IDX` (rules R22, R44); true is 1. -/
  matIdx : Bool
  /-- `MAT_FILL` (rules R22, R44). -/
  matFill : BitVec 16
  /-- `THD_PREV_SIZE` (rules R22, R44). -/
  thdPrevSize : Word
  /-- `THD_PREV_TIME` (rules R22, R44). -/
  thdPrevTime : Half
  /-- `THD_SPF` (rules R22, R44); 0 means unknown. -/
  thdSpf : BitVec 9
  /-- `THD_FRAME_COUNT` (rules R22, R44). -/
  thdFrameCount : BitVec 5
  /-- `FAULT` (rules R22, R35). -/
  fault : Bool
  /-- `FAULT_CAUSE` (rules R22, R35). -/
  faultCause : FaultCause
  /-- CTRL (rule R25). -/
  ctrl : Word
  /-- OUT_RATE (rule R27). -/
  outRate : Word
  /-- STATUS.VERDICT (rule R30). -/
  verdict : Verdict
  /-- STATUS.ERRKIND (rule R30). -/
  errKind : ErrKind
  /-- STATUS.PKT_VALID (rule R31). -/
  pktValid : Bool
  /-- STATUS.DOWNGRADE_NOTICE (rule R34). -/
  downgradeNotice : Bool
  /-- PKT_LEN (rule R37). -/
  pktLen : Word
  /-- PKT_SAMPLES (rule R37). -/
  pktSamples : Word
  /-- FRAME_IN (rule R45). -/
  frameIn : Frame
  /-- PKT_OUT (rule R46), or no packet. -/
  pktOut : Option Packet
  /-- The `OB` space (20_memory.md rule R70). -/
  ob : Memory
  /-- The `MAT0` space (20_memory.md rule R70). -/
  mat0 : Memory
  /-- The `MAT1` space (20_memory.md rule R70). -/
  mat1 : Memory
  /-- THE MODEL'S OWN: the host accesses still to come, oldest first (notes/assumptions/1.md). -/
  host : List HostAccess
  /-- THE MODEL'S OWN: the word the host's last register read returned (notes/assumptions/1.md). -/
  busRead : Word
  /-- THE MODEL'S OWN: the micro-operation port (notes/assumptions/5.md). -/
  uop : MicroPort
  deriving DecidableEq, Repr

/-- The reasons the model stops with a fault. None of them is the spec's contract fault, which is a state
the machine goes on in (60_exceptions.md rule R237). All three are safe: the model stops where the
hardware would go on, and only in states that no host access sequence reaches. -/
inductive Fault where
  /-- A read of a byte of `OB`, `MAT0` or `MAT1` that nothing has written (20_memory.md rule R74). Raised
  by the copy to PKT_OUT and by the copy of a completed MAT buffer. Safe. -/
  | unwrittenByte (space : Space)
  /-- An access past the end of a space (20_memory.md rule R70). Raised by the accesses to `OB` when
  `OB_CAP` exceeds the space, which no BEGIN allows. Safe. -/
  | outsideSpace (space : Space)
  /-- The MAT insertion loop did not end within its bound (46_truehd_mat.md rule R195). Never raised:
  `matInsert_finishes` in Sys2Proof/Laws/Mat.lean. Safe. -/
  | matLoopBound
  deriving DecidableEq, Repr

/-- The reasons the model refuses a step. -/
inductive Refusal where
  /-- An operation whose arm of `exec` has no meaning yet. Safe. -/
  | notModelled (mnemonic : String)
  /-- A register access that is not 32 bits wide or not at a multiple of 4 (10_state.md rule R41,
  20_memory.md rule R76, U5): the host interface cannot issue it. Raised by `step`. Safe. -/
  | badRegisterAccess (width : Nat) (offset : Byte)
  /-- A SUBMIT with a variant code 6 or 7, which OPEN never latches (10_state.md rule R52, U8). Raised by
  SUBMIT_UNREACHABLE and by SUBMIT in such a state. Safe. -/
  | unreachableVariant
  /-- The micro-operation port holds a number that is no micro-operation (30_encoding.md rule R94).
  Raised by `step`. Safe. -/
  | codeNotInTable (n : Byte)
  deriving DecidableEq, Repr

/-- FRAME_IN before the host drives it: empty, with zeros (DESIGN CHOICE, notes/assumptions/3.md). -/
def Frame.idle : Frame :=
  { data := [], nbSamples := 0, rate := 0, pts := 0, dts := 0 }

/-- The micro-operation port with nothing in it (DESIGN CHOICE, notes/assumptions/5.md). -/
def MicroPort.idle : MicroPort :=
  { pending := none, cap := 0, samples := 0, pts := 0, dts := 0, data := [], srcBe := false, value := 0,
    count := 0, dataType := 0, unit := 0, le := false, a52 := none, dtsHeader := none, converted := [] }

/-- The state after reset (70_reset_and_hazards.md rule R260). -/
def State.reset : State :=
  { sOpen := false, sVariant := 0, sOutBe := false, sOutRate := 0, sBpf := 0,
    obActive := false, obCap := 0, cursor := 0, obSamples := 0, obPts := 0, obDts := 0,
    eac3Blocks := 0, dtshdSkip := false,
    matIdx := false, matFill := 0, thdPrevSize := 0, thdPrevTime := 0, thdSpf := 0, thdFrameCount := 0,
    fault := false, faultCause := .none,
    ctrl := 0x00000400, outRate := 48000,
    verdict := .none, errKind := .none, pktValid := false, downgradeNotice := false,
    pktLen := 0, pktSamples := 0,
    frameIn := Frame.idle, pktOut := none,
    ob := [], mat0 := [], mat1 := [],
    host := [], busRead := 0, uop := MicroPort.idle }

end Sys2Proof.Machine
end

