-- ==== Sys2Proof/Machine/Operands.lean ====
section
/-! DEFINITION. Where the operations take their operands from (30_encoding.md rule R93): the fields of CTRL,
the effective opcode, the length of FRAME_IN, and the numeric fields of byte sequences
(00_scope.md rules R10, R11). -/

namespace Sys2Proof.Machine

/-- `ceil2(n) = n + (n mod 2)` (rule R11). -/
def ceil2 (n : Nat) : Nat := n + n % 2

/-- `align_up(n, m)`, the least multiple of `m` that is at least `n` (rule R11). -/
def alignUp (n m : Nat) : Nat := (n + (m - 1)) / m * m

/-- The 16-bit value of two bytes, high byte first (rule R11 `BE16`). -/
def be16 (hi lo : Byte) : Half := hi ++ lo

/-- The 24-bit value of three bytes, high byte first (rule R11 `BE24`). -/
def be24 (b0 b1 b2 : Byte) : BitVec 24 := b0 ++ b1 ++ b2

/-- `v[15:8]` of a 16-bit value (rule R10). -/
def highByte (v : Half) : Byte := v.extractLsb' 8 8

/-- `v[7:0]` of a 16-bit value (rule R10). -/
def lowByte (v : Half) : Byte := v.extractLsb' 0 8

/-- CTRL.CODEC, bits [2:0] (10_state.md rule R25). -/
def ctrlCodec (ctrl : Word) : BitVec 3 := ctrl.extractLsb' 0 3

/-- CTRL.OUT_BE, bit [3] (rule R25). -/
def ctrlOutBe (ctrl : Word) : Bool := ctrl.getLsbD 3

/-- CTRL.BPF, bits [15:8] (rule R25). -/
def ctrlBpf (ctrl : Word) : Byte := ctrl.extractLsb' 8 8

/-- The bits of CTRL that a write stores; the others read 0 (rules R25, R41). -/
def ctrlWritable : Word := 0x0000FF0F

/-- `EOP = {S_VARIANT, OPCODE}` of a SUBMIT (30_encoding.md rule R92). -/
def effectiveOpcode (s : State) : BitVec 11 := s.sVariant ++ (2 : Byte)

/-- `f.L`, the length of FRAME_IN.data (10_state.md rule R45). -/
def frameLen (s : State) : Nat := s.frameIn.data.length

/-- The packet sample metadata `capacity / S_BPF` (30_encoding.md rule R97); for `S_BPF` = 0, which no open
stream has, a free value (notes/assumptions/7.md). -/
def packetSamples (cap : Nat) (bpf : Byte) : Word :=
  if bpf = 0 then Config.samplesForZeroBpf cap else BitVec.ofNat 32 (cap / bpf.toNat)

end Sys2Proof.Machine
end

