-- ==== Sys2Proof/Machine/Flags.lean ====
section
/-! DEFINITION. The register window as the host reads it (10_state.md rules R24 to R41): the codes of
the status fields, the composed STATUS word and the mirrors. -/

namespace Sys2Proof.Machine

/-- The code of a verdict (rule R29). -/
def verdictCode : Verdict → BitVec 2
  | .none => 0
  | .packet => 1
  | .more => 2
  | .error => 3

/-- The code of an error kind (60_exceptions.md rule R231). -/
def errKindCode : ErrKind → BitVec 3
  | .none => 0
  | .malformedHeader => 1
  | .sizeMismatch => 2
  | .unsupportedFraming => 3
  | .stateViolation => 4
  | .resourceExhaustion => 5
  | .badCommand => 6
  | .notOpen => 7

/-- The code of a contract-fault cause (60_exceptions.md rule R236). -/
def faultCauseCode : FaultCause → BitVec 3
  | .none => 0
  | .badCapacity => 1
  | .beginActive => 2
  | .overflow => 3
  | .badFinalize => 4
  | .notActive => 5
  | .matIndex => 6
  | .inputOverread => 7

/-- STATUS (rule R29), from bit 31 down. -/
def statusWord (s : State) : Word :=
  (0 : BitVec 3) ++ s.thdFrameCount ++ (0 : BitVec 1) ++ s.eac3Blocks ++ (0 : BitVec 1) ++ faultCauseCode s.faultCause ++
    (0 : BitVec 1) ++ BitVec.ofBool s.fault ++ BitVec.ofBool s.downgradeNotice ++ BitVec.ofBool s.dtshdSkip ++
    s.sVariant ++ BitVec.ofBool s.sOpen ++
    (0 : BitVec 1) ++ errKindCode s.errKind ++ (0 : BitVec 1) ++ BitVec.ofBool s.pktValid ++ verdictCode s.verdict

/-- MAT_STATUS (rule R38). -/
def matStatusWord (s : State) : Word :=
  (0 : BitVec 3) ++ s.thdSpf ++ (0 : BitVec 3) ++ BitVec.ofBool s.matIdx ++ s.matFill

/-- THD_PREV_TIME as a register (rule R39). -/
def thdPrevTimeWord (s : State) : Word := (0 : BitVec 16) ++ s.thdPrevTime

/-- OB_STATUS (rule R40). -/
def obStatusWord (s : State) : Word := BitVec.ofBool s.obActive ++ (0 : BitVec 14) ++ s.cursor

/-- OB_CAP as a register (rule R40). -/
def obCapWord (s : State) : Word := (0 : BitVec 15) ++ s.obCap

/-- The word a register read returns (rule R24). CMD and the reserved offsets read 0. -/
def readRegister (offset : Byte) (s : State) : Word :=
  match offset.toNat with
  | 0x00 => s.ctrl
  | 0x04 => s.outRate
  | 0x0C => statusWord s
  | 0x10 => s.pktLen
  | 0x14 => s.pktSamples
  | 0x18 => matStatusWord s
  | 0x1C => thdPrevTimeWord s
  | 0x20 => s.thdPrevSize
  | 0x24 => obStatusWord s
  | 0x28 => obCapWord s
  | _ => 0

/-- The offset of CMD (rule R24). -/
def cmdOffset : Byte := 0x08

/-- A register access is 32 bits wide at an offset that is a multiple of 4 (rule R41). -/
def legalAccess (width : Nat) (offset : Byte) : Bool := width == 32 && offset.toNat % 4 == 0

/-- The host's address of a register: the window starts at `P_REG_BASE` (60_exceptions.md rule R246). -/
def hostAddress (offset : Byte) : Nat := Config.regBase + offset.toNat

/-- The effect of a register write other than to CMD: CTRL and OUT_RATE store the value and do nothing
else; every other write is ignored (rules R25, R27, R41, 20_memory.md rule R82). -/
def writeRegister (offset : Byte) (v : Word) (s : State) : State :=
  match offset.toNat with
  | 0x00 => { s with ctrl := v &&& ctrlWritable }
  | 0x04 => { s with outRate := v }
  | _ => s

end Sys2Proof.Machine
end

