-- ==== Sys2Proof/Machine/Parsers.lean ====
section
/-! DEFINITION. The header parsers `P_A52_PARSE`, `P_DTS_PARSE` and the conversion `P_CONVERT14`: the
reference instantiations of 40_header_parsers.md rules R115 to R120, which the spec offers as defaults
(PRESUMED, 93_implementation_defined.md G9, notes/assumptions/8.md). All are total functions of their
byte sequence and read only bytes of it (rule R110). -/

namespace Sys2Proof.Machine

/-- The AC-3 bit rates in kbit/s, by `frmsizecod >> 1` (rule R116). -/
def ac3BitRates : List Nat :=
  [32, 40, 48, 56, 64, 80, 96, 112, 128, 160, 192, 224, 256, 320, 384, 448, 512, 576, 640]

/-- The frame size in 16-bit words for `fscod` 0, 1 and 2 (rule R116). -/
def ac3FrameWords (fscod frmsizecod : Nat) : Nat :=
  let kbps := ac3BitRates.getD (frmsizecod / 2) 0
  match fscod with
  | 0 => 2 * kbps
  | 1 => kbps * 320 / 147 + frmsizecod % 2
  | _ => 3 * kbps

/-- The sample rate for `fscod` 0, 1 and 2 (rules R116, R117). -/
def sampleRate (fscod : Nat) : Nat :=
  match fscod with
  | 0 => 48000
  | 1 => 44100
  | _ => 32000

/-- The stream type of an E-AC-3 syncframe, or none for the reserved code 3 (rule R117). -/
def streamType (code : BitVec 2) : Option StreamType :=
  match code.toNat with
  | 0 => some .independent
  | 1 => some .dependent
  | 2 => some .convert
  | _ => none

/-- The block count and sample rate of an E-AC-3 syncframe from its byte 4 (rule R117): `fscod` 3 selects the
reduced rates of `fscod2`, with six blocks. -/
def eac3BlocksRate (b4 : Byte) : Option (Nat × Nat) :=
  let fscod := (b4.extractLsb' 6 2).toNat
  let code := (b4.extractLsb' 4 2).toNat
  if fscod = 3 then
    match code with
    | 0 => some (6, 24000)
    | 1 => some (6, 22050)
    | 2 => some (6, 16000)
    | _ => none
  else
    match code with
    | 0 => some (1, sampleRate fscod)
    | 1 => some (2, sampleRate fscod)
    | 2 => some (3, sampleRate fscod)
    | _ => some (6, sampleRate fscod)

/-- `EAC3_PARSE_REF` (rule R117), from bytes 2 to 4 and `bsid`. -/
def eac3Parse (b2 b3 b4 : Byte) (bsid : Nat) : Option A52Header :=
  if bsid < 11 ∨ 16 < bsid then none
  else
    match streamType (b2.extractLsb' 6 2), eac3BlocksRate b4 with
    | some st, some (blocks, rate) =>
      let frmsiz := (b2.extractLsb' 0 3 ++ b3).toNat
      some { size := 2 * (frmsiz + 1), samples := 256 * blocks, blocks := blocks, isEac3 := true,
             strmtyp := st, rate := rate }
    | _, _ => none

/-- `A52_PARSE_REF` (rule R116). A sequence of fewer than six bytes is no header. -/
def a52Parse : List Byte → Option A52Header
  | b0 :: b1 :: b2 :: b3 :: b4 :: b5 :: _ =>
    if b0 ≠ 0x0B ∨ b1 ≠ 0x77 then none
    else
      let bsid := (b5.extractLsb' 3 5).toNat
      if 10 < bsid then eac3Parse b2 b3 b4 bsid
      else
        let fscod := (b4.extractLsb' 6 2).toNat
        let frmsizecod := (b4.extractLsb' 0 6).toNat
        if fscod = 3 ∨ 37 < frmsizecod then none
        else some { size := 2 * ac3FrameWords fscod frmsizecod, samples := 1536, blocks := 6, isEac3 := false,
                    strmtyp := .independent, rate := sampleRate fscod }
  | _ => none

/-- The 16-bit words of a byte sequence; an odd last byte is dropped (rule R120). -/
def wordsOf (le : Bool) : List Byte → List Half
  | b0 :: b1 :: bs => (if le then be16 b1 b0 else be16 b0 b1) :: wordsOf le bs
  | _ => []

/-- The `n` low bits of a value, most significant first. -/
def bitsOf {w : Nat} (n : Nat) (v : BitVec w) : List Bool :=
  (List.range n).map fun i => v.getLsbD (n - 1 - i)

/-- The number that eight bits spell, most significant first. -/
def byteOfBits (a b c d e f g h : Bool) : Byte :=
  BitVec.ofBool a ++ BitVec.ofBool b ++ BitVec.ofBool c ++ BitVec.ofBool d ++
    BitVec.ofBool e ++ BitVec.ofBool f ++ BitVec.ofBool g ++ BitVec.ofBool h

/-- The whole bytes of a bit string; up to seven last bits are dropped (rule R120). -/
def bytesOfBits : List Bool → List Byte
  | a :: b :: c :: d :: e :: f :: g :: h :: rest => byteOfBits a b c d e f g h :: bytesOfBits rest
  | _ => []

/-- `CONVERT14_REF` (rule R120). -/
def convert14 (b : List Byte) (le : Bool) : List Byte :=
  bytesOfBits ((wordsOf le b).flatMap (bitsOf 14))

/-- The word that 14 bits pack into: bits 15 and 14 copy bit 13 (rule R120 `REPACK14`). -/
def packWord14 (v : BitVec 14) : Half := BitVec.ofBool (v.getLsbD 13) ++ BitVec.ofBool (v.getLsbD 13) ++ v

/-- The two bytes of a word in the given order (rule R120 `REPACK14`). -/
def bytesOfWord (le : Bool) (w : Half) : List Byte :=
  if le then [lowByte w, highByte w] else [highByte w, lowByte w]

/-- The words that whole groups of 14 bits pack into (rule R120 `REPACK14`). -/
def repackBits (le : Bool) : List Bool → List Byte
  | a :: b :: c :: d :: e :: f :: g :: h :: i :: j :: k :: l :: m :: n :: rest =>
    bytesOfWord le (packWord14 (BitVec.ofBool a ++ BitVec.ofBool b ++ BitVec.ofBool c ++ BitVec.ofBool d ++
      BitVec.ofBool e ++ BitVec.ofBool f ++ BitVec.ofBool g ++ BitVec.ofBool h ++ BitVec.ofBool i ++
      BitVec.ofBool j ++ BitVec.ofBool k ++ BitVec.ofBool l ++ BitVec.ofBool m ++ BitVec.ofBool n)) ++
      repackBits le rest
  | _ => []

/-- `REPACK14` (rule R120), the spec's helper for the round-trip property of rule R114. No operation
uses it. -/
def repack14 (c : List Byte) (le : Bool) : List Byte := repackBits le (c.flatMap (bitsOf 8))

/-- The core syncword variant of bytes 0 to 5 (rule R118). -/
def dtsSyncVariant : List Byte → Option DtsVariant
  | b0 :: b1 :: b2 :: b3 :: b4 :: b5 :: _ =>
    if [b0, b1, b2, b3] = [0x7F, 0xFE, 0x80, 0x01] then some .be16
    else if [b0, b1, b2, b3] = [0xFE, 0x7F, 0x01, 0x80] then some .le16
    else if [b0, b1, b2, b3] = [0x1F, 0xFF, 0xE8, 0x00] ∧ b4 = 0x07 ∧ b5.extractLsb' 4 4 = (0xF : BitVec 4) then some .be14
    else if [b0, b1, b2, b3] = [0xFF, 0x1F, 0x00, 0xE8] ∧ b5 = 0x07 ∧ b4.extractLsb' 4 4 = (0xF : BitVec 4) then some .le14
    else none
  | _ => none

/-- A byte sequence with the bytes of each pair exchanged. -/
def swapPairs : List Byte → List Byte
  | b0 :: b1 :: bs => b1 :: b0 :: swapPairs bs
  | bs => bs

/-- The header as a big-endian 16-bit bit stream (rule R118). -/
def dtsNormalise (v : DtsVariant) (b : List Byte) : List Byte :=
  match v with
  | .be16 => b
  | .le16 => swapPairs b
  | .be14 => convert14 (b.take 16) false
  | .le14 => convert14 (b.take 16) true

/-- The number that a big-endian byte sequence spells. -/
def beNat : List Byte → Nat
  | [] => 0
  | b :: bs => b.toNat * 256 ^ bs.length + beNat bs

/-- Bits `first` to `first + width - 1` of the first nine bytes of the header, bit 0 the most
significant of the first byte (rule R119). -/
def dtsField (h : List Byte) (first width : Nat) : Nat :=
  beNat (h.take 9) / 2 ^ (72 - first - width) % 2 ^ width

/-- The core sample rate of an SFREQ code, 0 for unknown (rule R119). -/
def dtsRate (sfreq : Nat) : Nat :=
  match sfreq with
  | 1 => 8000
  | 2 => 16000
  | 3 => 32000
  | 6 => 11025
  | 7 => 22050
  | 8 => 44100
  | 11 => 12000
  | 12 => 24000
  | 13 => 48000
  | _ => 0

/-- `frame_size` from the 16-bit frame size: the 14-bit packings are longer (rule R119). -/
def dtsFrameSize (v : DtsVariant) (size16 : Nat) : Nat :=
  match v with
  | .be16 | .le16 => size16
  | .be14 | .le14 => size16 * 16 / 14

/-- DTS_PARSE by the reference of rules R118 and R119. -/
def dtsParse (b : List Byte) : Option DtsHeader :=
  if b.length < 16 then none
  else
    match dtsSyncVariant b with
    | none => none
    | some v =>
      let h := dtsNormalise v b
      let nblks := dtsField h 39 7
      let fsize := dtsField h 46 14
      if fsize < 95 ∨ nblks < 5 then none
      else some { variant := v, frameSize := dtsFrameSize v (fsize + 1), frameLength := 32 * (nblks + 1),
                  rate := dtsRate (dtsField h 66 4) }

end Sys2Proof.Machine
end

