-- ==== Sys2Proof/Machine/Rom.lean ====
section
/-! DEFINITION. The ROM space (20_memory.md rule R70): the three MAT markers and the DTS-HD start code.
The spec's source withholds their bytes; these are its defaults, PRESUMED (93_implementation_defined.md
G2 and G3, notes/assumptions/9.md). -/

namespace Sys2Proof.Machine

/-- `P_MAT_START`, 20 bytes (46_truehd_mat.md rule R190). -/
def matStart : List Byte :=
  [0x07, 0x9E, 0x00, 0x03, 0x84, 0x01, 0x01, 0x01, 0x80, 0x00,
   0x56, 0xA5, 0x3B, 0xF4, 0x81, 0x83, 0x49, 0x80, 0x77, 0xE0]

/-- `P_MAT_MIDDLE`, 12 bytes (rule R190). -/
def matMiddle : List Byte :=
  [0xC3, 0xC1, 0x42, 0x49, 0x3B, 0xFA, 0x82, 0x83, 0x49, 0x80, 0x77, 0xE0]

/-- `P_MAT_END`, 16 bytes (rule R190). -/
def matEnd : List Byte :=
  [0xC3, 0xC2, 0xC0, 0xC4, 0x00, 0x00, 0x00, 0x00, 0x00, 0x00, 0x00, 0x00, 0x97, 0x11, 0x00, 0x00]

/-- `P_DTSHD_START`, 10 bytes (45_dtshd.md rule R184). -/
def dtshdStart : List Byte :=
  [0x01, 0x00, 0x00, 0x00, 0x00, 0x00, 0x00, 0x00, 0xFE, 0xFE]

end Sys2Proof.Machine
end

