-- ==== Sys2Proof/Machine/Ops.lean ====
section
/-! DEFINITION. The shared operations of the meanings: how an operation ends (00_scope.md rule R12), flush and
reset, taking an exception, the command step EXECUTE (47_dispatcher.md rule R219), the accesses to the
address spaces (20_memory.md) and the Packet Writer's primitives (41_packet_writer.md). -/

namespace Sys2Proof.Machine

/-- What `raise` raises (rule R12): a framing error or a contract fault. -/
inductive Exception where
  | error (kind : ErrKind)
  | contract (cause : FaultCause)
  deriving DecidableEq, Repr

/-- How a piece of pseudocode ends: with a value and the state it leaves, with a `raise` and the state
written so far (rule R13), or with a stop of the model. -/
inductive Act (α : Type) where
  | ok (a : α) (s : State)
  | raise (e : Exception) (s : State)
  | stop (f : Fault)
  | refuse (r : Refusal)

/-- Statements in the order written; a `raise` ends the operation at once (rule R13). -/
def Act.andThen {α β : Type} (x : Act α) (f : α → State → Act β) : Act β :=
  match x with
  | .ok a s => f a s
  | .raise e s => .raise e s
  | .stop r => .stop r
  | .refuse r => .refuse r

/-- `raise Error(kind)` (60_exceptions.md rule R230). -/
def raiseError {α : Type} (k : ErrKind) (s : State) : Act α := .raise (.error k) s

/-- `raise Fault(cause)` (60_exceptions.md rule R236). -/
def raiseFault {α : Type} (c : FaultCause) (s : State) : Act α := .raise (.contract c) s

/-! ### Flush, reset and taking an exception -/

/-- FLUSH_STATE (10_state.md rule R47). The buffers' bytes, the stream configuration, FAULT and the
register window stay. -/
def flushState (s : State) : State :=
  { s with
    obActive := false, obCap := 0, cursor := 0, obSamples := 0, obPts := 0, obDts := 0,
    eac3Blocks := 0, dtshdSkip := false,
    matIdx := false, matFill := 0, thdPrevSize := 0, thdPrevTime := 0, thdSpf := 0, thdFrameCount := 0 }

/-- The platform's reset input (70_reset_and_hazards.md rule R260): every element at its reset value. What
lies outside the formatter stays: the host's accesses to come, the word it last read, and FRAME_IN,
which the host drives (notes/assumptions/3.md). The way out of a contract fault (60_exceptions.md rule
R237); there is no return-from-trap instruction (R241). -/
def platformReset (s : State) : State :=
  { State.reset with host := s.host, busRead := s.busRead, frameIn := s.frameIn }

/-- Whether ON_ERROR flushes: BAD_COMMAND and NOT_OPEN are refused commands and leave the stream as it
was (47_dispatcher.md rule R214). -/
def errorFlushes (k : ErrKind) : Bool :=
  match k with
  | .badCommand | .notOpen => false
  | .none | .malformedHeader | .sizeMismatch | .unsupportedFraming | .stateViolation | .resourceExhaustion => true

/-- STATUS.VERDICT and STATUS.ERRKIND at the end of a command (10_state.md rule R30). -/
def recordVerdict (v : Verdict) (k : ErrKind) (s : State) : State :=
  { s with verdict := v, errKind := k }

/-- The packet port with no packet: PKT_VALID, PKT_LEN and PKT_SAMPLES read 0 (10_state.md rules R31, R37). -/
def clearPort (s : State) : State :=
  { s with pktValid := false, pktLen := 0, pktSamples := 0, pktOut := none }

/-- Taking an exception: ON_ERROR (47_dispatcher.md rule R214), after which PKT_VALID is 0 (60_exceptions.md rule
R230; a command has cleared the port already), or the record of a contract fault (rule R220), which flushes
nothing and keeps the state as the command left it. -/
def takeException (e : Exception) (s : State) : State :=
  match e with
  | .error k => recordVerdict .error k (clearPort (if errorFlushes k then flushState s else s))
  | .contract c => recordVerdict .error .none { s with fault := true, faultCause := c }

/-! ### The address spaces -/

/-- The size in bytes of a space (20_memory.md rule R70). -/
def spaceSize : Space → Nat
  | .ob => Config.outbufBytes
  | .mat0 => Config.matFrameSize
  | .mat1 => Config.matFrameSize

/-- The bytes of a space. -/
def spaceOf (sp : Space) (s : State) : Memory :=
  match sp with
  | .ob => s.ob
  | .mat0 => s.mat0
  | .mat1 => s.mat1

/-- The MAT space that an index names (46_truehd_mat.md rule R199). -/
def matSpace (idx : Bool) : Space := if idx then .mat1 else .mat0

/-- `MemRead(space, a, n)` of a buffer (00_scope.md rule R12): an address outside the space or a byte that
nothing has written stops the model. -/
def memRead (sp : Space) (a n : Nat) (s : State) : Act (List Byte) :=
  if spaceSize sp < a + n then .stop (.outsideSpace sp)
  else match (spaceOf sp s).read? a n with
    | none => .stop (.unwrittenByte sp)
    | some bs => .ok bs s

/-- `MemRead(IN, a, n)`: a read past `L` raises Fault(7) (20_memory.md rule R75). -/
def inRead (a n : Nat) (s : State) : Act (List Byte) :=
  if frameLen s < a + n then raiseFault .inputOverread s
  else .ok ((s.frameIn.data.drop a).take n) s

/-- `MemWrite(OB, a, n, bs)` (rule R12). -/
def obWrite (a : Nat) (bs : List Byte) (s : State) : Act Unit :=
  if spaceSize .ob < a + bs.length then .stop (.outsideSpace .ob)
  else .ok () { s with ob := s.ob.write a bs }

/-! ### The Packet Writer -/

/-- A 16-bit unit in the output byte order: what `set16` stores (20_memory.md rule R77). -/
def unitBytes (outBe : Bool) (v : Half) : List Byte :=
  if outBe then [highByte v, lowByte v] else [lowByte v, highByte v]

/-- The bytes WRITE_BYTES stores for the source sequence `d` (41_packet_writer.md rule R131): each pair as
it stands or exchanged, and an odd last byte as the high byte of a final unit. -/
def outputBytes (srcBe outBe : Bool) : List Byte → List Byte
  | b0 :: b1 :: d => (if srcBe = outBe then [b0, b1] else [b1, b0]) ++ outputBytes srcBe outBe d
  | [b] => unitBytes outBe (be16 b 0)
  | [] => []

/-- BEGIN (rule R130). -/
def packetBegin (cap : Nat) (samples : Word) (pts dts : Stamp) (s : State) : Act Unit :=
  if s.obActive then raiseFault .beginActive s
  else if cap % 4 ≠ 0 ∨ cap ≤ 8 then raiseFault .badCapacity s
  else if Config.outbufBytes < cap then raiseError .resourceExhaustion s
  else .ok () { s with obActive := true, obCap := BitVec.ofNat 17 cap, cursor := BitVec.ofNat 17 Config.hdr,
                       obSamples := samples, obPts := pts, obDts := dts }

/-- CURSOR moved on by `n` bytes. -/
def advanceCursor (n : Nat) (s : State) : State :=
  { s with cursor := BitVec.ofNat 17 (s.cursor.toNat + n) }

/-- WRITE_BYTES (rule R131). -/
def packetWrite (d : List Byte) (srcBe : Bool) (s : State) : Act Unit :=
  if !s.obActive then raiseFault .notActive s
  else if s.obCap.toNat < s.cursor.toNat + ceil2 d.length then raiseFault .overflow s
  else (obWrite s.cursor.toNat (outputBytes srcBe s.sOutBe d) s).andThen fun _ s =>
    .ok () (advanceCursor (ceil2 d.length) s)

/-- WRITE16_BE (rule R132). -/
def packetWrite16 (v : Half) (s : State) : Act Unit := packetWrite [highByte v, lowByte v] true s

/-- WRITE_PADDING (rule R133). -/
def packetPad (n : Nat) (s : State) : Act Unit :=
  if !s.obActive then raiseFault .notActive s
  else if s.obCap.toNat < s.cursor.toNat + n then raiseFault .overflow s
  else (obWrite s.cursor.toNat (List.replicate n 0) s).andThen fun _ s => .ok () (advanceCursor n s)

/-- The length field `((CURSOR - 8) * unit) mod 2^16` (30_encoding.md rule R98). FINALIZE computes it only for a
CURSOR of at least 8 (notes/assumptions/12.md). -/
def lengthField (cursor unit : Nat) : Half := BitVec.ofNat 16 ((cursor - Config.hdr) * unit)

/-- The eight header bytes that FINALIZE's four `set16` store at offsets 0, 2, 4 and 6 (rules R95, R134). -/
def headerBytes (outBe : Bool) (dt len : Half) : List Byte :=
  unitBytes outBe Config.sync1 ++ unitBytes outBe Config.sync2 ++ unitBytes outBe dt ++ unitBytes outBe len

/-- The contract-fault causes with the codes 1 to 7 (60_exceptions.md rule R236), from 0 on. -/
def contractCause (i : Fin 7) : FaultCause :=
  match i with
  | 0 => .badCapacity
  | 1 => .beginActive
  | 2 => .overflow
  | 3 => .badFinalize
  | 4 => .notActive
  | 5 => .matIndex
  | 6 => .inputOverread

/-- FINALIZE (rule R134). A CURSOR inside the header, which no rule reaches, is a contract fault of an unknown cause:
93_implementation_defined.md U16 calls it a fault, where R134's pseudocode has no check (DESIGN CHOICE,
notes/assumptions/12.md). -/
def packetFinalize (dt : Half) (unit : Nat) (s : State) : Act Unit :=
  if !s.obActive then raiseFault .notActive s
  else if dt = 0 ∨ (unit ≠ 1 ∧ unit ≠ 8) then raiseFault .badFinalize s
  else if s.obCap.toNat < s.cursor.toNat then raiseFault .overflow s
  else if s.cursor.toNat < Config.hdr then raiseFault (contractCause Config.finalizeLowCursorCause) s
  else (obWrite 0 (headerBytes s.sOutBe dt (lengthField s.cursor.toNat unit)) s).andThen fun _ s =>
    if s.cursor.toNat < s.obCap.toNat then packetPad (s.obCap.toNat - s.cursor.toNat) s else .ok () s

/-! ### The command step -/

/-- What every command that executes does first (47_dispatcher.md rule R219): the packet port is cleared,
and the downgrade notice with it (10_state.md rules R31, R34, R37). -/
def commandStart (s : State) : State :=
  { clearPort s with downgradeNotice := false }

/-- HANDOFF (47_dispatcher.md rule R212). -/
def handoff (s : State) : Act Unit :=
  (memRead .ob 0 s.obCap.toNat s).andThen fun bytes s =>
    .ok () { s with
      pktOut := some { data := bytes, nbSamples := s.obSamples, pts := s.obPts, dts := s.obDts },
      pktLen := s.obCap.setWidth 32, pktSamples := s.obSamples, pktValid := true,
      obActive := false, obCap := 0, cursor := 0, obSamples := 0, obPts := 0, obDts := 0 }

/-- The end of a command: the handoff of a PACKET, and the verdict (rule R219). -/
def finishCommand (v : Verdict) (s : State) : Act Unit :=
  match v with
  | .packet => (handoff s).andThen fun _ s => .ok () (recordVerdict .packet .none s)
  | .none => .ok () (recordVerdict .none .none s)
  | .more => .ok () (recordVerdict .more .none s)
  | .error => .ok () (recordVerdict .error .none s)

/-- The outcome of an operation, its exceptions taken. -/
def settle (x : Act Unit) : Host.Outcome State Fault Refusal :=
  match x with
  | .ok _ s => .next s
  | .raise e s => .next (takeException e s)
  | .stop f => .fault f
  | .refuse r => .refused r

/-- EXECUTE around the body of a command (rule R219): ignored while FAULT = 1 (10_state.md rule R35). -/
def execute (body : State → Act Verdict) (s : State) : Host.Outcome State Fault Refusal :=
  if s.fault then .next s else settle ((body (commandStart s)).andThen finishCommand)

/-- SUBMIT's own checks before the encapsulator `enc` (rule R211): a stream must be open, and the frame
must fit the input buffer. -/
def submitWith (enc : State → Act Verdict) (s : State) : Act Verdict :=
  if !s.sOpen then raiseError .notOpen s
  else if Config.maxFrameBytes < frameLen s then raiseError .sizeMismatch s
  else enc s

end Sys2Proof.Machine
end

