-- ==== Sys2Proof/Machine/Ac3.lean ====
section
/-! DEFINITION. ENC_AC3 (42_ac3.md rules R150 to R154). -/

namespace Sys2Proof.Machine

/-- The reparse trigger (rule R151). -/
def ac3NeedsReparse (f : Frame) : Bool :=
  f.data.length < 6 || Config.ac3Ceiling < f.data.length || f.nbSamples != BitVec.ofNat 32 Config.ac3Samples

/-- The length of the frame to send, after the reparse where one is due (rule R150). -/
def ac3Length (f : Frame) : Except ErrKind Nat :=
  if ac3NeedsReparse f then
    match a52Parse f.data with
    | none => .error .malformedHeader
    | some h =>
      if h.isEac3 then .error .unsupportedFraming
      else if f.data.length < h.size then .error .sizeMismatch
      else if h.size < 6 then .error .malformedHeader
      else .ok h.size
  else .ok f.data.length

/-- The data-type code `0x0001 | (bsmod << 8)`, bsmod the bits [2:0] of byte 5 (rule R152). -/
def ac3DataType (byte5 : Byte) : Half := 0x0001 ||| ((byte5.extractLsb' 0 3).setWidth 16 <<< 8)

/-- The burst of an accepted frame of `n` bytes (rule R150). -/
def ac3Emit (n : Nat) (s : State) : Act Verdict :=
  (packetBegin Config.ac3Capacity (BitVec.ofNat 32 Config.ac3Samples) s.frameIn.pts s.frameIn.dts s).andThen fun _ s =>
  (inRead 0 n s).andThen fun d s =>
  (packetWrite d true s).andThen fun _ s =>
  (inRead 5 1 s).andThen fun b5 s =>
  (packetFinalize (ac3DataType (b5.headD 0)) 8 s).andThen fun _ s =>
  .ok .packet s

/-- ENC_AC3 (rule R150), with the fit check of rule R153. -/
def ac3Body (s : State) : Act Verdict :=
  match ac3Length s.frameIn with
  | .error k => raiseError k s
  | .ok n =>
    if Config.ac3Capacity < ceil2 n + Config.hdr then raiseError .sizeMismatch s
    else ac3Emit n s

/-- EOP 0x102: the SUBMIT of the AC3 variant (30_encoding.md rule R92). -/
def execEncAc3 (s : State) : Host.Outcome State Fault Refusal := execute (submitWith ac3Body) s

end Sys2Proof.Machine
end

