-- ==== Sys2Proof/Machine/Dts.lean ====
section
/-! DEFINITION. ENC_DTS (44_dts.md rules R170 to R174). -/

namespace Sys2Proof.Machine

/-- The data-type code of a core's sample count (rule R172). -/
def dtsDataType (frameLength : Nat) : Option Half :=
  match frameLength with
  | 512 => some 0x000B
  | 1024 => some 0x000C
  | 2048 => some 0x000D
  | _ => none

/-- The 16-bit-packed payload of a core and whether it is a big-endian source (rules R170, R171, R173). -/
def dtsPayload (v : DtsVariant) (core : List Byte) : List Byte × Bool :=
  match v with
  | .be16 => (core, true)
  | .le16 => (core, false)
  | .be14 => (convert14 core false, true)
  | .le14 => (convert14 core true, true)

/-- The burst of a core that lies inside the input, with the fit check of rule R174. -/
def dtsEmit (h : DtsHeader) (dt : Half) (s : State) : Act Verdict :=
  (inRead 0 h.frameSize s).andThen fun core s =>
  let p := dtsPayload h.variant core
  let cap := h.frameLength * 4
  if cap < ceil2 p.1.length + Config.hdr then raiseError .sizeMismatch s
  else
    (packetBegin cap (BitVec.ofNat 32 h.frameLength) s.frameIn.pts s.frameIn.dts s).andThen fun _ s =>
    (packetWrite p.1 p.2 s).andThen fun _ s =>
    (packetFinalize dt 8 s).andThen fun _ s =>
    .ok .packet s

/-- ENC_DTS (rule R170). -/
def dtsBody (s : State) : Act Verdict :=
  match dtsParse s.frameIn.data with
  | none => raiseError .malformedHeader s
  | some h =>
    match dtsDataType h.frameLength with
    | none => raiseError .unsupportedFraming s
    | some dt =>
      if frameLen s < h.frameSize then raiseError .sizeMismatch s
      else dtsEmit h dt s

/-- EOP 0x302: the SUBMIT of the DTS variant (30_encoding.md rule R92). -/
def execEncDts (s : State) : Host.Outcome State Fault Refusal := execute (submitWith dtsBody) s

end Sys2Proof.Machine
end

