-- ==== Sys2Proof/Machine/Dtshd.lean ====
section
/-! DEFINITION. ENC_DTSHD and the sticky downgrade (45_dtshd.md rules R180 to R186). -/

namespace Sys2Proof.Machine

/-- The repetition period (rule R181), in exact integers. -/
def dtshdPeriod (outRate : Word) (h : DtsHeader) : Nat := outRate.toNat * h.frameLength / h.rate

/-- The subtype of a period (rule R182). -/
def dtshdSubtype (period : Nat) : Option Nat :=
  match period with
  | 512 => some 0
  | 1024 => some 1
  | 2048 => some 2
  | 4096 => some 3
  | 8192 => some 4
  | 16384 => some 5
  | _ => none

/-- The data-type code `0x0011 | (subtype << 8)` (rule R182). -/
def dtshdDataType (subtype : Nat) : Half := 0x0011 ||| (BitVec.ofNat 16 subtype <<< 8)

/-- The bytes of the burst header, the start code and the length field: what a frame needs beside its own
bytes (rules R183, R186). -/
def dtshdOverhead : Nat := 20

/-- The source byte order of the core syncword variant (rule R186). -/
def dtshdSourceBe (v : DtsVariant) : Bool :=
  match v with
  | .be16 | .be14 => true
  | .le16 | .le14 => false

/-- Whether the frame goes core-only (rule R183). -/
def dtshdCoreOnly (cap : Nat) (s : State) : Bool :=
  s.dtshdSkip || cap < dtshdOverhead + ceil2 (frameLen s)

/-- The first core-only frame sets the sticky flag and raises the notice (rule R183). -/
def dtshdDowngrade (s : State) : State :=
  if s.dtshdSkip then s else { s with dtshdSkip := true, downgradeNotice := true }

/-- The alignment padding after the DTS bytes, where it fits (rule R185). -/
def dtshdAlign (s : State) : Act Unit :=
  let len := s.cursor.toNat - Config.hdr
  let pad := alignUp (len + 8) 16 - 8 - len
  if 0 < pad ∧ s.cursor.toNat + pad ≤ s.obCap.toNat then packetPad pad s else .ok () s

/-- The burst of the first `m` bytes of the frame (rules R180, R184). -/
def dtshdEmit (cap m subtype : Nat) (srcBe : Bool) (s : State) : Act Verdict :=
  (packetBegin cap (packetSamples cap s.sBpf) s.frameIn.pts s.frameIn.dts s).andThen fun _ s =>
  (packetWrite dtshdStart true s).andThen fun _ s =>
  (packetWrite16 (BitVec.ofNat 16 m) s).andThen fun _ s =>
  (inRead 0 m s).andThen fun d s =>
  (packetWrite d srcBe s).andThen fun _ s =>
  (dtshdAlign s).andThen fun _ s =>
  (packetFinalize (dtshdDataType subtype) 1 s).andThen fun _ s =>
  .ok .packet s

/-- ENC_DTSHD (rule R180). -/
def dtshdBody (s : State) : Act Verdict :=
  match dtsParse s.frameIn.data with
  | none => raiseError .malformedHeader s
  | some h =>
    if h.rate = 0 then raiseError .malformedHeader s
    else
      let period := dtshdPeriod s.sOutRate h
      match dtshdSubtype period with
      | none => raiseError .unsupportedFraming s
      | some st =>
        let cap := period * 4
        if frameLen s < h.frameSize then raiseError .sizeMismatch s
        else if cap < dtshdOverhead + ceil2 h.frameSize then raiseError .sizeMismatch s
        else if dtshdCoreOnly cap s then
          dtshdEmit cap h.frameSize st (dtshdSourceBe h.variant) (dtshdDowngrade s)
        else dtshdEmit cap (frameLen s) st (dtshdSourceBe h.variant) s

/-- EOP 0x402: the SUBMIT of the DTSHD variant (30_encoding.md rule R92). -/
def execEncDtshd (s : State) : Host.Outcome State Fault Refusal := execute (submitWith dtshdBody) s

end Sys2Proof.Machine
end

