-- ==== Sys2Proof/Machine/Eac3.lean ====
section
/-! DEFINITION. ENC_EAC3 and the block counter (43_eac3.md rules R160 to R164). -/

namespace Sys2Proof.Machine

/-- The checks of the second header, in the bytes that remain after the first syncframe (rules R160, R161). -/
def eac3CheckSecond (rest : List Byte) : Except ErrKind Unit :=
  match a52Parse rest with
  | none => .error .malformedHeader
  | some h2 =>
    if h2.size ≠ rest.length then .error .sizeMismatch
    else if h2.isEac3 = false ∨ h2.strmtyp ≠ .dependent then .error .unsupportedFraming
    else .ok ()

/-- The header checks of rule R160; they give the first syncframe's block count. -/
def eac3Blocks (data : List Byte) : Except ErrKind Nat :=
  match a52Parse data with
  | none => .error .malformedHeader
  | some h1 =>
    if data.length < h1.size then .error .sizeMismatch
    else if h1.size < data.length then
      match eac3CheckSecond (data.drop h1.size) with
      | .error k => .error k
      | .ok _ => .ok h1.blocks
    else .ok h1.blocks

/-- BEGIN on the first frame of an aggregate (rule R160). -/
def eac3Begin (s : State) : Act Unit :=
  if s.obActive then .ok () s
  else packetBegin Config.eac3Capacity (packetSamples Config.eac3Capacity s.sBpf) s.frameIn.pts s.frameIn.dts s

/-- The block counter after a frame was appended: more input below six, the packet at six, a state
violation past it (rule R162). -/
def eac3Count (blocks : Nat) (s : State) : Act Verdict :=
  let t := s.eac3Blocks.toNat + blocks
  if t < Config.eac3BlocksPerPacket then .ok .more { s with eac3Blocks := BitVec.ofNat 3 t }
  else if Config.eac3BlocksPerPacket < t then raiseError .stateViolation s
  else (packetFinalize 0x0015 1 s).andThen fun _ s => .ok .packet { s with eac3Blocks := 0 }

/-- Appending the frame to the aggregate, within the byte budget of rule R163. -/
def eac3Append (s : State) : Act Unit :=
  if s.obCap.toNat - s.cursor.toNat < ceil2 (frameLen s) then raiseError .sizeMismatch s
  else (inRead 0 (frameLen s) s).andThen fun d s => packetWrite d true s

/-- ENC_EAC3 (rule R160). -/
def eac3Body (s : State) : Act Verdict :=
  match eac3Blocks s.frameIn.data with
  | .error k => raiseError k s
  | .ok blocks =>
    (eac3Begin s).andThen fun _ s =>
    (eac3Append s).andThen fun _ s =>
    eac3Count blocks s

/-- EOP 0x202: the SUBMIT of the EAC3 variant (30_encoding.md rule R92). -/
def execEncEac3 (s : State) : Host.Outcome State Fault Refusal := execute (submitWith eac3Body) s

end Sys2Proof.Machine
end

