-- ==== Sys2Proof/Machine/Truehd.lean ====
section
/-! DEFINITION. ENC_TRUEHD and the MAT frame scheduler MAT_INSERT (46_truehd_mat.md rules R190 to R200). -/

namespace Sys2Proof.Machine

/-! ### The scheduler -/

/-- The locals of MAT_INSERT together with the state elements it works on (rules R191, R195). -/
structure MatWork where
  /-- `MAT_FILL`. -/
  fill : Nat
  /-- `MAT_IDX`. -/
  idx : Bool
  mat0 : Memory
  mat1 : Memory
  /-- The index of the next marker, 0 to 2. -/
  next : Nat
  pad : Nat
  data : Nat
  src : Nat
  total : Nat
  done : Bool
  outbuf : Bool
  deriving DecidableEq, Repr

/-- How the insertion loop ends: with the frame placed, with the end marker written a second time (rule
R196), or unfinished when its bound is used up (which does not happen). -/
inductive MatResult where
  | placed (w : MatWork)
  | second (w : MatWork)
  | unfinished
  deriving DecidableEq, Repr

/-- `POS[i]`, the markers' offsets (rule R190). -/
def markerPos (i : Nat) : Nat :=
  match i with
  | 0 => 0
  | 1 => 30708
  | _ => 61408

/-- `CODE[i]`, the markers' bytes; `LEN[i]` is their number (rule R190). -/
def markerCode (i : Nat) : List Byte :=
  match i with
  | 0 => matStart
  | 1 => matMiddle
  | _ => matEnd

/-- The least marker at or after the fill (rule R195). -/
def nextMarker (fill : Nat) : Option Nat :=
  if fill ≤ markerPos 0 then some 0
  else if fill ≤ markerPos 1 then some 1
  else if fill ≤ markerPos 2 then some 2
  else none

/-- `MemWrite(MAT[MAT_IDX], MAT_FILL, …)` and the fill moved on by the bytes written (rule R195). -/
def matPut (bs : List Byte) (w : MatWork) : MatWork :=
  if w.idx then { w with mat1 := w.mat1.write w.fill bs, fill := w.fill + bs.length }
  else { w with mat0 := w.mat0.write w.fill bs, fill := w.fill + bs.length }

/-- The accounting of `rem` marker bytes: they are spent as padding first, and the rest counts toward the
frame's size (rule R195). -/
def matSpend (rem : Nat) (w : MatWork) : MatWork :=
  { w with pad := w.pad - min w.pad rem, total := w.total + (rem - min w.pad rem) }

/-- The completed buffer is remembered, the buffers flip and the fill restarts (rules R195, R199). -/
def matComplete (w : MatWork) : MatWork :=
  { w with next := 0, done := true, outbuf := w.idx, idx := !w.idx, fill := 0 }

/-- A marker that is due (rule R195); `error` is a second completion (rule R196). -/
def matMarker (w : MatWork) : Except MatWork MatWork :=
  let len := (markerCode w.next).length
  let w := matPut (markerCode w.next) w
  let w := { w with next := w.next + 1 }
  if w.next = 3 then
    if w.done then .error w
    else .ok (matSpend (len + Config.matGap) (matComplete w))
  else .ok (matSpend len w)

/-- The explicit padding zeros up to the next marker (rule R195). -/
def matZeros (w : MatWork) : MatWork :=
  if 0 < w.pad then
    let p := min (markerPos w.next - w.fill) w.pad
    { matPut (List.replicate p 0) w with pad := w.pad - p }
  else w

/-- The frame's bytes up to the next marker, once the padding is spent (rule R195). -/
def matData (b : List Byte) (w : MatWork) : MatWork :=
  if w.pad = 0 ∧ 0 < w.data then
    let d := min (markerPos w.next - w.fill) w.data
    { matPut ((b.drop w.src).take d) w with src := w.src + d, data := w.data - d }
  else w

/-- The loop's condition (rule R195). -/
def matGoesOn (w : MatWork) : Bool := 0 < w.pad || 0 < w.data || markerPos w.next == w.fill

/-- One turn of the loop (rule R195). -/
def matTurn (b : List Byte) (w : MatWork) : Except MatWork MatWork :=
  match (if markerPos w.next = w.fill then matMarker w else .ok w) with
  | .error w => .error w
  | .ok w => .ok (matData b (matZeros w))

/-- The insertion loop (rule R195), for at most `fuel` turns. -/
def matLoop (b : List Byte) : Nat → MatWork → MatResult
  | 0, w => if matGoesOn w then .unfinished else .placed w
  | fuel + 1, w =>
    if matGoesOn w then
      match matTurn b w with
      | .error w => .second w
      | .ok w => matLoop b fuel w
    else .placed w

/-- A bound on the loop's turns: every turn but the last ends at a marker, and the sixth marker is at
latest the second end marker. -/
def matFuel : Nat := 8

/-- The loop's start for a frame of `n` bytes with `pad` bytes of padding (rule R191). -/
def matWork (next n pad : Nat) (s : State) : MatWork :=
  { fill := s.matFill.toNat, idx := s.matIdx, mat0 := s.mat0, mat1 := s.mat1, next := next,
    pad := pad, data := n, src := 0, total := n, done := false, outbuf := false }

/-- The state elements that MAT_INSERT wrote. -/
def matCommit (w : MatWork) (s : State) : State :=
  { s with matFill := BitVec.ofNat 16 w.fill, matIdx := w.idx, mat0 := w.mat0, mat1 := w.mat1 }

/-- MAT_INSERT (rule R195) for the frame in FRAME_IN: Fault(6) with no marker ahead, and SIZE_MISMATCH at a
second completion (rule R196). -/
def matInsert (pad : Nat) (s : State) : Act MatWork :=
  match nextMarker s.matFill.toNat with
  | none => raiseFault .matIndex s
  | some next =>
    match matLoop s.frameIn.data matFuel (matWork next (frameLen s) pad s) with
    | .placed w => .ok w (matCommit w s)
    | .second w => raiseError .sizeMismatch (matCommit w s)
    | .unfinished => .stop .matLoopBound

/-! ### The instruction -/

/-- `samples_per_frame = 40 << (ratebits & 3)` (rule R192). -/
def thdSamples (ratebits : BitVec 4) : BitVec 9 := (40 : BitVec 9) <<< (ratebits &&& 3).toNat

/-- The samples per frame that a frame's first ten bytes give: none for an access unit without a major
sync, an error for a major sync of another format (rule R192). -/
def thdMajorSync (b4 b5 b6 b7 b8 b9 : Byte) : Except ErrKind (Option (BitVec 9)) :=
  if be24 b4 b5 b6 = 0xF8726F then
    if b7 = 0xBA then .ok (some (thdSamples (b8.extractLsb' 4 4)))
    else if b7 = 0xBB then .ok (some (thdSamples (b9.extractLsb' 4 4)))
    else .error .malformedHeader
  else .ok none

/-- A major sync sets the samples per frame and clears the frame counter (rules R191, R192). -/
def thdApplySync (spf : Option (BitVec 9)) (s : State) : State :=
  match spf with
  | none => s
  | some n => { s with thdSpf := n, thdFrameCount := 0 }

/-- A negative or implausibly large padding is replaced by 0 (rule R194). -/
def thdClamp (pad : Int) : Nat :=
  if pad < 0 ∨ (Config.matPadLimit : Int) ≤ pad then 0 else pad.toNat

/-- The inter-frame padding for the input timing `t` (rule R194). -/
def thdPadding (t : Half) (s : State) : Nat :=
  if s.thdPrevSize = 0 then 0
  else thdClamp (((t - s.thdPrevTime).toNat * Config.thdBytesPerUnit / s.thdSpf.toNat : Nat) - (s.thdPrevSize.toNat : Int))

/-- The frame counter after a frame was placed (rule R198). -/
def thdCount (done : Bool) (count : BitVec 5) : BitVec 5 :=
  if done then 0 else BitVec.ofNat 5 (min (count.toNat + 1) 24)

/-- The timing state and the counter after the frame was placed (rule R191). -/
def thdAccount (t : Half) (w : MatWork) (s : State) : State :=
  { s with thdPrevSize := BitVec.ofNat 32 w.total, thdPrevTime := t,
           thdFrameCount := thdCount w.done s.thdFrameCount }

/-- The burst of the completed MAT buffer (rule R197). -/
def thdEmit (outbuf : Bool) (s : State) : Act Verdict :=
  (packetBegin Config.truehdCapacity (packetSamples Config.truehdCapacity s.sBpf)
    s.frameIn.pts s.frameIn.dts s).andThen fun _ s =>
  (memRead (matSpace outbuf) 0 Config.matFrameSize s).andThen fun d s =>
  (packetWrite d true s).andThen fun _ s =>
  (packetFinalize 0x0016 1 s).andThen fun _ s =>
  .ok .packet s

/-- ENC_TRUEHD once the frame's header was read (rules R191, R193, R194). -/
def thdPlace (t : Half) (s : State) : Act Verdict :=
  if s.thdSpf = 0 then raiseError .stateViolation s
  else
    (matInsert (thdPadding t s) s).andThen fun w s =>
    let s := thdAccount t w s
    if w.done then thdEmit w.outbuf s else .ok .more s

/-- ENC_TRUEHD (rule R191). A frame of fewer than ten bytes is malformed (rule R192). -/
def truehdBody (s : State) : Act Verdict :=
  match s.frameIn.data with
  | _ :: _ :: b2 :: b3 :: b4 :: b5 :: b6 :: b7 :: b8 :: b9 :: _ =>
    match thdMajorSync b4 b5 b6 b7 b8 b9 with
    | .error k => raiseError k s
    | .ok spf => thdPlace (be16 b2 b3) (thdApplySync spf s)
  | _ => raiseError .malformedHeader s

/-- EOP 0x502: the SUBMIT of the TRUEHD variant (30_encoding.md rule R92). -/
def execEncTruehd (s : State) : Host.Outcome State Fault Refusal := execute (submitWith truehdBody) s

end Sys2Proof.Machine
end

