-- ==== Sys2Proof/Machine/Commands.lean ====
section
/-! DEFINITION. The host commands (47_dispatcher.md rules R210 to R217) and the two effective opcodes of
SUBMIT that name no encapsulator (30_encoding.md rule R92). -/

namespace Sys2Proof.Machine

/-- The variant that OPEN latches for CTRL.CODEC: CODEC 3 selects DTS-HD when OUT_RATE exceeds 48000, and
0 and 5 to 7 select none (rules R210, R218, 10_state.md rule R52). -/
def openVariant (codec : BitVec 3) (outRate : Word) : Option (BitVec 3) :=
  match codec.toNat with
  | 1 => some 1
  | 2 => some 2
  | 3 => if Config.stdRate < outRate.toNat then some 4 else some 3
  | 4 => some 5
  | _ => none

/-- OPEN's latching of the stream configuration, after the flush (rule R210). -/
def openLatch (variant : BitVec 3) (s : State) : State :=
  { flushState s with
    sVariant := variant, sOutBe := ctrlOutBe s.ctrl, sOutRate := s.outRate, sBpf := ctrlBpf s.ctrl, sOpen := true }

/-- OPEN (rule R210). -/
def openBody (s : State) : Act Verdict :=
  if s.sOpen then raiseError .badCommand s
  else match openVariant (ctrlCodec s.ctrl) s.outRate with
    | none => raiseError .badCommand s
    | some v => if ctrlBpf s.ctrl = 0 then raiseError .badCommand s else .ok .none (openLatch v s)

/-- OPEN, command 0x01. -/
def execOpen (s : State) : Host.Outcome State Fault Refusal := execute openBody s

/-- FLUSH (rule R215). -/
def flushBody (s : State) : Act Verdict := .ok .none (if s.sOpen then flushState s else s)

/-- FLUSH, command 0x03. -/
def execFlush (s : State) : Host.Outcome State Fault Refusal := execute flushBody s

/-- CLOSE's clearing of the stream configuration, after the flush (rule R216). -/
def closeLatch (s : State) : State :=
  { flushState s with sOpen := false, sVariant := 0, sOutBe := false, sOutRate := 0, sBpf := 0 }

/-- CLOSE (rule R216). -/
def closeBody (s : State) : Act Verdict := .ok .none (if s.sOpen then closeLatch s else s)

/-- CLOSE, command 0x04. -/
def execClose (s : State) : Host.Outcome State Fault Refusal := execute closeBody s

/-- Every other command word: BAD_COMMAND, with no flush (rule R217). -/
def execIllegal (_w : Word) (s : State) : Host.Outcome State Fault Refusal :=
  execute (raiseError .badCommand) s

/-- EOP 0x002: NOT_OPEN, with no flush (rule R211). -/
def execSubmitNotOpen (s : State) : Host.Outcome State Fault Refusal :=
  execute (raiseError .notOpen) s

/-- EOP 0x602 and 0x702: never produced, so refused (30_encoding.md rule R92, U8). -/
def execSubmitUnreachable (_low : BitVec 1) (_s : State) : Host.Outcome State Fault Refusal :=
  .refused .unreachableVariant

/-- SUBMIT's routing by the latched variant, after its own checks (rule R211). A stream of variant NONE is
one that is not open (30_encoding.md rule R92, EOP 0x002). -/
def submitBody (s : State) : Act Verdict :=
  match s.sVariant.toNat with
  | 0 => raiseError .notOpen s
  | 1 => submitWith ac3Body s
  | 2 => submitWith eac3Body s
  | 3 => submitWith dtsBody s
  | 4 => submitWith dtshdBody s
  | 5 => submitWith truehdBody s
  | _ => submitWith (fun _ => .refuse .unreachableVariant) s

/-- SUBMIT, command 0x02. -/
def execSubmit (s : State) : Host.Outcome State Fault Refusal := execute submitBody s

end Sys2Proof.Machine
end

