-- ==== Sys2Proof/Machine/Micro.lean ====
section
/-! DEFINITION. The micro-operations run alone (30_encoding.md rule R94): their operands come from the
micro-operation port of the state, and the parsers' results go there. A `raise` is taken as in a
command (notes/assumptions/5.md). -/

namespace Sys2Proof.Machine

/-- BEGIN (41_packet_writer.md rule R130). Its RESOURCE_EXHAUSTION leaves PKT_VALID 0, as every error does
(60_exceptions.md rule R230; notes/assumptions/5.md). -/
def execBegin (s : State) : Host.Outcome State Fault Refusal :=
  settle (packetBegin s.uop.cap.toNat s.uop.samples s.uop.pts s.uop.dts s)

/-- WRITE_BYTES (rule R131). -/
def execWriteBytes (s : State) : Host.Outcome State Fault Refusal :=
  settle (packetWrite s.uop.data s.uop.srcBe s)

/-- WRITE16_BE (rule R132). -/
def execWrite16Be (s : State) : Host.Outcome State Fault Refusal :=
  settle (packetWrite16 s.uop.value s)

/-- WRITE_PADDING (rule R133). -/
def execWritePadding (s : State) : Host.Outcome State Fault Refusal :=
  settle (packetPad s.uop.count.toNat s)

/-- FINALIZE (rule R134). -/
def execFinalize (s : State) : Host.Outcome State Fault Refusal :=
  settle (packetFinalize s.uop.dataType s.uop.unit.toNat s)

/-- A52_PARSE (40_header_parsers.md rule R111). -/
def execA52Parse (s : State) : Host.Outcome State Fault Refusal :=
  .next { s with uop := { s.uop with a52 := a52Parse s.uop.data } }

/-- DTS_PARSE (rule R112). -/
def execDtsParse (s : State) : Host.Outcome State Fault Refusal :=
  .next { s with uop := { s.uop with dtsHeader := dtsParse s.uop.data } }

/-- CONVERT14 (rule R113). -/
def execConvert14 (s : State) : Host.Outcome State Fault Refusal :=
  .next { s with uop := { s.uop with converted := convert14 s.uop.data s.uop.le } }

end Sys2Proof.Machine
end

