-- ==== Sys2Proof/Machine/Dispatch.lean ====
section
/-! DEFINITION. The meaning of every operation. -/

namespace Sys2Proof.Machine

def exec (i : Instr) (s : State) : Host.Outcome State Fault Refusal :=
  match i with
  | .openStream => Sys2Proof.Machine.execOpen s
  | .submit => Sys2Proof.Machine.execSubmit s
  | .flush => Sys2Proof.Machine.execFlush s
  | .closeStream => Sys2Proof.Machine.execClose s
  | .illegal w => Sys2Proof.Machine.execIllegal w s
  | .submitNotOpen => Sys2Proof.Machine.execSubmitNotOpen s
  | .encAc3 => Sys2Proof.Machine.execEncAc3 s
  | .encEac3 => Sys2Proof.Machine.execEncEac3 s
  | .encDts => Sys2Proof.Machine.execEncDts s
  | .encDtshd => Sys2Proof.Machine.execEncDtshd s
  | .encTruehd => Sys2Proof.Machine.execEncTruehd s
  | .submitUnreachable low => Sys2Proof.Machine.execSubmitUnreachable low s
  | .beginPacket => Sys2Proof.Machine.execBegin s
  | .writeBytes => Sys2Proof.Machine.execWriteBytes s
  | .write16Be => Sys2Proof.Machine.execWrite16Be s
  | .writePadding => Sys2Proof.Machine.execWritePadding s
  | .finalize => Sys2Proof.Machine.execFinalize s
  | .a52Parse => Sys2Proof.Machine.execA52Parse s
  | .dtsParse => Sys2Proof.Machine.execDtsParse s
  | .convert14 => Sys2Proof.Machine.execConvert14 s

end Sys2Proof.Machine
end

