-- ==== Sys2Proof/Machine/Fetch.lean ====
section
/-! DEFINITION. How the next operation comes to the formatter: it fetches nothing (10_state.md rule R23); a
command is a host write to CMD (rule R28), a micro-operation alone comes through the port. -/

namespace Sys2Proof.Machine

/-- The host's next access taken from the list. -/
def popHost (s : State) : State := { s with host := s.host.tail }

/-- The pending micro-operation taken from the port. -/
def clearPending (s : State) : State := { s with uop := { s.uop with pending := none } }

/-- A host write of a command word to CMD. -/
def commandWrite (w : Word) : HostAccess := .write 32 cmdOffset w

/-- A command word put before everything the host has still to do. -/
def issueCommand (w : Word) (s : State) : State :=
  { clearPending s with host := commandWrite w :: s.host }

/-- An effective opcode is a SUBMIT in a stream of its variant; variant NONE is no open stream
(30_encoding.md rule R92). -/
def issueEop (e : BitVec 11) (s : State) : State :=
  issueCommand ((e.extractLsb' 0 8).setWidth 32)
    { s with sVariant := e.extractLsb' 8 3, sOpen := e.extractLsb' 8 3 != 0 }

/-- A micro-operation number put into the port. -/
def issueMicro (n : Byte) (s : State) : State := { s with uop := { s.uop with pending := some n } }

/-- A code put where `step` takes its next operation from. -/
def issueCode (c : CodeWord) (s : State) : State :=
  match c with
  | .cmd w => issueCommand w s
  | .eop e => issueEop e s
  | .micro n => issueMicro n s

end Sys2Proof.Machine
end

