-- ==== Sys2Proof/Machine/Access.lean ====
section
/-! DEFINITION. What one host access does, and a micro-operation run alone. -/

namespace Sys2Proof.Machine

/-- One access of the host. A write to CMD executes the command it names (10_state.md rule R28). -/
def hostStep (a : HostAccess) (s : State) : Host.Outcome State Fault Refusal :=
  match a with
  | .reset => .next (platformReset s)
  | .drive f => .next { s with frameIn := f }
  | .read width offset =>
    if legalAccess width offset then .next { s with busRead := readRegister offset s }
    else .refused (.badRegisterAccess width offset)
  | .write width offset v =>
    if !legalAccess width offset then .refused (.badRegisterAccess width offset)
    else if offset = cmdOffset then exec (decodeCommand v) s
    else .next (writeRegister offset v s)

/-- A micro-operation run alone. -/
def microStep (n : Byte) (s : State) : Host.Outcome State Fault Refusal :=
  match decodeMicro n with
  | .ok i => exec i s
  | .error _ => .refused (.codeNotInTable n)

end Sys2Proof.Machine
end

