-- ==== Sys2Proof/Machine/Step.lean ====
section
/-! DEFINITION. One step: a pending micro-operation, or else the host's next access (10_state.md rule R20),
each whole before the next (20_memory.md rule R81). With no access left the formatter holds its
state (60_exceptions.md rule R249). -/

namespace Sys2Proof.Machine

/-- One step of the machine. -/
def step (s : State) : Host.Outcome State Fault Refusal :=
  match s.uop.pending with
  | some n => microStep n (clearPending s)
  | none =>
    match s.host with
    | [] => .next s
    | a :: _ => hostStep a (popHost s)

/-- The state in which the very next step runs the instruction of a row of spec/opcode_table.json
(notes/assumptions/1.md). A number that is no code of its width changes nothing. -/
def State.withFetchWord (s : State) (nbits w : Nat) : State :=
  match tableCode nbits w with
  | none => s
  | some c => issueCode c s

end Sys2Proof.Machine
end

