-- ==== Sys2Proof/Safety.lean ====
section
/-! DEFINITION. The terms the statements use: the burst that a payload makes, the state a rejected command
leaves, which bytes a packet in progress has written, and the invariant between commands
(10_state.md rule R51, 20_memory.md rule R74). -/

namespace Sys2Proof.Machine

/-! ### What commands leave -/

/-- The burst of 30_encoding.md rule R95 in output byte order `outBe`: the header with the length in units of
`unit` per payload byte, the payload as it stands in the packet, and zeros up to the capacity. -/
def burst (outBe : Bool) (dt : Half) (unit : Nat) (payload : List Byte) (cap : Nat) : List Byte :=
  headerBytes outBe dt (BitVec.ofNat 16 (payload.length * unit)) ++
    (payload ++ List.replicate (cap - Config.hdr - payload.length) 0)

/-- The state after a command that an error of kind `k` rejected, the aggregation state flushed
(47_dispatcher.md rule R214): nothing of the command survives but the verdict (60_exceptions.md rule R239). -/
def rejected (k : ErrKind) (s : State) : State := recordVerdict .error k (flushState (commandStart s))

/-- The state after a refused command: BAD_COMMAND and NOT_OPEN leave the stream as it was (rule R214). -/
def turnedAway (k : ErrKind) (s : State) : State := recordVerdict .error k (commandStart s)

/-- The state after a SUBMIT whose packet is handed over (47_dispatcher.md rule R212): the packet stands on
PKT_OUT, and no packet is in progress. -/
def handedOver (data : List Byte) (samples : Word) (pts dts : Stamp) (s : State) : State :=
  { commandStart s with
    pktOut := some { data := data, nbSamples := samples, pts := pts, dts := dts },
    pktLen := BitVec.ofNat 32 data.length, pktSamples := samples, pktValid := true,
    obActive := false, obCap := 0, cursor := 0, obSamples := 0, obPts := 0, obDts := 0,
    verdict := .packet, errKind := .none }

/-- The state after a SUBMIT that absorbed its frame (47_dispatcher.md rule R213), before what the
encapsulator changed. -/
def absorbed (s : State) : State := recordVerdict .more .none (commandStart s)

/-- A SUBMIT gets past its own checks (47_dispatcher.md rules R211, R219): no contract fault, a stream open,
and a frame that fits the input buffer. -/
abbrev submitting (s : State) : Prop := s.fault = false ∧ s.sOpen = true ∧ frameLen s ≤ Config.maxFrameBytes

/-- The commands and effective opcodes: everything EXECUTE runs (47_dispatcher.md rule R219). -/
def isCommand : Instr → Bool
  | .openStream | .submit | .flush | .closeStream | .illegal _ | .submitNotOpen => true
  | .encAc3 | .encEac3 | .encDts | .encDtshd | .encTruehd => true
  | .submitUnreachable _ => false
  | .beginPacket | .writeBytes | .write16Be | .writePadding | .finalize => false
  | .a52Parse | .dtsParse | .convert14 => false

/-! ### Frames and packets -/

/-- The 16-bit field at offset `o` of a packet in output byte order `outBe` (20_memory.md rule R80). -/
def unitAt (outBe : Bool) (d : List Byte) (o : Nat) : Half :=
  if outBe then be16 (d.getD o 0) (d.getD (o + 1) 0) else be16 (d.getD (o + 1) 0) (d.getD o 0)

/-- A buffer that ENC_EAC3's header checks accept with `blocks` audio blocks: one syncframe that fills it, or an
independent one with a dependent E-AC-3 substream that accounts for the rest (43_eac3.md rules R160, R161). -/
def eac3Accepts (d : List Byte) (blocks : Nat) : Prop :=
  ∃ h1, a52Parse d = some h1 ∧ h1.blocks = blocks ∧
    (h1.size = d.length ∨ h1.size < d.length ∧ ∃ h2, a52Parse (d.drop h1.size) = some h2 ∧
      h2.size = d.length - h1.size ∧ h2.isEac3 = true ∧ h2.strmtyp = .dependent)

/-- The payload of a DTS-HD burst that carries the bytes `d` (30_encoding.md rule R99, 45_dtshd.md rules R184 to R186):
the start code, the count of the bytes, the bytes, and zeros up to a length that is 8 modulo 16. -/
def dtshdPayload (outBe : Bool) (v : DtsVariant) (d : List Byte) : List Byte :=
  let q := outputBytes true outBe dtshdStart ++ (unitBytes outBe (BitVec.ofNat 16 d.length) ++
    outputBytes (v = .be16 || v = .be14) outBe d)
  q ++ List.replicate (alignUp (q.length + 8) 16 - 8 - q.length) 0

/-- The payload of a DTS burst: the core in the output byte order, a 14-bit core first converted to 16-bit packing
(44_dts.md rules R171, R173). -/
def dtsBurstPayload (outBe : Bool) (v : DtsVariant) (core : List Byte) : List Byte :=
  match v with
  | .be16 => outputBytes true outBe core
  | .le16 => outputBytes false outBe core
  | .be14 => outputBytes true outBe (convert14 core false)
  | .le14 => outputBytes true outBe (convert14 core true)

/-- The repetition periods and their subtypes (45_dtshd.md rule R182). -/
def dtshdPeriods : List (Nat × Nat) := [(512, 0), (1024, 1), (2048, 2), (4096, 3), (8192, 4), (16384, 5)]

/-- The DTS sample counts and their data-type codes (44_dts.md rule R172). -/
def dtsCodes : List (Nat × Half) := [(512, 0x000B), (1024, 0x000C), (2048, 0x000D)]

/-- The reset values of 70_reset_and_hazards.md rule R260. -/
def resetValues (s : State) : Prop :=
  (s.sOpen = false ∧ s.sVariant = 0 ∧ s.sOutBe = false ∧ s.sOutRate = 0 ∧ s.sBpf = 0) ∧
  (s.obActive = false ∧ s.obCap = 0 ∧ s.cursor = 0 ∧ s.obSamples = 0 ∧ s.obPts = 0 ∧ s.obDts = 0) ∧
  (s.eac3Blocks = 0 ∧ s.dtshdSkip = false) ∧
  (s.matIdx = false ∧ s.matFill = 0 ∧ s.thdPrevSize = 0 ∧ s.thdPrevTime = 0 ∧ s.thdSpf = 0 ∧ s.thdFrameCount = 0) ∧
  (s.fault = false ∧ s.faultCause = .none) ∧
  (s.ctrl = 0x00000400 ∧ s.outRate = 0x0000BB80) ∧
  (s.verdict = .none ∧ s.errKind = .none ∧ s.pktValid = false ∧ s.downgradeNotice = false) ∧
  (s.pktLen = 0 ∧ s.pktSamples = 0)

/-! ### The buffers -/

/-- The `n` bytes from `a` on have all been written. -/
def bytesWritten (m : Memory) (a n : Nat) : Prop := ∀ x, a ≤ x → x < a + n → (m.get? x).isSome = true

/-- The `bs` stand at `a` and the addresses after it. -/
def bytesAt (m : Memory) (a : Nat) (bs : List Byte) : Prop := ∀ i, i < bs.length → m.get? (a + i) = bs[i]?

/-- Two memories hold the same bytes in a range. -/
def sameBytes (m m' : Memory) (a n : Nat) : Prop := ∀ x, a ≤ x → x < a + n → m.get? x = m'.get? x

/-- The MAT buffer being filled (46_truehd_mat.md rule R199). -/
def activeMat (s : State) : Memory := spaceOf (matSpace s.matIdx) s

/-- A MAT buffer filled up to `fill`: every byte below has been written, and the markers stand at their
offsets as far as the buffer goes (20_memory.md rule R72, 46_truehd_mat.md rule R195). -/
structure MatFilled (m : Memory) (fill : Nat) : Prop where
  written : bytesWritten m 0 fill
  start : fill ≠ 0 → 20 ≤ fill ∧ bytesAt m 0 matStart
  middle : 30708 ≤ fill → 30720 ≤ fill ∧ bytesAt m 30708 matMiddle

/-! ### Where a TrueHD frame is laid -/

/-- `s` with `m` as the MAT buffer of index `i`. -/
def withMat (i : Bool) (m : Memory) (s : State) : State := if i then { s with mat1 := m } else { s with mat0 := m }

/-- A marker ahead in the MAT stream: the free bytes before it, its own bytes, and the bytes that stand for it in
the accounting, which for an end marker include the inter-frame gap of 16 (46_truehd_mat.md rule R195). -/
structure MatSegment where
  gap : Nat
  code : List Byte
  overhead : Nat
  deriving DecidableEq, Repr

/-- The markers of a whole MAT frame (46_truehd_mat.md rule R190). -/
def matSegments : List MatSegment := [⟨0, matStart, 20⟩, ⟨30688, matMiddle, 12⟩, ⟨30688, matEnd, 32⟩]

/-- The markers ahead of a buffer filled up to `fill`, to the end of the MAT frame after it. -/
def matAhead (fill : Nat) : List MatSegment :=
  (if fill = 0 then matSegments
   else if fill ≤ 30708 then [⟨30708 - fill, matMiddle, 12⟩, ⟨30688, matEnd, 32⟩]
   else [⟨61408 - fill, matEnd, 32⟩]) ++ matSegments

/-- A frame of bytes `d` after `pad` bytes of padding, laid around the markers ahead in ascending order, a marker that
is reached being written at once (46_truehd_mat.md rule R195): the bytes that stand from the fill on, the markers
among them, and the marker bytes that count toward the frame's size because no padding was left for them. There is
no such layout for a frame that reaches the last marker ahead, the second end marker (rule R196). -/
def matLaid : List MatSegment → Nat → List Byte → Option (List Byte × Nat)
  | [], _, _ => none
  | seg :: more, pad, d =>
    let front := List.replicate pad 0 ++ d
    if pad + d.length < seg.gap then some (front, 0)
    else (matLaid more (pad - seg.gap - seg.overhead) (d.drop (seg.gap - pad))).map fun r =>
      (front.take seg.gap ++ seg.code ++ r.1, (seg.overhead - (pad - seg.gap)) + r.2)

/-- What an access unit's first ten bytes give: its input timing `t`, and the samples per frame `spf` and the frame
count `count` that it is placed with. A major sync sets them to 40, 80, 160 or 320 and 0, and any other unit needs
and keeps those of the stream (46_truehd_mat.md rules R191 to R194). -/
def thdTiming (s : State) (t : Half) (spf : BitVec 9) (count : BitVec 5) : Prop :=
  ∃ (b0 b1 b2 b3 b4 b5 b6 b7 b8 b9 : Byte) (rest : List Byte),
    s.frameIn.data = b0 :: b1 :: b2 :: b3 :: b4 :: b5 :: b6 :: b7 :: b8 :: b9 :: rest ∧ t = be16 b2 b3 ∧
    (if b4 = 0xF8 ∧ b5 = 0x72 ∧ b6 = 0x6F then
      ∃ rate : BitVec 4, (b7 = 0xBA ∧ rate = b8.extractLsb' 4 4 ∨ b7 = 0xBB ∧ rate = b9.extractLsb' 4 4) ∧
        spf = (40 : BitVec 9) <<< (rate &&& 3).toNat ∧ count = 0
    else s.thdSpf ≠ 0 ∧ spf = s.thdSpf ∧ count = s.thdFrameCount)

/-! ### The invariant between commands -/

/-- The items of 10_state.md rule R51, for a state that is not faulted. -/
structure RuleR51 (s : State) : Prop where
  activeOnlyEac3 : s.obActive = true → s.sVariant = 2 ∧ 1 ≤ s.eac3Blocks.toNat ∧ s.eac3Blocks.toNat ≤ 5
  activePacket : s.obActive = true →
    s.obCap.toNat = Config.eac3Capacity ∧ Config.hdr ≤ s.cursor.toNat ∧ s.cursor.toNat ≤ s.obCap.toNat ∧
      s.cursor.toNat % 2 = 0
  blocks : s.eac3Blocks.toNat ≤ 5
  fill : s.matFill.toNat ≤ 61407 ∧ (s.thdPrevSize ≠ 0 → 20 ≤ s.matFill.toNat)
  samples : s.thdSpf = 0 ∨ s.thdSpf = 40 ∨ s.thdSpf = 80 ∨ s.thdSpf = 160 ∨ s.thdSpf = 320
  count : s.thdFrameCount.toNat ≤ 24

/-- What holds between commands in every state that the host can bring about from reset. -/
structure Inv (s : State) : Prop where
  /-- No contract fault was raised (47_dispatcher.md rule R220). -/
  noFault : s.fault = false ∧ s.faultCause = .none
  /-- No micro-operation is pending: the host cannot issue one (30_encoding.md rule R94). -/
  noMicro : s.uop.pending = none
  /-- A stream is open exactly when a variant is latched, and never variant 6 or 7 (10_state.md rule R52). -/
  variant : (s.sOpen = true ↔ s.sVariant ≠ 0) ∧ s.sVariant.toNat ≤ 5
  /-- OPEN refuses BPF = 0 (47_dispatcher.md rule R210). -/
  bpf : s.sOpen = true → s.sBpf ≠ 0
  /-- CTRL's reserved bits read 0 (10_state.md rule R25). -/
  ctrl : s.ctrl &&& ctrlWritable = s.ctrl
  r51 : RuleR51 s
  /-- With no packet in progress the packet writer's state and the block counter are 0 (43_eac3.md rule R162,
  47_dispatcher.md rule R212). -/
  idle : s.obActive = false →
    s.obCap = 0 ∧ s.cursor = 0 ∧ s.obSamples = 0 ∧ s.obPts = 0 ∧ s.obDts = 0 ∧ s.eac3Blocks = 0
  /-- Each variant writes only its own aggregation state (10_state.md rule R44). -/
  ownDtshd : s.sVariant ≠ 4 → s.dtshdSkip = false
  ownTruehd : s.sVariant ≠ 5 →
    s.matIdx = false ∧ s.matFill = 0 ∧ s.thdPrevSize = 0 ∧ s.thdPrevTime = 0 ∧ s.thdSpf = 0 ∧ s.thdFrameCount = 0
  /-- The memories keep their canonical form. -/
  obWf : s.ob.wf Config.outbufBytes
  mat0Wf : s.mat0.wf Config.matFrameSize
  mat1Wf : s.mat1.wf Config.matFrameSize
  /-- The payload of the packet in progress has been written (20_memory.md rule R74). -/
  obWritten : s.obActive = true → bytesWritten s.ob Config.hdr (s.cursor.toNat - Config.hdr)
  /-- A packet in progress has the sample metadata that its BEGIN took (43_eac3.md rule R160). -/
  metadata : s.obActive = true → s.obSamples = packetSamples Config.eac3Capacity s.sBpf
  /-- The MAT buffer being filled has been written up to the fill, with its markers (rules R72, R74). -/
  matFilled : MatFilled (activeMat s) s.matFill.toNat
  /-- PKT_VALID, PKT_LEN and PKT_SAMPLES describe what PKT_OUT holds (10_state.md rules R31, R37). -/
  port : match s.pktOut with
    | none => s.pktValid = false ∧ s.pktLen = 0 ∧ s.pktSamples = 0
    | some p => s.pktValid = true ∧ s.pktLen.toNat = p.data.length ∧ s.pktSamples = p.nbSamples

/-- An access the host interface can make (10_state.md rule R41). -/
def accessLegal : HostAccess → Bool
  | .write width offset _ => legalAccess width offset
  | .read width offset => legalAccess width offset
  | .drive _ | .reset => true

/-- Two states that differ only in buffer bytes that no rule can read before they are rewritten: the payload
of the packet in progress and the filled part of the active MAT buffer are the same in both
(20_memory.md rule R74). -/
structure SameButStaleBytes (s t : State) : Prop where
  rest : t = { s with ob := t.ob, mat0 := t.mat0, mat1 := t.mat1 }
  payload : s.obActive = true → sameBytes s.ob t.ob Config.hdr (s.cursor.toNat - Config.hdr)
  filled : sameBytes (activeMat s) (activeMat t) 0 s.matFill.toNat

end Sys2Proof.Machine
end

