-- ==== Sys2Proof/Certificates/Slice0/Obligations.lean ====
section
/-! DEFINITION. The statements for the provers. `submitting`, `rejected`, `turnedAway`, `handedOver`, `absorbed`,
`burst` and `Inv` are defined in `Sys2Proof/Safety.lean`. -/

open Sys2Proof Sys2Proof.Machine

/-! ### Reset and the invariant -/

/-- The reset input, and the state after reset, set every element to its reset value (70_reset_and_hazards.md
rule R260). -/
def Obligations.ResetSetsEveryElement : Prop :=
  resetValues State.reset ∧
  ∀ (s : State) (rest : List HostAccess), s.uop.pending = none → s.host = .reset :: rest →
    ∃ t, step s = .next t ∧ resetValues t ∧ t.host = rest ∧
      readRegister 0x0C t = 0 ∧ readRegister 0x18 t = 0 ∧ readRegister 0x1C t = 0 ∧ readRegister 0x20 t = 0 ∧
      readRegister 0x24 t = 0 ∧ readRegister 0x28 t = 0

/-- The invariant holds after reset. -/
def Obligations.InvHoldsAtReset : Prop := Inv State.reset

/-- Every step keeps the invariant between commands (10_state.md rule R51, and the clauses of `Inv`). -/
def Obligations.StepKeepsInv : Prop := ∀ s t : State, Inv s → step s = .next t → Inv t

/-- From a state of the invariant every access that the host interface can make completes: no byte is read
before it is written (20_memory.md rule R74), and the insertion loop ends. -/
def Obligations.LegalAccessesComplete : Prop :=
  ∀ s : State, Inv s → (∀ a ∈ s.host.head?, accessLegal a = true) → ∃ t, step s = .next t

/-- Buffer bytes left by earlier packets are never observable (20_memory.md rule R74): two states of the
invariant that differ only in them step to states that differ only in them, so with the same packet. -/
def Obligations.StaleBytesUnobservable : Prop :=
  ∀ s t s' : State, Inv s → Inv t → SameButStaleBytes s t → step s = .next s' →
    ∃ t', step t = .next t' ∧ SameButStaleBytes s' t' ∧ t'.pktOut = s'.pktOut

/-! ### Encoding -/

/-- Decoding what the encoder gives for an operation gives the operation back. -/
def Obligations.DecodeOfEncode : Prop := ∀ i : Instr, i.wellFormed = true → decode (encode i) = .ok i

/-- Every code that decodes is the code of the operation it decodes to, and that operation is well formed: no
two codes mean the same operation. -/
def Obligations.EncodeOfDecode : Prop :=
  ∀ (c : CodeWord) (i : Instr), decode c = .ok i → encode i = c ∧ i.wellFormed = true

/-- Codes written out from the tables of 30_encoding.md decode to the operations they stand for. -/
def Obligations.SampleCodesDecode : Prop :=
  decode (.cmd 0x00000001) = .ok .openStream ∧ decode (.cmd 0x00000002) = .ok .submit ∧
  decode (.cmd 0x00000104) = .ok (.illegal 0x104) ∧ decode (.eop 0b00100000010) = .ok .encAc3 ∧
  decode (.eop 0b10100000010) = .ok .encTruehd ∧ decode (.eop 0b11100000010) = .ok (.submitUnreachable 1) ∧
  decode (.micro 5) = .ok .finalize ∧ decode (.micro 8) = .ok .convert14

/-! ### Steps and the register window -/

/-- A write of a word to CMD runs the command it decodes to, and a pending micro-operation runs the operation its
number decodes to; each leaves the list of accesses or the port without what it consumed. The port is the model's
own (notes/assumptions/1.md and 5.md). -/
def Obligations.StepRunsTheDecodedOperation : Prop :=
  (∀ (s : State) (w : Word) (rest : List HostAccess), s.uop.pending = none →
    s.host = .write 32 0x08 w :: rest →
      ∃ i, decode (.cmd w) = .ok i ∧ step s = exec i { s with host := rest }) ∧
  (∀ (s : State) (n : Byte) (i : Instr), s.uop.pending = some n → decode (.micro n) = .ok i →
      step s = exec i { s with uop := { s.uop with pending := none } })

/-- What the host's other accesses do (10_state.md rules R24, R25, R27, R41, R45): CTRL keeps its writable bits,
OUT_RATE is stored, every other write is ignored, and a read has no side effect. -/
def Obligations.OtherAccesses : Prop :=
  ∀ (s : State) (a : HostAccess) (rest : List HostAccess), s.uop.pending = none → s.host = a :: rest →
    (∀ v, a = .write 32 0x00 v → step s = .next { s with host := rest, ctrl := v &&& 0x0000FF0F }) ∧
    (∀ v, a = .write 32 0x04 v → step s = .next { s with host := rest, outRate := v }) ∧
    (∀ v (o : Byte), a = .write 32 o v → o.toNat % 4 = 0 → o ≠ 0x00 → o ≠ 0x04 → o ≠ 0x08 →
      step s = .next { s with host := rest }) ∧
    (∀ o : Byte, a = .read 32 o → o.toNat % 4 = 0 →
      step s = .next { s with host := rest, busRead := readRegister o s }) ∧
    (∀ f, a = .drive f → step s = .next { s with host := rest, frameIn := f })

/-- A register access of another width, or at an offset that is no multiple of 4, is refused
(20_memory.md rule R76, 93_implementation_defined.md U5). -/
def Obligations.MisalignedAccessRefused : Prop :=
  ∀ (s : State) (width : Nat) (o : Byte) (v : Word) (rest : List HostAccess), s.uop.pending = none →
    (width ≠ 32 ∨ o.toNat % 4 ≠ 0) → (s.host = .write width o v :: rest ∨ s.host = .read width o :: rest) →
      step s = .refused (.badRegisterAccess width o)

/-- What the offsets of the register window read as that have no fields: CTRL, OUT_RATE, CMD, PKT_LEN, PKT_SAMPLES,
THD_PREV_SIZE and the reserved offsets (10_state.md rule R24). The fields of the other registers stand in `StatusFields`
and `DiagnosticRegisters`. -/
def Obligations.RegisterMap : Prop :=
  ∀ s : State, readRegister 0x00 s = s.ctrl ∧ readRegister 0x04 s = s.outRate ∧ readRegister 0x08 s = 0 ∧
    readRegister 0x10 s = s.pktLen ∧ readRegister 0x14 s = s.pktSamples ∧ readRegister 0x20 s = s.thdPrevSize ∧
    ∀ o : Byte, 0x2C ≤ o.toNat → readRegister o s = 0

/-- The fields of STATUS, which is read only with reset 0 (10_state.md rule R29). -/
def Obligations.StatusFields : Prop :=
  ∀ s : State,
    let r := readRegister 0x0C s
    (r.extractLsb' 0 2 = match s.verdict with
      | .none => 0 | .packet => 1 | .more => 2 | .error => 3) ∧
    r.getLsbD 2 = s.pktValid ∧ r.getLsbD 3 = false ∧
    (r.extractLsb' 4 3 = match s.errKind with
      | .none => 0 | .malformedHeader => 1 | .sizeMismatch => 2 | .unsupportedFraming => 3
      | .stateViolation => 4 | .resourceExhaustion => 5 | .badCommand => 6 | .notOpen => 7) ∧
    r.getLsbD 7 = false ∧ r.getLsbD 8 = s.sOpen ∧ r.extractLsb' 9 3 = s.sVariant ∧ r.getLsbD 12 = s.dtshdSkip ∧
    r.getLsbD 13 = s.downgradeNotice ∧ r.getLsbD 14 = s.fault ∧ r.getLsbD 15 = false ∧
    (r.extractLsb' 16 3 = match s.faultCause with
      | .none => 0 | .badCapacity => 1 | .beginActive => 2 | .overflow => 3
      | .badFinalize => 4 | .notActive => 5 | .matIndex => 6 | .inputOverread => 7) ∧
    r.getLsbD 19 = false ∧ r.extractLsb' 20 3 = s.eac3Blocks ∧ r.getLsbD 23 = false ∧
    r.extractLsb' 24 5 = s.thdFrameCount ∧ r.extractLsb' 29 3 = 0 ∧
    (∀ v, writeRegister 0x0C v s = s) ∧ readRegister 0x0C State.reset = 0

/-- The fields of MAT_STATUS, THD_PREV_TIME, THD_PREV_SIZE, OB_STATUS and OB_CAP, all read only with reset 0
(10_state.md rules R38 to R40). -/
def Obligations.DiagnosticRegisters : Prop :=
  ∀ s : State,
    ((readRegister 0x18 s).extractLsb' 0 16 = s.matFill ∧ (readRegister 0x18 s).getLsbD 16 = s.matIdx ∧
      (readRegister 0x18 s).extractLsb' 17 3 = 0 ∧ (readRegister 0x18 s).extractLsb' 20 9 = s.thdSpf ∧
      (readRegister 0x18 s).extractLsb' 29 3 = 0) ∧
    ((readRegister 0x1C s).extractLsb' 0 16 = s.thdPrevTime ∧ (readRegister 0x1C s).extractLsb' 16 16 = 0 ∧
      readRegister 0x20 s = s.thdPrevSize) ∧
    ((readRegister 0x24 s).extractLsb' 0 17 = s.cursor ∧ (readRegister 0x24 s).extractLsb' 17 14 = 0 ∧
      (readRegister 0x24 s).getLsbD 31 = s.obActive ∧
      (readRegister 0x28 s).extractLsb' 0 17 = s.obCap ∧ (readRegister 0x28 s).extractLsb' 17 15 = 0) ∧
    (∀ v, writeRegister 0x18 v s = s ∧ writeRegister 0x1C v s = s ∧ writeRegister 0x20 v s = s ∧
      writeRegister 0x24 v s = s ∧ writeRegister 0x28 v s = s) ∧
    (readRegister 0x18 State.reset = 0 ∧ readRegister 0x1C State.reset = 0 ∧ readRegister 0x20 State.reset = 0 ∧
      readRegister 0x24 State.reset = 0 ∧ readRegister 0x28 State.reset = 0)

/-- A read of one byte after a write: the bytes written in the range written, and what stood there before
everywhere else (00_scope.md rule R12 `MemWrite`). This is the frame of every store below. -/
def Obligations.StoredBytesAndNoOthers : Prop :=
  ∀ (m : Memory) (a : Nat) (bs : List Byte) (x : Nat),
    (m.write a bs).get? x = if a ≤ x ∧ x < a + bs.length then bs[x - a]? else m.get? x

/-! ### The host commands -/

/-- OPEN (47_dispatcher.md rules R210, R218): BAD_COMMAND with a stream open, or with a CODEC or BPF that is not
legal; else every per-codec element at 0 and the configuration latched from CTRL and OUT_RATE. -/
def Obligations.OpenCommand : Prop :=
  ∀ s : State, s.fault = false →
    let codec := (s.ctrl.extractLsb' 0 3).toNat
    let bpf := s.ctrl.extractLsb' 8 8
    ((s.sOpen = true ∨ codec = 0 ∨ 4 < codec ∨ bpf = 0) → exec .openStream s = .next (turnedAway .badCommand s)) ∧
    (s.sOpen = false → 1 ≤ codec → codec ≤ 4 → bpf ≠ 0 →
      exec .openStream s = .next { flushState (commandStart s) with
        sOpen := true, sOutBe := s.ctrl.getLsbD 3, sOutRate := s.outRate, sBpf := bpf,
        sVariant := (if codec = 1 then 1 else if codec = 2 then 2 else if codec = 4 then 5
          else if 48000 < s.outRate.toNat then 4 else 3),
        verdict := .none, errKind := .none })

/-- FLUSH (47_dispatcher.md rule R215, 10_state.md rule R47): with a stream open every per-codec element becomes
0, and the buffers' bytes and the configuration stay; with none it does nothing. -/
def Obligations.FlushCommand : Prop :=
  ∀ s : State, s.fault = false →
    (s.sOpen = true → exec .flush s = .next { commandStart s with
      obActive := false, obCap := 0, cursor := 0, obSamples := 0, obPts := 0, obDts := 0,
      eac3Blocks := 0, dtshdSkip := false, matIdx := false, matFill := 0, thdPrevSize := 0, thdPrevTime := 0,
      thdSpf := 0, thdFrameCount := 0, verdict := .none, errKind := .none }) ∧
    (s.sOpen = false → exec .flush s = .next { commandStart s with verdict := .none, errKind := .none })

/-- CLOSE (47_dispatcher.md rule R216). -/
def Obligations.CloseCommand : Prop :=
  ∀ s : State, s.fault = false →
    (s.sOpen = true → exec .closeStream s = .next { flushState (commandStart s) with
      sOpen := false, sVariant := 0, sOutBe := false, sOutRate := 0, sBpf := 0,
      verdict := .none, errKind := .none }) ∧
    (s.sOpen = false → exec .closeStream s = .next { commandStart s with verdict := .none, errKind := .none })

/-- Every CMD word other than 1 to 4 raises BAD_COMMAND, with no flush (47_dispatcher.md rule R217). -/
def Obligations.IllegalCommandWords : Prop :=
  ∀ (s : State) (w : Word), s.fault = false → (w.extractLsb' 8 24 ≠ 0 ∨ w.extractLsb' 0 8 = 0 ∨
      4 < (w.extractLsb' 0 8).toNat) →
    decode (.cmd w) = .ok (.illegal w) ∧ exec (.illegal w) s = .next (turnedAway .badCommand s)

/-- SUBMIT with no stream open raises NOT_OPEN, with no flush (47_dispatcher.md rule R211). -/
def Obligations.SubmitNotOpen : Prop :=
  ∀ s : State, s.fault = false →
    exec .submitNotOpen s = .next (turnedAway .notOpen s) ∧
    (s.sOpen = false → ∀ i ∈ [Instr.submit, .encAc3, .encEac3, .encDts, .encDtshd, .encTruehd],
      exec i s = .next (turnedAway .notOpen s))

/-- A frame longer than the input buffer is SIZE_MISMATCH before the dispatch, with a flush
(47_dispatcher.md rule R211). -/
def Obligations.OversizeFrame : Prop :=
  ∀ s : State, s.fault = false → s.sOpen = true → s.sVariant ≠ 0 → 65536 < s.frameIn.data.length →
    ∀ i ∈ [Instr.submit, .encAc3, .encEac3, .encDts, .encDtshd, .encTruehd],
      exec i s = .next (rejected .sizeMismatch s)

/-- SUBMIT runs the operation of the effective opcode `{S_VARIANT, 0x02}` (30_encoding.md rule R92). -/
def Obligations.SubmitRunsTheEffectiveOpcode : Prop :=
  ∀ (s : State) (i : Instr), s.sVariant.toNat ≤ 5 → decode (.eop (s.sVariant ++ (0x02 : Byte))) = .ok i →
    exec .submit s = exec i s

/-- The two effective opcodes that OPEN's latching never produces are refused, and so is a SUBMIT in such a
state (30_encoding.md rule R92, 93_implementation_defined.md U8). -/
def Obligations.UnreachableVariantRefused : Prop :=
  (∀ (s : State) (low : BitVec 1), exec (.submitUnreachable low) s = .refused .unreachableVariant) ∧
  (∀ s : State, submitting s → 5 < s.sVariant.toNat → exec .submit s = .refused .unreachableVariant)

/-- While FAULT = 1 every command is ignored: no element and no STATUS field changes, and registers still read
(10_state.md rule R35). -/
def Obligations.FaultedIgnoresCommands : Prop :=
  (∀ (s : State) (i : Instr), s.fault = true → isCommand i = true → exec i s = .next s) ∧
  (∀ (s : State) (o : Byte) (rest : List HostAccess), s.fault = true → s.uop.pending = none →
    s.host = .read 32 o :: rest → o.toNat % 4 = 0 →
      step s = .next { s with host := rest, busRead := readRegister o s })

/-- Only reset clears FAULT, and a step that sets it leaves VERDICT = ERROR with ERRKIND = NONE and a cause
(10_state.md rule R35, 47_dispatcher.md rule R220). -/
def Obligations.FaultSetAndCleared : Prop :=
  ∀ s t : State, step s = .next t →
    (s.fault = true → t.fault = false → s.uop.pending = none ∧ s.host.head? = some .reset) ∧
    (s.fault = false → t.fault = true → t.verdict = .error ∧ t.errKind = .none ∧ t.faultCause ≠ .none)

/-- A framing error leaves nothing of its command but STATUS (60_exceptions.md rules R230, R239): BAD_COMMAND and
NOT_OPEN keep the stream, every other kind flushes it; only buffer bytes may differ. -/
def Obligations.ErrorsLeaveOnlyTheVerdict : Prop :=
  ∀ (s t : State) (i : Instr), s.fault = false → isCommand i = true → exec i s = .next t → t.verdict = .error →
    t.fault = false → t.pktValid = false ∧
      (((t.errKind = .badCommand ∨ t.errKind = .notOpen) ∧ t = turnedAway t.errKind s) ∨
       (t.errKind ≠ .none ∧ t.errKind ≠ .badCommand ∧ t.errKind ≠ .notOpen ∧
         t = { rejected t.errKind s with ob := t.ob, mat0 := t.mat0, mat1 := t.mat1 }))

/-- The error kinds that each operation can raise (60_exceptions.md rule R232); RESOURCE_EXHAUSTION is none of
them. -/
def Obligations.ErrorKindsOfEachOperation : Prop :=
  ∀ (s t : State), s.fault = false → s.sOpen = true →
    (exec .encAc3 s = .next t → t.errKind ∈ [ErrKind.none, .malformedHeader, .sizeMismatch, .unsupportedFraming]) ∧
    (exec .encEac3 s = .next t →
      t.errKind ∈ [ErrKind.none, .malformedHeader, .sizeMismatch, .unsupportedFraming, .stateViolation]) ∧
    (exec .encDts s = .next t → t.errKind ∈ [ErrKind.none, .malformedHeader, .sizeMismatch, .unsupportedFraming]) ∧
    (exec .encDtshd s = .next t → t.errKind ∈ [ErrKind.none, .malformedHeader, .sizeMismatch, .unsupportedFraming]) ∧
    (exec .encTruehd s = .next t → t.errKind ∈ [ErrKind.none, .malformedHeader, .sizeMismatch, .stateViolation])

/-- After a command that executes, PKT_VALID is 1 exactly when the output port holds a packet, and exactly when
the verdict is PACKET (10_state.md rule R31). -/
def Obligations.PktValidExactlyAfterPacket : Prop :=
  (∀ (s t : State) (i : Instr), s.fault = false → isCommand i = true → exec i s = .next t →
    (t.pktValid = true ↔ t.pktOut.isSome = true) ∧ (t.pktValid = true ↔ t.verdict = .packet)) ∧
  (∀ (s : State) (rest : List HostAccess), s.uop.pending = none → s.host = .reset :: rest →
    ∃ t, step s = .next t ∧ t.pktValid = false ∧ t.pktOut = none)

/-- Every packet that a SUBMIT hands over has the layout of 30_encoding.md rules R95 to R98: the sync words, the
variant's data-type code, the exact length of the payload, zeros after it, and the variant's capacity and sample
metadata (the capacity of E-AC-3 is presumed, notes/assumptions/10.md). -/
def Obligations.PacketLayout : Prop :=
  ∀ (s t : State) (p : Packet), Inv s → exec .submit s = .next t → t.pktOut = some p →
    unitAt s.sOutBe p.data 0 = 0xF872 ∧ unitAt s.sOutBe p.data 2 = 0x4E1F ∧
    ∃ len unit : Nat, 8 + len ≤ p.data.length ∧ (unitAt s.sOutBe p.data 6).toNat = len * unit ∧
      (∀ k, 8 + len ≤ k → k < p.data.length → p.data[k]? = some 0) ∧
      ((s.sVariant = 1 ∧ p.data.length = 6144 ∧ p.nbSamples = 1536 ∧ unit = 8 ∧
         unitAt s.sOutBe p.data 4 &&& 0xF8FF = 0x0001) ∨
       (s.sVariant = 2 ∧ p.data.length = 24576 ∧ p.nbSamples = BitVec.ofNat 32 (24576 / s.sBpf.toNat) ∧ unit = 1 ∧
         unitAt s.sOutBe p.data 4 = 0x0015) ∨
       (s.sVariant = 3 ∧ unit = 8 ∧ ∃ c ∈ dtsCodes, p.data.length = c.1 * 4 ∧ p.nbSamples = BitVec.ofNat 32 c.1 ∧
         unitAt s.sOutBe p.data 4 = c.2) ∨
       (s.sVariant = 4 ∧ unit = 1 ∧ len % 16 = 8 ∧ p.nbSamples = BitVec.ofNat 32 (p.data.length / s.sBpf.toNat) ∧
         ∃ c ∈ dtshdPeriods, p.data.length = c.1 * 4 ∧
           unitAt s.sOutBe p.data 4 = 0x0011 ||| (BitVec.ofNat 16 c.2 <<< 8)) ∨
       (s.sVariant = 5 ∧ p.data.length = 61440 ∧ p.nbSamples = BitVec.ofNat 32 (61440 / s.sBpf.toNat) ∧ unit = 1 ∧
         len = 61424 ∧ unitAt s.sOutBe p.data 4 = 0x0016))

/-- FLUSH leaves the stream exactly as CLOSE and OPEN with the same configuration do (47_dispatcher.md
section 1). -/
def Obligations.FlushEqualsCloseAndOpen : Prop :=
  ∀ s c t u : State, Inv s → s.sOpen = true → s.sOutBe = s.ctrl.getLsbD 3 → s.sOutRate = s.outRate →
    s.sBpf = s.ctrl.extractLsb' 8 8 → openVariant (s.ctrl.extractLsb' 0 3) s.outRate = some s.sVariant →
    exec .flush s = .next t → exec .closeStream s = .next c → exec .openStream c = .next u → t = u

/-! ### AC-3 -/

/-- A declared AC-3 frame of 6 to 6136 bytes with 1536 samples is copied whole, without a look at its header
(42_ac3.md section on ENC_AC3; the place of bsmod and the source byte order are presumed, notes/assumptions/10.md);
SUBMIT does so in a stream of the AC3 variant. -/
def Obligations.Ac3DeclaredFrame : Prop :=
  ∀ (s : State) (i : Instr), (i = .encAc3 ∨ i = .submit ∧ s.sVariant = 1) → submitting s → s.obActive = false →
    s.frameIn.nbSamples = 1536 → 6 ≤ frameLen s → frameLen s ≤ 6136 →
    let dt : Half := 0x0001 ||| (((s.frameIn.data.getD 5 0).extractLsb' 0 3).setWidth 16 <<< 8)
    let b := burst s.sOutBe dt 8 (outputBytes true s.sOutBe s.frameIn.data) 6144
    exec i s = .next { handedOver b 1536 s.frameIn.pts s.frameIn.dts s with ob := s.ob.write 0 b }

/-- An AC-3 frame whose declared length or sample count does not match is parsed again, and the length the parser
recovers is sent (42_ac3.md section on ENC_AC3; the place of bsmod and the source byte order are presumed,
notes/assumptions/10.md). That a recovered length always fits rests on the reference parser's sizes
(notes/assumptions/8.md). -/
def Obligations.Ac3ReparsedFrame : Prop :=
  ∀ (s : State) (h : A52Header), submitting s → s.obActive = false →
    (frameLen s < 6 ∨ 6144 < frameLen s ∨ s.frameIn.nbSamples ≠ 1536) →
    a52Parse s.frameIn.data = some h → h.isEac3 = false → h.size ≤ frameLen s →
    let dt : Half := 0x0001 ||| (((s.frameIn.data.getD 5 0).extractLsb' 0 3).setWidth 16 <<< 8)
    let b := burst s.sOutBe dt 8 (outputBytes true s.sOutBe (s.frameIn.data.take h.size)) 6144
    exec .encAc3 s = .next { handedOver b 1536 s.frameIn.pts s.frameIn.dts s with ob := s.ob.write 0 b }

/-- The errors of ENC_AC3 in their order (60_exceptions.md, table of check orders), each before BEGIN. The reference
parser (notes/assumptions/8.md) gives an AC-3 frame 128 to 3840 bytes, so the checks of a recovered length below 6 or
past the capacity never fail. -/
def Obligations.Ac3Errors : Prop :=
  ∀ s : State, submitting s →
    let reparse := frameLen s < 6 ∨ 6144 < frameLen s ∨ s.frameIn.nbSamples ≠ 1536
    (reparse → a52Parse s.frameIn.data = none → exec .encAc3 s = .next (rejected .malformedHeader s)) ∧
    (∀ h, reparse → a52Parse s.frameIn.data = some h →
      (h.isEac3 = true → exec .encAc3 s = .next (rejected .unsupportedFraming s)) ∧
      (h.isEac3 = false → frameLen s < h.size → exec .encAc3 s = .next (rejected .sizeMismatch s)) ∧
      (h.isEac3 = false → 128 ≤ h.size ∧ h.size ≤ 3840)) ∧
    (¬ reparse → 6136 < frameLen s → exec .encAc3 s = .next (rejected .sizeMismatch s))

/-! ### E-AC-3 -/

/-- The first frame of an aggregate with fewer than six blocks begins the packet and is absorbed
(43_eac3.md section on ENC_EAC3; the capacity of 24576 bytes and the source byte order are presumed,
notes/assumptions/10.md). That it always fits the byte budget rests on the reference parser's sizes
(notes/assumptions/8.md). -/
def Obligations.Eac3FirstFrame : Prop :=
  ∀ (s : State) (blocks : Nat), submitting s → s.obActive = false → eac3Accepts s.frameIn.data blocks →
    s.eac3Blocks.toNat + blocks < 6 →
    exec .encEac3 s = .next { absorbed s with
      obActive := true, obCap := 24576, cursor := BitVec.ofNat 17 (8 + ceil2 (frameLen s)),
      obSamples := packetSamples 24576 s.sBpf, obPts := s.frameIn.pts, obDts := s.frameIn.dts,
      ob := s.ob.write 8 (outputBytes true s.sOutBe s.frameIn.data),
      eac3Blocks := BitVec.ofNat 3 (s.eac3Blocks.toNat + blocks) }

/-- A later frame that keeps the total below six is appended at CURSOR and absorbed; the aggregate's capacity,
metadata and timestamps stay those of its first frame (43_eac3.md section on ENC_EAC3; the source byte order is
presumed, notes/assumptions/10.md). -/
def Obligations.Eac3LaterFrame : Prop :=
  ∀ (s : State) (blocks : Nat), submitting s → s.obActive = true → s.obCap.toNat ≤ 65536 →
    eac3Accepts s.frameIn.data blocks → s.eac3Blocks.toNat + blocks < 6 →
    s.cursor.toNat + ceil2 (frameLen s) ≤ s.obCap.toNat →
    exec .encEac3 s = .next { absorbed s with
      cursor := BitVec.ofNat 17 (s.cursor.toNat + ceil2 (frameLen s)),
      ob := s.ob.write s.cursor.toNat (outputBytes true s.sOutBe s.frameIn.data),
      eac3Blocks := BitVec.ofNat 3 (s.eac3Blocks.toNat + blocks) }

/-- The frame that brings the total to exactly six completes the packet: the burst of every frame absorbed and
this one (43_eac3.md section on ENC_EAC3; the capacity of 24576 bytes and the source byte order are presumed,
notes/assumptions/10.md). The first case is a frame of six blocks by itself; that it always fits the byte budget
rests on the reference parser's sizes (notes/assumptions/8.md). -/
def Obligations.Eac3SixthBlock : Prop :=
  (∀ s : State, submitting s → s.obActive = false → s.eac3Blocks = 0 → eac3Accepts s.frameIn.data 6 →
    let b := burst s.sOutBe 0x0015 1 (outputBytes true s.sOutBe s.frameIn.data) 24576
    exec .encEac3 s = .next { handedOver b (packetSamples 24576 s.sBpf) s.frameIn.pts s.frameIn.dts s with
      ob := s.ob.write 0 b }) ∧
  (∀ (s : State) (blocks : Nat) (before : List Byte), Inv s → submitting s → s.obActive = true →
    eac3Accepts s.frameIn.data blocks → s.eac3Blocks.toNat + blocks = 6 →
    s.cursor.toNat + ceil2 (frameLen s) ≤ s.obCap.toNat → before.length = s.cursor.toNat - 8 →
    bytesAt s.ob 8 before →
    let b := burst s.sOutBe 0x0015 1 (before ++ outputBytes true s.sOutBe s.frameIn.data) 24576
    exec .encEac3 s = .next { handedOver b s.obSamples s.obPts s.obDts s with
      eac3Blocks := 0, ob := s.ob.write 0 b })

/-- The errors of ENC_EAC3's header checks and of the byte budget, in their order (60_exceptions.md, table of
check orders); nothing was appended. A first frame always fits: the reference parser (notes/assumptions/8.md) gives
a frame at most 4096 bytes. -/
def Obligations.Eac3Errors : Prop :=
  ∀ s : State, submitting s →
    (a52Parse s.frameIn.data = none → exec .encEac3 s = .next (rejected .malformedHeader s)) ∧
    (∀ h1, a52Parse s.frameIn.data = some h1 →
      (frameLen s < h1.size → exec .encEac3 s = .next (rejected .sizeMismatch s)) ∧
      (h1.size < frameLen s → a52Parse (s.frameIn.data.drop h1.size) = none →
        exec .encEac3 s = .next (rejected .malformedHeader s)) ∧
      (∀ h2, h1.size < frameLen s → a52Parse (s.frameIn.data.drop h1.size) = some h2 →
        (h2.size ≠ frameLen s - h1.size → exec .encEac3 s = .next (rejected .sizeMismatch s)) ∧
        (h2.size = frameLen s - h1.size → (h2.isEac3 = false ∨ h2.strmtyp ≠ .dependent) →
          exec .encEac3 s = .next (rejected .unsupportedFraming s)))) ∧
    (∀ blocks, eac3Accepts s.frameIn.data blocks → s.obActive = true →
      s.obCap.toNat - s.cursor.toNat < ceil2 (frameLen s) → exec .encEac3 s = .next (rejected .sizeMismatch s))

/-- A frame that takes the block total past six is appended, and then STATE_VIOLATION discards the aggregate
(43_eac3.md rule R162, 60_exceptions.md; the source byte order is presumed, notes/assumptions/10.md). -/
def Obligations.Eac3PastSix : Prop :=
  ∀ (s : State) (blocks : Nat), Inv s → submitting s → s.obActive = true → eac3Accepts s.frameIn.data blocks →
    6 < s.eac3Blocks.toNat + blocks → s.cursor.toNat + ceil2 (frameLen s) ≤ s.obCap.toNat →
    exec .encEac3 s = .next { rejected .stateViolation s with
      ob := s.ob.write s.cursor.toNat (outputBytes true s.sOutBe s.frameIn.data) }

/-! ### DTS and DTS-HD -/

/-- A DTS core of 512, 1024 or 2048 samples that lies inside the input and whose payload fits goes out as one
burst of four bytes a sample (44_dts.md section on ENC_DTS). -/
def Obligations.DtsCorePacket : Prop :=
  ∀ (s : State) (h : DtsHeader) (dt : Half), submitting s → s.obActive = false →
    dtsParse s.frameIn.data = some h → (h.frameLength, dt) ∈ dtsCodes → h.frameSize ≤ frameLen s →
    let p := dtsBurstPayload s.sOutBe h.variant (s.frameIn.data.take h.frameSize)
    let b := burst s.sOutBe dt 8 p (h.frameLength * 4)
    p.length + 8 ≤ h.frameLength * 4 →
    exec .encDts s = .next { handedOver b (BitVec.ofNat 32 h.frameLength) s.frameIn.pts s.frameIn.dts s with
      ob := s.ob.write 0 b }

/-- The errors of ENC_DTS in their order (60_exceptions.md, table of check orders). -/
def Obligations.DtsErrors : Prop :=
  ∀ s : State, submitting s →
    (dtsParse s.frameIn.data = none → exec .encDts s = .next (rejected .malformedHeader s)) ∧
    (∀ h, dtsParse s.frameIn.data = some h →
      (h.frameLength ∉ dtsCodes.map (·.1) → exec .encDts s = .next (rejected .unsupportedFraming s)) ∧
      (h.frameLength ∈ dtsCodes.map (·.1) → frameLen s < h.frameSize →
        exec .encDts s = .next (rejected .sizeMismatch s)) ∧
      (h.frameLength ∈ dtsCodes.map (·.1) → h.frameSize ≤ frameLen s →
        h.frameLength * 4 < (dtsBurstPayload s.sOutBe h.variant (s.frameIn.data.take h.frameSize)).length + 8 →
        exec .encDts s = .next (rejected .sizeMismatch s)))

/-- A DTS-HD frame that fits its period goes whole (45_dtshd.md section on ENC_DTSHD; the start code in
`dtshdPayload` is presumed, notes/assumptions/9.md). -/
def Obligations.DtshdWholeFrame : Prop :=
  ∀ (s : State) (h : DtsHeader) (period st : Nat), submitting s → s.obActive = false → s.dtshdSkip = false →
    dtsParse s.frameIn.data = some h → h.rate ≠ 0 → period = s.sOutRate.toNat * h.frameLength / h.rate →
    (period, st) ∈ dtshdPeriods → h.frameSize ≤ frameLen s → 20 + ceil2 (frameLen s) ≤ period * 4 →
    let b := burst s.sOutBe (0x0011 ||| (BitVec.ofNat 16 st <<< 8)) 1
      (dtshdPayload s.sOutBe h.variant s.frameIn.data) (period * 4)
    exec .encDtshd s = .next { handedOver b (packetSamples (period * 4) s.sBpf) s.frameIn.pts s.frameIn.dts s with
      ob := s.ob.write 0 b }

/-- A DTS-HD frame that does not fit its period, or any frame once the sticky flag is set, goes core-only; the
first one sets the flag and raises the notice (45_dtshd.md section on ENC_DTSHD; the start code in `dtshdPayload` is
presumed, notes/assumptions/9.md). -/
def Obligations.DtshdCoreOnly : Prop :=
  ∀ (s : State) (h : DtsHeader) (period st : Nat), submitting s → s.obActive = false →
    dtsParse s.frameIn.data = some h → h.rate ≠ 0 → period = s.sOutRate.toNat * h.frameLength / h.rate →
    (period, st) ∈ dtshdPeriods → h.frameSize ≤ frameLen s → 20 + ceil2 h.frameSize ≤ period * 4 →
    (s.dtshdSkip = true ∨ period * 4 < 20 + ceil2 (frameLen s)) →
    let b := burst s.sOutBe (0x0011 ||| (BitVec.ofNat 16 st <<< 8)) 1
      (dtshdPayload s.sOutBe h.variant (s.frameIn.data.take h.frameSize)) (period * 4)
    exec .encDtshd s = .next { handedOver b (packetSamples (period * 4) s.sBpf) s.frameIn.pts s.frameIn.dts s with
      ob := s.ob.write 0 b, dtshdSkip := true, downgradeNotice := !s.dtshdSkip }

/-- The errors of ENC_DTSHD in their order (60_exceptions.md, table of check orders); a period that is none of
the six is rejected. -/
def Obligations.DtshdErrors : Prop :=
  ∀ s : State, submitting s →
    (dtsParse s.frameIn.data = none → exec .encDtshd s = .next (rejected .malformedHeader s)) ∧
    (∀ h, dtsParse s.frameIn.data = some h →
      (h.rate = 0 → exec .encDtshd s = .next (rejected .malformedHeader s)) ∧
      (h.rate ≠ 0 →
        let period := s.sOutRate.toNat * h.frameLength / h.rate
        (period ∉ dtshdPeriods.map (·.1) → exec .encDtshd s = .next (rejected .unsupportedFraming s)) ∧
        (period ∈ dtshdPeriods.map (·.1) → frameLen s < h.frameSize →
          exec .encDtshd s = .next (rejected .sizeMismatch s)) ∧
        (period ∈ dtshdPeriods.map (·.1) → h.frameSize ≤ frameLen s → period * 4 < 20 + ceil2 h.frameSize →
          exec .encDtshd s = .next (rejected .sizeMismatch s))))

/-- The sticky flag goes from 1 to 0 only at a reset, or at a command after which the stream is flushed: one that ends
in an error, a FLUSH, or a CLOSE (10_state.md rule R33). After a command that executes, DOWNGRADE_NOTICE is 1 exactly
when that command took the flag from 0 to 1, so every other one clears it (rule R34). -/
def Obligations.DtshdSkipIsSticky : Prop :=
  (∀ s t : State, Inv s → step s = .next t → s.dtshdSkip = true → t.dtshdSkip = false →
    s.host.head? = some .reset ∨ s.host.head? = some (commandWrite 3) ∨ s.host.head? = some (commandWrite 4) ∨
      (s.host.head? = some (commandWrite 2) ∧ t.verdict = .error)) ∧
  (∀ (s t : State) (i : Instr), s.fault = false → isCommand i = true → exec i s = .next t →
    (t.downgradeNotice = true ↔ s.dtshdSkip = false ∧ t.dtshdSkip = true))

/-! ### TrueHD -/

/-- The inter-frame padding (46_truehd_mat.md rule R194; that differences are taken modulo 65536 is presumed,
notes/assumptions/10.md). -/
def Obligations.ThdPaddingRule : Prop :=
  ∀ (s : State) (t : Half),
    let bytes := ((t.toNat + 65536 - s.thdPrevTime.toNat) % 65536) * 2560 / s.thdSpf.toNat
    let prev := s.thdPrevSize.toNat
    (prev = 0 → thdPadding t s = 0) ∧
    (prev ≠ 0 → prev ≤ bytes → bytes - prev < 30712 → thdPadding t s = bytes - prev) ∧
    (prev ≠ 0 → (bytes < prev ∨ 30712 ≤ bytes - prev) → thdPadding t s = 0)

/-- The first frame of a stream, a major-sync unit: the start marker and then the frame, in the active buffer from
offset 0; the marker counts toward the frame's size (46_truehd_mat.md sections 2 and 3; the marker's bytes and the
places of the fields are presumed, notes/assumptions/9.md and 10.md). -/
def Obligations.ThdFirstFrame : Prop :=
  ∀ (s : State) (b0 b1 b2 b3 b7 b8 b9 : Byte) (rest : List Byte) (rate : BitVec 4),
    submitting s → s.frameIn.data = b0 :: b1 :: b2 :: b3 :: 0xF8 :: 0x72 :: 0x6F :: b7 :: b8 :: b9 :: rest →
    (b7 = 0xBA ∧ rate = b8.extractLsb' 4 4 ∨ b7 = 0xBB ∧ rate = b9.extractLsb' 4 4) →
    s.matFill = 0 → s.thdPrevSize = 0 → 20 + frameLen s < 30708 →
    exec .encTruehd s = .next { absorbed s with
      mat0 := if s.matIdx then s.mat0 else s.mat0.write 0 (matStart ++ s.frameIn.data),
      mat1 := if s.matIdx then s.mat1.write 0 (matStart ++ s.frameIn.data) else s.mat1,
      matFill := BitVec.ofNat 16 (20 + frameLen s), thdPrevSize := BitVec.ofNat 32 (20 + frameLen s),
      thdPrevTime := be16 b2 b3, thdSpf := (40 : BitVec 9) <<< (rate &&& 3).toNat, thdFrameCount := 1 }

/-- A later frame that stays before the next marker: the padding zeros and then the frame, at the fill. A major-sync
unit changes the samples per frame and restarts the counter, and its padding still comes from the frame before it
(46_truehd_mat.md sections 2 and 3; the places of the fields are presumed, notes/assumptions/10.md). -/
def Obligations.ThdFrameBeforeMarker : Prop :=
  ∀ (s : State) (t : Half) (spf : BitVec 9) (count : BitVec 5), submitting s → thdTiming s t spf count →
    let pad := thdPadding t { s with thdSpf := spf }
    let fill := s.matFill.toNat
    (0 < fill ∧ fill + pad + frameLen s < 30708 ∨ 30708 < fill ∧ fill + pad + frameLen s < 61408) →
    exec .encTruehd s = .next { absorbed s with
      mat0 := if s.matIdx then s.mat0 else s.mat0.write fill (List.replicate pad 0 ++ s.frameIn.data),
      mat1 := if s.matIdx then s.mat1.write fill (List.replicate pad 0 ++ s.frameIn.data) else s.mat1,
      matFill := BitVec.ofNat 16 (fill + pad + frameLen s), thdPrevSize := BitVec.ofNat 32 (frameLen s),
      thdPrevTime := t, thdSpf := spf, thdFrameCount := BitVec.ofNat 5 (min (count.toNat + 1) 24) }

/-- From a state of the invariant, a TrueHD frame with its padding is laid around the markers as `matLaid` says, every
frame that with its padding has at most 61376 bytes among them. The bytes stand from the fill on; past the end of the
MAT frame the packet carries its 61424 bytes, and the rest opens the other buffer. THD_PREV_SIZE counts the frame and
the marker bytes and gap for which no padding was left, and a major-sync unit sets THD_SPF and restarts the counter
(46_truehd_mat.md sections 2 and 3; the markers' bytes, the places of the fields and the source byte order are presumed,
notes/assumptions/9.md and 10.md). -/
def Obligations.ThdFramePlaced : Prop :=
  ∀ (s : State) (t : Half) (spf : BitVec 9) (count : BitVec 5), Inv s → submitting s → s.sVariant = 5 →
    thdTiming s t spf count →
    let pad := thdPadding t { s with thdSpf := spf }
    let fill := s.matFill.toNat
    (pad + frameLen s ≤ 61376 → (matLaid (matAhead fill) pad s.frameIn.data).isSome = true) ∧
    ∀ (bs : List Byte) (extra : Nat), matLaid (matAhead fill) pad s.frameIn.data = some (bs, extra) →
      (fill + bs.length < 61424 →
        20 ≤ fill + bs.length ∧ fill + bs.length ≤ 61407 ∧
        exec .encTruehd s = .next { withMat s.matIdx ((activeMat s).write fill bs) (absorbed s) with
          matFill := BitVec.ofNat 16 (fill + bs.length), thdPrevSize := BitVec.ofNat 32 (frameLen s + extra),
          thdPrevTime := t, thdSpf := spf, thdFrameCount := BitVec.ofNat 5 (min (count.toNat + 1) 24) }) ∧
      (61424 ≤ fill + bs.length →
        20 ≤ fill + bs.length - 61424 ∧ fill + bs.length - 61424 ≤ 61407 ∧
        ∀ before : List Byte, before.length = fill → bytesAt (activeMat s) 0 before →
          let whole := before ++ bs.take (61424 - fill)
          let b := burst s.sOutBe 0x0016 1 (outputBytes true s.sOutBe whole) 61440
          let other := (spaceOf (matSpace (!s.matIdx)) s).write 0 (bs.drop (61424 - fill))
          whole.length = 61424 ∧ whole.take 20 = matStart ∧ (whole.drop 30708).take 12 = matMiddle ∧
          whole.drop 61408 = matEnd ∧
          exec .encTruehd s = .next { withMat (!s.matIdx) other
              (withMat s.matIdx ((activeMat s).write fill (bs.take (61424 - fill)))
                (handedOver b (packetSamples 61440 s.sBpf) s.frameIn.pts s.frameIn.dts s)) with
            ob := s.ob.write 0 b, matIdx := !s.matIdx, matFill := BitVec.ofNat 16 (fill + bs.length - 61424),
            thdPrevSize := BitVec.ofNat 32 (frameLen s + extra), thdPrevTime := t, thdSpf := spf, thdFrameCount := 0 })

/-- The errors of ENC_TRUEHD before the frame is placed, in their order (60_exceptions.md, table of check
orders; the format bytes 0xBA and 0xBB are presumed, notes/assumptions/10.md). -/
def Obligations.ThdErrors : Prop :=
  ∀ s : State, submitting s →
    (frameLen s < 10 → exec .encTruehd s = .next (rejected .malformedHeader s)) ∧
    (∀ (b0 b1 b2 b3 b4 b5 b6 b7 b8 b9 : Byte) (rest : List Byte),
      s.frameIn.data = b0 :: b1 :: b2 :: b3 :: b4 :: b5 :: b6 :: b7 :: b8 :: b9 :: rest →
      (b4 = 0xF8 → b5 = 0x72 → b6 = 0x6F → b7 ≠ 0xBA → b7 ≠ 0xBB →
        exec .encTruehd s = .next (rejected .malformedHeader s)) ∧
      (¬ (b4 = 0xF8 ∧ b5 = 0x72 ∧ b6 = 0x6F) → s.thdSpf = 0 →
        exec .encTruehd s = .next (rejected .stateViolation s)))

/-- A frame that would complete a second MAT frame in one SUBMIT is SIZE_MISMATCH: one for which the markers ahead leave
no place, and among them one that, with no padding, fills the rest of the active buffer past its middle marker and all
of the other one (46_truehd_mat.md rule R196; the places of the fields are presumed, notes/assumptions/10.md). -/
def Obligations.ThdSecondCompletion : Prop :=
  ∀ (s : State) (t : Half) (spf : BitVec 9) (count : BitVec 5), submitting s → thdTiming s t spf count →
    s.matFill.toNat ≤ 61407 →
    let pad := thdPadding t { s with thdSpf := spf }
    (matLaid (matAhead s.matFill.toNat) pad s.frameIn.data = none →
      ∃ m0 m1 : Memory, exec .encTruehd s = .next { rejected .sizeMismatch s with mat0 := m0, mat1 := m1 }) ∧
    (pad = 0 → 30720 ≤ s.matFill.toNat → (61408 - s.matFill.toNat) + 61376 ≤ frameLen s →
      ∃ m0 m1 : Memory, exec .encTruehd s = .next { rejected .sizeMismatch s with mat0 := m0, mat1 := m1 })

/-! ### The Packet Writer -/

/-- BEGIN run alone, its operands in the micro-operation port (41_packet_writer.md; the port and how its exceptions
are taken are the model's own, notes/assumptions/5.md). -/
def Obligations.BeginPacket : Prop :=
  ∀ s : State,
    let cap := s.uop.cap.toNat
    (s.obActive = false → cap % 4 = 0 → 8 < cap → cap ≤ 65536 →
      exec .beginPacket s = .next { s with
        obActive := true, obCap := BitVec.ofNat 17 cap, cursor := 8, obSamples := s.uop.samples,
        obPts := s.uop.pts, obDts := s.uop.dts }) ∧
    (s.obActive = false → cap % 4 = 0 → 65536 < cap → exec .beginPacket s =
      .next { flushState s with verdict := .error, errKind := .resourceExhaustion,
                                pktValid := false, pktLen := 0, pktSamples := 0, pktOut := none }) ∧
    (s.obActive = false → (cap % 4 ≠ 0 ∨ cap ≤ 8) → exec .beginPacket s =
      .next { s with fault := true, faultCause := .badCapacity, verdict := .error, errKind := .none }) ∧
    (s.obActive = true → exec .beginPacket s =
      .next { s with fault := true, faultCause := .beginActive, verdict := .error, errKind := .none })

/-- WRITE_BYTES, WRITE16_BE and WRITE_PADDING run alone on a packet in progress: the bytes at CURSOR and after it,
and CURSOR moved past them (41_packet_writer.md; the port is the model's own, notes/assumptions/5.md). -/
def Obligations.WritesAtTheCursor : Prop :=
  ∀ s : State, s.obActive = true → s.obCap.toNat ≤ 65536 →
    (s.cursor.toNat + ceil2 s.uop.data.length ≤ s.obCap.toNat → exec .writeBytes s = .next { s with
      ob := s.ob.write s.cursor.toNat (outputBytes s.uop.srcBe s.sOutBe s.uop.data),
      cursor := BitVec.ofNat 17 (s.cursor.toNat + ceil2 s.uop.data.length) }) ∧
    (s.cursor.toNat + 2 ≤ s.obCap.toNat → exec .write16Be s = .next { s with
      ob := s.ob.write s.cursor.toNat (if s.sOutBe then [s.uop.value.extractLsb' 8 8, s.uop.value.extractLsb' 0 8]
        else [s.uop.value.extractLsb' 0 8, s.uop.value.extractLsb' 8 8]),
      cursor := BitVec.ofNat 17 (s.cursor.toNat + 2) }) ∧
    (s.cursor.toNat + s.uop.count.toNat ≤ s.obCap.toNat → exec .writePadding s = .next { s with
      ob := s.ob.write s.cursor.toNat (List.replicate s.uop.count.toNat 0),
      cursor := BitVec.ofNat 17 (s.cursor.toNat + s.uop.count.toNat) })

/-- FINALIZE run alone on a packet in progress: the eight header bytes, the zero tail, and CURSOR at the capacity
(41_packet_writer.md; the port is the model's own, notes/assumptions/5.md). -/
def Obligations.FinalizePacket : Prop :=
  ∀ s : State, s.obActive = true → s.obCap.toNat ≤ 65536 → s.uop.dataType ≠ 0 →
    (s.uop.unit = 1 ∨ s.uop.unit = 8) → 8 ≤ s.cursor.toNat → s.cursor.toNat ≤ s.obCap.toNat →
    let unit (v : Half) : List Byte :=
      if s.sOutBe then [v.extractLsb' 8 8, v.extractLsb' 0 8] else [v.extractLsb' 0 8, v.extractLsb' 8 8]
    exec .finalize s = .next { s with
      ob := (s.ob.write 0 (unit 0xF872 ++ unit 0x4E1F ++ unit s.uop.dataType ++
          unit (BitVec.ofNat 16 ((s.cursor.toNat - 8) * s.uop.unit.toNat)))).write s.cursor.toNat
            (List.replicate (s.obCap.toNat - s.cursor.toNat) 0),
      cursor := s.obCap }

/-- The contract faults of the writing primitives (60_exceptions.md, table of fault causes; how a primitive run alone
takes them is the model's own, notes/assumptions/5.md). FINALIZE with CURSOR inside the header faults with a cause of
which nothing is known (the model's choice, notes/assumptions/12.md). -/
def Obligations.WriterFaults : Prop :=
  ∀ s : State,
    let faulted (c : FaultCause) : State :=
      { s with fault := true, faultCause := c, verdict := .error, errKind := .none }
    (s.obActive = false → ∀ i ∈ [Instr.writeBytes, .write16Be, .writePadding, .finalize],
      exec i s = .next (faulted .notActive)) ∧
    (s.obActive = true → s.obCap.toNat < s.cursor.toNat + ceil2 s.uop.data.length →
      exec .writeBytes s = .next (faulted .overflow)) ∧
    (s.obActive = true → s.obCap.toNat < s.cursor.toNat + 2 → exec .write16Be s = .next (faulted .overflow)) ∧
    (s.obActive = true → s.obCap.toNat < s.cursor.toNat + s.uop.count.toNat →
      exec .writePadding s = .next (faulted .overflow)) ∧
    (s.obActive = true → (s.uop.dataType = 0 ∨ s.uop.unit ≠ 1 ∧ s.uop.unit ≠ 8) →
      exec .finalize s = .next (faulted .badFinalize)) ∧
    (s.obActive = true → s.uop.dataType ≠ 0 → (s.uop.unit = 1 ∨ s.uop.unit = 8) →
      s.obCap.toNat < s.cursor.toNat → exec .finalize s = .next (faulted .overflow)) ∧
    (s.obActive = true → s.uop.dataType ≠ 0 → (s.uop.unit = 1 ∨ s.uop.unit = 8) →
      s.cursor.toNat ≤ s.obCap.toNat → s.cursor.toNat < 8 →
      ∃ c, c ≠ .none ∧ exec .finalize s = .next (faulted c))

/-- What WRITE_BYTES stores, unit by unit (20_memory.md section 2): a source pair as it stands or exchanged, and an
odd last byte as the high byte of a final unit. -/
def Obligations.OutputUnits : Prop :=
  ∀ (srcBe outBe : Bool) (d : List Byte),
    (outputBytes srcBe outBe d).length = d.length + d.length % 2 ∧
    (∀ k, 2 * k + 1 < d.length →
      (outputBytes srcBe outBe d)[2 * k]? = (if srcBe = outBe then d[2 * k]? else d[2 * k + 1]?) ∧
      (outputBytes srcBe outBe d)[2 * k + 1]? = (if srcBe = outBe then d[2 * k + 1]? else d[2 * k]?)) ∧
    (d.length % 2 = 1 →
      (outputBytes srcBe outBe d)[if outBe then d.length - 1 else d.length]? = d[d.length - 1]? ∧
      (outputBytes srcBe outBe d)[if outBe then d.length else d.length - 1]? = some 0)

/-! ### The header parsers -/

/-- The parsers run alone read only the port's bytes and write only their result (40_header_parsers.md; the port is
the model's own, notes/assumptions/5.md). -/
def Obligations.ParsersRunAlone : Prop :=
  ∀ s : State,
    exec .a52Parse s = .next { s with uop := { s.uop with a52 := a52Parse s.uop.data } } ∧
    exec .dtsParse s = .next { s with uop := { s.uop with dtsHeader := dtsParse s.uop.data } } ∧
    exec .convert14 s = .next { s with uop := { s.uop with converted := convert14 s.uop.data s.uop.le } }

/-- What every header that A52_PARSE or DTS_PARSE accepts satisfies (40_header_parsers.md section 1, for the reference
parsers, which are presumed, notes/assumptions/8.md). -/
def Obligations.HeaderContracts : Prop :=
  (∀ (b : List Byte) (h : A52Header), a52Parse b = some h →
    1 ≤ h.size ∧ h.size ≤ 4096 ∧ (h.blocks = 1 ∨ h.blocks = 2 ∨ h.blocks = 3 ∨ h.blocks = 6) ∧ h.samples < 2 ^ 32 ∧
      (h.isEac3 = false → h.blocks = 6 ∧ h.strmtyp = .independent)) ∧
  (∀ (b : List Byte) (h : DtsHeader), dtsParse b = some h →
    16 ≤ b.length ∧ 1 ≤ h.frameSize ∧ h.frameSize ≤ 18724 ∧ 192 ≤ h.frameLength ∧ h.frameLength ≤ 4096 ∧
      h.frameLength % 32 = 0)

/-- The length of CONVERT14's result, and its two round trips with REPACK14 (40_header_parsers.md section 1, for the
reference packing, which is presumed, notes/assumptions/8.md). -/
def Obligations.Convert14RoundTrips : Prop :=
  (∀ (b : List Byte) (le : Bool), (convert14 b le).length = 14 * (b.length / 2) / 8) ∧
  (∀ (c : List Byte) (le : Bool), c.length % 7 = 0 → convert14 (repack14 c le) le = c) ∧
  (∀ (b : List Byte) (le : Bool), b.length % 8 = 0 →
    (wordsOf le (repack14 (convert14 b le) le)).map (·.extractLsb' 0 14) = (wordsOf le b).map (·.extractLsb' 0 14))

/-! ### Who writes what -/

/-- The stream configuration is written only by OPEN, CLOSE and reset (10_state.md rule R42), and no host access
reaches the micro-operation port (30_encoding.md rule R94; the port is the model's own, notes/assumptions/5.md). -/
def Obligations.ConfigurationWriters : Prop :=
  ∀ s t : State, s.uop.pending = none → step s = .next t →
    (s.host.head? ≠ some .reset → t.uop = s.uop) ∧
    (s.host.head? ≠ some .reset → s.host.head? ≠ some (commandWrite 1) → s.host.head? ≠ some (commandWrite 4) →
      t.sOpen = s.sOpen ∧ t.sVariant = s.sVariant ∧ t.sOutBe = s.sOutBe ∧ t.sOutRate = s.sOutRate ∧
        t.sBpf = s.sBpf)

/-- A SUBMIT that is no error writes only its own variant's aggregation state (10_state.md rule R44), and no bytes but
its own: a packet handed over changes no byte of `OB` past its length, an absorbed E-AC-3 frame only its bytes at the
cursor, and an absorbed TrueHD frame none of `OB`. A TrueHD frame changes the bytes of the active MAT buffer from the
fill on, up to the new fill or, when it completes the MAT frame, to the end, and then those of the other one up to the
new fill. Every register the host wrote, the input frame and the configuration stay. -/
def Obligations.SubmitFrame : Prop :=
  ∀ (s t : State) (i : Instr), i ∈ [Instr.encAc3, .encEac3, .encDts, .encDtshd, .encTruehd] →
    exec i s = .next t → t.verdict ≠ .error →
    (t.ctrl = s.ctrl ∧ t.outRate = s.outRate ∧ t.frameIn = s.frameIn ∧ t.sOpen = s.sOpen ∧
      t.sVariant = s.sVariant ∧ t.sOutBe = s.sOutBe ∧ t.sOutRate = s.sOutRate ∧ t.sBpf = s.sBpf ∧
      t.fault = s.fault ∧ t.faultCause = s.faultCause ∧ t.host = s.host ∧ t.busRead = s.busRead ∧ t.uop = s.uop) ∧
    (i ≠ .encEac3 → t.eac3Blocks = s.eac3Blocks) ∧
    (i ≠ .encDtshd → t.dtshdSkip = s.dtshdSkip) ∧
    (i ≠ .encTruehd → t.matIdx = s.matIdx ∧ t.matFill = s.matFill ∧ t.thdPrevSize = s.thdPrevSize ∧
      t.thdPrevTime = s.thdPrevTime ∧ t.thdSpf = s.thdSpf ∧ t.thdFrameCount = s.thdFrameCount ∧
      t.mat0 = s.mat0 ∧ t.mat1 = s.mat1) ∧
    (∀ p, t.pktOut = some p → ∀ a, p.data.length ≤ a → t.ob.get? a = s.ob.get? a) ∧
    (i = .encEac3 → t.verdict ≠ .packet →
      let start := if s.obActive then s.cursor.toNat else 8
      ∀ a, (a < start ∨ start + ceil2 (frameLen s) ≤ a) → t.ob.get? a = s.ob.get? a) ∧
    (i ≠ .encEac3 → t.verdict ≠ .packet → t.ob = s.ob) ∧
    (i = .encTruehd → t.matIdx = s.matIdx →
      spaceOf (matSpace (!s.matIdx)) t = spaceOf (matSpace (!s.matIdx)) s ∧
      ∀ a, (a < s.matFill.toNat ∨ t.matFill.toNat ≤ a) → (activeMat t).get? a = (activeMat s).get? a) ∧
    (i = .encTruehd → t.matIdx ≠ s.matIdx →
      (∀ a, (a < s.matFill.toNat ∨ 61424 ≤ a) →
        (spaceOf (matSpace s.matIdx) t).get? a = (spaceOf (matSpace s.matIdx) s).get? a) ∧
      ∀ a, t.matFill.toNat ≤ a → (activeMat t).get? a = (spaceOf (matSpace t.matIdx) s).get? a)
end

