-- ==== Sys2Proof/Laws/Memory.lean ====
section
/-! SUPPORT. The laws of one byte-addressed space: read after write, writes leave the rest alone, adjoining
writes are one write, and every write keeps the canonical form. -/

namespace Sys2Proof.Machine

/-! ### Reading one byte -/

@[simp] theorem Memory.get?_nil (a : Nat) : Memory.get? [] a = none := rfl

theorem Memory.get?_append (m m' : Memory) (x : Nat) :
    Memory.get? (m ++ m') x = (Memory.get? m x).or (Memory.get? m' x) := by
  induction m with
  | nil => simp
  | cons c m ih =>
    obtain ⟨a, b⟩ := c
    by_cases h : a = x <;> simp [Memory.get?, h, ih]

theorem Memory.get?_filter (p : Nat → Bool) (m : Memory) (x : Nat) :
    Memory.get? (m.filter fun c => p c.1) x = if p x then Memory.get? m x else none := by
  induction m with
  | nil => simp
  | cons c m ih =>
    obtain ⟨a, b⟩ := c
    by_cases h : a = x
    · subst h
      by_cases hp : p a <;> simp [Memory.get?, hp, ih]
    · by_cases hp : p a <;> simp [Memory.get?, hp, ih, h]

theorem Memory.get?_cells (a : Nat) (bs : List Byte) (x : Nat) :
    Memory.get? (Memory.cells a bs) x = if a ≤ x then bs[x - a]? else none := by
  induction bs generalizing a with
  | nil => simp [Memory.cells]
  | cons b bs ih =>
    by_cases h : a = x
    · subst h; simp [Memory.cells, Memory.get?]
    · by_cases hle : a ≤ x
      · have hsub : x - a = (x - (a + 1)) + 1 := by omega
        have hle' : a + 1 ≤ x := by omega
        simp [Memory.cells, Memory.get?, h, ih, hle, hle', hsub]
      · have hle' : ¬ a + 1 ≤ x := by omega
        simp [Memory.cells, Memory.get?, h, ih, hle, hle']

/-- Read after write: a byte of the written range. -/
theorem Memory.get?_write_inside (m : Memory) (a : Nat) (bs : List Byte) (x : Nat)
    (hl : a ≤ x) (hu : x < a + bs.length) : (m.write a bs).get? x = bs[x - a]? := by
  have hne : bs.isEmpty = false := by
    cases bs with
    | nil => simp at hu; omega
    | cons _ _ => rfl
  have hx : ¬ x < a := by omega
  have hin : x - a < bs.length := by omega
  rw [Memory.write, if_neg (by simp [hne]), Memory.get?_append, Memory.get?_append,
    Memory.get?_filter (fun y => decide (y < a)), Memory.get?_cells]
  simp [hx, hl, hin]

/-- A write leaves every other byte alone. -/
theorem Memory.get?_write_outside (m : Memory) (a : Nat) (bs : List Byte) (x : Nat)
    (h : x < a ∨ a + bs.length ≤ x) : (m.write a bs).get? x = m.get? x := by
  cases hb : bs with
  | nil => simp [Memory.write]
  | cons b bs' =>
    rw [← hb]
    have hne : bs.isEmpty = false := by simp [hb]
    rw [Memory.write, if_neg (by simp [hne]), Memory.get?_append, Memory.get?_append,
      Memory.get?_filter (fun y => decide (y < a)), Memory.get?_cells,
      Memory.get?_filter (fun y => decide (a + bs.length ≤ y))]
    rcases h with h | h
    · have h1 : ¬ a ≤ x := by omega
      have h2 : ¬ a + bs.length ≤ x := by omega
      simp [h, h1, h2]
    · have h1 : ¬ x < a := by omega
      have h2 : a ≤ x := by omega
      have h3 : bs[x - a]? = none := by simp; omega
      simp [h, h1, h2, h3]

/-! ### The canonical form -/

theorem Memory.mem_cells {a : Nat} {bs : List Byte} {c : Host.Cell} (h : c ∈ Memory.cells a bs) :
    a ≤ c.1 ∧ c.1 < a + bs.length := by
  induction bs generalizing a with
  | nil => simp [Memory.cells] at h
  | cons b bs ih =>
    simp only [Memory.cells, List.mem_cons] at h
    rcases h with rfl | h
    · simp
    · have := ih h
      simp only [List.length_cons]
      omega

theorem Memory.cells_rising (a : Nat) (bs : List Byte) :
    (Memory.cells a bs).Pairwise (fun x y => x.1 < y.1) := by
  induction bs generalizing a with
  | nil => simp [Memory.cells]
  | cons b bs ih =>
    rw [Memory.cells, List.pairwise_cons]
    refine ⟨fun c hc => ?_, ih (a + 1)⟩
    have := Memory.mem_cells hc
    show a < c.1
    omega

/-- Every write inside the space keeps the canonical form. -/
theorem Memory.wf_write {size : Nat} {m : Memory} (h : m.wf size) (a : Nat) (bs : List Byte)
    (hb : a + bs.length ≤ size) : (m.write a bs).wf size := by
  unfold Memory.write
  split
  · exact h
  · refine ⟨?_, ?_⟩
    · rw [List.pairwise_append, List.pairwise_append]
      refine ⟨h.1.filter _, ⟨Memory.cells_rising a bs, h.1.filter _, ?_⟩, ?_⟩
      · intro x hx y hy
        have := Memory.mem_cells hx
        simp only [List.mem_filter, decide_eq_true_eq] at hy
        omega
      · intro x hx y hy
        simp only [List.mem_filter, decide_eq_true_eq] at hx
        rw [List.mem_append] at hy
        rcases hy with hy | hy
        · have := Memory.mem_cells hy
          omega
        · simp only [List.mem_filter, decide_eq_true_eq] at hy
          omega
    · intro c hc
      rw [List.mem_append, List.mem_append] at hc
      rcases hc with hc | hc | hc
      · exact h.2 c (List.mem_of_mem_filter hc)
      · have := Memory.mem_cells hc
        omega
      · exact h.2 c (List.mem_of_mem_filter hc)

theorem Memory.wf_nil (size : Nat) : Memory.wf size [] := ⟨List.Pairwise.nil, by simp⟩

/-! ### Adjoining writes -/

@[simp] theorem Memory.write_nil (m : Memory) (a : Nat) : m.write a [] = m := rfl

theorem Memory.cells_append (a : Nat) (bs cs : List Byte) :
    Memory.cells a (bs ++ cs) = Memory.cells a bs ++ Memory.cells (a + bs.length) cs := by
  induction bs generalizing a with
  | nil => simp [Memory.cells]
  | cons b bs ih => simp [Memory.cells, ih, Nat.add_assoc, Nat.add_comm 1]

theorem Memory.filter_cells_lt {a n : Nat} {bs : List Byte} (h : a + bs.length ≤ n) :
    (Memory.cells a bs).filter (fun c => c.1 < n) = Memory.cells a bs := by
  rw [List.filter_eq_self]
  intro c hc
  have := Memory.mem_cells hc
  simp only [decide_eq_true_eq]; omega

theorem Memory.filter_cells_ge {a n : Nat} {bs : List Byte} (h : a + bs.length ≤ n) :
    (Memory.cells a bs).filter (fun c => n ≤ c.1) = [] := by
  rw [List.filter_eq_nil_iff]
  intro c hc
  have := Memory.mem_cells hc
  simp only [decide_eq_true_eq]; omega

theorem Memory.filter_cells_all_ge {a n : Nat} {bs : List Byte} (h : n ≤ a) :
    (Memory.cells a bs).filter (fun c => n ≤ c.1) = Memory.cells a bs := by
  rw [List.filter_eq_self]
  intro c hc
  have := Memory.mem_cells hc
  simp only [decide_eq_true_eq]; omega

theorem Memory.filter_cells_none_lt {a n : Nat} {bs : List Byte} (h : n ≤ a) :
    (Memory.cells a bs).filter (fun c => c.1 < n) = [] := by
  rw [List.filter_eq_nil_iff]
  intro c hc
  have := Memory.mem_cells hc
  simp only [decide_eq_true_eq]; omega

theorem Memory.filter_lt_lt {m : Memory} {a b : Nat} (h : a ≤ b) :
    (m.filter (fun c => c.1 < a)).filter (fun c => c.1 < b) = m.filter (fun c => c.1 < a) := by
  rw [List.filter_eq_self]
  intro c hc
  simp only [List.mem_filter, decide_eq_true_eq] at hc ⊢; omega

theorem Memory.filter_lt_ge {m : Memory} {a b : Nat} (h : a ≤ b) :
    (m.filter (fun c => c.1 < a)).filter (fun c => b ≤ c.1) = [] := by
  rw [List.filter_eq_nil_iff]
  intro c hc
  simp only [List.mem_filter, decide_eq_true_eq] at hc ⊢; omega

theorem Memory.filter_ge_lt {m : Memory} {a b : Nat} (h : b ≤ a) :
    (m.filter (fun c => a ≤ c.1)).filter (fun c => c.1 < b) = [] := by
  rw [List.filter_eq_nil_iff]
  intro c hc
  simp only [List.mem_filter, decide_eq_true_eq] at hc ⊢; omega

theorem Memory.filter_ge_ge {m : Memory} {a b : Nat} (h : a ≤ b) :
    (m.filter (fun c => a ≤ c.1)).filter (fun c => b ≤ c.1) = m.filter (fun c => b ≤ c.1) := by
  rw [List.filter_filter]
  refine List.filter_congr fun c _ => ?_
  rw [Bool.eq_iff_iff]
  simp only [Bool.and_eq_true, decide_eq_true_eq]; omega

theorem Memory.filter_lt_lt' {m : Memory} {a b : Nat} (h : a ≤ b) :
    (m.filter (fun c => c.1 < b)).filter (fun c => c.1 < a) = m.filter (fun c => c.1 < a) := by
  rw [List.filter_filter]
  refine List.filter_congr fun c _ => ?_
  rw [Bool.eq_iff_iff]
  simp only [Bool.and_eq_true, decide_eq_true_eq]; omega

theorem Memory.write_eq (m : Memory) (a : Nat) (bs : List Byte) (h : bs ≠ []) :
    m.write a bs = m.filter (fun c => c.1 < a) ++ (Memory.cells a bs ++ m.filter (fun c => a + bs.length ≤ c.1)) := by
  rw [Memory.write, if_neg (by simpa using h)]

/-- A write right after another is one write of both. -/
theorem Memory.write_write_after (m : Memory) (a : Nat) (bs cs : List Byte) :
    (m.write a bs).write (a + bs.length) cs = m.write a (bs ++ cs) := by
  by_cases hb : bs = []
  · simp [hb]
  by_cases hc : cs = []
  · simp [hc]
  rw [Memory.write_eq _ _ _ hc, Memory.write_eq _ _ _ hb, Memory.write_eq _ _ _ (by simp [hb])]
  simp only [List.filter_append, Memory.filter_lt_lt (Nat.le_add_right a bs.length),
    Memory.filter_cells_lt (Nat.le_refl _), Memory.filter_ge_lt (Nat.le_refl _), List.append_nil,
    Memory.filter_lt_ge (a := a) (b := a + bs.length + cs.length) (by omega),
    Memory.filter_cells_ge (a := a) (bs := bs) (n := a + bs.length + cs.length) (by omega),
    Memory.filter_ge_ge (a := a + bs.length) (b := a + bs.length + cs.length) (by omega),
    List.nil_append, Memory.cells_append, List.length_append, List.append_assoc, ← Nat.add_assoc]

/-- A write right before another is one write of both. -/
theorem Memory.write_write_before (m : Memory) (a : Nat) (bs cs : List Byte) :
    (m.write (a + bs.length) cs).write a bs = m.write a (bs ++ cs) := by
  by_cases hb : bs = []
  · simp [hb]
  by_cases hc : cs = []
  · simp [hc]
  rw [Memory.write_eq _ _ _ hb, Memory.write_eq _ _ _ hc, Memory.write_eq _ _ _ (by simp [hb])]
  simp only [List.filter_append, Memory.filter_lt_lt' (Nat.le_add_right a bs.length),
    Memory.filter_cells_none_lt (a := a + bs.length) (n := a) (by omega),
    Memory.filter_ge_lt (a := a + bs.length + cs.length) (b := a) (by omega),
    Memory.filter_lt_ge (Nat.le_refl (a + bs.length)), Memory.filter_cells_all_ge (Nat.le_refl _),
    List.append_nil, List.nil_append, Memory.cells_append, List.length_append, List.append_assoc]
  congr 3
  rw [List.filter_filter]
  refine List.filter_congr fun c _ => ?_
  rw [Bool.eq_iff_iff]
  simp only [Bool.and_eq_true, decide_eq_true_eq]; omega

/-- A write that covers an earlier one replaces it. -/
theorem Memory.write_write_same (m : Memory) (a : Nat) (bs cs : List Byte) (h : bs.length ≤ cs.length) :
    (m.write a bs).write a cs = m.write a cs := by
  by_cases hb : bs = []
  · simp [hb]
  have hc : cs ≠ [] := by
    rintro rfl; simp at h; exact hb h
  rw [Memory.write_eq _ _ _ hc, Memory.write_eq _ _ _ hb, Memory.write_eq _ _ _ hc]
  simp only [List.filter_append, Memory.filter_lt_lt (Nat.le_refl a),
    Memory.filter_cells_none_lt (Nat.le_refl a), Memory.filter_ge_lt (a := a + bs.length) (b := a) (by omega),
    Memory.filter_lt_ge (a := a) (b := a + cs.length) (by omega),
    Memory.filter_cells_ge (a := a) (bs := bs) (n := a + cs.length) (by omega),
    Memory.filter_ge_ge (a := a + bs.length) (b := a + cs.length) (by omega), List.append_nil, List.nil_append]

/-! ### Reading a range -/

theorem Memory.cells_fst (a : Nat) (bs : List Byte) :
    (Memory.cells a bs).map (·.1) = List.range' a bs.length := by
  induction bs generalizing a with
  | nil => rfl
  | cons b bs ih => simp [Memory.cells, ih, List.range'_succ]

theorem Memory.cells_snd (a : Nat) (bs : List Byte) : (Memory.cells a bs).map (·.2) = bs := by
  induction bs generalizing a with
  | nil => rfl
  | cons b bs ih => simp [Memory.cells, ih]

/-- Reading back a range just written. -/
theorem Memory.read?_write (m : Memory) (a : Nat) (bs : List Byte) :
    (m.write a bs).read? a bs.length = some bs := by
  by_cases hb : bs = []
  · subst hb
    have : m.filter (fun c => decide (a ≤ c.1) && decide (c.1 < a)) = [] := by
      rw [List.filter_eq_nil_iff]
      intro c _
      simp only [Bool.and_eq_true, decide_eq_true_eq]; omega
    simp [Memory.read?, this]
  have key : (m.write a bs).filter (fun c => a ≤ c.1 && c.1 < a + bs.length) = Memory.cells a bs := by
    rw [Memory.write_eq _ _ _ hb, List.filter_append, List.filter_append]
    have h1 : (m.filter (fun c => decide (c.1 < a))).filter (fun c => a ≤ c.1 && c.1 < a + bs.length) = [] := by
      rw [List.filter_eq_nil_iff]
      intro c hc
      simp only [List.mem_filter, decide_eq_true_eq, Bool.and_eq_true] at hc ⊢; omega
    have h2 : (m.filter (fun c => decide (a + bs.length ≤ c.1))).filter
        (fun c => a ≤ c.1 && c.1 < a + bs.length) = [] := by
      rw [List.filter_eq_nil_iff]
      intro c hc
      simp only [List.mem_filter, decide_eq_true_eq, Bool.and_eq_true] at hc ⊢; omega
    have h3 : (Memory.cells a bs).filter (fun c => a ≤ c.1 && c.1 < a + bs.length) = Memory.cells a bs := by
      rw [List.filter_eq_self]
      intro c hc
      have := Memory.mem_cells hc
      simp only [Bool.and_eq_true, decide_eq_true_eq]; omega
    rw [h1, h2, h3]; simp
  simp only [Memory.read?, key, Memory.cells_fst, Memory.cells_snd, if_true]

/-- A memory in canonical form is determined by what its bytes read as. -/
theorem Memory.filter_range_eq_cells {size : Nat} {m : Memory} (h : m.wf size) (a : Nat) (bs : List Byte)
    (hb : bytesAt m a bs) :
    m.filter (fun c => a ≤ c.1 && c.1 < a + bs.length) = Memory.cells a bs := by
  have aux : ∀ (l : Memory), l.Pairwise (fun x y => x.1 < y.1) → ∀ (a : Nat) (bs : List Byte),
      (∀ c ∈ l, a ≤ c.1 ∧ c.1 < a + bs.length) → (∀ i, i < bs.length → Memory.get? l (a + i) = bs[i]?) →
      l = Memory.cells a bs := by
    intro l
    induction l with
    | nil =>
      intro _ a bs _ hg
      cases bs with
      | nil => rfl
      | cons b bs => have := hg 0 (by simp); simp at this
    | cons c l ih =>
      intro hp a bs hr hg
      obtain ⟨x, v⟩ := c
      rw [List.pairwise_cons] at hp
      cases bs with
      | nil => have := hr (x, v) (by simp); simp at this; omega
      | cons b bs =>
        have hx : x = a := by
          by_contra hne
          have h0 := hg 0 (by simp)
          have hax := (hr (x, v) (by simp)).1
          have hax' : a ≤ x := hax
          have hnone : Memory.get? l a = none := by
            have hall : ∀ c ∈ l, c.1 ≠ a := fun c hc => by
              have := hp.1 c hc
              have this' : x < c.1 := this
              omega
            clear ih hp hr hg h0
            induction l with
            | nil => rfl
            | cons d l ihl =>
              have hd := hall d (by simp)
              simp only [Memory.get?, if_neg hd]
              exact ihl fun c hc => hall c (by simp [hc])
          simp [Memory.get?, hne, hnone] at h0
        subst hx
        have hv : v = b := by
          have h0 := hg 0 (by simp)
          simpa [Memory.get?] using h0
        subst hv
        rw [Memory.cells, ← ih hp.2 (x + 1) bs]
        · intro c hc
          have h1 : x < c.1 := hp.1 c hc
          have h2 := (hr c (by simp [hc])).2
          simp only [List.length_cons] at h2
          omega
        · intro i hi
          have h1 := hg (i + 1) (by simp; omega)
          have hne : x ≠ x + (i + 1) := by omega
          simp only [Memory.get?, if_neg hne] at h1
          have he : x + 1 + i = x + (i + 1) := by omega
          rw [he, h1]; simp
  refine aux _ (h.1.filter _) a bs ?_ ?_
  · intro c hc
    simp only [List.mem_filter, Bool.and_eq_true, decide_eq_true_eq] at hc
    exact hc.2
  · intro i hi
    rw [Memory.get?_filter (fun y => decide (a ≤ y) && decide (y < a + bs.length)), if_pos, hb i hi]
    simp only [Bool.and_eq_true, decide_eq_true_eq]; omega

/-- A write of what stands there changes nothing. -/
theorem Memory.write_self {size : Nat} {m : Memory} (h : m.wf size) {a : Nat} {bs : List Byte}
    (hb : bytesAt m a bs) : m.write a bs = m := by
  by_cases he : bs = []
  · subst he; rfl
  rw [Memory.write_eq _ _ _ he, ← Memory.filter_range_eq_cells h a bs hb]
  have key : ∀ l : Memory, l.Pairwise (fun x y => x.1 < y.1) → ∀ lo hi : Nat, lo ≤ hi →
      l.filter (fun c => decide (c.1 < lo)) ++ (l.filter (fun c => decide (lo ≤ c.1) && decide (c.1 < hi)) ++
        l.filter (fun c => decide (hi ≤ c.1))) = l := by
    intro l
    induction l with
    | nil => intro _ lo hi _; rfl
    | cons c l ih =>
      intro hp lo hi hle
      rw [List.pairwise_cons] at hp
      have hih := ih hp.2 lo hi hle
      have none_lt : ∀ n, n ≤ c.1 → l.filter (fun d => decide (d.1 < n)) = [] := by
        intro n hn
        rw [List.filter_eq_nil_iff]
        intro d hd
        have := hp.1 d hd
        simp only [decide_eq_true_eq]; omega
      by_cases h1 : c.1 < lo
      · have h2 : ¬ lo ≤ c.1 := by omega
        have h3 : ¬ hi ≤ c.1 := by omega
        simp only [List.filter_cons, h1, h2, h3, decide_true, decide_false, Bool.false_and, if_true, if_false,
          Bool.false_eq_true, List.cons_append, hih]
      · rw [none_lt lo (by omega)] at hih
        by_cases h3 : c.1 < hi
        · have h2 : lo ≤ c.1 := by omega
          have h4 : ¬ hi ≤ c.1 := by omega
          simp only [List.filter_cons, h1, h2, h3, h4, decide_true, decide_false, Bool.true_and, if_true, if_false,
            Bool.false_eq_true, none_lt lo (by omega), List.nil_append, List.cons_append] at hih ⊢
          rw [hih]
        · have h2 : lo ≤ c.1 := by omega
          have h4 : hi ≤ c.1 := by omega
          have hmid : l.filter (fun d => decide (lo ≤ d.1) && decide (d.1 < hi)) = [] := by
            rw [List.filter_eq_nil_iff]
            intro d hd
            have := hp.1 d hd
            simp only [Bool.and_eq_true, decide_eq_true_eq]; omega
          simp only [List.filter_cons, h1, h2, h3, h4, decide_true, decide_false, Bool.true_and, if_true, if_false,
            Bool.false_eq_true, none_lt lo (by omega), hmid, List.nil_append] at hih ⊢
          rw [hih]
  exact key m h.1 a (a + bs.length) (by omega)

/-- A range of a memory in canonical form reads as the bytes that stand there. -/
theorem Memory.read?_of_bytesAt {size : Nat} {m : Memory} (h : m.wf size) {a : Nat} {bs : List Byte}
    (hb : bytesAt m a bs) : m.read? a bs.length = some bs := by
  simp only [Memory.read?, Memory.filter_range_eq_cells h a bs hb, Memory.cells_fst, Memory.cells_snd, if_true]

/-- The bytes of a written range. -/
theorem bytesAt_of_written {m : Memory} {a n : Nat} (h : bytesWritten m a n) :
    ∃ bs : List Byte, bs.length = n ∧ bytesAt m a bs := by
  refine ⟨(List.range n).map fun i => (m.get? (a + i)).getD 0, by simp, ?_⟩
  intro i hi
  simp only [List.length_map, List.length_range] at hi
  have := h (a + i) (by omega) (by omega)
  obtain ⟨b, hb⟩ := Option.isSome_iff_exists.mp this
  simp [hb, hi]

/-- A range of a memory in canonical form that has been written can be read. -/
theorem Memory.read?_of_written {size : Nat} {m : Memory} (h : m.wf size) {a n : Nat}
    (hw : bytesWritten m a n) : ∃ bs, m.read? a n = some bs ∧ bs.length = n ∧ bytesAt m a bs := by
  obtain ⟨bs, hl, hb⟩ := bytesAt_of_written hw
  exact ⟨bs, hl ▸ Memory.read?_of_bytesAt h hb, hl, hb⟩

/-- What a range reads as stands there. -/
theorem Memory.bytesAt_of_read? {m : Memory} {a n : Nat} {bs : List Byte} (h : m.read? a n = some bs) :
    bs.length = n ∧ bytesAt m a bs := by
  unfold Memory.read? at h
  simp only at h
  split at h
  · rename_i hk
    have hbs := Option.some.inj h
    have hlen : bs.length = n := by
      rw [← hbs, List.length_map]
      have := congrArg List.length hk
      simpa using this
    refine ⟨hlen, ?_⟩
    have hcells : ∀ (l : Memory) (a n : Nat), l.map (·.1) = List.range' a n → l = Memory.cells a (l.map (·.2)) := by
      intro l
      induction l with
      | nil => intro a n _; rfl
      | cons c l ih =>
        intro a n hl
        cases n with
        | zero => simp at hl
        | succ n =>
          rw [List.range'_succ, List.map_cons, List.cons.injEq] at hl
          obtain ⟨x, v⟩ := c
          simp only at hl
          rw [List.map_cons, Memory.cells, ← ih (a + 1) n hl.2, hl.1]
    have hc := hcells _ _ _ hk
    rw [hbs] at hc
    intro i hi
    have hg := Memory.get?_filter (fun y => decide (a ≤ y) && decide (y < a + n)) m (a + i)
    rw [if_pos (by simp only [Bool.and_eq_true, decide_eq_true_eq]; omega)] at hg
    rw [← hg, hc, Memory.get?_cells, if_pos (by omega)]
    congr 1; omega
  · cases h

/-! ### Written ranges -/

theorem bytesWritten_zero (m : Memory) (a : Nat) : bytesWritten m a 0 := fun x h1 h2 => by omega

theorem bytesWritten_mono {m : Memory} {a n n' : Nat} (h : bytesWritten m a n) (hn : n' ≤ n) :
    bytesWritten m a n' := fun x h1 h2 => h x h1 (by omega)

/-- A write of the bytes right after a written range extends it. -/
theorem bytesWritten_write {m : Memory} {a n : Nat} (h : bytesWritten m a n) (bs : List Byte) :
    bytesWritten (m.write (a + n) bs) a (n + bs.length) := by
  intro x h1 h2
  by_cases hx : x < a + n
  · rw [Memory.get?_write_outside _ _ _ _ (Or.inl hx)]; exact h x h1 hx
  · rw [Memory.get?_write_inside _ _ _ _ (by omega) (by omega)]
    have : x - (a + n) < bs.length := by omega
    simp [this]

/-- A write leaves the bytes of a range before it. -/
theorem bytesAt_write_after {m : Memory} {a b : Nat} {bs cs : List Byte} (h : bytesAt m a bs)
    (hb : a + bs.length ≤ b) : bytesAt (m.write b cs) a bs := by
  intro i hi
  rw [Memory.get?_write_outside _ _ _ _ (Or.inl (by omega))]
  exact h i hi

/-- A written sequence stands where it was written. -/
theorem bytesAt_write (m : Memory) (a : Nat) (bs : List Byte) : bytesAt (m.write a bs) a bs := by
  intro i hi
  rw [Memory.get?_write_inside _ _ _ _ (by omega) (by omega)]
  congr 1; omega

theorem sameBytes_refl (m : Memory) (a n : Nat) : sameBytes m m a n := fun _ _ _ => rfl

/-- The same write right after ranges that agree extends the agreement. -/
theorem sameBytes_write {m m' : Memory} {a n : Nat} (h : sameBytes m m' a n) (bs : List Byte) :
    sameBytes (m.write (a + n) bs) (m'.write (a + n) bs) a (n + bs.length) := by
  intro x h1 h2
  by_cases hx : x < a + n
  · rw [Memory.get?_write_outside _ _ _ _ (Or.inl hx), Memory.get?_write_outside _ _ _ _ (Or.inl hx)]
    exact h x h1 hx
  · rw [Memory.get?_write_inside _ _ _ _ (by omega) (by omega),
      Memory.get?_write_inside _ _ _ _ (by omega) (by omega)]

end Sys2Proof.Machine
end

