-- ==== Sys2Proof/Laws/State.lean ====
section
/-! SUPPORT. One lemma for each field of the state under each named update, so that no later proof unfolds a
record update. -/

namespace Sys2Proof.Machine

/-! ### `flushState` -/

@[simp] theorem flushState_sOpen (s : State) : (flushState s).sOpen = s.sOpen := rfl
@[simp] theorem flushState_sVariant (s : State) : (flushState s).sVariant = s.sVariant := rfl
@[simp] theorem flushState_sOutBe (s : State) : (flushState s).sOutBe = s.sOutBe := rfl
@[simp] theorem flushState_sOutRate (s : State) : (flushState s).sOutRate = s.sOutRate := rfl
@[simp] theorem flushState_sBpf (s : State) : (flushState s).sBpf = s.sBpf := rfl
@[simp] theorem flushState_obActive (s : State) : (flushState s).obActive = false := rfl
@[simp] theorem flushState_obCap (s : State) : (flushState s).obCap = 0 := rfl
@[simp] theorem flushState_cursor (s : State) : (flushState s).cursor = 0 := rfl
@[simp] theorem flushState_obSamples (s : State) : (flushState s).obSamples = 0 := rfl
@[simp] theorem flushState_obPts (s : State) : (flushState s).obPts = 0 := rfl
@[simp] theorem flushState_obDts (s : State) : (flushState s).obDts = 0 := rfl
@[simp] theorem flushState_eac3Blocks (s : State) : (flushState s).eac3Blocks = 0 := rfl
@[simp] theorem flushState_dtshdSkip (s : State) : (flushState s).dtshdSkip = false := rfl
@[simp] theorem flushState_matIdx (s : State) : (flushState s).matIdx = false := rfl
@[simp] theorem flushState_matFill (s : State) : (flushState s).matFill = 0 := rfl
@[simp] theorem flushState_thdPrevSize (s : State) : (flushState s).thdPrevSize = 0 := rfl
@[simp] theorem flushState_thdPrevTime (s : State) : (flushState s).thdPrevTime = 0 := rfl
@[simp] theorem flushState_thdSpf (s : State) : (flushState s).thdSpf = 0 := rfl
@[simp] theorem flushState_thdFrameCount (s : State) : (flushState s).thdFrameCount = 0 := rfl
@[simp] theorem flushState_fault (s : State) : (flushState s).fault = s.fault := rfl
@[simp] theorem flushState_faultCause (s : State) : (flushState s).faultCause = s.faultCause := rfl
@[simp] theorem flushState_ctrl (s : State) : (flushState s).ctrl = s.ctrl := rfl
@[simp] theorem flushState_outRate (s : State) : (flushState s).outRate = s.outRate := rfl
@[simp] theorem flushState_verdict (s : State) : (flushState s).verdict = s.verdict := rfl
@[simp] theorem flushState_errKind (s : State) : (flushState s).errKind = s.errKind := rfl
@[simp] theorem flushState_pktValid (s : State) : (flushState s).pktValid = s.pktValid := rfl
@[simp] theorem flushState_downgradeNotice (s : State) : (flushState s).downgradeNotice = s.downgradeNotice := rfl
@[simp] theorem flushState_pktLen (s : State) : (flushState s).pktLen = s.pktLen := rfl
@[simp] theorem flushState_pktSamples (s : State) : (flushState s).pktSamples = s.pktSamples := rfl
@[simp] theorem flushState_frameIn (s : State) : (flushState s).frameIn = s.frameIn := rfl
@[simp] theorem flushState_pktOut (s : State) : (flushState s).pktOut = s.pktOut := rfl
@[simp] theorem flushState_ob (s : State) : (flushState s).ob = s.ob := rfl
@[simp] theorem flushState_mat0 (s : State) : (flushState s).mat0 = s.mat0 := rfl
@[simp] theorem flushState_mat1 (s : State) : (flushState s).mat1 = s.mat1 := rfl
@[simp] theorem flushState_host (s : State) : (flushState s).host = s.host := rfl
@[simp] theorem flushState_busRead (s : State) : (flushState s).busRead = s.busRead := rfl
@[simp] theorem flushState_uop (s : State) : (flushState s).uop = s.uop := rfl

/-! ### `clearPort` -/

@[simp] theorem clearPort_sOpen (s : State) : (clearPort s).sOpen = s.sOpen := rfl
@[simp] theorem clearPort_sVariant (s : State) : (clearPort s).sVariant = s.sVariant := rfl
@[simp] theorem clearPort_sOutBe (s : State) : (clearPort s).sOutBe = s.sOutBe := rfl
@[simp] theorem clearPort_sOutRate (s : State) : (clearPort s).sOutRate = s.sOutRate := rfl
@[simp] theorem clearPort_sBpf (s : State) : (clearPort s).sBpf = s.sBpf := rfl
@[simp] theorem clearPort_obActive (s : State) : (clearPort s).obActive = s.obActive := rfl
@[simp] theorem clearPort_obCap (s : State) : (clearPort s).obCap = s.obCap := rfl
@[simp] theorem clearPort_cursor (s : State) : (clearPort s).cursor = s.cursor := rfl
@[simp] theorem clearPort_obSamples (s : State) : (clearPort s).obSamples = s.obSamples := rfl
@[simp] theorem clearPort_obPts (s : State) : (clearPort s).obPts = s.obPts := rfl
@[simp] theorem clearPort_obDts (s : State) : (clearPort s).obDts = s.obDts := rfl
@[simp] theorem clearPort_eac3Blocks (s : State) : (clearPort s).eac3Blocks = s.eac3Blocks := rfl
@[simp] theorem clearPort_dtshdSkip (s : State) : (clearPort s).dtshdSkip = s.dtshdSkip := rfl
@[simp] theorem clearPort_matIdx (s : State) : (clearPort s).matIdx = s.matIdx := rfl
@[simp] theorem clearPort_matFill (s : State) : (clearPort s).matFill = s.matFill := rfl
@[simp] theorem clearPort_thdPrevSize (s : State) : (clearPort s).thdPrevSize = s.thdPrevSize := rfl
@[simp] theorem clearPort_thdPrevTime (s : State) : (clearPort s).thdPrevTime = s.thdPrevTime := rfl
@[simp] theorem clearPort_thdSpf (s : State) : (clearPort s).thdSpf = s.thdSpf := rfl
@[simp] theorem clearPort_thdFrameCount (s : State) : (clearPort s).thdFrameCount = s.thdFrameCount := rfl
@[simp] theorem clearPort_fault (s : State) : (clearPort s).fault = s.fault := rfl
@[simp] theorem clearPort_faultCause (s : State) : (clearPort s).faultCause = s.faultCause := rfl
@[simp] theorem clearPort_ctrl (s : State) : (clearPort s).ctrl = s.ctrl := rfl
@[simp] theorem clearPort_outRate (s : State) : (clearPort s).outRate = s.outRate := rfl
@[simp] theorem clearPort_verdict (s : State) : (clearPort s).verdict = s.verdict := rfl
@[simp] theorem clearPort_errKind (s : State) : (clearPort s).errKind = s.errKind := rfl
@[simp] theorem clearPort_pktValid (s : State) : (clearPort s).pktValid = false := rfl
@[simp] theorem clearPort_downgradeNotice (s : State) : (clearPort s).downgradeNotice = s.downgradeNotice := rfl
@[simp] theorem clearPort_pktLen (s : State) : (clearPort s).pktLen = 0 := rfl
@[simp] theorem clearPort_pktSamples (s : State) : (clearPort s).pktSamples = 0 := rfl
@[simp] theorem clearPort_frameIn (s : State) : (clearPort s).frameIn = s.frameIn := rfl
@[simp] theorem clearPort_pktOut (s : State) : (clearPort s).pktOut = none := rfl
@[simp] theorem clearPort_ob (s : State) : (clearPort s).ob = s.ob := rfl
@[simp] theorem clearPort_mat0 (s : State) : (clearPort s).mat0 = s.mat0 := rfl
@[simp] theorem clearPort_mat1 (s : State) : (clearPort s).mat1 = s.mat1 := rfl
@[simp] theorem clearPort_host (s : State) : (clearPort s).host = s.host := rfl
@[simp] theorem clearPort_busRead (s : State) : (clearPort s).busRead = s.busRead := rfl
@[simp] theorem clearPort_uop (s : State) : (clearPort s).uop = s.uop := rfl

/-! ### `commandStart` -/

@[simp] theorem commandStart_sOpen (s : State) : (commandStart s).sOpen = s.sOpen := rfl
@[simp] theorem commandStart_sVariant (s : State) : (commandStart s).sVariant = s.sVariant := rfl
@[simp] theorem commandStart_sOutBe (s : State) : (commandStart s).sOutBe = s.sOutBe := rfl
@[simp] theorem commandStart_sOutRate (s : State) : (commandStart s).sOutRate = s.sOutRate := rfl
@[simp] theorem commandStart_sBpf (s : State) : (commandStart s).sBpf = s.sBpf := rfl
@[simp] theorem commandStart_obActive (s : State) : (commandStart s).obActive = s.obActive := rfl
@[simp] theorem commandStart_obCap (s : State) : (commandStart s).obCap = s.obCap := rfl
@[simp] theorem commandStart_cursor (s : State) : (commandStart s).cursor = s.cursor := rfl
@[simp] theorem commandStart_obSamples (s : State) : (commandStart s).obSamples = s.obSamples := rfl
@[simp] theorem commandStart_obPts (s : State) : (commandStart s).obPts = s.obPts := rfl
@[simp] theorem commandStart_obDts (s : State) : (commandStart s).obDts = s.obDts := rfl
@[simp] theorem commandStart_eac3Blocks (s : State) : (commandStart s).eac3Blocks = s.eac3Blocks := rfl
@[simp] theorem commandStart_dtshdSkip (s : State) : (commandStart s).dtshdSkip = s.dtshdSkip := rfl
@[simp] theorem commandStart_matIdx (s : State) : (commandStart s).matIdx = s.matIdx := rfl
@[simp] theorem commandStart_matFill (s : State) : (commandStart s).matFill = s.matFill := rfl
@[simp] theorem commandStart_thdPrevSize (s : State) : (commandStart s).thdPrevSize = s.thdPrevSize := rfl
@[simp] theorem commandStart_thdPrevTime (s : State) : (commandStart s).thdPrevTime = s.thdPrevTime := rfl
@[simp] theorem commandStart_thdSpf (s : State) : (commandStart s).thdSpf = s.thdSpf := rfl
@[simp] theorem commandStart_thdFrameCount (s : State) : (commandStart s).thdFrameCount = s.thdFrameCount := rfl
@[simp] theorem commandStart_fault (s : State) : (commandStart s).fault = s.fault := rfl
@[simp] theorem commandStart_faultCause (s : State) : (commandStart s).faultCause = s.faultCause := rfl
@[simp] theorem commandStart_ctrl (s : State) : (commandStart s).ctrl = s.ctrl := rfl
@[simp] theorem commandStart_outRate (s : State) : (commandStart s).outRate = s.outRate := rfl
@[simp] theorem commandStart_verdict (s : State) : (commandStart s).verdict = s.verdict := rfl
@[simp] theorem commandStart_errKind (s : State) : (commandStart s).errKind = s.errKind := rfl
@[simp] theorem commandStart_pktValid (s : State) : (commandStart s).pktValid = false := rfl
@[simp] theorem commandStart_downgradeNotice (s : State) : (commandStart s).downgradeNotice = false := rfl
@[simp] theorem commandStart_pktLen (s : State) : (commandStart s).pktLen = 0 := rfl
@[simp] theorem commandStart_pktSamples (s : State) : (commandStart s).pktSamples = 0 := rfl
@[simp] theorem commandStart_frameIn (s : State) : (commandStart s).frameIn = s.frameIn := rfl
@[simp] theorem commandStart_pktOut (s : State) : (commandStart s).pktOut = none := rfl
@[simp] theorem commandStart_ob (s : State) : (commandStart s).ob = s.ob := rfl
@[simp] theorem commandStart_mat0 (s : State) : (commandStart s).mat0 = s.mat0 := rfl
@[simp] theorem commandStart_mat1 (s : State) : (commandStart s).mat1 = s.mat1 := rfl
@[simp] theorem commandStart_host (s : State) : (commandStart s).host = s.host := rfl
@[simp] theorem commandStart_busRead (s : State) : (commandStart s).busRead = s.busRead := rfl
@[simp] theorem commandStart_uop (s : State) : (commandStart s).uop = s.uop := rfl

/-! ### `recordVerdict` -/

@[simp] theorem recordVerdict_sOpen (v : Verdict) (k : ErrKind) (s : State) : (recordVerdict v k s).sOpen = s.sOpen := rfl
@[simp] theorem recordVerdict_sVariant (v : Verdict) (k : ErrKind) (s : State) : (recordVerdict v k s).sVariant = s.sVariant := rfl
@[simp] theorem recordVerdict_sOutBe (v : Verdict) (k : ErrKind) (s : State) : (recordVerdict v k s).sOutBe = s.sOutBe := rfl
@[simp] theorem recordVerdict_sOutRate (v : Verdict) (k : ErrKind) (s : State) : (recordVerdict v k s).sOutRate = s.sOutRate := rfl
@[simp] theorem recordVerdict_sBpf (v : Verdict) (k : ErrKind) (s : State) : (recordVerdict v k s).sBpf = s.sBpf := rfl
@[simp] theorem recordVerdict_obActive (v : Verdict) (k : ErrKind) (s : State) : (recordVerdict v k s).obActive = s.obActive := rfl
@[simp] theorem recordVerdict_obCap (v : Verdict) (k : ErrKind) (s : State) : (recordVerdict v k s).obCap = s.obCap := rfl
@[simp] theorem recordVerdict_cursor (v : Verdict) (k : ErrKind) (s : State) : (recordVerdict v k s).cursor = s.cursor := rfl
@[simp] theorem recordVerdict_obSamples (v : Verdict) (k : ErrKind) (s : State) : (recordVerdict v k s).obSamples = s.obSamples := rfl
@[simp] theorem recordVerdict_obPts (v : Verdict) (k : ErrKind) (s : State) : (recordVerdict v k s).obPts = s.obPts := rfl
@[simp] theorem recordVerdict_obDts (v : Verdict) (k : ErrKind) (s : State) : (recordVerdict v k s).obDts = s.obDts := rfl
@[simp] theorem recordVerdict_eac3Blocks (v : Verdict) (k : ErrKind) (s : State) : (recordVerdict v k s).eac3Blocks = s.eac3Blocks := rfl
@[simp] theorem recordVerdict_dtshdSkip (v : Verdict) (k : ErrKind) (s : State) : (recordVerdict v k s).dtshdSkip = s.dtshdSkip := rfl
@[simp] theorem recordVerdict_matIdx (v : Verdict) (k : ErrKind) (s : State) : (recordVerdict v k s).matIdx = s.matIdx := rfl
@[simp] theorem recordVerdict_matFill (v : Verdict) (k : ErrKind) (s : State) : (recordVerdict v k s).matFill = s.matFill := rfl
@[simp] theorem recordVerdict_thdPrevSize (v : Verdict) (k : ErrKind) (s : State) : (recordVerdict v k s).thdPrevSize = s.thdPrevSize := rfl
@[simp] theorem recordVerdict_thdPrevTime (v : Verdict) (k : ErrKind) (s : State) : (recordVerdict v k s).thdPrevTime = s.thdPrevTime := rfl
@[simp] theorem recordVerdict_thdSpf (v : Verdict) (k : ErrKind) (s : State) : (recordVerdict v k s).thdSpf = s.thdSpf := rfl
@[simp] theorem recordVerdict_thdFrameCount (v : Verdict) (k : ErrKind) (s : State) : (recordVerdict v k s).thdFrameCount = s.thdFrameCount := rfl
@[simp] theorem recordVerdict_fault (v : Verdict) (k : ErrKind) (s : State) : (recordVerdict v k s).fault = s.fault := rfl
@[simp] theorem recordVerdict_faultCause (v : Verdict) (k : ErrKind) (s : State) : (recordVerdict v k s).faultCause = s.faultCause := rfl
@[simp] theorem recordVerdict_ctrl (v : Verdict) (k : ErrKind) (s : State) : (recordVerdict v k s).ctrl = s.ctrl := rfl
@[simp] theorem recordVerdict_outRate (v : Verdict) (k : ErrKind) (s : State) : (recordVerdict v k s).outRate = s.outRate := rfl
@[simp] theorem recordVerdict_verdict (v : Verdict) (k : ErrKind) (s : State) : (recordVerdict v k s).verdict = v := rfl
@[simp] theorem recordVerdict_errKind (v : Verdict) (k : ErrKind) (s : State) : (recordVerdict v k s).errKind = k := rfl
@[simp] theorem recordVerdict_pktValid (v : Verdict) (k : ErrKind) (s : State) : (recordVerdict v k s).pktValid = s.pktValid := rfl
@[simp] theorem recordVerdict_downgradeNotice (v : Verdict) (k : ErrKind) (s : State) : (recordVerdict v k s).downgradeNotice = s.downgradeNotice := rfl
@[simp] theorem recordVerdict_pktLen (v : Verdict) (k : ErrKind) (s : State) : (recordVerdict v k s).pktLen = s.pktLen := rfl
@[simp] theorem recordVerdict_pktSamples (v : Verdict) (k : ErrKind) (s : State) : (recordVerdict v k s).pktSamples = s.pktSamples := rfl
@[simp] theorem recordVerdict_frameIn (v : Verdict) (k : ErrKind) (s : State) : (recordVerdict v k s).frameIn = s.frameIn := rfl
@[simp] theorem recordVerdict_pktOut (v : Verdict) (k : ErrKind) (s : State) : (recordVerdict v k s).pktOut = s.pktOut := rfl
@[simp] theorem recordVerdict_ob (v : Verdict) (k : ErrKind) (s : State) : (recordVerdict v k s).ob = s.ob := rfl
@[simp] theorem recordVerdict_mat0 (v : Verdict) (k : ErrKind) (s : State) : (recordVerdict v k s).mat0 = s.mat0 := rfl
@[simp] theorem recordVerdict_mat1 (v : Verdict) (k : ErrKind) (s : State) : (recordVerdict v k s).mat1 = s.mat1 := rfl
@[simp] theorem recordVerdict_host (v : Verdict) (k : ErrKind) (s : State) : (recordVerdict v k s).host = s.host := rfl
@[simp] theorem recordVerdict_busRead (v : Verdict) (k : ErrKind) (s : State) : (recordVerdict v k s).busRead = s.busRead := rfl
@[simp] theorem recordVerdict_uop (v : Verdict) (k : ErrKind) (s : State) : (recordVerdict v k s).uop = s.uop := rfl

/-! ### `advanceCursor` -/

@[simp] theorem advanceCursor_sOpen (n : Nat) (s : State) : (advanceCursor n s).sOpen = s.sOpen := rfl
@[simp] theorem advanceCursor_sVariant (n : Nat) (s : State) : (advanceCursor n s).sVariant = s.sVariant := rfl
@[simp] theorem advanceCursor_sOutBe (n : Nat) (s : State) : (advanceCursor n s).sOutBe = s.sOutBe := rfl
@[simp] theorem advanceCursor_sOutRate (n : Nat) (s : State) : (advanceCursor n s).sOutRate = s.sOutRate := rfl
@[simp] theorem advanceCursor_sBpf (n : Nat) (s : State) : (advanceCursor n s).sBpf = s.sBpf := rfl
@[simp] theorem advanceCursor_obActive (n : Nat) (s : State) : (advanceCursor n s).obActive = s.obActive := rfl
@[simp] theorem advanceCursor_obCap (n : Nat) (s : State) : (advanceCursor n s).obCap = s.obCap := rfl
@[simp] theorem advanceCursor_cursor (n : Nat) (s : State) : (advanceCursor n s).cursor = BitVec.ofNat 17 (s.cursor.toNat + n) := rfl
@[simp] theorem advanceCursor_obSamples (n : Nat) (s : State) : (advanceCursor n s).obSamples = s.obSamples := rfl
@[simp] theorem advanceCursor_obPts (n : Nat) (s : State) : (advanceCursor n s).obPts = s.obPts := rfl
@[simp] theorem advanceCursor_obDts (n : Nat) (s : State) : (advanceCursor n s).obDts = s.obDts := rfl
@[simp] theorem advanceCursor_eac3Blocks (n : Nat) (s : State) : (advanceCursor n s).eac3Blocks = s.eac3Blocks := rfl
@[simp] theorem advanceCursor_dtshdSkip (n : Nat) (s : State) : (advanceCursor n s).dtshdSkip = s.dtshdSkip := rfl
@[simp] theorem advanceCursor_matIdx (n : Nat) (s : State) : (advanceCursor n s).matIdx = s.matIdx := rfl
@[simp] theorem advanceCursor_matFill (n : Nat) (s : State) : (advanceCursor n s).matFill = s.matFill := rfl
@[simp] theorem advanceCursor_thdPrevSize (n : Nat) (s : State) : (advanceCursor n s).thdPrevSize = s.thdPrevSize := rfl
@[simp] theorem advanceCursor_thdPrevTime (n : Nat) (s : State) : (advanceCursor n s).thdPrevTime = s.thdPrevTime := rfl
@[simp] theorem advanceCursor_thdSpf (n : Nat) (s : State) : (advanceCursor n s).thdSpf = s.thdSpf := rfl
@[simp] theorem advanceCursor_thdFrameCount (n : Nat) (s : State) : (advanceCursor n s).thdFrameCount = s.thdFrameCount := rfl
@[simp] theorem advanceCursor_fault (n : Nat) (s : State) : (advanceCursor n s).fault = s.fault := rfl
@[simp] theorem advanceCursor_faultCause (n : Nat) (s : State) : (advanceCursor n s).faultCause = s.faultCause := rfl
@[simp] theorem advanceCursor_ctrl (n : Nat) (s : State) : (advanceCursor n s).ctrl = s.ctrl := rfl
@[simp] theorem advanceCursor_outRate (n : Nat) (s : State) : (advanceCursor n s).outRate = s.outRate := rfl
@[simp] theorem advanceCursor_verdict (n : Nat) (s : State) : (advanceCursor n s).verdict = s.verdict := rfl
@[simp] theorem advanceCursor_errKind (n : Nat) (s : State) : (advanceCursor n s).errKind = s.errKind := rfl
@[simp] theorem advanceCursor_pktValid (n : Nat) (s : State) : (advanceCursor n s).pktValid = s.pktValid := rfl
@[simp] theorem advanceCursor_downgradeNotice (n : Nat) (s : State) : (advanceCursor n s).downgradeNotice = s.downgradeNotice := rfl
@[simp] theorem advanceCursor_pktLen (n : Nat) (s : State) : (advanceCursor n s).pktLen = s.pktLen := rfl
@[simp] theorem advanceCursor_pktSamples (n : Nat) (s : State) : (advanceCursor n s).pktSamples = s.pktSamples := rfl
@[simp] theorem advanceCursor_frameIn (n : Nat) (s : State) : (advanceCursor n s).frameIn = s.frameIn := rfl
@[simp] theorem advanceCursor_pktOut (n : Nat) (s : State) : (advanceCursor n s).pktOut = s.pktOut := rfl
@[simp] theorem advanceCursor_ob (n : Nat) (s : State) : (advanceCursor n s).ob = s.ob := rfl
@[simp] theorem advanceCursor_mat0 (n : Nat) (s : State) : (advanceCursor n s).mat0 = s.mat0 := rfl
@[simp] theorem advanceCursor_mat1 (n : Nat) (s : State) : (advanceCursor n s).mat1 = s.mat1 := rfl
@[simp] theorem advanceCursor_host (n : Nat) (s : State) : (advanceCursor n s).host = s.host := rfl
@[simp] theorem advanceCursor_busRead (n : Nat) (s : State) : (advanceCursor n s).busRead = s.busRead := rfl
@[simp] theorem advanceCursor_uop (n : Nat) (s : State) : (advanceCursor n s).uop = s.uop := rfl

/-! ### `openLatch` -/

@[simp] theorem openLatch_sOpen (v : BitVec 3) (s : State) : (openLatch v s).sOpen = true := rfl
@[simp] theorem openLatch_sVariant (v : BitVec 3) (s : State) : (openLatch v s).sVariant = v := rfl
@[simp] theorem openLatch_sOutBe (v : BitVec 3) (s : State) : (openLatch v s).sOutBe = ctrlOutBe s.ctrl := rfl
@[simp] theorem openLatch_sOutRate (v : BitVec 3) (s : State) : (openLatch v s).sOutRate = s.outRate := rfl
@[simp] theorem openLatch_sBpf (v : BitVec 3) (s : State) : (openLatch v s).sBpf = ctrlBpf s.ctrl := rfl
@[simp] theorem openLatch_obActive (v : BitVec 3) (s : State) : (openLatch v s).obActive = false := rfl
@[simp] theorem openLatch_obCap (v : BitVec 3) (s : State) : (openLatch v s).obCap = 0 := rfl
@[simp] theorem openLatch_cursor (v : BitVec 3) (s : State) : (openLatch v s).cursor = 0 := rfl
@[simp] theorem openLatch_obSamples (v : BitVec 3) (s : State) : (openLatch v s).obSamples = 0 := rfl
@[simp] theorem openLatch_obPts (v : BitVec 3) (s : State) : (openLatch v s).obPts = 0 := rfl
@[simp] theorem openLatch_obDts (v : BitVec 3) (s : State) : (openLatch v s).obDts = 0 := rfl
@[simp] theorem openLatch_eac3Blocks (v : BitVec 3) (s : State) : (openLatch v s).eac3Blocks = 0 := rfl
@[simp] theorem openLatch_dtshdSkip (v : BitVec 3) (s : State) : (openLatch v s).dtshdSkip = false := rfl
@[simp] theorem openLatch_matIdx (v : BitVec 3) (s : State) : (openLatch v s).matIdx = false := rfl
@[simp] theorem openLatch_matFill (v : BitVec 3) (s : State) : (openLatch v s).matFill = 0 := rfl
@[simp] theorem openLatch_thdPrevSize (v : BitVec 3) (s : State) : (openLatch v s).thdPrevSize = 0 := rfl
@[simp] theorem openLatch_thdPrevTime (v : BitVec 3) (s : State) : (openLatch v s).thdPrevTime = 0 := rfl
@[simp] theorem openLatch_thdSpf (v : BitVec 3) (s : State) : (openLatch v s).thdSpf = 0 := rfl
@[simp] theorem openLatch_thdFrameCount (v : BitVec 3) (s : State) : (openLatch v s).thdFrameCount = 0 := rfl
@[simp] theorem openLatch_fault (v : BitVec 3) (s : State) : (openLatch v s).fault = s.fault := rfl
@[simp] theorem openLatch_faultCause (v : BitVec 3) (s : State) : (openLatch v s).faultCause = s.faultCause := rfl
@[simp] theorem openLatch_ctrl (v : BitVec 3) (s : State) : (openLatch v s).ctrl = s.ctrl := rfl
@[simp] theorem openLatch_outRate (v : BitVec 3) (s : State) : (openLatch v s).outRate = s.outRate := rfl
@[simp] theorem openLatch_verdict (v : BitVec 3) (s : State) : (openLatch v s).verdict = s.verdict := rfl
@[simp] theorem openLatch_errKind (v : BitVec 3) (s : State) : (openLatch v s).errKind = s.errKind := rfl
@[simp] theorem openLatch_pktValid (v : BitVec 3) (s : State) : (openLatch v s).pktValid = s.pktValid := rfl
@[simp] theorem openLatch_downgradeNotice (v : BitVec 3) (s : State) : (openLatch v s).downgradeNotice = s.downgradeNotice := rfl
@[simp] theorem openLatch_pktLen (v : BitVec 3) (s : State) : (openLatch v s).pktLen = s.pktLen := rfl
@[simp] theorem openLatch_pktSamples (v : BitVec 3) (s : State) : (openLatch v s).pktSamples = s.pktSamples := rfl
@[simp] theorem openLatch_frameIn (v : BitVec 3) (s : State) : (openLatch v s).frameIn = s.frameIn := rfl
@[simp] theorem openLatch_pktOut (v : BitVec 3) (s : State) : (openLatch v s).pktOut = s.pktOut := rfl
@[simp] theorem openLatch_ob (v : BitVec 3) (s : State) : (openLatch v s).ob = s.ob := rfl
@[simp] theorem openLatch_mat0 (v : BitVec 3) (s : State) : (openLatch v s).mat0 = s.mat0 := rfl
@[simp] theorem openLatch_mat1 (v : BitVec 3) (s : State) : (openLatch v s).mat1 = s.mat1 := rfl
@[simp] theorem openLatch_host (v : BitVec 3) (s : State) : (openLatch v s).host = s.host := rfl
@[simp] theorem openLatch_busRead (v : BitVec 3) (s : State) : (openLatch v s).busRead = s.busRead := rfl
@[simp] theorem openLatch_uop (v : BitVec 3) (s : State) : (openLatch v s).uop = s.uop := rfl

/-! ### `closeLatch` -/

@[simp] theorem closeLatch_sOpen (s : State) : (closeLatch s).sOpen = false := rfl
@[simp] theorem closeLatch_sVariant (s : State) : (closeLatch s).sVariant = 0 := rfl
@[simp] theorem closeLatch_sOutBe (s : State) : (closeLatch s).sOutBe = false := rfl
@[simp] theorem closeLatch_sOutRate (s : State) : (closeLatch s).sOutRate = 0 := rfl
@[simp] theorem closeLatch_sBpf (s : State) : (closeLatch s).sBpf = 0 := rfl
@[simp] theorem closeLatch_obActive (s : State) : (closeLatch s).obActive = false := rfl
@[simp] theorem closeLatch_obCap (s : State) : (closeLatch s).obCap = 0 := rfl
@[simp] theorem closeLatch_cursor (s : State) : (closeLatch s).cursor = 0 := rfl
@[simp] theorem closeLatch_obSamples (s : State) : (closeLatch s).obSamples = 0 := rfl
@[simp] theorem closeLatch_obPts (s : State) : (closeLatch s).obPts = 0 := rfl
@[simp] theorem closeLatch_obDts (s : State) : (closeLatch s).obDts = 0 := rfl
@[simp] theorem closeLatch_eac3Blocks (s : State) : (closeLatch s).eac3Blocks = 0 := rfl
@[simp] theorem closeLatch_dtshdSkip (s : State) : (closeLatch s).dtshdSkip = false := rfl
@[simp] theorem closeLatch_matIdx (s : State) : (closeLatch s).matIdx = false := rfl
@[simp] theorem closeLatch_matFill (s : State) : (closeLatch s).matFill = 0 := rfl
@[simp] theorem closeLatch_thdPrevSize (s : State) : (closeLatch s).thdPrevSize = 0 := rfl
@[simp] theorem closeLatch_thdPrevTime (s : State) : (closeLatch s).thdPrevTime = 0 := rfl
@[simp] theorem closeLatch_thdSpf (s : State) : (closeLatch s).thdSpf = 0 := rfl
@[simp] theorem closeLatch_thdFrameCount (s : State) : (closeLatch s).thdFrameCount = 0 := rfl
@[simp] theorem closeLatch_fault (s : State) : (closeLatch s).fault = s.fault := rfl
@[simp] theorem closeLatch_faultCause (s : State) : (closeLatch s).faultCause = s.faultCause := rfl
@[simp] theorem closeLatch_ctrl (s : State) : (closeLatch s).ctrl = s.ctrl := rfl
@[simp] theorem closeLatch_outRate (s : State) : (closeLatch s).outRate = s.outRate := rfl
@[simp] theorem closeLatch_verdict (s : State) : (closeLatch s).verdict = s.verdict := rfl
@[simp] theorem closeLatch_errKind (s : State) : (closeLatch s).errKind = s.errKind := rfl
@[simp] theorem closeLatch_pktValid (s : State) : (closeLatch s).pktValid = s.pktValid := rfl
@[simp] theorem closeLatch_downgradeNotice (s : State) : (closeLatch s).downgradeNotice = s.downgradeNotice := rfl
@[simp] theorem closeLatch_pktLen (s : State) : (closeLatch s).pktLen = s.pktLen := rfl
@[simp] theorem closeLatch_pktSamples (s : State) : (closeLatch s).pktSamples = s.pktSamples := rfl
@[simp] theorem closeLatch_frameIn (s : State) : (closeLatch s).frameIn = s.frameIn := rfl
@[simp] theorem closeLatch_pktOut (s : State) : (closeLatch s).pktOut = s.pktOut := rfl
@[simp] theorem closeLatch_ob (s : State) : (closeLatch s).ob = s.ob := rfl
@[simp] theorem closeLatch_mat0 (s : State) : (closeLatch s).mat0 = s.mat0 := rfl
@[simp] theorem closeLatch_mat1 (s : State) : (closeLatch s).mat1 = s.mat1 := rfl
@[simp] theorem closeLatch_host (s : State) : (closeLatch s).host = s.host := rfl
@[simp] theorem closeLatch_busRead (s : State) : (closeLatch s).busRead = s.busRead := rfl
@[simp] theorem closeLatch_uop (s : State) : (closeLatch s).uop = s.uop := rfl

/-! ### `matCommit` -/

@[simp] theorem matCommit_sOpen (w : MatWork) (s : State) : (matCommit w s).sOpen = s.sOpen := rfl
@[simp] theorem matCommit_sVariant (w : MatWork) (s : State) : (matCommit w s).sVariant = s.sVariant := rfl
@[simp] theorem matCommit_sOutBe (w : MatWork) (s : State) : (matCommit w s).sOutBe = s.sOutBe := rfl
@[simp] theorem matCommit_sOutRate (w : MatWork) (s : State) : (matCommit w s).sOutRate = s.sOutRate := rfl
@[simp] theorem matCommit_sBpf (w : MatWork) (s : State) : (matCommit w s).sBpf = s.sBpf := rfl
@[simp] theorem matCommit_obActive (w : MatWork) (s : State) : (matCommit w s).obActive = s.obActive := rfl
@[simp] theorem matCommit_obCap (w : MatWork) (s : State) : (matCommit w s).obCap = s.obCap := rfl
@[simp] theorem matCommit_cursor (w : MatWork) (s : State) : (matCommit w s).cursor = s.cursor := rfl
@[simp] theorem matCommit_obSamples (w : MatWork) (s : State) : (matCommit w s).obSamples = s.obSamples := rfl
@[simp] theorem matCommit_obPts (w : MatWork) (s : State) : (matCommit w s).obPts = s.obPts := rfl
@[simp] theorem matCommit_obDts (w : MatWork) (s : State) : (matCommit w s).obDts = s.obDts := rfl
@[simp] theorem matCommit_eac3Blocks (w : MatWork) (s : State) : (matCommit w s).eac3Blocks = s.eac3Blocks := rfl
@[simp] theorem matCommit_dtshdSkip (w : MatWork) (s : State) : (matCommit w s).dtshdSkip = s.dtshdSkip := rfl
@[simp] theorem matCommit_matIdx (w : MatWork) (s : State) : (matCommit w s).matIdx = w.idx := rfl
@[simp] theorem matCommit_matFill (w : MatWork) (s : State) : (matCommit w s).matFill = BitVec.ofNat 16 w.fill := rfl
@[simp] theorem matCommit_thdPrevSize (w : MatWork) (s : State) : (matCommit w s).thdPrevSize = s.thdPrevSize := rfl
@[simp] theorem matCommit_thdPrevTime (w : MatWork) (s : State) : (matCommit w s).thdPrevTime = s.thdPrevTime := rfl
@[simp] theorem matCommit_thdSpf (w : MatWork) (s : State) : (matCommit w s).thdSpf = s.thdSpf := rfl
@[simp] theorem matCommit_thdFrameCount (w : MatWork) (s : State) : (matCommit w s).thdFrameCount = s.thdFrameCount := rfl
@[simp] theorem matCommit_fault (w : MatWork) (s : State) : (matCommit w s).fault = s.fault := rfl
@[simp] theorem matCommit_faultCause (w : MatWork) (s : State) : (matCommit w s).faultCause = s.faultCause := rfl
@[simp] theorem matCommit_ctrl (w : MatWork) (s : State) : (matCommit w s).ctrl = s.ctrl := rfl
@[simp] theorem matCommit_outRate (w : MatWork) (s : State) : (matCommit w s).outRate = s.outRate := rfl
@[simp] theorem matCommit_verdict (w : MatWork) (s : State) : (matCommit w s).verdict = s.verdict := rfl
@[simp] theorem matCommit_errKind (w : MatWork) (s : State) : (matCommit w s).errKind = s.errKind := rfl
@[simp] theorem matCommit_pktValid (w : MatWork) (s : State) : (matCommit w s).pktValid = s.pktValid := rfl
@[simp] theorem matCommit_downgradeNotice (w : MatWork) (s : State) : (matCommit w s).downgradeNotice = s.downgradeNotice := rfl
@[simp] theorem matCommit_pktLen (w : MatWork) (s : State) : (matCommit w s).pktLen = s.pktLen := rfl
@[simp] theorem matCommit_pktSamples (w : MatWork) (s : State) : (matCommit w s).pktSamples = s.pktSamples := rfl
@[simp] theorem matCommit_frameIn (w : MatWork) (s : State) : (matCommit w s).frameIn = s.frameIn := rfl
@[simp] theorem matCommit_pktOut (w : MatWork) (s : State) : (matCommit w s).pktOut = s.pktOut := rfl
@[simp] theorem matCommit_ob (w : MatWork) (s : State) : (matCommit w s).ob = s.ob := rfl
@[simp] theorem matCommit_mat0 (w : MatWork) (s : State) : (matCommit w s).mat0 = w.mat0 := rfl
@[simp] theorem matCommit_mat1 (w : MatWork) (s : State) : (matCommit w s).mat1 = w.mat1 := rfl
@[simp] theorem matCommit_host (w : MatWork) (s : State) : (matCommit w s).host = s.host := rfl
@[simp] theorem matCommit_busRead (w : MatWork) (s : State) : (matCommit w s).busRead = s.busRead := rfl
@[simp] theorem matCommit_uop (w : MatWork) (s : State) : (matCommit w s).uop = s.uop := rfl

/-! ### `thdAccount` -/

@[simp] theorem thdAccount_sOpen (t : Half) (w : MatWork) (s : State) : (thdAccount t w s).sOpen = s.sOpen := rfl
@[simp] theorem thdAccount_sVariant (t : Half) (w : MatWork) (s : State) : (thdAccount t w s).sVariant = s.sVariant := rfl
@[simp] theorem thdAccount_sOutBe (t : Half) (w : MatWork) (s : State) : (thdAccount t w s).sOutBe = s.sOutBe := rfl
@[simp] theorem thdAccount_sOutRate (t : Half) (w : MatWork) (s : State) : (thdAccount t w s).sOutRate = s.sOutRate := rfl
@[simp] theorem thdAccount_sBpf (t : Half) (w : MatWork) (s : State) : (thdAccount t w s).sBpf = s.sBpf := rfl
@[simp] theorem thdAccount_obActive (t : Half) (w : MatWork) (s : State) : (thdAccount t w s).obActive = s.obActive := rfl
@[simp] theorem thdAccount_obCap (t : Half) (w : MatWork) (s : State) : (thdAccount t w s).obCap = s.obCap := rfl
@[simp] theorem thdAccount_cursor (t : Half) (w : MatWork) (s : State) : (thdAccount t w s).cursor = s.cursor := rfl
@[simp] theorem thdAccount_obSamples (t : Half) (w : MatWork) (s : State) : (thdAccount t w s).obSamples = s.obSamples := rfl
@[simp] theorem thdAccount_obPts (t : Half) (w : MatWork) (s : State) : (thdAccount t w s).obPts = s.obPts := rfl
@[simp] theorem thdAccount_obDts (t : Half) (w : MatWork) (s : State) : (thdAccount t w s).obDts = s.obDts := rfl
@[simp] theorem thdAccount_eac3Blocks (t : Half) (w : MatWork) (s : State) : (thdAccount t w s).eac3Blocks = s.eac3Blocks := rfl
@[simp] theorem thdAccount_dtshdSkip (t : Half) (w : MatWork) (s : State) : (thdAccount t w s).dtshdSkip = s.dtshdSkip := rfl
@[simp] theorem thdAccount_matIdx (t : Half) (w : MatWork) (s : State) : (thdAccount t w s).matIdx = s.matIdx := rfl
@[simp] theorem thdAccount_matFill (t : Half) (w : MatWork) (s : State) : (thdAccount t w s).matFill = s.matFill := rfl
@[simp] theorem thdAccount_thdPrevSize (t : Half) (w : MatWork) (s : State) : (thdAccount t w s).thdPrevSize = BitVec.ofNat 32 w.total := rfl
@[simp] theorem thdAccount_thdPrevTime (t : Half) (w : MatWork) (s : State) : (thdAccount t w s).thdPrevTime = t := rfl
@[simp] theorem thdAccount_thdSpf (t : Half) (w : MatWork) (s : State) : (thdAccount t w s).thdSpf = s.thdSpf := rfl
@[simp] theorem thdAccount_thdFrameCount (t : Half) (w : MatWork) (s : State) : (thdAccount t w s).thdFrameCount = thdCount w.done s.thdFrameCount := rfl
@[simp] theorem thdAccount_fault (t : Half) (w : MatWork) (s : State) : (thdAccount t w s).fault = s.fault := rfl
@[simp] theorem thdAccount_faultCause (t : Half) (w : MatWork) (s : State) : (thdAccount t w s).faultCause = s.faultCause := rfl
@[simp] theorem thdAccount_ctrl (t : Half) (w : MatWork) (s : State) : (thdAccount t w s).ctrl = s.ctrl := rfl
@[simp] theorem thdAccount_outRate (t : Half) (w : MatWork) (s : State) : (thdAccount t w s).outRate = s.outRate := rfl
@[simp] theorem thdAccount_verdict (t : Half) (w : MatWork) (s : State) : (thdAccount t w s).verdict = s.verdict := rfl
@[simp] theorem thdAccount_errKind (t : Half) (w : MatWork) (s : State) : (thdAccount t w s).errKind = s.errKind := rfl
@[simp] theorem thdAccount_pktValid (t : Half) (w : MatWork) (s : State) : (thdAccount t w s).pktValid = s.pktValid := rfl
@[simp] theorem thdAccount_downgradeNotice (t : Half) (w : MatWork) (s : State) : (thdAccount t w s).downgradeNotice = s.downgradeNotice := rfl
@[simp] theorem thdAccount_pktLen (t : Half) (w : MatWork) (s : State) : (thdAccount t w s).pktLen = s.pktLen := rfl
@[simp] theorem thdAccount_pktSamples (t : Half) (w : MatWork) (s : State) : (thdAccount t w s).pktSamples = s.pktSamples := rfl
@[simp] theorem thdAccount_frameIn (t : Half) (w : MatWork) (s : State) : (thdAccount t w s).frameIn = s.frameIn := rfl
@[simp] theorem thdAccount_pktOut (t : Half) (w : MatWork) (s : State) : (thdAccount t w s).pktOut = s.pktOut := rfl
@[simp] theorem thdAccount_ob (t : Half) (w : MatWork) (s : State) : (thdAccount t w s).ob = s.ob := rfl
@[simp] theorem thdAccount_mat0 (t : Half) (w : MatWork) (s : State) : (thdAccount t w s).mat0 = s.mat0 := rfl
@[simp] theorem thdAccount_mat1 (t : Half) (w : MatWork) (s : State) : (thdAccount t w s).mat1 = s.mat1 := rfl
@[simp] theorem thdAccount_host (t : Half) (w : MatWork) (s : State) : (thdAccount t w s).host = s.host := rfl
@[simp] theorem thdAccount_busRead (t : Half) (w : MatWork) (s : State) : (thdAccount t w s).busRead = s.busRead := rfl
@[simp] theorem thdAccount_uop (t : Half) (w : MatWork) (s : State) : (thdAccount t w s).uop = s.uop := rfl

/-! ### `popHost` -/

@[simp] theorem popHost_sOpen (s : State) : (popHost s).sOpen = s.sOpen := rfl
@[simp] theorem popHost_sVariant (s : State) : (popHost s).sVariant = s.sVariant := rfl
@[simp] theorem popHost_sOutBe (s : State) : (popHost s).sOutBe = s.sOutBe := rfl
@[simp] theorem popHost_sOutRate (s : State) : (popHost s).sOutRate = s.sOutRate := rfl
@[simp] theorem popHost_sBpf (s : State) : (popHost s).sBpf = s.sBpf := rfl
@[simp] theorem popHost_obActive (s : State) : (popHost s).obActive = s.obActive := rfl
@[simp] theorem popHost_obCap (s : State) : (popHost s).obCap = s.obCap := rfl
@[simp] theorem popHost_cursor (s : State) : (popHost s).cursor = s.cursor := rfl
@[simp] theorem popHost_obSamples (s : State) : (popHost s).obSamples = s.obSamples := rfl
@[simp] theorem popHost_obPts (s : State) : (popHost s).obPts = s.obPts := rfl
@[simp] theorem popHost_obDts (s : State) : (popHost s).obDts = s.obDts := rfl
@[simp] theorem popHost_eac3Blocks (s : State) : (popHost s).eac3Blocks = s.eac3Blocks := rfl
@[simp] theorem popHost_dtshdSkip (s : State) : (popHost s).dtshdSkip = s.dtshdSkip := rfl
@[simp] theorem popHost_matIdx (s : State) : (popHost s).matIdx = s.matIdx := rfl
@[simp] theorem popHost_matFill (s : State) : (popHost s).matFill = s.matFill := rfl
@[simp] theorem popHost_thdPrevSize (s : State) : (popHost s).thdPrevSize = s.thdPrevSize := rfl
@[simp] theorem popHost_thdPrevTime (s : State) : (popHost s).thdPrevTime = s.thdPrevTime := rfl
@[simp] theorem popHost_thdSpf (s : State) : (popHost s).thdSpf = s.thdSpf := rfl
@[simp] theorem popHost_thdFrameCount (s : State) : (popHost s).thdFrameCount = s.thdFrameCount := rfl
@[simp] theorem popHost_fault (s : State) : (popHost s).fault = s.fault := rfl
@[simp] theorem popHost_faultCause (s : State) : (popHost s).faultCause = s.faultCause := rfl
@[simp] theorem popHost_ctrl (s : State) : (popHost s).ctrl = s.ctrl := rfl
@[simp] theorem popHost_outRate (s : State) : (popHost s).outRate = s.outRate := rfl
@[simp] theorem popHost_verdict (s : State) : (popHost s).verdict = s.verdict := rfl
@[simp] theorem popHost_errKind (s : State) : (popHost s).errKind = s.errKind := rfl
@[simp] theorem popHost_pktValid (s : State) : (popHost s).pktValid = s.pktValid := rfl
@[simp] theorem popHost_downgradeNotice (s : State) : (popHost s).downgradeNotice = s.downgradeNotice := rfl
@[simp] theorem popHost_pktLen (s : State) : (popHost s).pktLen = s.pktLen := rfl
@[simp] theorem popHost_pktSamples (s : State) : (popHost s).pktSamples = s.pktSamples := rfl
@[simp] theorem popHost_frameIn (s : State) : (popHost s).frameIn = s.frameIn := rfl
@[simp] theorem popHost_pktOut (s : State) : (popHost s).pktOut = s.pktOut := rfl
@[simp] theorem popHost_ob (s : State) : (popHost s).ob = s.ob := rfl
@[simp] theorem popHost_mat0 (s : State) : (popHost s).mat0 = s.mat0 := rfl
@[simp] theorem popHost_mat1 (s : State) : (popHost s).mat1 = s.mat1 := rfl
@[simp] theorem popHost_host (s : State) : (popHost s).host = s.host.tail := rfl
@[simp] theorem popHost_busRead (s : State) : (popHost s).busRead = s.busRead := rfl
@[simp] theorem popHost_uop (s : State) : (popHost s).uop = s.uop := rfl

/-! ### `clearPending` -/

@[simp] theorem clearPending_sOpen (s : State) : (clearPending s).sOpen = s.sOpen := rfl
@[simp] theorem clearPending_sVariant (s : State) : (clearPending s).sVariant = s.sVariant := rfl
@[simp] theorem clearPending_sOutBe (s : State) : (clearPending s).sOutBe = s.sOutBe := rfl
@[simp] theorem clearPending_sOutRate (s : State) : (clearPending s).sOutRate = s.sOutRate := rfl
@[simp] theorem clearPending_sBpf (s : State) : (clearPending s).sBpf = s.sBpf := rfl
@[simp] theorem clearPending_obActive (s : State) : (clearPending s).obActive = s.obActive := rfl
@[simp] theorem clearPending_obCap (s : State) : (clearPending s).obCap = s.obCap := rfl
@[simp] theorem clearPending_cursor (s : State) : (clearPending s).cursor = s.cursor := rfl
@[simp] theorem clearPending_obSamples (s : State) : (clearPending s).obSamples = s.obSamples := rfl
@[simp] theorem clearPending_obPts (s : State) : (clearPending s).obPts = s.obPts := rfl
@[simp] theorem clearPending_obDts (s : State) : (clearPending s).obDts = s.obDts := rfl
@[simp] theorem clearPending_eac3Blocks (s : State) : (clearPending s).eac3Blocks = s.eac3Blocks := rfl
@[simp] theorem clearPending_dtshdSkip (s : State) : (clearPending s).dtshdSkip = s.dtshdSkip := rfl
@[simp] theorem clearPending_matIdx (s : State) : (clearPending s).matIdx = s.matIdx := rfl
@[simp] theorem clearPending_matFill (s : State) : (clearPending s).matFill = s.matFill := rfl
@[simp] theorem clearPending_thdPrevSize (s : State) : (clearPending s).thdPrevSize = s.thdPrevSize := rfl
@[simp] theorem clearPending_thdPrevTime (s : State) : (clearPending s).thdPrevTime = s.thdPrevTime := rfl
@[simp] theorem clearPending_thdSpf (s : State) : (clearPending s).thdSpf = s.thdSpf := rfl
@[simp] theorem clearPending_thdFrameCount (s : State) : (clearPending s).thdFrameCount = s.thdFrameCount := rfl
@[simp] theorem clearPending_fault (s : State) : (clearPending s).fault = s.fault := rfl
@[simp] theorem clearPending_faultCause (s : State) : (clearPending s).faultCause = s.faultCause := rfl
@[simp] theorem clearPending_ctrl (s : State) : (clearPending s).ctrl = s.ctrl := rfl
@[simp] theorem clearPending_outRate (s : State) : (clearPending s).outRate = s.outRate := rfl
@[simp] theorem clearPending_verdict (s : State) : (clearPending s).verdict = s.verdict := rfl
@[simp] theorem clearPending_errKind (s : State) : (clearPending s).errKind = s.errKind := rfl
@[simp] theorem clearPending_pktValid (s : State) : (clearPending s).pktValid = s.pktValid := rfl
@[simp] theorem clearPending_downgradeNotice (s : State) : (clearPending s).downgradeNotice = s.downgradeNotice := rfl
@[simp] theorem clearPending_pktLen (s : State) : (clearPending s).pktLen = s.pktLen := rfl
@[simp] theorem clearPending_pktSamples (s : State) : (clearPending s).pktSamples = s.pktSamples := rfl
@[simp] theorem clearPending_frameIn (s : State) : (clearPending s).frameIn = s.frameIn := rfl
@[simp] theorem clearPending_pktOut (s : State) : (clearPending s).pktOut = s.pktOut := rfl
@[simp] theorem clearPending_ob (s : State) : (clearPending s).ob = s.ob := rfl
@[simp] theorem clearPending_mat0 (s : State) : (clearPending s).mat0 = s.mat0 := rfl
@[simp] theorem clearPending_mat1 (s : State) : (clearPending s).mat1 = s.mat1 := rfl
@[simp] theorem clearPending_host (s : State) : (clearPending s).host = s.host := rfl
@[simp] theorem clearPending_busRead (s : State) : (clearPending s).busRead = s.busRead := rfl
@[simp] theorem clearPending_uop (s : State) : (clearPending s).uop = { s.uop with pending := none } := rfl

/-! ### `dtshdDowngrade`, the fields it does not touch -/

@[simp] theorem dtshdDowngrade_sOpen (s : State) : (dtshdDowngrade s).sOpen = s.sOpen := by
  unfold dtshdDowngrade; split <;> rfl
@[simp] theorem dtshdDowngrade_sVariant (s : State) : (dtshdDowngrade s).sVariant = s.sVariant := by
  unfold dtshdDowngrade; split <;> rfl
@[simp] theorem dtshdDowngrade_sOutBe (s : State) : (dtshdDowngrade s).sOutBe = s.sOutBe := by
  unfold dtshdDowngrade; split <;> rfl
@[simp] theorem dtshdDowngrade_sOutRate (s : State) : (dtshdDowngrade s).sOutRate = s.sOutRate := by
  unfold dtshdDowngrade; split <;> rfl
@[simp] theorem dtshdDowngrade_sBpf (s : State) : (dtshdDowngrade s).sBpf = s.sBpf := by
  unfold dtshdDowngrade; split <;> rfl
@[simp] theorem dtshdDowngrade_obActive (s : State) : (dtshdDowngrade s).obActive = s.obActive := by
  unfold dtshdDowngrade; split <;> rfl
@[simp] theorem dtshdDowngrade_obCap (s : State) : (dtshdDowngrade s).obCap = s.obCap := by
  unfold dtshdDowngrade; split <;> rfl
@[simp] theorem dtshdDowngrade_cursor (s : State) : (dtshdDowngrade s).cursor = s.cursor := by
  unfold dtshdDowngrade; split <;> rfl
@[simp] theorem dtshdDowngrade_obSamples (s : State) : (dtshdDowngrade s).obSamples = s.obSamples := by
  unfold dtshdDowngrade; split <;> rfl
@[simp] theorem dtshdDowngrade_obPts (s : State) : (dtshdDowngrade s).obPts = s.obPts := by
  unfold dtshdDowngrade; split <;> rfl
@[simp] theorem dtshdDowngrade_obDts (s : State) : (dtshdDowngrade s).obDts = s.obDts := by
  unfold dtshdDowngrade; split <;> rfl
@[simp] theorem dtshdDowngrade_eac3Blocks (s : State) : (dtshdDowngrade s).eac3Blocks = s.eac3Blocks := by
  unfold dtshdDowngrade; split <;> rfl
@[simp] theorem dtshdDowngrade_matIdx (s : State) : (dtshdDowngrade s).matIdx = s.matIdx := by
  unfold dtshdDowngrade; split <;> rfl
@[simp] theorem dtshdDowngrade_matFill (s : State) : (dtshdDowngrade s).matFill = s.matFill := by
  unfold dtshdDowngrade; split <;> rfl
@[simp] theorem dtshdDowngrade_thdPrevSize (s : State) : (dtshdDowngrade s).thdPrevSize = s.thdPrevSize := by
  unfold dtshdDowngrade; split <;> rfl
@[simp] theorem dtshdDowngrade_thdPrevTime (s : State) : (dtshdDowngrade s).thdPrevTime = s.thdPrevTime := by
  unfold dtshdDowngrade; split <;> rfl
@[simp] theorem dtshdDowngrade_thdSpf (s : State) : (dtshdDowngrade s).thdSpf = s.thdSpf := by
  unfold dtshdDowngrade; split <;> rfl
@[simp] theorem dtshdDowngrade_thdFrameCount (s : State) : (dtshdDowngrade s).thdFrameCount = s.thdFrameCount := by
  unfold dtshdDowngrade; split <;> rfl
@[simp] theorem dtshdDowngrade_fault (s : State) : (dtshdDowngrade s).fault = s.fault := by
  unfold dtshdDowngrade; split <;> rfl
@[simp] theorem dtshdDowngrade_faultCause (s : State) : (dtshdDowngrade s).faultCause = s.faultCause := by
  unfold dtshdDowngrade; split <;> rfl
@[simp] theorem dtshdDowngrade_ctrl (s : State) : (dtshdDowngrade s).ctrl = s.ctrl := by
  unfold dtshdDowngrade; split <;> rfl
@[simp] theorem dtshdDowngrade_outRate (s : State) : (dtshdDowngrade s).outRate = s.outRate := by
  unfold dtshdDowngrade; split <;> rfl
@[simp] theorem dtshdDowngrade_verdict (s : State) : (dtshdDowngrade s).verdict = s.verdict := by
  unfold dtshdDowngrade; split <;> rfl
@[simp] theorem dtshdDowngrade_errKind (s : State) : (dtshdDowngrade s).errKind = s.errKind := by
  unfold dtshdDowngrade; split <;> rfl
@[simp] theorem dtshdDowngrade_pktValid (s : State) : (dtshdDowngrade s).pktValid = s.pktValid := by
  unfold dtshdDowngrade; split <;> rfl
@[simp] theorem dtshdDowngrade_pktLen (s : State) : (dtshdDowngrade s).pktLen = s.pktLen := by
  unfold dtshdDowngrade; split <;> rfl
@[simp] theorem dtshdDowngrade_pktSamples (s : State) : (dtshdDowngrade s).pktSamples = s.pktSamples := by
  unfold dtshdDowngrade; split <;> rfl
@[simp] theorem dtshdDowngrade_frameIn (s : State) : (dtshdDowngrade s).frameIn = s.frameIn := by
  unfold dtshdDowngrade; split <;> rfl
@[simp] theorem dtshdDowngrade_pktOut (s : State) : (dtshdDowngrade s).pktOut = s.pktOut := by
  unfold dtshdDowngrade; split <;> rfl
@[simp] theorem dtshdDowngrade_ob (s : State) : (dtshdDowngrade s).ob = s.ob := by
  unfold dtshdDowngrade; split <;> rfl
@[simp] theorem dtshdDowngrade_mat0 (s : State) : (dtshdDowngrade s).mat0 = s.mat0 := by
  unfold dtshdDowngrade; split <;> rfl
@[simp] theorem dtshdDowngrade_mat1 (s : State) : (dtshdDowngrade s).mat1 = s.mat1 := by
  unfold dtshdDowngrade; split <;> rfl
@[simp] theorem dtshdDowngrade_host (s : State) : (dtshdDowngrade s).host = s.host := by
  unfold dtshdDowngrade; split <;> rfl
@[simp] theorem dtshdDowngrade_busRead (s : State) : (dtshdDowngrade s).busRead = s.busRead := by
  unfold dtshdDowngrade; split <;> rfl
@[simp] theorem dtshdDowngrade_uop (s : State) : (dtshdDowngrade s).uop = s.uop := by
  unfold dtshdDowngrade; split <;> rfl

/-! ### `thdApplySync`, the fields it does not touch -/

@[simp] theorem thdApplySync_sOpen (o : Option (BitVec 9)) (s : State) : (thdApplySync o s).sOpen = s.sOpen := by
  cases o <;> rfl
@[simp] theorem thdApplySync_sVariant (o : Option (BitVec 9)) (s : State) : (thdApplySync o s).sVariant = s.sVariant := by
  cases o <;> rfl
@[simp] theorem thdApplySync_sOutBe (o : Option (BitVec 9)) (s : State) : (thdApplySync o s).sOutBe = s.sOutBe := by
  cases o <;> rfl
@[simp] theorem thdApplySync_sOutRate (o : Option (BitVec 9)) (s : State) : (thdApplySync o s).sOutRate = s.sOutRate := by
  cases o <;> rfl
@[simp] theorem thdApplySync_sBpf (o : Option (BitVec 9)) (s : State) : (thdApplySync o s).sBpf = s.sBpf := by
  cases o <;> rfl
@[simp] theorem thdApplySync_obActive (o : Option (BitVec 9)) (s : State) : (thdApplySync o s).obActive = s.obActive := by
  cases o <;> rfl
@[simp] theorem thdApplySync_obCap (o : Option (BitVec 9)) (s : State) : (thdApplySync o s).obCap = s.obCap := by
  cases o <;> rfl
@[simp] theorem thdApplySync_cursor (o : Option (BitVec 9)) (s : State) : (thdApplySync o s).cursor = s.cursor := by
  cases o <;> rfl
@[simp] theorem thdApplySync_obSamples (o : Option (BitVec 9)) (s : State) : (thdApplySync o s).obSamples = s.obSamples := by
  cases o <;> rfl
@[simp] theorem thdApplySync_obPts (o : Option (BitVec 9)) (s : State) : (thdApplySync o s).obPts = s.obPts := by
  cases o <;> rfl
@[simp] theorem thdApplySync_obDts (o : Option (BitVec 9)) (s : State) : (thdApplySync o s).obDts = s.obDts := by
  cases o <;> rfl
@[simp] theorem thdApplySync_eac3Blocks (o : Option (BitVec 9)) (s : State) : (thdApplySync o s).eac3Blocks = s.eac3Blocks := by
  cases o <;> rfl
@[simp] theorem thdApplySync_dtshdSkip (o : Option (BitVec 9)) (s : State) : (thdApplySync o s).dtshdSkip = s.dtshdSkip := by
  cases o <;> rfl
@[simp] theorem thdApplySync_matIdx (o : Option (BitVec 9)) (s : State) : (thdApplySync o s).matIdx = s.matIdx := by
  cases o <;> rfl
@[simp] theorem thdApplySync_matFill (o : Option (BitVec 9)) (s : State) : (thdApplySync o s).matFill = s.matFill := by
  cases o <;> rfl
@[simp] theorem thdApplySync_thdPrevSize (o : Option (BitVec 9)) (s : State) : (thdApplySync o s).thdPrevSize = s.thdPrevSize := by
  cases o <;> rfl
@[simp] theorem thdApplySync_thdPrevTime (o : Option (BitVec 9)) (s : State) : (thdApplySync o s).thdPrevTime = s.thdPrevTime := by
  cases o <;> rfl
@[simp] theorem thdApplySync_fault (o : Option (BitVec 9)) (s : State) : (thdApplySync o s).fault = s.fault := by
  cases o <;> rfl
@[simp] theorem thdApplySync_faultCause (o : Option (BitVec 9)) (s : State) : (thdApplySync o s).faultCause = s.faultCause := by
  cases o <;> rfl
@[simp] theorem thdApplySync_ctrl (o : Option (BitVec 9)) (s : State) : (thdApplySync o s).ctrl = s.ctrl := by
  cases o <;> rfl
@[simp] theorem thdApplySync_outRate (o : Option (BitVec 9)) (s : State) : (thdApplySync o s).outRate = s.outRate := by
  cases o <;> rfl
@[simp] theorem thdApplySync_verdict (o : Option (BitVec 9)) (s : State) : (thdApplySync o s).verdict = s.verdict := by
  cases o <;> rfl
@[simp] theorem thdApplySync_errKind (o : Option (BitVec 9)) (s : State) : (thdApplySync o s).errKind = s.errKind := by
  cases o <;> rfl
@[simp] theorem thdApplySync_pktValid (o : Option (BitVec 9)) (s : State) : (thdApplySync o s).pktValid = s.pktValid := by
  cases o <;> rfl
@[simp] theorem thdApplySync_downgradeNotice (o : Option (BitVec 9)) (s : State) : (thdApplySync o s).downgradeNotice = s.downgradeNotice := by
  cases o <;> rfl
@[simp] theorem thdApplySync_pktLen (o : Option (BitVec 9)) (s : State) : (thdApplySync o s).pktLen = s.pktLen := by
  cases o <;> rfl
@[simp] theorem thdApplySync_pktSamples (o : Option (BitVec 9)) (s : State) : (thdApplySync o s).pktSamples = s.pktSamples := by
  cases o <;> rfl
@[simp] theorem thdApplySync_frameIn (o : Option (BitVec 9)) (s : State) : (thdApplySync o s).frameIn = s.frameIn := by
  cases o <;> rfl
@[simp] theorem thdApplySync_pktOut (o : Option (BitVec 9)) (s : State) : (thdApplySync o s).pktOut = s.pktOut := by
  cases o <;> rfl
@[simp] theorem thdApplySync_ob (o : Option (BitVec 9)) (s : State) : (thdApplySync o s).ob = s.ob := by
  cases o <;> rfl
@[simp] theorem thdApplySync_mat0 (o : Option (BitVec 9)) (s : State) : (thdApplySync o s).mat0 = s.mat0 := by
  cases o <;> rfl
@[simp] theorem thdApplySync_mat1 (o : Option (BitVec 9)) (s : State) : (thdApplySync o s).mat1 = s.mat1 := by
  cases o <;> rfl
@[simp] theorem thdApplySync_host (o : Option (BitVec 9)) (s : State) : (thdApplySync o s).host = s.host := by
  cases o <;> rfl
@[simp] theorem thdApplySync_busRead (o : Option (BitVec 9)) (s : State) : (thdApplySync o s).busRead = s.busRead := by
  cases o <;> rfl
@[simp] theorem thdApplySync_uop (o : Option (BitVec 9)) (s : State) : (thdApplySync o s).uop = s.uop := by
  cases o <;> rfl

end Sys2Proof.Machine
end

