-- ==== Sys2Proof/Laws/Ops.lean ====
section
/-! SUPPORT. What each shared operation can do, said once: sequencing, taking an exception, the command step, and the
Packet Writer's primitives on a packet in progress. -/

namespace Sys2Proof.Machine

/-! ### Sequencing -/

@[simp] theorem Act.ok_andThen {α β : Type} (a : α) (s : State) (f : α → State → Act β) :
    (Act.ok a s).andThen f = f a s := rfl

@[simp] theorem Act.raise_andThen {α β : Type} (e : Exception) (s : State) (f : α → State → Act β) :
    (Act.raise e s).andThen f = .raise e s := rfl

@[simp] theorem Act.stop_andThen {α β : Type} (r : Fault) (f : α → State → Act β) :
    (Act.stop r : Act α).andThen f = .stop r := rfl

@[simp] theorem Act.refuse_andThen {α β : Type} (r : Refusal) (f : α → State → Act β) :
    (Act.refuse r : Act α).andThen f = .refuse r := rfl

theorem Act.andThen_assoc {α β γ : Type} (x : Act α) (f : α → State → Act β) (g : β → State → Act γ) :
    (x.andThen f).andThen g = x.andThen fun a s => (f a s).andThen g := by
  cases x <;> rfl

/-- A sequence ends with a value when both parts do. -/
theorem Act.andThen_eq_ok {α β : Type} {x : Act α} {f : α → State → Act β} {b : β} {t : State} :
    x.andThen f = .ok b t ↔ ∃ a s, x = .ok a s ∧ f a s = .ok b t := by
  cases x <;> simp [Act.andThen]

/-- A sequence raises what its first part raises, or what its second part does after it. -/
theorem Act.andThen_eq_raise {α β : Type} {x : Act α} {f : α → State → Act β} {e : Exception} {t : State} :
    x.andThen f = .raise e t ↔ x = .raise e t ∨ ∃ a s, x = .ok a s ∧ f a s = .raise e t := by
  cases x <;> simp [Act.andThen]

/-! ### Taking an exception and ending an operation -/

@[simp] theorem settle_ok (s : State) : settle (.ok () s) = .next s := rfl
@[simp] theorem settle_raise (e : Exception) (s : State) : settle (.raise e s) = .next (takeException e s) := rfl
@[simp] theorem settle_stop (f : Fault) : settle (.stop f) = .fault f := rfl
@[simp] theorem settle_refuse (r : Refusal) : settle (.refuse r) = .refused r := rfl

/-- An operation answers a next state when it ends with a value or raises. -/
theorem settle_eq_next {x : Act Unit} {t : State} :
    settle x = .next t ↔ x = .ok () t ∨ ∃ e s, x = .raise e s ∧ t = takeException e s := by
  cases x with
  | ok a s => cases a; simp
  | raise e s =>
    simp only [settle_raise, Host.Outcome.next.injEq, reduceCtorEq, Act.raise.injEq, false_or]
    exact ⟨fun h => ⟨e, s, ⟨rfl, rfl⟩, h.symm⟩, fun ⟨_, _, ⟨h1, h2⟩, h3⟩ => by subst h1 h2; exact h3.symm⟩
  | stop r => simp
  | refuse r => simp

/-- Taking a flushing error. -/
theorem takeException_flushing {k : ErrKind} (h : errorFlushes k = true) (s : State) :
    takeException (.error k) s = recordVerdict .error k (clearPort (flushState s)) := by
  simp [takeException, h]

/-- Taking a refused command's error. -/
theorem takeException_keeping {k : ErrKind} (h : errorFlushes k = false) (s : State) :
    takeException (.error k) s = recordVerdict .error k (clearPort s) := by
  simp [takeException, h]

/-- A command's error finds the port cleared. -/
@[simp] theorem clearPort_flush_commandStart (s : State) :
    clearPort (flushState (commandStart s)) = flushState (commandStart s) := rfl

/-- The seven causes are causes. -/
theorem contractCause_ne_none (i : Fin 7) : contractCause i ≠ .none := by revert i; decide

/-- Two flushes are one, and nothing of what a command wrote to the aggregation state survives one. -/
@[simp] theorem flushState_flushState (s : State) : flushState (flushState s) = flushState s := rfl

@[simp] theorem commandStart_commandStart (s : State) : commandStart (commandStart s) = commandStart s := rfl

/-- A faulted machine ignores a command (10_state.md rule R35). -/
theorem execute_faulted {s : State} (h : s.fault = true) (body : State → Act Verdict) :
    execute body s = .next s := by simp [execute, h]

/-- A command that executes. -/
theorem execute_running {s : State} (h : s.fault = false) (body : State → Act Verdict) :
    execute body s = settle ((body (commandStart s)).andThen finishCommand) := by simp [execute, h]

/-- A command whose body raises. -/
theorem execute_raise {s t : State} {body : State → Act Verdict} {e : Exception} (h : s.fault = false)
    (hb : body (commandStart s) = .raise e t) : execute body s = .next (takeException e t) := by
  rw [execute_running h, hb]; rfl

/-- SUBMIT in an open stream with a frame that fits the input buffer runs the encapsulator. -/
theorem submitWith_open {s : State} (ho : s.sOpen = true) (hl : frameLen s ≤ Config.maxFrameBytes)
    (enc : State → Act Verdict) : submitWith enc s = enc s := by
  simp [submitWith, ho, Nat.not_lt.mpr hl]

/-! ### Lengths and byte order -/

@[simp] theorem unitBytes_length (be : Bool) (v : Half) : (unitBytes be v).length = 2 := by
  cases be <;> rfl

@[simp] theorem headerBytes_length (be : Bool) (dt len : Half) : (headerBytes be dt len).length = 8 := by
  simp [headerBytes]

theorem ceil2_even (n : Nat) : ceil2 n % 2 = 0 := by unfold ceil2; omega

theorem le_ceil2 (n : Nat) : n ≤ ceil2 n := by unfold ceil2; omega

theorem ceil2_le (n : Nat) : ceil2 n ≤ n + 1 := by unfold ceil2; omega

/-- WRITE_BYTES stores `ceil2(n)` bytes (41_packet_writer.md rule R131). -/
theorem outputBytes_length (srcBe outBe : Bool) : ∀ d : List Byte,
    (outputBytes srcBe outBe d).length = ceil2 d.length
  | [] => rfl
  | [_] => by simp [outputBytes, ceil2]
  | b0 :: b1 :: d => by
    have ih := outputBytes_length srcBe outBe d
    simp only [outputBytes, List.length_append, ih, List.length_cons, ceil2]
    split <;> simp <;> omega

/-- The bytes of a burst whose payload fits. -/
theorem burst_length {be : Bool} {dt : Half} {unit cap : Nat} {p : List Byte} (h : 8 + p.length ≤ cap) :
    (burst be dt unit p cap).length = cap := by
  simp [burst, Config.hdr]; omega

/-! ### The packet in progress -/

/-- The state with a packet in progress whose payload so far is `p`, over the older contents `m` of `OB`. -/
def withPacket (m : Memory) (cap : Nat) (samples : Word) (pts dts : Stamp) (p : List Byte) (s : State) : State :=
  { s with obActive := true, obCap := BitVec.ofNat 17 cap, cursor := BitVec.ofNat 17 (Config.hdr + p.length),
           obSamples := samples, obPts := pts, obDts := dts, ob := m.write Config.hdr p }

section
variable {m : Memory} {cap : Nat} {samples : Word} {pts dts : Stamp} {p : List Byte} {s : State}

@[simp] theorem withPacket_sOutBe : (withPacket m cap samples pts dts p s).sOutBe = s.sOutBe := rfl
@[simp] theorem withPacket_frameIn : (withPacket m cap samples pts dts p s).frameIn = s.frameIn := rfl
@[simp] theorem withPacket_obActive : (withPacket m cap samples pts dts p s).obActive = true := rfl

theorem withPacket_cursor (hp : Config.hdr + p.length ≤ cap) (hc : cap ≤ Config.outbufBytes) :
    (withPacket m cap samples pts dts p s).cursor.toNat = Config.hdr + p.length := by
  simp only [withPacket, BitVec.toNat_ofNat, Config.hdr, Config.outbufBytes] at *
  omega

theorem withPacket_obCap (hc : cap ≤ Config.outbufBytes) :
    (withPacket m cap samples pts dts p s).obCap.toNat = cap := by
  simp only [withPacket, BitVec.toNat_ofNat, Config.outbufBytes] at *
  omega

/-- BEGIN with a legal capacity and no packet in progress. -/
theorem packetBegin_ok (ha : s.obActive = false) (h4 : cap % 4 = 0) (h8 : 8 < cap)
    (hc : cap ≤ Config.outbufBytes) :
    packetBegin cap samples pts dts s = .ok () (withPacket s.ob cap samples pts dts [] s) := by
  have h8' : ¬ cap ≤ 8 := by omega
  simp [packetBegin, ha, h4, h8', Nat.not_lt.mpr hc, withPacket]

theorem frameLen_withPacket : frameLen (withPacket m cap samples pts dts p s) = frameLen s := rfl

/-- A read of the frame inside its length. -/
theorem inRead_ok {a n : Nat} (h : a + n ≤ frameLen s) :
    inRead a n s = .ok ((s.frameIn.data.drop a).take n) s := by
  simp [inRead, Nat.not_lt.mpr h]

/-- WRITE_BYTES that fits appends the output bytes to the payload. -/
theorem packetWrite_ok {d : List Byte} {be : Bool} (hf : Config.hdr + p.length + ceil2 d.length ≤ cap)
    (hc : cap ≤ Config.outbufBytes) :
    packetWrite d be (withPacket m cap samples pts dts p s) =
      .ok () (withPacket m cap samples pts dts (p ++ outputBytes be s.sOutBe d) s) := by
  have hcur := withPacket_cursor (m := m) (samples := samples) (pts := pts) (dts := dts) (s := s)
    (p := p) (cap := cap) (by omega) hc
  have hcap := withPacket_obCap (m := m) (samples := samples) (pts := pts) (dts := dts) (s := s) (p := p) hc
  have hsz : ¬ spaceSize .ob < Config.hdr + p.length + ceil2 d.length := by
    simp only [spaceSize]; omega
  simp only [packetWrite, withPacket_obActive, hcur, hcap, Nat.not_lt.mpr hf, obWrite, withPacket_sOutBe,
    outputBytes_length, hsz, Bool.not_true, if_false, Act.ok_andThen, Bool.false_eq_true]
  simp only [advanceCursor]
  have : (withPacket m cap samples pts dts p s).ob.write (Config.hdr + p.length) (outputBytes be s.sOutBe d) =
      m.write Config.hdr (p ++ outputBytes be s.sOutBe d) := Memory.write_write_after _ _ _ _
  simp only [this, hcur]
  simp [withPacket, outputBytes_length, Nat.add_assoc]

/-- WRITE_PADDING that fits appends zeros to the payload. -/
theorem packetPad_ok {n : Nat} (hf : Config.hdr + p.length + n ≤ cap) (hc : cap ≤ Config.outbufBytes) :
    packetPad n (withPacket m cap samples pts dts p s) =
      .ok () (withPacket m cap samples pts dts (p ++ List.replicate n 0) s) := by
  have hcur := withPacket_cursor (m := m) (samples := samples) (pts := pts) (dts := dts) (s := s)
    (p := p) (cap := cap) (by omega) hc
  have hcap := withPacket_obCap (m := m) (samples := samples) (pts := pts) (dts := dts) (s := s) (p := p) hc
  have hsz : ¬ spaceSize .ob < Config.hdr + p.length + n := by
    simp only [spaceSize]; omega
  simp only [packetPad, withPacket_obActive, hcur, hcap, Nat.not_lt.mpr hf, obWrite, List.length_replicate,
    hsz, Bool.not_true, if_false, Act.ok_andThen, Bool.false_eq_true]
  simp only [advanceCursor]
  have : (withPacket m cap samples pts dts p s).ob.write (Config.hdr + p.length) (List.replicate n 0) =
      m.write Config.hdr (p ++ List.replicate n 0) := Memory.write_write_after _ _ _ _
  simp only [this, hcur]
  simp [withPacket, Nat.add_assoc]

/-- A finished packet over the older contents `m` of `OB`. -/
def finishedPacket (m : Memory) (cap : Nat) (samples : Word) (pts dts : Stamp) (bytes : List Byte) (s : State) :
    State :=
  { s with obActive := true, obCap := BitVec.ofNat 17 cap, cursor := BitVec.ofNat 17 cap,
           obSamples := samples, obPts := pts, obDts := dts, ob := m.write 0 bytes }

/-- FINALIZE of a packet in progress writes the header and the tail: the whole burst. -/
theorem packetFinalize_ok {dt : Half} {unit : Nat} (hp : Config.hdr + p.length ≤ cap)
    (hc : cap ≤ Config.outbufBytes) (hd : dt ≠ 0) (hu : unit = 1 ∨ unit = 8) :
    packetFinalize dt unit (withPacket m cap samples pts dts p s) =
      .ok () (finishedPacket m cap samples pts dts (burst s.sOutBe dt unit p cap) s) := by
  have hcur := withPacket_cursor (m := m) (samples := samples) (pts := pts) (dts := dts) (s := s) hp hc
  have hcap := withPacket_obCap (m := m) (samples := samples) (pts := pts) (dts := dts) (s := s) (p := p) hc
  have hu' : ¬ (dt = 0 ∨ unit ≠ 1 ∧ unit ≠ 8) := by
    rintro (h | h)
    · exact hd h
    · omega
  have hsz : ¬ spaceSize .ob < 0 + 8 := by decide
  have h8 : ¬ Config.hdr + p.length < Config.hdr := by omega
  simp only [packetFinalize, withPacket_obActive, hcur, hcap, if_neg hu', Nat.not_lt.mpr hp, h8, obWrite,
    headerBytes_length, hsz, Bool.not_true, if_false, Act.ok_andThen, Bool.false_eq_true, withPacket_sOutBe]
  have hlen : lengthField (Config.hdr + p.length) unit = BitVec.ofNat 16 (p.length * unit) := by
    simp [lengthField]
  have hw : (withPacket m cap samples pts dts p s).ob.write 0
      (headerBytes s.sOutBe dt (lengthField (Config.hdr + p.length) unit)) =
      m.write 0 (headerBytes s.sOutBe dt (BitVec.ofNat 16 (p.length * unit)) ++ p) := by
    rw [hlen]
    have := Memory.write_write_before m 0 (headerBytes s.sOutBe dt (BitVec.ofNat 16 (p.length * unit))) p
    rw [headerBytes_length] at this
    exact this
  rw [hw]
  by_cases hlt : Config.hdr + p.length < cap
  · have hn : Config.hdr + p.length + (cap - (Config.hdr + p.length)) = cap := by omega
    have hsz' : ¬ spaceSize .ob < cap := by simp only [spaceSize]; omega
    simp only [hcur, hcap, hlt, if_true, packetPad, Bool.not_true, Bool.false_eq_true,
      if_false, hn, Nat.lt_irrefl, obWrite, List.length_replicate, hsz', Act.ok_andThen]
    have hw2 := Memory.write_write_after m 0 (headerBytes s.sOutBe dt (BitVec.ofNat 16 (p.length * unit)) ++ p)
      (List.replicate (cap - (Config.hdr + p.length)) 0)
    have hl8 : 0 + (headerBytes s.sOutBe dt (BitVec.ofNat 16 (p.length * unit)) ++ p).length =
        Config.hdr + p.length := by simp [Config.hdr]
    rw [hl8] at hw2
    simp only [hw2, advanceCursor, hcur, hn, finishedPacket, burst, List.append_assoc, Nat.sub_sub]
    simp [withPacket]
  · have heq : cap = Config.hdr + p.length := by omega
    subst heq
    simp only [Nat.lt_irrefl, if_false, finishedPacket, burst]
    simp [withPacket]

/-- HANDOFF of a finished packet. -/
theorem handoff_finished {bytes : List Byte} (hl : bytes.length = cap) (hc : cap ≤ Config.outbufBytes) :
    handoff (finishedPacket m cap samples pts dts bytes s) = .ok () { s with
      pktOut := some { data := bytes, nbSamples := samples, pts := pts, dts := dts },
      pktLen := BitVec.ofNat 32 bytes.length, pktSamples := samples, pktValid := true,
      obActive := false, obCap := 0, cursor := 0, obSamples := 0, obPts := 0, obDts := 0,
      ob := m.write 0 bytes } := by
  have hcap : (finishedPacket m cap samples pts dts bytes s).obCap.toNat = cap := by
    simp only [finishedPacket, BitVec.toNat_ofNat, Config.outbufBytes] at *
    omega
  have hr : (spaceOf .ob (finishedPacket m cap samples pts dts bytes s)).read? 0 cap = some bytes := by
    rw [← hl]; exact Memory.read?_write m 0 bytes
  have hsz : ¬ spaceSize .ob < 0 + cap := by simp only [spaceSize]; omega
  have h32 : (BitVec.ofNat 17 cap).setWidth 32 = BitVec.ofNat 32 cap := by
    apply BitVec.eq_of_toNat_eq
    simp only [BitVec.toNat_setWidth, BitVec.toNat_ofNat, Config.outbufBytes] at *
    omega
  simp only [handoff, memRead, hcap, hsz, if_false, hr, Act.ok_andThen]
  simp [finishedPacket, h32, hl]

/-- The end of a SUBMIT that finishes the packet in progress: the burst stands on PKT_OUT. -/
theorem finalize_handoff {dt : Half} {unit : Nat} (hp : Config.hdr + p.length ≤ cap)
    (hc : cap ≤ Config.outbufBytes) (hd : dt ≠ 0) (hu : unit = 1 ∨ unit = 8) :
    ((packetFinalize dt unit (withPacket m cap samples pts dts p s)).andThen
        fun _ s => .ok Verdict.packet s).andThen finishCommand =
      .ok () { s with
        pktOut := some { data := burst s.sOutBe dt unit p cap, nbSamples := samples, pts := pts, dts := dts },
        pktLen := BitVec.ofNat 32 (burst s.sOutBe dt unit p cap).length, pktSamples := samples, pktValid := true,
        obActive := false, obCap := 0, cursor := 0, obSamples := 0, obPts := 0, obDts := 0,
        ob := m.write 0 (burst s.sOutBe dt unit p cap), verdict := .packet, errKind := .none } := by
  rw [packetFinalize_ok hp hc hd hu]
  simp only [Act.ok_andThen, finishCommand]
  rw [handoff_finished (burst_length (by simpa [Config.hdr] using hp)) hc]
  rfl

end

end Sys2Proof.Machine
end

