-- ==== Sys2Proof/Laws/Mat.lean ====
section
/-! SUPPORT. The MAT insertion loop (46_truehd_mat.md rule R195): it always ends within its bound, it fills the
active buffer in ascending order with the markers in their places, and a completed buffer is whole. -/

namespace Sys2Proof.Machine

/-- The buffer of an index in the loop's working copy. -/
def matBuf (idx : Bool) (w : MatWork) : Memory := if idx then w.mat1 else w.mat0

/-! ### One lemma for each field under each part of a turn -/

section
variable (bs b : List Byte) (w : MatWork) (n : Nat)

@[simp] theorem matPut_fill : (matPut bs w).fill = w.fill + bs.length := by unfold matPut; split <;> rfl
@[simp] theorem matPut_idx : (matPut bs w).idx = w.idx := by unfold matPut; split <;> rfl
@[simp] theorem matPut_next : (matPut bs w).next = w.next := by unfold matPut; split <;> rfl
@[simp] theorem matPut_pad : (matPut bs w).pad = w.pad := by unfold matPut; split <;> rfl
@[simp] theorem matPut_data : (matPut bs w).data = w.data := by unfold matPut; split <;> rfl
@[simp] theorem matPut_src : (matPut bs w).src = w.src := by unfold matPut; split <;> rfl
@[simp] theorem matPut_total : (matPut bs w).total = w.total := by unfold matPut; split <;> rfl
@[simp] theorem matPut_done : (matPut bs w).done = w.done := by unfold matPut; split <;> rfl
@[simp] theorem matPut_outbuf : (matPut bs w).outbuf = w.outbuf := by unfold matPut; split <;> rfl

@[simp] theorem matBuf_matPut_same : matBuf w.idx (matPut bs w) = (matBuf w.idx w).write w.fill bs := by
  unfold matBuf matPut; split <;> simp_all

theorem matBuf_matPut_other {i : Bool} (h : i ≠ w.idx) : matBuf i (matPut bs w) = matBuf i w := by
  unfold matBuf matPut; cases i <;> cases hw : w.idx <;> simp_all

@[simp] theorem matSpend_fill : (matSpend n w).fill = w.fill := rfl
@[simp] theorem matSpend_idx : (matSpend n w).idx = w.idx := rfl
@[simp] theorem matSpend_next : (matSpend n w).next = w.next := rfl
@[simp] theorem matSpend_data : (matSpend n w).data = w.data := rfl
@[simp] theorem matSpend_src : (matSpend n w).src = w.src := rfl
@[simp] theorem matSpend_done : (matSpend n w).done = w.done := rfl
@[simp] theorem matSpend_outbuf : (matSpend n w).outbuf = w.outbuf := rfl
@[simp] theorem matSpend_buf (i : Bool) : matBuf i (matSpend n w) = matBuf i w := rfl

end

@[simp] theorem matStart_length : matStart.length = 20 := rfl
@[simp] theorem matMiddle_length : matMiddle.length = 12 := rfl
@[simp] theorem matEnd_length : matEnd.length = 16 := rfl

/-- A start or middle marker that is due. -/
theorem matMarker_inner {w : MatWork} (h : w.next + 1 ≠ 3) : matMarker w =
    .ok (matSpend (markerCode w.next).length { matPut (markerCode w.next) w with next := w.next + 1 }) := by
  simp only [matMarker, matPut_next, if_neg h]

/-- An end marker that is due: the buffer is complete, or it is the second one (rule R196). -/
theorem matMarker_end {w : MatWork} (h : w.next + 1 = 3) : matMarker w =
    if w.done then .error { matPut (markerCode w.next) w with next := w.next + 1 }
    else .ok (matSpend ((markerCode w.next).length + Config.matGap)
      (matComplete { matPut (markerCode w.next) w with next := w.next + 1 })) := by
  simp only [matMarker, matPut_next, if_pos h, matPut_done]

/-! ### The loop ends -/

/-- The markers that the loop can still write before the second end marker. -/
def matMarkersLeft (w : MatWork) : Nat := (if w.done then 3 else 6) - w.next

/-- The loop's marker index stays a marker, and the fill never passes it. -/
def MatShape (w : MatWork) : Prop := w.next ≤ 2 ∧ w.fill ≤ markerPos w.next

theorem matZeros_shape {w : MatWork} (h : MatShape w) : MatShape (matZeros w) ∧
    (matZeros w).next = w.next ∧ (matZeros w).done = w.done ∧ (matZeros w).data = w.data ∧
      (0 < (matZeros w).pad → (matZeros w).fill = markerPos w.next) := by
  unfold matZeros MatShape at *
  split
  · refine ⟨⟨by simpa using h.1, ?_⟩, by simp, by simp, by simp, ?_⟩
    · simp only [matPut_fill, List.length_replicate, matPut_next]; omega
    · simp only [matPut_fill, List.length_replicate]; omega
  · exact ⟨h, rfl, rfl, rfl, fun hp => absurd hp (by assumption)⟩

theorem matData_shape {b : List Byte} {w : MatWork} (h : MatShape w) (hs : w.src + w.data = b.length) :
    MatShape (matData b w) ∧ (matData b w).next = w.next ∧ (matData b w).done = w.done ∧
      (matData b w).pad = w.pad ∧ (matData b w).src + (matData b w).data = b.length ∧
      (w.pad = 0 → 0 < (matData b w).data → (matData b w).fill = markerPos w.next) ∧
      (0 < w.pad → matData b w = w) := by
  unfold matData MatShape at *
  split
  · rename_i hc
    have hlen : ((b.drop w.src).take (min (markerPos w.next - w.fill) w.data)).length =
        min (markerPos w.next - w.fill) w.data := by
      rw [List.length_take, List.length_drop]; omega
    refine ⟨⟨by simpa using h.1, ?_⟩, by simp, by simp, by simp, ?_, ?_, ?_⟩
    · simp only [matPut_fill, hlen, matPut_next]; omega
    · dsimp only; omega
    · simp only [matPut_fill, hlen]; omega
    · intro hp; omega
  · refine ⟨h, rfl, rfl, rfl, hs, fun hp hd => ?_, fun _ => rfl⟩
    rename_i hc
    exact absurd ⟨hp, hd⟩ hc

/-- What a marker that is due does to the loop's counters. -/
theorem matMarker_shape {w w' : MatWork} (hn : w.next ≤ 2) (hf : w.fill = markerPos w.next)
    (h : matMarker w = .ok w') : MatShape w' ∧ w'.src = w.src ∧ w'.data = w.data ∧
      matMarkersLeft w' + 1 ≤ matMarkersLeft w := by
  obtain ⟨fill, idx, m0, m1, next, pad, data, src, total, done, outbuf⟩ := w
  simp only at hn hf
  have hcase : next = 0 ∨ next = 1 ∨ next = 2 := by omega
  rcases hcase with rfl | rfl | rfl <;> cases idx <;> cases done <;>
    simp [matMarker, matPut, markerCode, matSpend, matComplete] at h <;> subst h <;>
    simp_all [MatShape, markerPos, matMarkersLeft]

/-- After a turn that goes on, a marker is due. -/
theorem matTurn_shape {b : List Byte} {w w' : MatWork} (h : MatShape w) (hs : w.src + w.data = b.length)
    (ht : matTurn b w = .ok w') : MatShape w' ∧ w'.src + w'.data = b.length ∧
      (matGoesOn w' = true → w'.fill = markerPos w'.next) ∧
      matMarkersLeft w' + (if w.fill = markerPos w.next then 1 else 0) ≤ matMarkersLeft w := by
  have finish : ∀ v : MatWork, MatShape v → v.src + v.data = b.length →
      MatShape (matData b (matZeros v)) ∧
      (matData b (matZeros v)).src + (matData b (matZeros v)).data = b.length ∧
      (matGoesOn (matData b (matZeros v)) = true →
        (matData b (matZeros v)).fill = markerPos (matData b (matZeros v)).next) ∧
      matMarkersLeft (matData b (matZeros v)) = matMarkersLeft v := by
    intro v hv hvs
    obtain ⟨hz, hzn, hzd, hzdata, hzf⟩ := matZeros_shape hv
    have hzs : (matZeros v).src = v.src := by unfold matZeros; split <;> simp
    obtain ⟨hd, hdn, hdd, hdp, hds, hdf, hdw⟩ := matData_shape (b := b) hz (by rw [hzs, hzdata]; exact hvs)
    refine ⟨hd, hds, ?_, by simp [matMarkersLeft, hdn, hdd, hzn, hzd]⟩
    intro hg
    rw [hdn, hzn]
    by_cases hp : 0 < (matZeros v).pad
    · rw [hdw hp]; exact hzf hp
    · by_cases hdat : 0 < (matData b (matZeros v)).data
      · have := hdf (by omega) hdat
        rw [hzn] at this; exact this
      · have hpad : (matData b (matZeros v)).pad = 0 := by omega
        simp [matGoesOn, hpad, Nat.eq_zero_of_not_pos hdat, hdn, hzn] at hg
        exact hg.symm
  unfold matTurn at ht
  by_cases hm : markerPos w.next = w.fill
  · rw [if_pos hm] at ht
    cases hk : matMarker w with
    | error v => rw [hk] at ht; cases ht
    | ok v =>
      rw [hk] at ht
      simp only [Except.ok.injEq] at ht
      obtain ⟨hv, hsrc, hdata, hleft⟩ := matMarker_shape h.1 hm.symm hk
      obtain ⟨h1, h2, h3, h4⟩ := finish v hv (by rw [hsrc, hdata]; exact hs)
      subst ht
      refine ⟨h1, h2, h3, ?_⟩
      rw [if_pos hm.symm, h4]; exact hleft
  · rw [if_neg hm] at ht
    simp only [Except.ok.injEq] at ht
    obtain ⟨h1, h2, h3, h4⟩ := finish w h hs
    subst ht
    refine ⟨h1, h2, h3, ?_⟩
    rw [if_neg (fun e => hm e.symm), h4]; omega

/-- The loop ends when its fuel covers the markers left. -/
theorem matLoop_ends {b : List Byte} : ∀ (fuel : Nat) (w : MatWork), MatShape w → w.src + w.data = b.length →
    (matGoesOn w = true → w.fill = markerPos w.next) → matMarkersLeft w ≤ fuel → matLoop b fuel w ≠ .unfinished
  | 0, w, h, _, _, hf => by
    have := h.1
    unfold matMarkersLeft at hf
    split at hf <;> omega
  | fuel + 1, w, h, hs, hg, hf => by
    unfold matLoop
    split
    · rename_i hgo
      cases ht : matTurn b w with
      | error v => simp
      | ok v =>
        obtain ⟨h1, h2, h3, h4⟩ := matTurn_shape h hs ht
        rw [if_pos (hg hgo)] at h4
        exact matLoop_ends fuel v h1 h2 h3 (by omega)
    · simp

/-- MAT_INSERT always ends: it never uses up its bound (46_truehd_mat.md rule R195). -/
theorem matLoop_finishes {b : List Byte} {w : MatWork} (h : MatShape w) (hs : w.src + w.data = b.length) :
    matLoop b matFuel w ≠ .unfinished := by
  unfold matFuel matLoop
  split
  · cases ht : matTurn b w with
    | error v => simp
    | ok v =>
      obtain ⟨h1, h2, h3, h4⟩ := matTurn_shape h hs ht
      have h5 : matMarkersLeft w ≤ 6 := by unfold matMarkersLeft; split <;> omega
      exact matLoop_ends 7 v h1 h2 h3 (by split at h4 <;> omega)
  · simp

theorem nextMarker_some {fill i : Nat} (h : nextMarker fill = some i) : i ≤ 2 ∧ fill ≤ markerPos i ∧
    (i = 0 → fill = 0) ∧ (i = 1 → 0 < fill) ∧ (i = 2 → 30708 < fill) := by
  unfold nextMarker at h
  have hp0 : markerPos 0 = 0 := rfl
  have hp1 : markerPos 1 = 30708 := rfl
  have hp2 : markerPos 2 = 61408 := rfl
  split at h
  · cases h; omega
  · split at h
    · cases h; omega
    · split at h
      · cases h; omega
      · cases h

theorem nextMarker_isSome {fill : Nat} (h : fill ≤ 61408) : ∃ i, nextMarker fill = some i := by
  unfold nextMarker
  have hp2 : markerPos 2 = 61408 := rfl
  split
  · exact ⟨_, rfl⟩
  · split
    · exact ⟨_, rfl⟩
    · exact ⟨2, by rw [if_pos (by omega)]⟩

theorem matWork_shape {i pad : Nat} {s : State} (h : nextMarker s.matFill.toNat = some i) :
    MatShape (matWork i (frameLen s) pad s) ∧
      (matWork i (frameLen s) pad s).src + (matWork i (frameLen s) pad s).data = s.frameIn.data.length := by
  obtain ⟨h1, h2, _⟩ := nextMarker_some h
  exact ⟨⟨h1, h2⟩, by simp [matWork, frameLen]⟩

/-- MAT_INSERT never stops the model (46_truehd_mat.md rule R195). -/
theorem matInsert_finishes (pad : Nat) (s : State) (f : Fault) : matInsert pad s ≠ .stop f := by
  unfold matInsert
  split
  · simp [raiseFault]
  · rename_i i hi
    obtain ⟨h1, h2⟩ := matWork_shape (pad := pad) hi
    have := matLoop_finishes h1 h2
    split <;> simp_all [raiseError]

/-! ### What the loop writes -/

/-- The loop's invariant: the fill lies between the last marker and the next one, the active buffer is written
up to the fill with its markers, and a completed buffer is whole with all three. -/
structure MatOk (b : List Byte) (w : MatWork) : Prop where
  next_le : w.next ≤ 2
  fill_le : w.fill ≤ markerPos w.next
  start : w.next ≠ 0 → 20 ≤ w.fill ∧ bytesAt (matBuf w.idx w) 0 matStart
  middle : w.next = 2 → 30720 ≤ w.fill ∧ bytesAt (matBuf w.idx w) 30708 matMiddle
  written : bytesWritten (matBuf w.idx w) 0 w.fill
  src : w.src + w.data = b.length
  wf : ∀ i, (matBuf i w).wf Config.matFrameSize
  complete : w.done = true → w.outbuf = !w.idx ∧
    bytesWritten (matBuf w.outbuf w) 0 Config.matFrameSize ∧ bytesAt (matBuf w.outbuf w) 0 matStart ∧
      bytesAt (matBuf w.outbuf w) 30708 matMiddle ∧ bytesAt (matBuf w.outbuf w) 61408 matEnd

theorem MatOk.shape {b : List Byte} {w : MatWork} (h : MatOk b w) : MatShape w := ⟨h.next_le, h.fill_le⟩

theorem markerPos_le (i : Nat) : markerPos i ≤ 61408 := by unfold markerPos; split <;> omega

/-- Bytes put at the fill, not past the next marker. -/
theorem MatOk.put {b : List Byte} {w : MatWork} (h : MatOk b w) {bs : List Byte}
    (hl : w.fill + bs.length ≤ markerPos w.next) : MatOk b (matPut bs w) := by
  have hpos := markerPos_le w.next
  have hw0 : bytesWritten ((matBuf w.idx w).write w.fill bs) 0 (w.fill + bs.length) := by
    have := bytesWritten_write h.written bs
    rwa [Nat.zero_add] at this
  refine ⟨by simpa using h.next_le, by simpa using hl, ?_, ?_, ?_, by simpa using h.src, ?_, ?_⟩
  · intro hn
    have := h.start (by simpa using hn)
    simp only [matPut_fill, matPut_idx, matBuf_matPut_same]
    exact ⟨by omega, bytesAt_write_after this.2 (by simpa using this.1)⟩
  · intro hn
    have := h.middle (by simpa using hn)
    simp only [matPut_fill, matPut_idx, matBuf_matPut_same]
    exact ⟨by omega, bytesAt_write_after this.2 (by simpa using this.1)⟩
  · simpa using hw0
  · intro i
    by_cases hi : i = w.idx
    · subst hi
      rw [matBuf_matPut_same]
      exact Memory.wf_write (h.wf _) _ _ (by simp only [Config.matFrameSize]; omega)
    · rw [matBuf_matPut_other _ _ hi]; exact h.wf i
  · intro hd
    have hc := h.complete (by simpa using hd)
    have hne : w.outbuf ≠ w.idx := by rw [hc.1]; cases w.idx <;> simp
    simp only [matPut_outbuf, matPut_idx, matBuf_matPut_other _ _ hne]
    exact hc

/-- The invariant says nothing of the padding and the size counted. -/
theorem MatOk.recount {b : List Byte} {w : MatWork} (h : MatOk b w) (p t : Nat) :
    MatOk b { w with pad := p, total := t } :=
  ⟨h.next_le, h.fill_le, h.start, h.middle, h.written, h.src, h.wf, h.complete⟩

/-- The invariant asks only that what is left of the frame follows what was taken. -/
theorem MatOk.consume {b : List Byte} {w : MatWork} (h : MatOk b w) {s d : Nat} (hs : s + d = b.length) :
    MatOk b { w with src := s, data := d } :=
  ⟨h.next_le, h.fill_le, h.start, h.middle, h.written, hs, h.wf, h.complete⟩

theorem MatOk.zeros {b : List Byte} {w : MatWork} (h : MatOk b w) : MatOk b (matZeros w) := by
  unfold matZeros
  split
  · have hp := h.put (bs := List.replicate (min (markerPos w.next - w.fill) w.pad) 0)
      (by have := h.fill_le; simp only [List.length_replicate]; omega)
    exact hp.recount _ _
  · exact h

theorem MatOk.data {b : List Byte} {w : MatWork} (h : MatOk b w) : MatOk b (matData b w) := by
  unfold matData
  split
  · have hp := h.put (bs := (b.drop w.src).take (min (markerPos w.next - w.fill) w.data))
      (by have := h.fill_le; rw [List.length_take]; omega)
    exact hp.consume (by have := h.src; omega)
  · exact h

/-- A marker written where it is due keeps the invariant. -/
theorem MatOk.marker {b : List Byte} {w w' : MatWork} (h : MatOk b w) (hf : w.fill = markerPos w.next)
    (hm : matMarker w = .ok w') : MatOk b w' := by
  have hnext : w.next = 0 ∨ w.next = 1 ∨ w.next = 2 := by have := h.next_le; omega
  have hwr : bytesWritten ((matBuf w.idx w).write w.fill (markerCode w.next)) 0
      (w.fill + (markerCode w.next).length) := by
    have := bytesWritten_write h.written (markerCode w.next)
    rwa [Nat.zero_add] at this
  have hwf : ∀ i, (matBuf i (matPut (markerCode w.next) w)).wf Config.matFrameSize := by
    intro i
    by_cases hi : i = w.idx
    · subst hi
      rw [matBuf_matPut_same]
      refine Memory.wf_write (h.wf _) _ _ ?_
      rw [hf]
      rcases hnext with e | e | e <;> rw [e] <;> decide
    · rw [matBuf_matPut_other _ _ hi]; exact h.wf i
  have hother : w.done = true → w.outbuf = !w.idx ∧
      bytesWritten (matBuf w.outbuf (matPut (markerCode w.next) w)) 0 Config.matFrameSize ∧
      bytesAt (matBuf w.outbuf (matPut (markerCode w.next) w)) 0 matStart ∧
      bytesAt (matBuf w.outbuf (matPut (markerCode w.next) w)) 30708 matMiddle ∧
      bytesAt (matBuf w.outbuf (matPut (markerCode w.next) w)) 61408 matEnd := by
    intro hd
    have hc := h.complete hd
    have hne : w.outbuf ≠ w.idx := by rw [hc.1]; cases w.idx <;> simp
    rw [matBuf_matPut_other _ _ hne]
    exact hc
  have hself : bytesAt ((matBuf w.idx w).write w.fill (markerCode w.next)) w.fill (markerCode w.next) :=
    bytesAt_write _ _ _
  rcases hnext with e | e | e
  · have hfill : w.fill = 0 := by rw [hf, e]; rfl
    rw [matMarker_inner (by omega), Except.ok.injEq, e] at hm
    subst hm
    rw [e] at hwr hwf hother hself
    refine MatOk.recount (w := { matPut (markerCode 0) w with next := 1 }) ⟨?_, ?_, ?_, ?_, ?_, ?_, hwf, ?_⟩ _ _
    · show 1 ≤ 2; omega
    · simp [hfill, markerCode, markerPos]
    · intro _
      refine ⟨by simp [hfill, markerCode], ?_⟩
      show bytesAt (matBuf (matPut (markerCode 0) w).idx (matPut (markerCode 0) w)) 0 matStart
      rw [matPut_idx, matBuf_matPut_same]
      rw [hfill] at hself ⊢; exact hself
    · intro hn; simp at hn
    · show bytesWritten (matBuf (matPut (markerCode 0) w).idx (matPut (markerCode 0) w)) 0 _
      rw [matPut_idx, matBuf_matPut_same, matPut_fill]
      exact hwr
    · simpa using h.src
    · intro hd
      have hc := hother (by simpa using hd)
      refine ⟨by simpa using hc.1, ?_⟩
      show bytesWritten (matBuf (matPut (markerCode 0) w).outbuf (matPut (markerCode 0) w)) 0 _ ∧
        bytesAt (matBuf (matPut (markerCode 0) w).outbuf (matPut (markerCode 0) w)) 0 _ ∧
        bytesAt (matBuf (matPut (markerCode 0) w).outbuf (matPut (markerCode 0) w)) 30708 _ ∧
        bytesAt (matBuf (matPut (markerCode 0) w).outbuf (matPut (markerCode 0) w)) 61408 _
      rw [matPut_outbuf]; exact hc.2
  · have hfill : w.fill = 30708 := by rw [hf, e]; rfl
    have hst := h.start (by omega)
    rw [matMarker_inner (by omega), Except.ok.injEq, e] at hm
    subst hm
    rw [e] at hwr hwf hother hself
    refine MatOk.recount (w := { matPut (markerCode 1) w with next := 2 }) ⟨?_, ?_, ?_, ?_, ?_, ?_, hwf, ?_⟩ _ _
    · show 2 ≤ 2; omega
    · simp [hfill, markerCode, markerPos]
    · intro _
      refine ⟨by simp [hfill, markerCode], ?_⟩
      show bytesAt (matBuf (matPut (markerCode 1) w).idx (matPut (markerCode 1) w)) 0 matStart
      rw [matPut_idx, matBuf_matPut_same]
      exact bytesAt_write_after hst.2 (by simp [hfill])
    · intro _
      refine ⟨by simp [hfill, markerCode], ?_⟩
      show bytesAt (matBuf (matPut (markerCode 1) w).idx (matPut (markerCode 1) w)) 30708 matMiddle
      rw [matPut_idx, matBuf_matPut_same]
      rw [hfill] at hself ⊢; exact hself
    · show bytesWritten (matBuf (matPut (markerCode 1) w).idx (matPut (markerCode 1) w)) 0 _
      rw [matPut_idx, matBuf_matPut_same, matPut_fill]
      exact hwr
    · simpa using h.src
    · intro hd
      have hc := hother (by simpa using hd)
      refine ⟨by simpa using hc.1, ?_⟩
      show bytesWritten (matBuf (matPut (markerCode 1) w).outbuf (matPut (markerCode 1) w)) 0 _ ∧
        bytesAt (matBuf (matPut (markerCode 1) w).outbuf (matPut (markerCode 1) w)) 0 _ ∧
        bytesAt (matBuf (matPut (markerCode 1) w).outbuf (matPut (markerCode 1) w)) 30708 _ ∧
        bytesAt (matBuf (matPut (markerCode 1) w).outbuf (matPut (markerCode 1) w)) 61408 _
      rw [matPut_outbuf]; exact hc.2
  · have hfill : w.fill = 61408 := by rw [hf, e]; rfl
    have hst := h.start (by omega)
    have hmi := h.middle e
    rw [matMarker_end (by omega), e] at hm
    rw [e] at hwr hwf hother hself
    split at hm
    · cases hm
    · rename_i hnd
      simp only [Except.ok.injEq] at hm
      subst hm
      refine MatOk.recount (w := matComplete { matPut (markerCode 2) w with next := 3 })
        ⟨?_, ?_, ?_, ?_, ?_, ?_, hwf, ?_⟩ _ _
      · show 0 ≤ 2; omega
      · simp [matComplete, markerPos]
      · intro hn; simp [matComplete] at hn
      · intro hn; simp [matComplete] at hn
      · exact bytesWritten_zero _ _
      · simpa [matComplete] using h.src
      · intro _
        have hbuf : matBuf (matComplete { matPut (markerCode 2) w with next := 3 }).outbuf
            (matComplete { matPut (markerCode 2) w with next := 3 }) =
            (matBuf w.idx w).write w.fill (markerCode 2) := by
          show matBuf (matPut (markerCode 2) w).idx (matPut (markerCode 2) w) = _
          rw [matPut_idx, matBuf_matPut_same]
        rw [hbuf]
        refine ⟨by simp [matComplete], ?_, bytesAt_write_after hst.2 (by simp [hfill]),
          bytesAt_write_after hmi.2 (by simp [hfill]), ?_⟩
        · rw [hfill] at hwr ⊢; exact hwr
        · rw [hfill] at hself ⊢; exact hself

theorem MatOk.turn {b : List Byte} {w w' : MatWork} (h : MatOk b w) (ht : matTurn b w = .ok w') :
    MatOk b w' := by
  unfold matTurn at ht
  by_cases hm : markerPos w.next = w.fill
  · rw [if_pos hm] at ht
    cases hk : matMarker w with
    | error v => rw [hk] at ht; cases ht
    | ok v =>
      rw [hk] at ht
      simp only [Except.ok.injEq] at ht
      exact ht ▸ ((h.marker hm.symm hk).zeros).data
  · rw [if_neg hm] at ht
    simp only [Except.ok.injEq] at ht
    exact ht ▸ (h.zeros).data

/-- A frame that is placed leaves the invariant, with nothing left to do. -/
theorem MatOk.loop {b : List Byte} : ∀ (fuel : Nat) {w w' : MatWork}, MatOk b w →
    matLoop b fuel w = .placed w' → MatOk b w' ∧ matGoesOn w' = false
  | 0, w, w', h, hl => by
    unfold matLoop at hl
    split at hl
    · cases hl
    · rename_i hg
      cases hl; exact ⟨h, by simpa using hg⟩
  | fuel + 1, w, w', h, hl => by
    unfold matLoop at hl
    split at hl
    · cases ht : matTurn b w with
      | error v => rw [ht] at hl; cases hl
      | ok v => rw [ht] at hl; exact MatOk.loop fuel (h.turn ht) hl
    · rename_i hg
      cases hl; exact ⟨h, by simpa using hg⟩

/-- The working copy of a state whose buffer is filled as far as it says. -/
theorem matWork_ok {i pad : Nat} {s : State} (hi : nextMarker s.matFill.toNat = some i)
    (hf : MatFilled (activeMat s) s.matFill.toNat) (h0 : s.mat0.wf Config.matFrameSize)
    (h1 : s.mat1.wf Config.matFrameSize) : MatOk s.frameIn.data (matWork i (frameLen s) pad s) := by
  obtain ⟨hle, hpos, z0, z1, z2⟩ := nextMarker_some hi
  have hbuf : matBuf s.matIdx (matWork i (frameLen s) pad s) = activeMat s := by
    unfold activeMat matBuf matSpace matWork; cases s.matIdx <;> rfl
  refine ⟨hle, hpos, ?_, ?_, ?_, by simp [matWork, frameLen], ?_, by intro h; cases h⟩
  · intro hn
    have hne : s.matFill.toNat ≠ 0 := by
      have hn' : i ≠ 0 := hn
      have : i = 1 ∨ i = 2 := by omega
      rcases this with h | h
      · have := z1 h; omega
      · have := z2 h; omega
    have := hf.start hne
    exact ⟨this.1, by show bytesAt (matBuf s.matIdx _) _ _; rw [hbuf]; exact this.2⟩
  · intro hn
    have hn' : i = 2 := hn
    have := hf.middle (by have := z2 hn'; omega)
    exact ⟨this.1, by show bytesAt (matBuf s.matIdx _) _ _; rw [hbuf]; exact this.2⟩
  · show bytesWritten (matBuf s.matIdx _) _ _
    rw [hbuf]; exact hf.written
  · intro j
    cases j
    · exact h0
    · exact h1

/-- At the loop's end the buffer is filled with its markers, short of the end marker. -/
theorem MatOk.filled {b : List Byte} {w : MatWork} (h : MatOk b w) (hg : matGoesOn w = false) :
    MatFilled (matBuf w.idx w) w.fill ∧ 20 ≤ w.fill ∧ w.fill ≤ 61407 ∧ w.data = 0 ∧ w.pad = 0 := by
  simp only [matGoesOn, Bool.or_eq_false_iff, decide_eq_false_iff_not, beq_eq_false_iff_ne] at hg
  obtain ⟨⟨hp, hd⟩, hne⟩ := hg
  have hn := h.next_le
  have hle := h.fill_le
  have hnext : w.next = 1 ∨ w.next = 2 := by
    have : w.next ≠ 0 := by
      intro e
      rw [e] at hne hle
      have : markerPos 0 = 0 := rfl
      omega
    omega
  have hst := h.start (by omega)
  have hp1 : markerPos 1 = 30708 := rfl
  have hp2 : markerPos 2 = 61408 := rfl
  refine ⟨⟨h.written, fun _ => hst, fun hm => ?_⟩, hst.1, ?_, by omega, by omega⟩
  · rcases hnext with e | e
    · rw [e] at hne hle; omega
    · exact h.middle e
  · rcases hnext with e | e <;> rw [e] at hne hle <;> omega

/-- A second completion leaves both buffers in their canonical form. -/
theorem MatOk.turn_error {b : List Byte} {w w' : MatWork} (h : MatOk b w) (ht : matTurn b w = .error w') :
    ∀ i, (matBuf i w').wf Config.matFrameSize := by
  unfold matTurn at ht
  by_cases hm : markerPos w.next = w.fill
  · rw [if_pos hm] at ht
    cases hk : matMarker w with
    | ok v => rw [hk] at ht; cases ht
    | error v =>
      rw [hk] at ht
      simp only [Except.error.injEq] at ht
      subst ht
      have hn3 : w.next + 1 = 3 := by
        by_contra hne
        rw [matMarker_inner hne] at hk; cases hk
      rw [matMarker_end hn3] at hk
      split at hk
      · simp only [Except.error.injEq] at hk
        subst hk
        have h2 : w.next = 2 := by omega
        rw [h2] at hm
        have hp2 : markerPos 2 = 61408 := rfl
        intro i
        show (matBuf i (matPut (markerCode w.next) w)).wf _
        by_cases hi : i = w.idx
        · subst hi
          rw [matBuf_matPut_same, h2]
          exact Memory.wf_write (h.wf _) _ _ (by rw [← hm]; decide)
        · rw [matBuf_matPut_other _ _ hi]; exact h.wf i
      · cases hk
  · rw [if_neg hm] at ht; cases ht

theorem MatOk.loop_second {b : List Byte} : ∀ (fuel : Nat) {w w' : MatWork}, MatOk b w →
    matLoop b fuel w = .second w' → ∀ i, (matBuf i w').wf Config.matFrameSize
  | 0, w, w', h, hl => by
    unfold matLoop at hl
    split at hl <;> cases hl
  | fuel + 1, w, w', h, hl => by
    unfold matLoop at hl
    split at hl
    · cases ht : matTurn b w with
      | error v => rw [ht] at hl; cases hl; exact h.turn_error ht
      | ok v => rw [ht] at hl; exact MatOk.loop_second fuel (h.turn ht) hl
    · cases hl

/-! ### What the loop does not change -/

/-- Unless it completes a MAT frame, the loop keeps the buffer it fills; when it does, it ends in the other one. -/
def MatSide (idx : Bool) (w : MatWork) : Prop := w.idx = if w.done then !idx else idx

theorem MatSide.turn {b : List Byte} {idx : Bool} {w w' : MatWork} (h : MatSide idx w) (ht : matTurn b w = .ok w') :
    MatSide idx w' := by
  have hz : ∀ v : MatWork, MatSide idx v → MatSide idx (matData b (matZeros v)) := by
    intro v hv
    have h1 : (matZeros v).idx = v.idx ∧ (matZeros v).done = v.done := by unfold matZeros; split <;> simp
    have h2 : ∀ u, (matData b u).idx = u.idx ∧ (matData b u).done = u.done := by
      intro u; unfold matData; split <;> simp
    unfold MatSide at hv ⊢
    rw [(h2 _).1, (h2 _).2, h1.1, h1.2]; exact hv
  unfold matTurn at ht
  by_cases hm : markerPos w.next = w.fill
  · rw [if_pos hm] at ht
    cases hk : matMarker w with
    | error v => rw [hk] at ht; cases ht
    | ok v =>
      rw [hk] at ht
      simp only [Except.ok.injEq] at ht
      refine ht ▸ hz v ?_
      by_cases h3 : w.next + 1 = 3
      · rw [matMarker_end h3] at hk
        split at hk
        · cases hk
        · rename_i hd
          simp only [Except.ok.injEq] at hk
          subst hk
          have hd' : w.done = false := by simpa using hd
          unfold MatSide at h ⊢
          rw [hd'] at h
          simp only [matSpend_idx, matSpend_done, matComplete, matPut_idx, if_true, h, Bool.false_eq_true, if_false]
      · rw [matMarker_inner h3] at hk
        simp only [Except.ok.injEq] at hk
        subst hk
        unfold MatSide at h ⊢
        simpa using h
  · rw [if_neg hm] at ht
    simp only [Except.ok.injEq] at ht
    exact ht ▸ hz w h

theorem MatSide.loop {b : List Byte} {idx : Bool} : ∀ (fuel : Nat) {w w' : MatWork}, MatSide idx w →
    matLoop b fuel w = .placed w' → MatSide idx w'
  | 0, w, w', h, hl => by
    unfold matLoop at hl
    split at hl
    · cases hl
    · cases hl; exact h
  | fuel + 1, w, w', h, hl => by
    unfold matLoop at hl
    split at hl
    · cases ht : matTurn b w with
      | error v => rw [ht] at hl; cases hl
      | ok v => rw [ht] at hl; exact MatSide.loop fuel (h.turn ht) hl
    · cases hl; exact h

end Sys2Proof.Machine
end

