-- ==== Sys2Proof/Laws/Encoders.lean ====
section
/-! SUPPORT. What each encapsulator can do once its checks are passed: one lemma for each, which says the whole state
it ends in. -/

namespace Sys2Proof.Machine

/-- The state `s` with the packet `b` handed over, built in one piece over the older contents of `OB`. -/
def sentPacket (b : List Byte) (samples : Word) (pts dts : Stamp) (s : State) : State :=
  { s with
    pktOut := some { data := b, nbSamples := samples, pts := pts, dts := dts },
    pktLen := BitVec.ofNat 32 b.length, pktSamples := samples, pktValid := true,
    obActive := false, obCap := 0, cursor := 0, obSamples := 0, obPts := 0, obDts := 0,
    ob := s.ob.write 0 b, verdict := .packet, errKind := .none }

/-- The packet of a command is the one its start left room for. -/
theorem sentPacket_commandStart (b : List Byte) (samples : Word) (pts dts : Stamp) (s : State) :
    sentPacket b samples pts dts (commandStart s) =
      { handedOver b samples pts dts s with ob := s.ob.write 0 b } := rfl

theorem acceptable {s : State} (h : submitting s) (enc : State → Act Verdict) :
    execute (submitWith enc) s = settle ((enc (commandStart s)).andThen finishCommand) := by
  rw [execute_running h.1, submitWith_open (s := commandStart s) h.2.1 h.2.2]

/-- A SUBMIT whose encapsulator raises a flushing error before it has written anything. -/
theorem submit_raise {s : State} {enc : State → Act Verdict} {k : ErrKind} (h : submitting s)
    (hk : errorFlushes k = true) (he : enc (commandStart s) = raiseError k (commandStart s)) :
    execute (submitWith enc) s = .next (rejected k s) := by
  rw [acceptable h, he]
  simp only [raiseError, Act.raise_andThen, settle_raise, takeException_flushing hk, clearPort_flush_commandStart, rejected]

/-! ### The end of a single-burst SUBMIT -/

section
variable {s : State} {m : Memory} {cap : Nat} {samples : Word} {pts dts : Stamp} {p : List Byte}

/-- FINALIZE and the handoff of the packet in progress. -/
theorem finalize_sent {dt : Half} {unit : Nat} (hp : 8 + p.length ≤ cap) (hc : cap ≤ 65536) (hd : dt ≠ 0)
    (hu : unit = 1 ∨ unit = 8) :
    ((packetFinalize dt unit (withPacket s.ob cap samples pts dts p s)).andThen
        fun _ s => .ok Verdict.packet s).andThen finishCommand =
      .ok () (sentPacket (burst s.sOutBe dt unit p cap) samples pts dts s) := finalize_handoff hp hc hd hu

end

/-! ### AC-3 -/

theorem ac3DataType_ne_zero (b : Byte) : ac3DataType b ≠ 0 := by revert b; decide

/-- The burst of an AC-3 frame that fits (42_ac3.md rule R150). -/
theorem ac3Emit_sent {n : Nat} {s : State} (ha : s.obActive = false) (h6 : 6 ≤ n) (hn : n ≤ frameLen s)
    (hf : ceil2 n + 8 ≤ 6144) : (ac3Emit n s).andThen finishCommand =
      .ok () (sentPacket (burst s.sOutBe (ac3DataType (s.frameIn.data.getD 5 0)) 8
        (outputBytes true s.sOutBe (s.frameIn.data.take n)) 6144) 1536 s.frameIn.pts s.frameIn.dts s) := by
  have hlen : (s.frameIn.data.take n).length = n := by
    rw [List.length_take]; simp only [frameLen] at hn; omega
  have h5 : 5 < s.frameIn.data.length := by simp only [frameLen] at hn; omega
  unfold ac3Emit
  rw [packetBegin_ok ha (by decide) (by decide) (by decide)]
  simp only [Act.ok_andThen]
  rw [inRead_ok (by rw [frameLen_withPacket]; omega)]
  simp only [Act.ok_andThen, withPacket_frameIn, List.drop_zero]
  rw [packetWrite_ok (by rw [hlen]; simp only [Config.hdr, Config.ac3Capacity, List.length_nil]; omega) (by decide)]
  simp only [Act.ok_andThen, List.nil_append]
  rw [inRead_ok (by rw [frameLen_withPacket]; simp only [frameLen] at hn ⊢; omega)]
  simp only [Act.ok_andThen, withPacket_frameIn]
  have hb : ((s.frameIn.data.drop 5).take 1).headD 0 = s.frameIn.data.getD 5 0 := by
    rw [List.drop_eq_getElem_cons h5, List.take_succ_cons, List.headD_cons, List.getD_eq_getElem _ _ h5]
  rw [hb]
  exact finalize_sent (by rw [outputBytes_length, hlen]; simp only [Config.ac3Capacity]; omega)
    (by decide) (ac3DataType_ne_zero _) (Or.inr rfl)

/-! ### DTS -/

theorem dtsPayload_length (v : DtsVariant) (core : List Byte) (outBe : Bool) :
    (dtsBurstPayload outBe v core).length = ceil2 (dtsPayload v core).1.length := by
  cases v <;> exact outputBytes_length _ _ _

theorem dtsPayload_output (v : DtsVariant) (core : List Byte) (outBe : Bool) :
    outputBytes (dtsPayload v core).2 outBe (dtsPayload v core).1 = dtsBurstPayload outBe v core := by
  cases v <;> rfl

/-- The burst of a DTS core that lies inside the input and fits (44_dts.md rule R170). -/
theorem dtsEmit_sent {h : DtsHeader} {dt : Half} {s : State} (ha : s.obActive = false)
    (hl : h.frameLength = 512 ∨ h.frameLength = 1024 ∨ h.frameLength = 2048) (hd : dt ≠ 0)
    (hn : h.frameSize ≤ frameLen s)
    (hf : (dtsBurstPayload s.sOutBe h.variant (s.frameIn.data.take h.frameSize)).length + 8 ≤ h.frameLength * 4) :
    (dtsEmit h dt s).andThen finishCommand =
      .ok () (sentPacket (burst s.sOutBe dt 8 (dtsBurstPayload s.sOutBe h.variant (s.frameIn.data.take h.frameSize))
        (h.frameLength * 4)) (BitVec.ofNat 32 h.frameLength) s.frameIn.pts s.frameIn.dts s) := by
  unfold dtsEmit
  rw [inRead_ok (by omega)]
  simp only [Act.ok_andThen, List.drop_zero]
  rw [dtsPayload_length] at hf
  rw [if_neg (by simp only [Config.hdr]; omega)]
  rw [packetBegin_ok ha (by omega) (by omega) (by simp only [Config.outbufBytes]; omega)]
  simp only [Act.ok_andThen]
  rw [packetWrite_ok (by simp only [Config.hdr, List.length_nil]; omega) (by simp only [Config.outbufBytes]; omega)]
  simp only [Act.ok_andThen, List.nil_append, dtsPayload_output]
  exact finalize_sent (by rw [dtsPayload_length]; omega) (by omega) hd (Or.inr rfl)

/-! ### DTS-HD -/

/-- The alignment padding always fits (45_dtshd.md rule R185). -/
theorem dtshdAlign_ok {m : Memory} {cap : Nat} {samples : Word} {pts dts : Stamp} {p : List Byte} {s : State}
    (h16 : cap % 16 = 0) (hp : 8 + p.length ≤ cap) (hc : cap ≤ 65536) :
    dtshdAlign (withPacket m cap samples pts dts p s) = .ok () (withPacket m cap samples pts dts
      (p ++ List.replicate (alignUp (p.length + 8) 16 - 8 - p.length) 0) s) := by
  have hcur := withPacket_cursor (m := m) (samples := samples) (pts := pts) (dts := dts) (s := s)
    (p := p) (cap := cap) hp hc
  have hcap := withPacket_obCap (m := m) (samples := samples) (pts := pts) (dts := dts) (s := s) (p := p) hc
  have hlen : Config.hdr + p.length - Config.hdr = p.length := by omega
  have hfit : Config.hdr + p.length + (alignUp (p.length + 8) 16 - 8 - p.length) ≤ cap := by
    simp only [Config.hdr, alignUp]; omega
  unfold dtshdAlign
  simp only [hcur, hcap, hlen]
  by_cases h0 : 0 < alignUp (p.length + 8) 16 - 8 - p.length
  · rw [if_pos ⟨h0, hfit⟩, packetPad_ok hfit hc]
  · rw [if_neg (fun h => h0 h.1)]
    have : alignUp (p.length + 8) 16 - 8 - p.length = 0 := by omega
    rw [this]; simp

theorem packetWrite16_ok {m : Memory} {cap : Nat} {samples : Word} {pts dts : Stamp} {p : List Byte} {s : State}
    {v : Half} (hf : 8 + p.length + 2 ≤ cap) (hc : cap ≤ 65536) :
    packetWrite16 v (withPacket m cap samples pts dts p s) =
      .ok () (withPacket m cap samples pts dts (p ++ unitBytes s.sOutBe v) s) := by
  unfold packetWrite16
  rw [packetWrite_ok (by simpa [ceil2, Config.hdr] using hf) hc]
  have : outputBytes true s.sOutBe [highByte v, lowByte v] = unitBytes s.sOutBe v := by
    cases s.sOutBe <;> rfl
  rw [this]

theorem dtshdDataType_ne_zero (n : Nat) : dtshdDataType n ≠ 0 := by
  intro h
  have : (dtshdDataType n).getLsbD 0 = false := by rw [h]; rfl
  simp [dtshdDataType] at this

theorem alignUp_payload (n : Nat) : (n + (alignUp (n + 8) 16 - 8 - n)) % 16 = 8 := by
  unfold alignUp; omega

theorem dtshdStart_length : ceil2 dtshdStart.length = 10 := rfl

theorem dtshdPayload_length (outBe : Bool) (v : DtsVariant) (d : List Byte) :
    (dtshdPayload outBe v d).length % 16 = 8 ∧ (dtshdPayload outBe v d).length < 12 + ceil2 d.length + 16 := by
  have hq : (outputBytes true outBe dtshdStart ++ (unitBytes outBe (BitVec.ofNat 16 d.length) ++
      outputBytes (v = .be16 || v = .be14) outBe d)).length = 12 + ceil2 d.length := by
    simp only [List.length_append, outputBytes_length, unitBytes_length, dtshdStart_length]
    omega
  unfold dtshdPayload
  simp only [List.length_append (bs := List.replicate _ _), List.length_replicate, hq]
  exact ⟨alignUp_payload _, by unfold alignUp; omega⟩

/-- The burst of the first `m` bytes of a DTS-HD frame (45_dtshd.md rule R180). -/
theorem dtshdEmit_sent {cap m st : Nat} {v : DtsVariant} {s : State} (ha : s.obActive = false)
    (h16 : cap % 16 = 0) (hc : cap ≤ 65536) (hm : m ≤ frameLen s) (hf : 20 + ceil2 m ≤ cap) :
    (dtshdEmit cap m st (dtshdSourceBe v) s).andThen finishCommand =
      .ok () (sentPacket (burst s.sOutBe (dtshdDataType st) 1 (dtshdPayload s.sOutBe v (s.frameIn.data.take m)) cap)
        (packetSamples cap s.sBpf) s.frameIn.pts s.frameIn.dts s) := by
  have hlen : (s.frameIn.data.take m).length = m := by
    rw [List.length_take]; simp only [frameLen] at hm; omega
  unfold dtshdEmit
  rw [packetBegin_ok ha (by omega) (by omega) (by simp only [Config.outbufBytes]; omega)]
  simp only [Act.ok_andThen]
  rw [packetWrite_ok (by simp only [Config.hdr, List.length_nil, dtshdStart_length]; omega)
    (by simp only [Config.outbufBytes]; omega)]
  simp only [Act.ok_andThen, List.nil_append]
  rw [packetWrite16_ok (by rw [outputBytes_length, dtshdStart_length]; omega) hc]
  simp only [Act.ok_andThen]
  rw [inRead_ok (by rw [frameLen_withPacket]; omega)]
  simp only [Act.ok_andThen, withPacket_frameIn, List.drop_zero]
  rw [packetWrite_ok (by
    simp only [Config.hdr, List.length_append, outputBytes_length, unitBytes_length, hlen, dtshdStart_length]
    omega) (by simp only [Config.outbufBytes]; omega)]
  simp only [Act.ok_andThen, List.append_assoc]
  rw [dtshdAlign_ok h16 (by
    simp only [List.length_append, outputBytes_length, unitBytes_length, hlen, dtshdStart_length]
    omega) hc]
  simp only [Act.ok_andThen]
  have hsrc : dtshdSourceBe v = (decide (v = .be16) || decide (v = .be14)) := by cases v <;> rfl
  have hpay : ∀ q : List Byte, q = outputBytes true s.sOutBe dtshdStart ++ (unitBytes s.sOutBe (BitVec.ofNat 16 m) ++
      outputBytes (dtshdSourceBe v) s.sOutBe (s.frameIn.data.take m)) →
      q ++ List.replicate (alignUp (q.length + 8) 16 - 8 - q.length) 0 =
        dtshdPayload s.sOutBe v (s.frameIn.data.take m) := by
    intro q hq
    simp only [dtshdPayload, hlen, ← hsrc, ← hq]
  rw [hpay _ rfl]
  refine finalize_sent ?_ hc (dtshdDataType_ne_zero _) (Or.inl rfl)
  have := dtshdPayload_length s.sOutBe v (s.frameIn.data.take m)
  rw [hlen] at this
  have he := ceil2_even m
  omega

/-! ### E-AC-3 -/

/-- A state with a packet in progress is the packet so far put over its own `OB`. -/
theorem eq_withPacket {s : State} {p : List Byte} (ha : s.obActive = true) (hw : s.ob.wf Config.outbufBytes)
    (hp : p.length = s.cursor.toNat - 8) (h8 : 8 ≤ s.cursor.toNat) (hb : bytesAt s.ob 8 p) :
    withPacket s.ob s.obCap.toNat s.obSamples s.obPts s.obDts p s = s := by
  have hc : BitVec.ofNat 17 (Config.hdr + p.length) = s.cursor := by
    apply BitVec.eq_of_toNat_eq
    have := s.cursor.isLt
    simp only [BitVec.toNat_ofNat, Config.hdr]; omega
  have hcap : BitVec.ofNat 17 s.obCap.toNat = s.obCap := by simp
  have hm : s.ob.write Config.hdr p = s.ob := Memory.write_self hw hb
  unfold withPacket
  rw [hc, hcap, hm]
  cases s; simp only at ha; subst ha; rfl

/-- WRITE_BYTES on any packet in progress that it fits (41_packet_writer.md rule R131). -/
theorem packetWrite_at {s : State} {d : List Byte} {be : Bool} (ha : s.obActive = true)
    (hf : s.cursor.toNat + ceil2 d.length ≤ s.obCap.toNat) (hc : s.obCap.toNat ≤ 65536) :
    packetWrite d be s = .ok () { s with
      ob := s.ob.write s.cursor.toNat (outputBytes be s.sOutBe d),
      cursor := BitVec.ofNat 17 (s.cursor.toNat + ceil2 d.length) } := by
  have hsz : ¬ spaceSize .ob < s.cursor.toNat + ceil2 d.length := by
    simp only [spaceSize, Config.outbufBytes]; omega
  simp only [packetWrite, ha, Bool.not_true, Bool.false_eq_true, if_false, if_neg (Nat.not_lt.mpr hf), obWrite,
    outputBytes_length, if_neg hsz, Act.ok_andThen, advanceCursor]

/-- WRITE_PADDING on any packet in progress that it fits (41_packet_writer.md rule R133). -/
theorem packetPad_at {s : State} {n : Nat} (ha : s.obActive = true)
    (hf : s.cursor.toNat + n ≤ s.obCap.toNat) (hc : s.obCap.toNat ≤ 65536) :
    packetPad n s = .ok () { s with
      ob := s.ob.write s.cursor.toNat (List.replicate n 0), cursor := BitVec.ofNat 17 (s.cursor.toNat + n) } := by
  have hsz : ¬ spaceSize .ob < s.cursor.toNat + n := by
    simp only [spaceSize, Config.outbufBytes]; omega
  simp only [packetPad, ha, Bool.not_true, Bool.false_eq_true, if_false, if_neg (Nat.not_lt.mpr hf), obWrite,
    List.length_replicate, if_neg hsz, Act.ok_andThen, advanceCursor]

/-- Appending a frame that fits the aggregate in progress (43_eac3.md rule R160). -/
theorem eac3Append_at {s : State} (ha : s.obActive = true)
    (hf : s.cursor.toNat + ceil2 (frameLen s) ≤ s.obCap.toNat) (hc : s.obCap.toNat ≤ 65536) :
    eac3Append s = .ok () { s with
      ob := s.ob.write s.cursor.toNat (outputBytes true s.sOutBe s.frameIn.data),
      cursor := BitVec.ofNat 17 (s.cursor.toNat + ceil2 (frameLen s)) } := by
  unfold eac3Append
  rw [if_neg (by omega), inRead_ok (by omega)]
  simp only [Act.ok_andThen, List.drop_zero, frameLen, List.take_length]
  exact packetWrite_at ha hf hc

/-- The header checks of ENC_EAC3 pass exactly on the buffers of `eac3Accepts` (43_eac3.md rules R160, R161). -/
theorem eac3Blocks_eq_ok {d : List Byte} {n : Nat} : eac3Blocks d = .ok n ↔ eac3Accepts d n := by
  unfold eac3Blocks eac3Accepts eac3CheckSecond
  cases hp : a52Parse d with
  | none => simp
  | some h1 =>
    by_cases h2 : d.length < h1.size
    · simp only [if_pos h2, Option.some.injEq, reduceCtorEq, false_iff]
      rintro ⟨h, rfl, _, hh | hh⟩ <;> omega
    · by_cases h3 : h1.size < d.length
      · cases hq : a52Parse (d.drop h1.size) with
        | none =>
          simp only [if_neg h2, if_pos h3, hq, reduceCtorEq, Option.some.injEq, false_iff]
          rintro ⟨h, rfl, _, hh | ⟨_, h2', hh, _⟩⟩
          · omega
          · rw [hq] at hh; cases hh
        | some g =>
          simp only [if_neg h2, if_pos h3, hq, List.length_drop, Option.some.injEq]
          constructor
          · intro h
            split at h
            · cases h
            · rename_i hsz
              split at hsz
              · cases hsz
              · split at hsz
                · cases hsz
                · rename_i hs1 hs2
                  simp only [Except.ok.injEq] at h
                  refine ⟨h1, rfl, h, Or.inr ⟨h3, g, hq, by omega, ?_, ?_⟩⟩
                  · by_contra hc; exact hs2 (Or.inl (by simpa using hc))
                  · by_contra hc; exact hs2 (Or.inr hc)
          · rintro ⟨h, rfl, hb, hh | ⟨_, h2', hh, hs, he, ht⟩⟩
            · omega
            · rw [hq] at hh; cases hh
              rw [if_neg (by omega), if_neg (by simp [he, ht])]
              simp [hb]
      · simp only [if_neg h2, if_neg h3, Except.ok.injEq, Option.some.injEq]
        constructor
        · intro h; exact ⟨h1, rfl, h, Or.inl (by omega)⟩
        · rintro ⟨h, rfl, hb, _⟩; exact hb

/-- The reparse trigger, in the words of 42_ac3.md rule R151. -/
theorem ac3NeedsReparse_iff (f : Frame) : ac3NeedsReparse f = true ↔
    (f.data.length < 6 ∨ 6144 < f.data.length ∨ f.nbSamples ≠ 1536) := by
  simp only [ac3NeedsReparse, Bool.or_eq_true, decide_eq_true_eq, bne_iff_ne, or_assoc]
  exact Iff.rfl

/-- The block counter below six, past six, and at six (43_eac3.md rule R162). -/
theorem eac3Count_more {n : Nat} {s : State} (h : s.eac3Blocks.toNat + n < 6) : eac3Count n s =
    .ok .more { s with eac3Blocks := BitVec.ofNat 3 (s.eac3Blocks.toNat + n) } := if_pos h

theorem eac3Count_past {n : Nat} {s : State} (h : 6 < s.eac3Blocks.toNat + n) :
    eac3Count n s = raiseError .stateViolation s :=
  (if_neg (Nat.lt_asymm h)).trans (if_pos h)

theorem eac3Count_six {n : Nat} {s : State} (h : s.eac3Blocks.toNat + n = 6) : eac3Count n s =
    (packetFinalize 0x0015 1 s).andThen fun _ s => .ok .packet { s with eac3Blocks := 0 } := by
  have h1 : ¬ s.eac3Blocks.toNat + n < Config.eac3BlocksPerPacket := by simp only [Config.eac3BlocksPerPacket]; omega
  have h2 : ¬ Config.eac3BlocksPerPacket < s.eac3Blocks.toNat + n := by simp only [Config.eac3BlocksPerPacket]; omega
  exact (if_neg h1).trans (if_neg h2)

/-- The length that ENC_AC3 sends (42_ac3.md rule R150). -/
theorem ac3Length_ok {f : Frame} {n : Nat} (h : ac3Length f = .ok n) : 6 ≤ n ∧ n ≤ f.data.length := by
  unfold ac3Length at h
  split at h
  · split at h
    · cases h
    · split at h
      · cases h
      · split at h
        · cases h
        · split at h
          · cases h
          · cases h; omega
  · rename_i hr
    cases h
    rw [ac3NeedsReparse_iff] at hr
    omega

/-! ### TrueHD -/

/-- The burst of a completed MAT buffer (46_truehd_mat.md rule R197). -/
theorem thdEmit_sent {outbuf : Bool} {d : List Byte} {s : State} (ha : s.obActive = false)
    (hr : (spaceOf (matSpace outbuf) s).read? 0 61424 = some d) :
    (thdEmit outbuf s).andThen finishCommand =
      .ok () (sentPacket (burst s.sOutBe 0x0016 1 (outputBytes true s.sOutBe d) 61440)
        (packetSamples 61440 s.sBpf) s.frameIn.pts s.frameIn.dts s) := by
  have hlen := (Memory.bytesAt_of_read? hr).1
  have hc2 : ceil2 d.length = 61424 := by rw [hlen]; rfl
  unfold thdEmit
  rw [packetBegin_ok ha (by decide) (by decide) (by decide)]
  simp only [Act.ok_andThen]
  have hm : memRead (matSpace outbuf) 0 Config.matFrameSize (withPacket s.ob Config.truehdCapacity
      (packetSamples Config.truehdCapacity s.sBpf) s.frameIn.pts s.frameIn.dts [] s) =
      .ok d (withPacket s.ob Config.truehdCapacity
      (packetSamples Config.truehdCapacity s.sBpf) s.frameIn.pts s.frameIn.dts [] s) := by
    have hs : ¬ spaceSize (matSpace outbuf) < 0 + Config.matFrameSize := by
      cases outbuf <;> decide
    have hr' : (spaceOf (matSpace outbuf) (withPacket s.ob Config.truehdCapacity
      (packetSamples Config.truehdCapacity s.sBpf) s.frameIn.pts s.frameIn.dts [] s)).read? 0 Config.matFrameSize = some d := by
      cases outbuf <;> exact hr
    unfold memRead
    rw [if_neg hs, hr']
  rw [hm]
  simp only [Act.ok_andThen]
  rw [packetWrite_ok (by rw [hc2]; decide) (by decide)]
  simp only [Act.ok_andThen, List.nil_append]
  exact finalize_sent (by rw [outputBytes_length, hc2]; decide) (by decide) (by decide) (Or.inl rfl)

end Sys2Proof.Machine
end

