-- ==== Sys2Proof/Laws/Frames.lean ====
section
/-! SUPPORT. What each shared operation and each encapsulator can leave behind, whatever its operands: which elements
it writes, which bytes of `OB` it can reach, and what it can raise. -/

namespace Sys2Proof.Machine

/-- Every way an operation can end in the state: with a value and a state of `P`, or raising with a state of `Q`. -/
def Act.Ends {α : Type} (x : Act α) (P : α → State → Prop) (Q : Exception → State → Prop) : Prop :=
  match x with
  | .ok a s => P a s
  | .raise e s => Q e s
  | .stop _ => True
  | .refuse _ => True

theorem Act.Ends.andThen {α β : Type} {x : Act α} {f : α → State → Act β} {P : α → State → Prop}
    {P' : β → State → Prop} {Q : Exception → State → Prop} (hx : x.Ends P Q)
    (hf : ∀ a s, P a s → (f a s).Ends P' Q) : (x.andThen f).Ends P' Q := by
  cases x with
  | ok a s => exact hf a s hx
  | raise e s => exact hx
  | stop r => trivial
  | refuse r => trivial

theorem Act.Ends.mono {α : Type} {x : Act α} {P P' : α → State → Prop} {Q Q' : Exception → State → Prop}
    (hx : x.Ends P Q) (hp : ∀ a s, P a s → P' a s) (hq : ∀ e s, Q e s → Q' e s) : x.Ends P' Q' := by
  cases x with
  | ok a s => exact hp a s hx
  | raise e s => exact hq e s hx
  | stop r => trivial
  | refuse r => trivial

/-- A contract fault with a cause. -/
def isContract (e : Exception) : Prop := ∃ c, e = .contract c ∧ c ≠ .none

/-- Only the Packet Writer's elements differ (10_state.md rule R43). -/
def WriterOnly (s t : State) : Prop :=
  t = { s with obActive := t.obActive, obCap := t.obCap, cursor := t.cursor, obSamples := t.obSamples,
               obPts := t.obPts, obDts := t.obDts, ob := t.ob }

theorem WriterOnly.refl (s : State) : WriterOnly s s := rfl

theorem WriterOnly.trans {s t u : State} (h1 : WriterOnly s t) (h2 : WriterOnly t u) : WriterOnly s u := by
  unfold WriterOnly at *; rw [h1] at h2; exact h2

/-- The bytes of `OB` from `c` on are the same. -/
def KeepsFrom (c : Nat) (s t : State) : Prop := ∀ a, c ≤ a → t.ob.get? a = s.ob.get? a

theorem KeepsFrom.refl (c : Nat) (s : State) : KeepsFrom c s s := fun _ _ => rfl

theorem KeepsFrom.trans {c : Nat} {s t u : State} (h1 : KeepsFrom c s t) (h2 : KeepsFrom c t u) :
    KeepsFrom c s u := fun a ha => (h2 a ha).trans (h1 a ha)

/-- A primitive of the Packet Writer keeps the packet's capacity and reaches no byte past it. -/
structure OnPacket (s t : State) : Prop where
  writer : WriterOnly s t
  active : t.obActive = s.obActive
  cap : t.obCap = s.obCap
  keeps : ∀ c, 8 ≤ c → s.obCap.toNat ≤ c → KeepsFrom c s t

theorem OnPacket.refl (s : State) : OnPacket s s := ⟨.refl s, rfl, rfl, fun _ _ _ => .refl _ _⟩

theorem OnPacket.trans {s t u : State} (h1 : OnPacket s t) (h2 : OnPacket t u) : OnPacket s u :=
  ⟨h1.writer.trans h2.writer, h2.active.trans h1.active, h2.cap.trans h1.cap,
    fun c h8 hc => (h1.keeps c h8 hc).trans (h2.keeps c h8 (h1.cap ▸ hc))⟩

/-! ### The Packet Writer -/

theorem inRead_ends (a n : Nat) (s : State) :
    (inRead a n s).Ends (fun _ t => t = s) (fun e t => isContract e ∧ t = s) := by
  unfold inRead
  split
  · exact ⟨⟨_, rfl, by decide⟩, rfl⟩
  · rfl

theorem memRead_ends (sp : Space) (a n : Nat) (s : State) :
    (memRead sp a n s).Ends (fun _ t => t = s) (fun _ _ => False) := by
  unfold memRead
  split
  · trivial
  · split
    · trivial
    · rfl

/-- BEGIN: the packet's elements, no byte of `OB`, and RESOURCE_EXHAUSTION only above the size of `OB`. -/
theorem packetBegin_ends (cap : Nat) (samples : Word) (pts dts : Stamp) (s : State) :
    (packetBegin cap samples pts dts s).Ends
      (fun _ t => WriterOnly s t ∧ t.obActive = true ∧ t.obCap = BitVec.ofNat 17 cap ∧ t.ob = s.ob)
      (fun e t => t = s ∧ (isContract e ∨ e = .error .resourceExhaustion ∧ 65536 < cap)) := by
  unfold packetBegin
  split
  · exact ⟨rfl, Or.inl ⟨_, rfl, by decide⟩⟩
  · split
    · exact ⟨rfl, Or.inl ⟨_, rfl, by decide⟩⟩
    · split
      · rename_i h; exact ⟨rfl, Or.inr ⟨rfl, h⟩⟩
      · exact ⟨rfl, rfl, rfl, rfl⟩

theorem onPacket_write {s : State} {a : Nat} {bs : List Byte} {c : BitVec 17}
    (h : a + bs.length ≤ s.obCap.toNat ∨ a + bs.length ≤ 8) :
    OnPacket s { s with ob := s.ob.write a bs, cursor := c } :=
  ⟨rfl, rfl, rfl, fun c h8 hc x hx => Memory.get?_write_outside _ _ _ _ (Or.inr (by omega))⟩

theorem packetWrite_ends (d : List Byte) (be : Bool) (s : State) :
    (packetWrite d be s).Ends (fun _ t => OnPacket s t) (fun e t => isContract e ∧ t = s) := by
  unfold packetWrite obWrite
  split
  · exact ⟨⟨_, rfl, by decide⟩, rfl⟩
  · split
    · exact ⟨⟨_, rfl, by decide⟩, rfl⟩
    · split
      · trivial
      · exact onPacket_write (Or.inl (by rw [outputBytes_length]; omega))

theorem packetPad_ends (n : Nat) (s : State) :
    (packetPad n s).Ends (fun _ t => OnPacket s t) (fun e t => isContract e ∧ t = s) := by
  unfold packetPad obWrite
  split
  · exact ⟨⟨_, rfl, by decide⟩, rfl⟩
  · split
    · exact ⟨⟨_, rfl, by decide⟩, rfl⟩
    · split
      · trivial
      · exact onPacket_write (Or.inl (by rw [List.length_replicate]; omega))

/-- FINALIZE ends only in a packet that has room for its header. -/
theorem packetFinalize_ends (dt : Half) (unit : Nat) (s : State) :
    (packetFinalize dt unit s).Ends (fun _ t => OnPacket s t ∧ 8 ≤ s.obCap.toNat)
      (fun e t => isContract e ∧ OnPacket s t) := by
  unfold packetFinalize obWrite
  split
  · exact ⟨⟨_, rfl, by decide⟩, .refl s⟩
  · split
    · exact ⟨⟨_, rfl, by decide⟩, .refl s⟩
    · split
      · exact ⟨⟨_, rfl, by decide⟩, .refl s⟩
      split
      · exact ⟨⟨_, rfl, contractCause_ne_none _⟩, .refl s⟩
      · rename_i hle h8
        simp only [Config.hdr] at h8
        split
        · trivial
        · have h0 : OnPacket s { s with ob := s.ob.write 0 (headerBytes s.sOutBe dt (lengthField s.cursor.toNat unit)) } :=
            onPacket_write (Or.inr (by simp))
          simp only [Act.ok_andThen]
          split
          · exact (packetPad_ends _ _).mono (fun _ _ h => ⟨h0.trans h, by omega⟩) (fun _ _ h => ⟨h.1, h.2 ▸ h0⟩)
          · exact ⟨h0, by omega⟩

/-! ### What an encapsulator may raise -/

/-- An encapsulator's exceptions: a framing error of one of the kinds with the state the checks were made in, or a
contract fault. -/
def Raises (kinds : List ErrKind) (s : State) (e : Exception) (t : State) : Prop :=
  (∃ k ∈ kinds, e = .error k ∧ t = s) ∨ isContract e

/-- The end of a packet that is built in one SUBMIT: no byte of `OB` past the packet differs. -/
structure Built (s t : State) : Prop where
  writer : WriterOnly s t
  keeps : KeepsFrom t.obCap.toNat s t

theorem built_of_onPacket {cap : Nat} {s t u : State} (h17 : cap < 2 ^ 17) (h8 : 8 ≤ cap)
    (hb : WriterOnly s t ∧ t.obActive = true ∧ t.obCap = BitVec.ofNat 17 cap ∧ t.ob = s.ob) (ho : OnPacket t u) :
    Built s u := by
  have hc : t.obCap.toNat = cap := by rw [hb.2.2.1, BitVec.toNat_ofNat]; omega
  refine ⟨hb.1.trans ho.writer, fun a ha => ?_⟩
  rw [ho.cap] at ha
  rw [ho.keeps _ (by omega) (Nat.le_refl _) a ha, hb.2.2.2]

/-- ENC_AC3 (42_ac3.md rule R150). -/
theorem ac3Body_ends (s : State) : (ac3Body s).Ends (fun v t => v = .packet ∧ Built s t)
    (Raises [.malformedHeader, .sizeMismatch, .unsupportedFraming] s) := by
  unfold ac3Body
  split
  · rename_i k hk
    refine Or.inl ⟨k, ?_, rfl, rfl⟩
    unfold ac3Length at hk
    split at hk
    · split at hk
      · cases hk; simp
      · split at hk
        · cases hk; simp
        · split at hk
          · cases hk; simp
          · split at hk
            · cases hk; simp
            · cases hk
    · cases hk
  · split
    · exact Or.inl ⟨_, by simp, rfl, rfl⟩
    · unfold ac3Emit
      refine ((packetBegin_ends _ _ _ _ s).mono (fun _ _ h => h) fun e t h => ?_).andThen fun _ t ht => ?_
      · rcases h.2 with hc | hc
        · exact Or.inr hc
        · exact absurd hc.2 (by decide)
      · refine ((inRead_ends _ _ t).mono (fun _ _ h => h) fun _ _ h => Or.inr h.1).andThen fun d u hu => ?_
        subst hu
        refine ((packetWrite_ends d true u).mono (fun _ _ h => h) fun _ _ h => Or.inr h.1).andThen fun _ v hv => ?_
        refine ((inRead_ends _ _ v).mono (fun _ _ h => h) fun _ _ h => Or.inr h.1).andThen fun _ w hw => ?_
        subst hw
        refine ((packetFinalize_ends _ _ w).mono (fun _ _ h => h) fun _ _ h => Or.inr h.1).andThen fun _ x hx => ?_
        exact ⟨rfl, built_of_onPacket (by decide) (by decide) ht (hv.trans hx.1)⟩

/-- ENC_DTS (44_dts.md rule R170). -/
theorem dtsBody_ends (s : State) : (dtsBody s).Ends (fun v t => v = .packet ∧ Built s t)
    (Raises [.malformedHeader, .sizeMismatch, .unsupportedFraming] s) := by
  unfold dtsBody
  split
  · exact Or.inl ⟨_, by simp, rfl, rfl⟩
  · rename_i h _
    split
    · exact Or.inl ⟨_, by simp, rfl, rfl⟩
    · rename_i dt hdt
      have hl : h.frameLength = 512 ∨ h.frameLength = 1024 ∨ h.frameLength = 2048 := by
        unfold dtsDataType at hdt; split at hdt <;> simp_all
      split
      · exact Or.inl ⟨_, by simp, rfl, rfl⟩
      · unfold dtsEmit
        refine ((inRead_ends _ _ s).mono (fun _ _ h => h) fun _ _ h => Or.inr h.1).andThen fun core u hu => ?_
        subst hu
        simp only
        split
        · exact Or.inl ⟨_, by simp, rfl, rfl⟩
        · refine ((packetBegin_ends _ _ _ _ u).mono (fun _ _ h => h) fun e t h => ?_).andThen fun _ t ht => ?_
          · rcases h.2 with hc | hc
            · exact Or.inr hc
            · have := hc.2; omega
          · refine ((packetWrite_ends _ _ t).mono (fun _ _ h => h) fun _ _ h => Or.inr h.1).andThen fun _ v hv => ?_
            refine ((packetFinalize_ends _ _ v).mono (fun _ _ h => h) fun _ _ h => Or.inr h.1).andThen fun _ x hx => ?_
            exact ⟨rfl, built_of_onPacket (by omega) (by omega) ht (hv.trans hx.1)⟩

/-- The elements that ENC_DTSHD writes beside the packet. -/
def DtshdOnly (s t : State) : Prop :=
  t = { s with obActive := t.obActive, obCap := t.obCap, cursor := t.cursor, obSamples := t.obSamples,
               obPts := t.obPts, obDts := t.obDts, ob := t.ob,
               dtshdSkip := t.dtshdSkip, downgradeNotice := t.downgradeNotice } ∧
    (s.dtshdSkip = true → t.dtshdSkip = true)

theorem dtshdAlign_ends (s : State) :
    (dtshdAlign s).Ends (fun _ t => OnPacket s t) (fun e t => isContract e ∧ t = s) := by
  unfold dtshdAlign
  simp only
  split
  · exact packetPad_ends _ s
  · exact .refl s

theorem dtshdEmit_ends {cap : Nat} (m st : Nat) (be : Bool) (s : State) (h8 : 8 ≤ cap) (hc : cap ≤ 65536) :
    (dtshdEmit cap m st be s).Ends (fun v t => v = .packet ∧ Built s t) (fun e _ => isContract e) := by
  unfold dtshdEmit
  refine ((packetBegin_ends _ _ _ _ s).mono (fun _ _ h => h) fun e t h => ?_).andThen fun _ t hb => ?_
  · rcases h.2 with hc' | hc'
    · exact hc'
    · have := hc'.2; omega
  · refine ((packetWrite_ends _ _ t).mono (fun _ _ h => h) fun _ _ h => h.1).andThen fun _ u hu => ?_
    refine ((packetWrite_ends _ _ u).mono (fun _ _ h => hu.trans h) fun _ _ h => h.1).andThen fun _ v hv => ?_
    refine ((inRead_ends _ _ v).mono (fun _ _ h => h) fun _ _ h => h.1).andThen fun d w hw => ?_
    subst hw
    refine ((packetWrite_ends _ _ w).mono (fun _ _ h => hv.trans h) fun _ _ h => h.1).andThen fun _ x hx => ?_
    refine ((dtshdAlign_ends x).mono (fun _ _ h => hx.trans h) fun _ _ h => h.1).andThen fun _ y hy => ?_
    refine ((packetFinalize_ends _ _ y).mono (fun _ _ h => hy.trans h.1) fun _ _ h => h.1).andThen fun _ z hz => ?_
    exact ⟨rfl, built_of_onPacket (by omega) h8 hb hz⟩

/-- ENC_DTSHD (45_dtshd.md rule R180). -/
theorem dtshdBody_ends (s : State) : (dtshdBody s).Ends
    (fun v t => v = .packet ∧ DtshdOnly s t ∧ KeepsFrom t.obCap.toNat s t)
    (Raises [.malformedHeader, .sizeMismatch, .unsupportedFraming] s) := by
  unfold dtshdBody
  split
  · exact Or.inl ⟨_, by simp, rfl, rfl⟩
  · rename_i h _
    split
    · exact Or.inl ⟨_, by simp, rfl, rfl⟩
    · simp only
      split
      · exact Or.inl ⟨_, by simp, rfl, rfl⟩
      · rename_i st hst
        have hcap : 8 ≤ dtshdPeriod s.sOutRate h * 4 ∧ dtshdPeriod s.sOutRate h * 4 ≤ 65536 := by
          unfold dtshdSubtype at hst
          generalize dtshdPeriod s.sOutRate h = p at hst
          split at hst <;> first | omega | cases hst
        split
        · exact Or.inl ⟨_, by simp, rfl, rfl⟩
        · split
          · exact Or.inl ⟨_, by simp, rfl, rfl⟩
          · split
            · have hob : (dtshdDowngrade s).ob = s.ob := by unfold dtshdDowngrade; split <;> rfl
              refine (dtshdEmit_ends _ _ _ _ hcap.1 hcap.2).mono
                (fun v t h => ⟨h.1, ?_, fun a ha => by rw [h.2.keeps a ha, hob]⟩) (fun _ _ h => Or.inr h)
              have hw := h.2.writer
              unfold WriterOnly at hw
              by_cases hk : s.dtshdSkip = true
              · rw [dtshdDowngrade, if_pos hk] at hw
                unfold DtshdOnly
                rw [hw]; exact ⟨rfl, fun _ => hk⟩
              · rw [dtshdDowngrade, if_neg hk] at hw
                unfold DtshdOnly
                rw [hw]; exact ⟨rfl, fun h => absurd h hk⟩
            · refine (dtshdEmit_ends _ _ _ _ hcap.1 hcap.2).mono (fun v t h => ⟨h.1, ?_, h.2.keeps⟩)
                (fun _ _ h => Or.inr h)
              have hw := h.2.writer
              unfold WriterOnly at hw
              unfold DtshdOnly
              rw [hw]; exact ⟨rfl, fun h => h⟩

/-- The elements that ENC_EAC3 writes. -/
def Eac3Only (s t : State) : Prop :=
  t = { s with obActive := t.obActive, obCap := t.obCap, cursor := t.cursor, obSamples := t.obSamples,
               obPts := t.obPts, obDts := t.obDts, ob := t.ob, eac3Blocks := t.eac3Blocks }

/-- ENC_EAC3's exceptions: the packet in progress may already have the frame's bytes. -/
def Eac3Raises (s : State) (e : Exception) (t : State) : Prop :=
  (∃ k ∈ [ErrKind.malformedHeader, .sizeMismatch, .unsupportedFraming, .stateViolation],
    e = .error k ∧ WriterOnly s t) ∨ isContract e

theorem eac3Begin_ends (s : State) : (eac3Begin s).Ends
    (fun _ t => WriterOnly s t ∧ t.ob = s.ob ∧ t.cursor.toNat = if s.obActive then s.cursor.toNat else 8)
    (fun e _ => isContract e) := by
  unfold eac3Begin
  split
  · exact ⟨.refl s, rfl, rfl⟩
  · rename_i h
    have hb : ∀ samples pts dts, packetBegin Config.eac3Capacity samples pts dts s =
        .ok () { s with obActive := true, obCap := BitVec.ofNat 17 Config.eac3Capacity,
                        cursor := BitVec.ofNat 17 Config.hdr, obSamples := samples, obPts := pts, obDts := dts } := by
      intro samples pts dts
      unfold packetBegin
      rw [if_neg h, if_neg (by decide), if_neg (by decide)]
    rw [hb]
    exact ⟨rfl, rfl, rfl⟩

/-- The frame stands at the cursor, and nothing else of `OB` differs. -/
theorem eac3Append_ends (s : State) : (eac3Append s).Ends
    (fun _ t => OnPacket s t ∧
      ∀ a, (a < s.cursor.toNat ∨ s.cursor.toNat + ceil2 (frameLen s) ≤ a) → t.ob.get? a = s.ob.get? a)
    (fun e t => (e = .error .sizeMismatch ∧ t = s) ∨ isContract e) := by
  unfold eac3Append
  split
  · exact Or.inl ⟨rfl, rfl⟩
  · have hr : inRead 0 (frameLen s) s = .ok s.frameIn.data s := by
      unfold inRead
      rw [if_neg (by omega), List.drop_zero, frameLen, List.take_length]
    rw [hr, Act.ok_andThen]
    have hw := packetWrite_ends s.frameIn.data true s
    unfold packetWrite obWrite at hw ⊢
    split
    · exact Or.inr ⟨_, rfl, by decide⟩
    · rename_i hna
      rw [if_neg hna] at hw
      split
      · exact Or.inr ⟨_, rfl, by decide⟩
      · rename_i hnf
        rw [if_neg hnf] at hw
        split
        · trivial
        · rename_i hns
          rw [if_neg hns] at hw
          refine ⟨hw, fun a ha => Memory.get?_write_outside _ _ _ _ ?_⟩
          rw [outputBytes_length]
          exact ha

theorem eac3Count_ends (n : Nat) (s : State) : (eac3Count n s).Ends
    (fun v t => Eac3Only s t ∧ (v = .more ∧ t.ob = s.ob ∨
      v = .packet ∧ t.obCap = s.obCap ∧ 8 ≤ s.obCap.toNat ∧ KeepsFrom s.obCap.toNat s t))
    (fun e t => (e = .error .stateViolation ∧ t = s) ∨ isContract e) := by
  unfold eac3Count
  simp only
  split
  · exact ⟨rfl, Or.inl ⟨rfl, rfl⟩⟩
  · split
    · exact Or.inl ⟨rfl, rfl⟩
    · refine ((packetFinalize_ends _ _ s).mono (fun _ _ h => h) fun _ _ h => Or.inr h.1).andThen fun _ t ht => ?_
      refine ⟨?_, Or.inr ⟨rfl, ht.1.cap, ht.2, ht.1.keeps _ ht.2 (Nat.le_refl _)⟩⟩
      have := ht.1.writer
      unfold WriterOnly at this
      unfold Eac3Only
      rw [this]

/-- What ENC_EAC3 leaves of `OB`: absorbed, only the frame's bytes at the cursor differ; completed, only the packet. -/
def Eac3Bytes (v : Verdict) (s t : State) : Prop :=
  (v = .more ∧ ∀ a, (a < (if s.obActive then s.cursor.toNat else 8) ∨
    (if s.obActive then s.cursor.toNat else 8) + ceil2 (frameLen s) ≤ a) → t.ob.get? a = s.ob.get? a) ∨
  (v = .packet ∧ KeepsFrom t.obCap.toNat s t)

/-- ENC_EAC3 (43_eac3.md rule R160). -/
theorem eac3Body_ends (s : State) : (eac3Body s).Ends (fun v t => Eac3Only s t ∧ Eac3Bytes v s t) (Eac3Raises s) := by
  unfold eac3Body
  split
  · rename_i k hk
    refine Or.inl ⟨k, ?_, rfl, .refl s⟩
    unfold eac3Blocks eac3CheckSecond at hk
    split at hk
    · cases hk; simp
    · split at hk
      · cases hk; simp
      · split at hk
        · split at hk
          · rename_i hk2
            cases hk
            split at hk2
            · cases hk2; simp
            · split at hk2
              · cases hk2; simp
              · split at hk2
                · cases hk2; simp
                · cases hk2
          · cases hk
        · cases hk
  · refine ((eac3Begin_ends s).mono (fun _ _ h => h) fun _ _ h => Or.inr h).andThen fun _ t ht => ?_
    refine ((eac3Append_ends t).mono (fun _ _ h => h) fun e u h => ?_).andThen fun _ u hu => ?_
    · rcases h with ⟨he, hs⟩ | h
      · exact Or.inl ⟨_, by simp, he, hs ▸ ht.1⟩
      · exact Or.inr h
    · have hfl : frameLen t = frameLen s := by have := ht.1; unfold WriterOnly at this; rw [this]; rfl
      refine (eac3Count_ends _ u).mono (fun v w h => ⟨?_, ?_⟩) fun e w h => ?_
      · have h1 := ht.1.trans hu.1.writer
        have h2 := h.1
        unfold WriterOnly at h1
        unfold Eac3Only at h2 ⊢
        rw [h1] at h2; exact h2
      · rcases h.2 with ⟨hv, hob⟩ | ⟨hv, hcap, h8, hk⟩
        · refine Or.inl ⟨hv, fun a ha => ?_⟩
          rw [hob, hu.2 a (by rw [ht.2.2, hfl]; exact ha), ht.2.1]
        · refine Or.inr ⟨hv, fun a ha => ?_⟩
          rw [hcap] at ha
          rw [hk a ha, hu.1.keeps _ h8 (by rw [hu.1.cap]) a ha, ht.2.1]
      · rcases h with ⟨he, hs⟩ | h
        · exact Or.inl ⟨_, by simp, he, hs ▸ (ht.1.trans hu.1.writer)⟩
        · exact Or.inr h

/-- The elements that ENC_TRUEHD writes. -/
def TruehdOnly (s t : State) : Prop :=
  t = { s with obActive := t.obActive, obCap := t.obCap, cursor := t.cursor, obSamples := t.obSamples,
               obPts := t.obPts, obDts := t.obDts, ob := t.ob, matIdx := t.matIdx, matFill := t.matFill,
               thdPrevSize := t.thdPrevSize, thdPrevTime := t.thdPrevTime, thdSpf := t.thdSpf,
               thdFrameCount := t.thdFrameCount, mat0 := t.mat0, mat1 := t.mat1 }

theorem TruehdOnly.trans {s t u : State} (h1 : TruehdOnly s t) (h2 : TruehdOnly t u) : TruehdOnly s u := by
  unfold TruehdOnly at *; rw [h1] at h2; exact h2

theorem TruehdOnly.of_writer {s t : State} (h : WriterOnly s t) : TruehdOnly s t := by
  unfold WriterOnly at h; unfold TruehdOnly; rw [h]

/-- ENC_TRUEHD's exceptions: the MAT buffers may already have bytes of the frame. -/
def TruehdRaises (s : State) (e : Exception) (t : State) : Prop :=
  (∃ k ∈ [ErrKind.malformedHeader, .sizeMismatch, .stateViolation], e = .error k ∧ TruehdOnly s t) ∨ isContract e

theorem matInsert_ends (pad : Nat) (s : State) : (matInsert pad s).Ends
    (fun w t => t = matCommit w s ∧ ∃ i, matLoop s.frameIn.data matFuel (matWork i (frameLen s) pad s) = .placed w)
    (fun e t => (e = .error .sizeMismatch ∧ ∃ w, t = matCommit w s) ∨ isContract e) := by
  unfold matInsert
  split
  · exact Or.inr ⟨_, rfl, by decide⟩
  · split
    · rename_i h; exact ⟨rfl, _, h⟩
    · exact Or.inl ⟨rfl, _, rfl⟩
    · trivial

theorem thdEmit_ends (outbuf : Bool) (s : State) : (thdEmit outbuf s).Ends
    (fun v t => v = .packet ∧ Built s t) (fun e _ => isContract e) := by
  unfold thdEmit
  refine ((packetBegin_ends _ _ _ _ s).mono (fun _ _ h => h) fun e t h => ?_).andThen fun _ t ht => ?_
  · rcases h.2 with hc | hc
    · exact hc
    · exact absurd hc.2 (by decide)
  · refine ((memRead_ends _ _ _ t).mono (fun _ _ h => h) fun _ _ h => h.elim).andThen fun d u hu => ?_
    subst hu
    refine ((packetWrite_ends _ _ u).mono (fun _ _ h => h) fun _ _ h => h.1).andThen fun _ v hv => ?_
    refine ((packetFinalize_ends _ _ v).mono (fun _ _ h => h) fun _ _ h => h.1).andThen fun _ x hx => ?_
    exact ⟨rfl, built_of_onPacket (by decide) (by decide) ht (hv.trans hx.1)⟩

theorem thdPlace_ends (t : Half) (s : State) : (thdPlace t s).Ends
    (fun v u => TruehdOnly s u ∧ (v = .more ∧ u.ob = s.ob ∨ v = .packet ∧ KeepsFrom u.obCap.toNat s u))
    (TruehdRaises s) := by
  unfold thdPlace
  split
  · exact Or.inl ⟨_, by simp, rfl, rfl⟩
  · refine ((matInsert_ends _ s).mono (fun _ _ h => h.1) fun e u h => ?_).andThen fun w u hu => ?_
    · rcases h with ⟨he, w, hw⟩ | h
      · exact Or.inl ⟨_, by simp, he, by subst hw; rfl⟩
      · exact Or.inr h
    · subst hu
      simp only
      split
      · refine (thdEmit_ends _ _).mono (fun v x h => ⟨?_, Or.inr ⟨h.1, h.2.keeps⟩⟩) (fun _ _ h => Or.inr h)
        have h1 : TruehdOnly s (thdAccount t w (matCommit w s)) := rfl
        exact h1.trans (.of_writer h.2.writer)
      · exact ⟨rfl, Or.inl ⟨rfl, rfl⟩⟩

/-- ENC_TRUEHD (46_truehd_mat.md rule R191). -/
theorem truehdBody_ends (s : State) : (truehdBody s).Ends
    (fun v u => TruehdOnly s u ∧ (v = .more ∧ u.ob = s.ob ∨ v = .packet ∧ KeepsFrom u.obCap.toNat s u))
    (TruehdRaises s) := by
  unfold truehdBody
  split
  · split
    · rename_i k hk
      refine Or.inl ⟨k, ?_, rfl, rfl⟩
      unfold thdMajorSync at hk
      split at hk
      · split at hk
        · cases hk
        · split at hk
          · cases hk
          · cases hk; simp
      · cases hk
    · rename_i spf _
      have h1 : TruehdOnly s (thdApplySync spf s) := by cases spf <;> rfl
      have h2 : (thdApplySync spf s).ob = s.ob := by cases spf <;> rfl
      refine (thdPlace_ends _ _).mono (fun v u h => ⟨h1.trans h.1, ?_⟩) (fun e u h => ?_)
      · rcases h.2 with ⟨hv, hob⟩ | ⟨hv, hk⟩
        · exact Or.inl ⟨hv, hob.trans h2⟩
        · exact Or.inr ⟨hv, fun a ha => by rw [hk a ha, h2]⟩
      · rcases h with ⟨k, hk, he, ht⟩ | h
        · exact Or.inl ⟨k, hk, he, h1.trans ht⟩
        · exact Or.inr h
  · exact Or.inl ⟨_, by simp, rfl, rfl⟩

/-! ### The command step -/

/-- HANDOFF of a packet that the port can hold, and the verdict. -/
theorem finishCommand_ends (v : Verdict) (s : State) : (finishCommand v s).Ends
    (fun _ t => (v = .packet ∧ t.verdict = .packet ∧ t.errKind = .none ∧ t.pktValid = true ∧
        (∃ p, t.pktOut = some p ∧ p.data.length = s.obCap.toNat) ∧
        t = { s with pktOut := t.pktOut, pktLen := t.pktLen, pktSamples := t.pktSamples, pktValid := t.pktValid,
                     obActive := false, obCap := 0, cursor := 0, obSamples := 0, obPts := 0, obDts := 0,
                     verdict := t.verdict, errKind := t.errKind }) ∨
      (v ≠ .packet ∧ t = recordVerdict v .none s))
    (fun _ _ => False) := by
  cases v with
  | packet =>
    unfold finishCommand handoff
    cases hm : memRead .ob 0 s.obCap.toNat s with
    | ok d u =>
      have := memRead_ends .ob 0 s.obCap.toNat s
      rw [hm] at this
      have hu : u = s := this
      subst hu
      have hd : d.length = u.obCap.toNat := by
        unfold memRead at hm
        split at hm
        · cases hm
        · split at hm
          · cases hm
          · rename_i h; cases hm; exact (Memory.bytesAt_of_read? h).1
      exact Or.inl ⟨rfl, rfl, rfl, rfl, ⟨_, rfl, hd⟩, rfl⟩
    | raise e u =>
      have := memRead_ends .ob 0 s.obCap.toNat s
      rw [hm] at this
      exact this
    | stop r => trivial
    | refuse r => trivial
  | none => exact Or.inr ⟨by decide, rfl⟩
  | more => exact Or.inr ⟨by decide, rfl⟩
  | error => exact Or.inr ⟨by decide, rfl⟩

/-- A command that answers a next state: ignored while faulted, ended with a verdict, or with an exception taken. -/
theorem execute_next {body : State → Act Verdict} {P : Verdict → State → Prop} {Q : Exception → State → Prop}
    {s t : State} (hb : (body (commandStart s)).Ends P Q) (h : execute body s = .next t) :
    (s.fault = true ∧ t = s) ∨
    (s.fault = false ∧ ∃ v u, body (commandStart s) = .ok v u ∧ P v u ∧ finishCommand v u = .ok () t) ∨
    (s.fault = false ∧ ∃ e u, body (commandStart s) = .raise e u ∧ Q e u ∧ t = takeException e u) := by
  unfold execute at h
  split at h
  · rename_i hf; cases h; exact Or.inl ⟨hf, rfl⟩
  · rename_i hf
    have hf' : s.fault = false := by simpa using hf
    cases hx : body (commandStart s) with
    | ok v u =>
      rw [hx] at h hb
      have hP : P v u := hb
      simp only [Act.ok_andThen] at h
      have hfin := finishCommand_ends v u
      cases hy : finishCommand v u with
      | ok a w =>
        rw [hy] at h
        cases a; simp only [settle_ok, Host.Outcome.next.injEq] at h
        subst h
        exact Or.inr (Or.inl ⟨hf', v, u, rfl, hP, hy⟩)
      | raise e w => rw [hy] at hfin; exact hfin.elim
      | stop r => rw [hy] at h; simp at h
      | refuse r => rw [hy] at h; simp at h
    | raise e u =>
      rw [hx] at h hb
      have hQ : Q e u := hb
      simp only [Act.raise_andThen, settle_raise, Host.Outcome.next.injEq] at h
      exact Or.inr (Or.inr ⟨hf', e, u, rfl, hQ, h.symm⟩)
    | stop r => rw [hx] at h; simp at h
    | refuse r => rw [hx] at h; simp at h

end Sys2Proof.Machine
end

