-- ==== Sys2Proof/Laws/Layout.lean ====
section
/-! SUPPORT. The MAT insertion loop (46_truehd_mat.md rule R195) lays a frame out as `matLaid` says: where the bytes
go, which marker bytes count toward the frame's size, and when the end marker comes up a second time. -/

namespace Sys2Proof.Machine

/-- The marker bytes of the accounting: an end marker stands for the inter-frame gap too (rule R195). -/
def matOverhead (next : Nat) : Nat := if next = 2 then 32 else (markerCode next).length

/-- The markers after the next one, up to the one whose second writing is an error (rule R196). -/
def matLater (next : Nat) (done : Bool) : List MatSegment :=
  (match next with
    | 0 => [⟨30688, matMiddle, 12⟩, ⟨30688, matEnd, 32⟩]
    | 1 => [⟨30688, matEnd, 32⟩]
    | _ => []) ++ if done then [] else matSegments

/-- The markers ahead of the loop's working copy. -/
def matAheadOf (w : MatWork) : List MatSegment :=
  ⟨markerPos w.next - w.fill, markerCode w.next, matOverhead w.next⟩ :: matLater w.next w.done

/-- What is left of the padding and the frame, put up to the next marker: the rest of a turn of the loop. -/
def matLay (b : List Byte) (w : MatWork) : MatWork := matData b (matZeros w)

theorem matPut_append (xs ys : List Byte) (w : MatWork) : matPut ys (matPut xs w) = matPut (xs ++ ys) w := by
  obtain ⟨fill, idx, m0, m1, next, pad, data, src, total, done, outbuf⟩ := w
  cases idx <;> simp [matPut, Memory.write_write_after, Nat.add_assoc]

theorem matPut_nil (w : MatWork) : matPut [] w = w := by
  obtain ⟨fill, idx, m0, m1, next, pad, data, src, total, done, outbuf⟩ := w
  cases idx <;> rfl

/-- The zeros up to the next marker. -/
theorem matZeros_eq (w : MatWork) : matZeros w =
    { matPut (List.replicate (min (markerPos w.next - w.fill) w.pad) 0) w with
      pad := w.pad - (markerPos w.next - w.fill) } := by
  unfold matZeros
  split
  · have e : w.pad - min (markerPos w.next - w.fill) w.pad = w.pad - (markerPos w.next - w.fill) := by omega
    simp only [e]
  · rename_i h
    have h0 : w.pad = 0 := by omega
    rw [h0, Nat.min_zero, List.replicate_zero, matPut_nil, Nat.zero_sub, ← h0]

/-- As much of the padding and the frame as fits before the next marker stands at the fill. -/
theorem matLay_eq {b : List Byte} {w : MatWork} (hs : w.src + w.data = b.length) :
    matLay b w = { matPut ((List.replicate w.pad 0 ++ b.drop w.src).take (markerPos w.next - w.fill)) w with
      pad := w.pad - (markerPos w.next - w.fill),
      data := w.data - (markerPos w.next - w.fill - w.pad),
      src := w.src + min (markerPos w.next - w.fill - w.pad) w.data } := by
  have hd : (b.drop w.src).length = w.data := by rw [List.length_drop]; omega
  have hfill : (matZeros w).fill = w.fill + min (markerPos w.next - w.fill) w.pad := by
    rw [matZeros_eq]; simp
  have hfront : (List.replicate w.pad (0 : Byte) ++ b.drop w.src).take (markerPos w.next - w.fill) =
      List.replicate (min (markerPos w.next - w.fill) w.pad) 0 ++
        (b.drop w.src).take (markerPos w.next - w.fill - w.pad) := by
    rw [List.take_append, List.take_replicate, List.length_replicate]
  unfold matLay matData
  rw [hfill, matZeros_eq]
  simp only [matPut_next, matPut_src, matPut_data]
  split
  · rename_i hc
    have e1 : markerPos w.next - (w.fill + min (markerPos w.next - w.fill) w.pad) = markerPos w.next - w.fill - w.pad := by
      omega
    rw [e1, hfront, ← matPut_append]
    have e2 : (b.drop w.src).take (min (markerPos w.next - w.fill - w.pad) w.data) =
        (b.drop w.src).take (markerPos w.next - w.fill - w.pad) := by
      rw [List.take_eq_take_iff, hd]; omega
    have e3 : w.data - min (markerPos w.next - w.fill - w.pad) w.data = w.data - (markerPos w.next - w.fill - w.pad) := by
      omega
    rw [e2, e3]
    obtain ⟨fill, idx, m0, m1, next, pad, data, src, total, done, outbuf⟩ := w
    cases idx <;> rfl
  · rename_i hc
    have e0 : (b.drop w.src).take (markerPos w.next - w.fill - w.pad) = [] := by
      rw [List.take_eq_nil_iff]
      by_cases h0 : w.data = 0
      · exact Or.inr (List.eq_nil_of_length_eq_zero (by omega))
      · exact Or.inl (by omega)
    have e1 : w.data - (markerPos w.next - w.fill - w.pad) = w.data := by omega
    have e2 : w.src + min (markerPos w.next - w.fill - w.pad) w.data = w.src := by omega
    rw [hfront, e0, List.append_nil, e1, e2]

/-- What a placed frame of the bytes `bs`, with `extra` marker bytes counted, leaves of the working copy `w`: the bytes
at the fill of the buffer being filled, or, past its end, the rest from the start of the other one. -/
structure MatPlaced (w : MatWork) (bs : List Byte) (extra : Nat) (w' : MatWork) : Prop where
  total : w'.total = w.total + extra
  stays : w.fill + bs.length < 61424 → w'.done = w.done ∧ w'.outbuf = w.outbuf ∧ w'.idx = w.idx ∧
    w'.fill = w.fill + bs.length ∧ matBuf w.idx w' = (matBuf w.idx w).write w.fill bs ∧
    matBuf (!w.idx) w' = matBuf (!w.idx) w
  completes : 61424 ≤ w.fill + bs.length → w.done = false ∧ w'.done = true ∧ w'.outbuf = w.idx ∧ w'.idx = !w.idx ∧
    w'.fill = w.fill + bs.length - 61424 ∧
    matBuf w.idx w' = (matBuf w.idx w).write w.fill (bs.take (61424 - w.fill)) ∧
    matBuf (!w.idx) w' = (matBuf (!w.idx) w).write 0 (bs.drop (61424 - w.fill))

/-- Bytes put before the rest is placed, in the same buffer. -/
theorem MatPlaced.after_put {w w1 w' : MatWork} {front bs : List Byte} {spent extra : Nat}
    (hf : w1.fill = w.fill + front.length) (hi : w1.idx = w.idx) (hd : w1.done = w.done) (ho : w1.outbuf = w.outbuf)
    (hl : w.fill + front.length ≤ 61424) (ht : w1.total = w.total + spent)
    (hb : matBuf w.idx w1 = (matBuf w.idx w).write w.fill front) (hn : matBuf (!w.idx) w1 = matBuf (!w.idx) w)
    (h : MatPlaced w1 bs extra w') : MatPlaced w (front ++ bs) (spent + extra) w' := by
  refine ⟨by rw [h.total, ht, Nat.add_assoc], fun hs => ?_, fun hc => ?_⟩
  · obtain ⟨h1, h2, h3, h4, h5, h6⟩ := h.stays (by rw [hf]; simpa [Nat.add_assoc] using hs)
    refine ⟨h1.trans hd, h2.trans ho, h3.trans hi, by rw [h4, hf, List.length_append, Nat.add_assoc], ?_, ?_⟩
    · rw [← hi, h5, hi, hb, hf, Memory.write_write_after]
    · rw [← hi, h6, hi, hn]
  · obtain ⟨h1, h2, h3, h4, h5, h6, h7⟩ := h.completes (by rw [hf]; simpa [Nat.add_assoc] using hc)
    have e : 61424 - w.fill - front.length = 61424 - w1.fill := by omega
    have hle : front.length ≤ 61424 - w.fill := by omega
    refine ⟨hd ▸ h1, h2, h3.trans hi, by rw [h4, hi], by rw [h5, hf, List.length_append, Nat.add_assoc], ?_, ?_⟩
    · rw [← hi, h6, hi, hb, hf, Memory.write_write_after, List.take_append, e, List.take_of_length_le hle, hf]
    · rw [← hi, h7, hi, hn, List.drop_append, e, List.drop_eq_nil_of_le hle, List.nil_append]

/-- The loop's end: the front of what is left fits before the next marker. -/
theorem matLoop_fits {b : List Byte} {w : MatWork} (fuel : Nat) (hs : w.src + w.data = b.length)
    (h : w.pad + w.data < markerPos w.next - w.fill) :
    ∃ w', matLoop b fuel (matLay b w) = .placed w' ∧
      MatPlaced w (List.replicate w.pad 0 ++ b.drop w.src) 0 w' := by
  have hd : (b.drop w.src).length = w.data := by rw [List.length_drop]; omega
  have hlen : (List.replicate w.pad (0 : Byte) ++ b.drop w.src).length = w.pad + w.data := by
    rw [List.length_append, List.length_replicate, hd]
  have htake : (List.replicate w.pad (0 : Byte) ++ b.drop w.src).take (markerPos w.next - w.fill) =
      List.replicate w.pad 0 ++ b.drop w.src := List.take_of_length_le (by omega)
  have hpos := markerPos_le w.next
  refine ⟨matLay b w, ?_, ?_⟩
  · have hg : matGoesOn (matLay b w) = false := by
      rw [matLay_eq hs, htake]
      simp only [matGoesOn, matPut_next, matPut_fill, hlen, Bool.or_eq_false_iff, decide_eq_false_iff_not,
        beq_eq_false_iff_ne]
      omega
    unfold matLoop
    split <;> rw [hg] <;> rfl
  · rw [matLay_eq hs, htake]
    refine ⟨by simp, fun _ => ⟨by simp, by simp, by simp, by simp, ?_, ?_⟩, fun hc => ?_⟩
    · exact matBuf_matPut_same _ w
    · exact matBuf_matPut_other _ w (by cases w.idx <;> decide)
    · rw [hlen] at hc; omega

/-- The state of the loop at a marker that is due, once the front is put. -/
theorem matLay_due {b : List Byte} {w : MatWork} (hs : w.src + w.data = b.length) (hp : MatShape w)
    (h : markerPos w.next - w.fill ≤ w.pad + w.data) :
    (matLay b w).fill = markerPos w.next ∧
      ((List.replicate w.pad (0 : Byte) ++ b.drop w.src).take (markerPos w.next - w.fill)).length =
        markerPos w.next - w.fill := by
  have hd : (b.drop w.src).length = w.data := by rw [List.length_drop]; omega
  have hlen : ((List.replicate w.pad (0 : Byte) ++ b.drop w.src).take (markerPos w.next - w.fill)).length =
      markerPos w.next - w.fill := by
    rw [List.length_take, List.length_append, List.length_replicate, hd]; omega
  refine ⟨?_, hlen⟩
  have := hp.2
  rw [matLay_eq hs]
  simp only [matPut_fill, hlen]; omega

/-- One turn at a marker that is due. -/
theorem matLoop_due {b : List Byte} {w u : MatWork} (fuel : Nat) (hf : w.fill = markerPos w.next)
    (hm : matMarker w = .ok u) : matLoop b (fuel + 1) w = matLoop b fuel (matLay b u) := by
  have hg : matGoesOn w = true := by simp [matGoesOn, hf]
  rw [matLoop, if_pos hg]
  unfold matTurn
  rw [if_pos hf.symm, hm]
  rfl

/-- The last turn, at an end marker that is due a second time. -/
theorem matLoop_second {b : List Byte} {w u : MatWork} (fuel : Nat) (hf : w.fill = markerPos w.next)
    (hm : matMarker w = .error u) : matLoop b (fuel + 1) w = .second u := by
  have hg : matGoesOn w = true := by simp [matGoesOn, hf]
  rw [matLoop, if_pos hg]
  unfold matTurn
  rw [if_pos hf.symm, hm]

/-- The working copy after a marker that is due and no second end marker. -/
theorem matMarker_due {w : MatWork} (hn : w.next ≤ 2) (hf : w.fill = markerPos w.next)
    (hd : w.next = 2 → w.done = false) : ∃ u, matMarker w = .ok u ∧ MatShape u ∧
      u.pad = w.pad - matOverhead w.next ∧ u.total = w.total + (matOverhead w.next - w.pad) ∧
      u.src = w.src ∧ u.data = w.data ∧ matMarkersLeft u + 1 ≤ matMarkersLeft w ∧
      matAheadOf u = matLater w.next w.done ∧
      (w.next ≠ 2 → u.fill = w.fill + (markerCode w.next).length ∧ u.idx = w.idx ∧ u.done = w.done ∧
        u.outbuf = w.outbuf ∧ matBuf w.idx u = (matBuf w.idx w).write w.fill (markerCode w.next) ∧
        matBuf (!w.idx) u = matBuf (!w.idx) w) ∧
      (w.next = 2 → u.fill = 0 ∧ u.idx = (!w.idx) ∧ u.done = true ∧ u.outbuf = w.idx ∧
        matBuf w.idx u = (matBuf w.idx w).write w.fill matEnd ∧ matBuf (!w.idx) u = matBuf (!w.idx) w) := by
  obtain ⟨fill, idx, m0, m1, next, pad, data, src, total, done, outbuf⟩ := w
  simp only at hn hf hd
  have hcase : next = 0 ∨ next = 1 ∨ next = 2 := by omega
  rcases hcase with rfl | rfl | rfl
  · subst hf
    refine ⟨_, matMarker_inner (Nat.succ_ne_succ_iff.mpr (by simp)), ?_⟩
    cases idx <;> cases done <;>
      simp [matPut, matSpend, matOverhead, markerCode, markerPos, MatShape, matMarkersLeft, matAheadOf, matLater,
        matBuf] <;> omega
  · subst hf
    refine ⟨_, matMarker_inner (Nat.succ_ne_succ_iff.mpr (by simp)), ?_⟩
    cases idx <;> cases done <;>
      simp [matPut, matSpend, matOverhead, markerCode, markerPos, MatShape, matMarkersLeft, matAheadOf, matLater,
        matBuf] <;> omega
  · subst hf
    obtain rfl := hd rfl
    refine ⟨_, (matMarker_end rfl).trans (if_neg Bool.false_ne_true), ?_⟩
    cases idx <;>
      simp [matPut, matSpend, matComplete, matOverhead, markerCode, markerPos, MatShape, matMarkersLeft, matAheadOf,
        matLater, matBuf, matSegments, Config.matGap] <;> omega

/-- MAT_INSERT's loop lays the frame out as `matLaid` says (46_truehd_mat.md rules R195, R196). -/
theorem matLoop_laid {b : List Byte} : ∀ (fuel : Nat) (w : MatWork), MatShape w → w.src + w.data = b.length →
    matMarkersLeft w ≤ fuel →
    match matLaid (matAheadOf w) w.pad (b.drop w.src) with
    | none => ∃ w', matLoop b fuel (matLay b w) = .second w'
    | some r => ∃ w', matLoop b fuel (matLay b w) = .placed w' ∧ MatPlaced w r.1 r.2 w' ∧
        (w.done = true → w.fill + r.1.length < 61424)
  | 0, w, h, _, hf => by
    have := h.1
    unfold matMarkersLeft at hf
    split at hf <;> omega
  | fuel + 1, w, h, hs, hf => by
    have hd : (b.drop w.src).length = w.data := by rw [List.length_drop]; omega
    have hpos := markerPos_le w.next
    have hle := h.2
    unfold matAheadOf matLaid
    dsimp only
    rw [hd]
    by_cases hfit : w.pad + w.data < markerPos w.next - w.fill
    · rw [if_pos hfit]
      obtain ⟨w', h1, h2⟩ := matLoop_fits (b := b) (fuel + 1) hs hfit
      exact ⟨w', h1, h2, fun _ => by simp [hd]; omega⟩
    rw [if_neg hfit]
    obtain ⟨hvf, hfl⟩ := matLay_due hs h (Nat.le_of_not_lt hfit)
    have hv := matLay_eq hs
    have hvn : (matLay b w).next = w.next := by rw [hv]; simp
    have hvi : (matLay b w).idx = w.idx := by rw [hv]; simp
    have hvd : (matLay b w).done = w.done := by rw [hv]; simp
    have hvo : (matLay b w).outbuf = w.outbuf := by rw [hv]; simp
    have hvt : (matLay b w).total = w.total := by rw [hv]; simp
    have hvp : (matLay b w).pad = w.pad - (markerPos w.next - w.fill) := by rw [hv]
    have hvs : (matLay b w).src = w.src + (markerPos w.next - w.fill - w.pad) := by
      rw [hv]; show w.src + min _ _ = _; omega
    have hvdat : (matLay b w).data = w.data - (markerPos w.next - w.fill - w.pad) := by rw [hv]
    have hvb : matBuf w.idx (matLay b w) = (matBuf w.idx w).write w.fill
        ((List.replicate w.pad 0 ++ b.drop w.src).take (markerPos w.next - w.fill)) := by
      rw [hv]; exact matBuf_matPut_same _ w
    have hvb' : matBuf (!w.idx) (matLay b w) = matBuf (!w.idx) w := by
      rw [hv]; exact matBuf_matPut_other _ w (by cases w.idx <;> decide)
    generalize hfr : (List.replicate w.pad (0 : Byte) ++ b.drop w.src).take (markerPos w.next - w.fill) = front at *
    by_cases hsec : w.next = 2 ∧ w.done = true
    · have hm := matMarker_end (w := matLay b w) (by rw [hvn, hsec.1])
      rw [hvd, if_pos hsec.2] at hm
      rw [show matLater w.next w.done = [] by rw [hsec.1, hsec.2]; rfl, matLaid, Option.map_none]
      exact ⟨_, matLoop_second fuel (hvf.trans (by rw [hvn])) hm⟩
    obtain ⟨u, hm, hu, hup, hut, hus, hud, hul, hua, hin, hend⟩ := matMarker_due (w := matLay b w)
      (by rw [hvn]; exact h.1) (hvf.trans (by rw [hvn]))
      (by rw [hvn, hvd]; intro e; simpa using fun ht => hsec ⟨e, ht⟩)
    rw [matLoop_due fuel (hvf.trans (by rw [hvn])) hm]
    have hml : matMarkersLeft (matLay b w) = matMarkersLeft w := by unfold matMarkersLeft; rw [hvn, hvd]
    have ih := matLoop_laid (b := b) fuel u hu (by rw [hus, hud, hvs, hvdat]; omega) (by omega)
    rw [hvn, hvd] at hua
    rw [hvp, hvn] at hup hut
    rw [hua, hup, hus, hvs, ← List.drop_drop] at ih
    cases hr : matLaid (matLater w.next w.done) (w.pad - (markerPos w.next - w.fill) - matOverhead w.next)
        ((b.drop w.src).drop (markerPos w.next - w.fill - w.pad)) with
    | none => rw [hr] at ih; exact ih
    | some r =>
      rw [hr] at ih
      obtain ⟨w', hw', hpl, hlt⟩ := ih
      refine ⟨w', hw', ?_⟩
      dsimp only [Option.map_some]
      rw [hvi, hvn] at hin hend
      have hfill : w.fill + front.length = markerPos w.next := by omega
      by_cases h2 : w.next = 2
      · obtain ⟨e1, e2, e3, e4, e5, e6⟩ := hend h2
        have hpos2 : markerPos w.next = 61408 := by rw [h2]; rfl
        have hdone : w.done = false := by simpa using fun ht => hsec ⟨h2, ht⟩
        have hcode : markerCode w.next = matEnd := by rw [h2]; rfl
        have hover : 61424 - w.fill = front.length + matEnd.length := by rw [matEnd_length]; omega
        have hr2 : r.1.length < 61424 := by have := hlt e3; rwa [e1, Nat.zero_add] at this
        obtain ⟨g1, g2, g3, g4, g5, g6⟩ := hpl.stays (by rw [e1, Nat.zero_add]; exact hr2)
        rw [e1, Nat.zero_add] at g4
        rw [e2] at g3 g5 g6
        rw [Bool.not_not] at g6
        refine ⟨⟨?_, fun hc => ?_, fun _ => ⟨hdone, g1.trans e3, g2.trans e4, g3, ?_, ?_, ?_⟩⟩, fun ht => ?_⟩
        · rw [hpl.total, hut, hvt, Nat.add_assoc]
        · rw [hcode] at hc
          simp only [List.length_append, matEnd_length] at hc
          omega
        · rw [g4, hcode]
          simp only [List.length_append, matEnd_length]
          omega
        · rw [g6, e5, hvb, hvf, ← hfill, Memory.write_write_after, hcode, hover, List.take_append_of_le_length (by simp),
            List.take_of_length_le (by simp)]
        · rw [g5, e1, e6, hvb', hcode, hover, ← List.length_append, List.drop_left]
        · rw [ht] at hdone; cases hdone
      · obtain ⟨e1, e2, e3, e4, e5, e6⟩ := hin h2
        have hlen : (front ++ markerCode w.next).length = markerPos w.next - w.fill + (markerCode w.next).length := by
          rw [List.length_append, hfl]
        have hcl : (markerCode w.next).length ≤ 20 := by
          have := h.1
          have : w.next = 0 ∨ w.next = 1 := by omega
          rcases this with e | e <;> rw [e] <;> decide
        have hpos1 : markerPos w.next ≤ 30708 := by
          have := h.1
          have : w.next = 0 ∨ w.next = 1 := by omega
          rcases this with e | e <;> rw [e] <;> decide
        refine ⟨MatPlaced.after_put (w1 := u) (by rw [e1, hvf, hlen]; omega) e2 (e3.trans hvd) (e4.trans hvo)
          (by rw [hlen]; omega) (hut.trans (by rw [hvt])) ?_ (e6.trans hvb') hpl, fun ht => ?_⟩
        · rw [e5, hvb, hvf, ← hfill, Memory.write_write_after]
        · have := hlt (by rw [e3, hvd, ht])
          rw [e1, hvf] at this
          rw [List.length_append, hlen]; omega

/-! ### The operation and its instruction -/

theorem toNat_append_byte {n : Nat} (a : BitVec n) (b : Byte) : (a ++ b).toNat = a.toNat * 256 + b.toNat := by
  rw [BitVec.toNat_append, ← Nat.shiftLeft_add_eq_or_of_lt b.isLt, Nat.shiftLeft_eq]

theorem be24_inj {a b c x y z : Byte} (h : be24 a b c = be24 x y z) : a = x ∧ b = y ∧ c = z := by
  have e : ∀ u v w : Byte, (be24 u v w).toNat = (u.toNat * 256 + v.toNat) * 256 + w.toNat := fun u v w =>
    (toNat_append_byte (u ++ v) w).trans (by rw [toNat_append_byte u v])
  have hn := congrArg BitVec.toNat h
  rw [e, e] at hn
  have := a.isLt; have := b.isLt; have := c.isLt; have := x.isLt; have := y.isLt; have := z.isLt
  refine ⟨BitVec.eq_of_toNat_eq ?_, BitVec.eq_of_toNat_eq ?_, BitVec.eq_of_toNat_eq ?_⟩ <;> omega

/-- The markers ahead at the loop's start are those ahead of the fill. -/
theorem matAheadOf_start {i n pad : Nat} {s : State} (h : nextMarker s.matFill.toNat = some i) :
    matAheadOf (matWork i n pad s) = matAhead s.matFill.toNat := by
  have hf : (matWork i n pad s).fill = s.matFill.toNat := rfl
  have hn : (matWork i n pad s).next = i := rfl
  have hd : (matWork i n pad s).done = false := rfl
  obtain ⟨h2, hle, z0, z1, z2⟩ := nextMarker_some h
  have hcase : i = 0 ∨ i = 1 ∨ i = 2 := by omega
  unfold matAheadOf matAhead
  rw [hf, hn, hd]
  rcases hcase with rfl | rfl | rfl
  · rw [z0 rfl, if_pos rfl]; rfl
  · rw [if_neg (by have := z1 rfl; omega), if_pos (by exact hle)]; rfl
  · rw [if_neg (by have := z2 rfl; omega), if_neg (by have := z2 rfl; omega)]; rfl

/-- The loop from its start, for a frame that is not empty. -/
theorem matLoop_start {b : List Byte} {w : MatWork} (hs : w.src + w.data = b.length) (hd : 0 < w.data) :
    ∃ fuel, 6 ≤ fuel ∧ matLoop b matFuel w = matLoop b fuel (matLay b w) := by
  by_cases hm : markerPos w.next = w.fill
  · have hlay : matLay b w = w := by
      have he := matLay_eq hs
      have e0 : markerPos w.next - w.fill = 0 := by omega
      rw [e0, List.take_zero, matPut_nil] at he
      rw [he]
      simp
    exact ⟨matFuel, by decide, by rw [hlay]⟩
  · have hg : matGoesOn w = true := by simp [matGoesOn, hd]
    refine ⟨7, by decide, ?_⟩
    rw [show matFuel = 7 + 1 from rfl, matLoop, if_pos hg]
    unfold matTurn
    rw [if_neg hm]
    rfl

/-- MAT_INSERT of a frame that is not empty, with the fill where a command leaves it: what it leaves, or
SIZE_MISMATCH (46_truehd_mat.md rules R195, R196). -/
theorem matInsert_laid {pad : Nat} {s : State} (hf : s.matFill.toNat ≤ 61408) (hn : 0 < frameLen s) :
    match matLaid (matAhead s.matFill.toNat) pad s.frameIn.data with
    | none => ∃ w, matInsert pad s = raiseError .sizeMismatch (matCommit w s)
    | some r => ∃ (i : Nat) (w : MatWork), matInsert pad s = .ok w (matCommit w s) ∧
        MatPlaced (matWork i (frameLen s) pad s) r.1 r.2 w := by
  obtain ⟨i, hi⟩ := nextMarker_isSome (fill := s.matFill.toNat) hf
  obtain ⟨hshape, hsrc⟩ := matWork_shape (pad := pad) hi
  obtain ⟨fuel, h6, hloop⟩ := matLoop_start hsrc hn
  have hl := matLoop_laid fuel _ hshape hsrc
    (Nat.le_trans (by unfold matMarkersLeft; split <;> omega) h6)
  rw [matAheadOf_start hi] at hl
  change (match matLaid (matAhead s.matFill.toNat) pad (s.frameIn.data.drop 0) with | none => _ | some r => _) at hl
  rw [List.drop_zero] at hl
  unfold matInsert
  rw [hi]
  dsimp only
  rw [hloop]
  cases hm : matLaid (matAhead s.matFill.toNat) pad s.frameIn.data with
  | none =>
    rw [hm] at hl
    obtain ⟨w, hw⟩ := hl
    exact ⟨w, by rw [hw]⟩
  | some r =>
    rw [hm] at hl
    obtain ⟨w, hw, hp, _⟩ := hl
    exact ⟨i, w, by rw [hw], hp⟩

/-- A placed frame leaves the fill at or before a marker. -/
theorem matLoop_shape {b : List Byte} : ∀ (fuel : Nat) {w w' : MatWork}, MatShape w → w.src + w.data = b.length →
    matLoop b fuel w = .placed w' → MatShape w'
  | 0, w, w', h, _, hl => by
    unfold matLoop at hl
    split at hl <;> cases hl
    exact h
  | fuel + 1, w, w', h, hs, hl => by
    unfold matLoop at hl
    split at hl
    · cases ht : matTurn b w with
      | error v => rw [ht] at hl; cases hl
      | ok v =>
        rw [ht] at hl
        obtain ⟨h1, h2, -, -⟩ := matTurn_shape h hs ht
        exact matLoop_shape fuel h1 h2 hl
    · cases hl; exact h

/-- The bytes that MAT_INSERT of a frame that is not empty can reach: those of the active buffer from the fill on, and,
once the MAT frame is complete, those of the other one below the new fill. -/
theorem matInsert_span {pad : Nat} {s u : State} {w : MatWork} (hn : 0 < frameLen s) (h : matInsert pad s = .ok w u) :
    u = matCommit w s ∧ w.fill ≤ 61408 ∧
    (w.idx = s.matIdx → matBuf (!s.matIdx) w = spaceOf (matSpace (!s.matIdx)) s ∧
      ∀ a, (a < s.matFill.toNat ∨ w.fill ≤ a) → (matBuf s.matIdx w).get? a = (activeMat s).get? a) ∧
    (w.idx ≠ s.matIdx →
      (∀ a, (a < s.matFill.toNat ∨ 61424 ≤ a) → (matBuf s.matIdx w).get? a = (activeMat s).get? a) ∧
      ∀ a, w.fill ≤ a → (matBuf (!s.matIdx) w).get? a = (spaceOf (matSpace (!s.matIdx)) s).get? a) := by
  obtain ⟨i, hi, hloop, hu⟩ : ∃ i, nextMarker s.matFill.toNat = some i ∧
      matLoop s.frameIn.data matFuel (matWork i (frameLen s) pad s) = .placed w ∧ u = matCommit w s := by
    unfold matInsert at h
    split at h
    · cases h
    · rename_i i hi
      split at h
      · rename_i hl; cases h; exact ⟨i, hi, hl, rfl⟩
      · cases h
      · cases h
  obtain ⟨hshape, hsrc⟩ := matWork_shape (pad := pad) hi
  have hw := matLoop_shape _ hshape hsrc hloop
  have hf : s.matFill.toNat ≤ 61408 := Nat.le_trans (nextMarker_some hi).2.1 (markerPos_le i)
  have hl := matInsert_laid (pad := pad) hf hn
  have hb : ∀ j k n, matBuf j (matWork k n pad s) = spaceOf (matSpace j) s := by intro j k n; cases j <;> rfl
  refine ⟨hu, Nat.le_trans hw.2 (markerPos_le _), ?_⟩
  cases hm : matLaid (matAhead s.matFill.toNat) pad s.frameIn.data with
  | none =>
    rw [hm] at hl
    obtain ⟨v, hv⟩ := hl
    rw [h] at hv; cases hv
  | some r =>
    rw [hm] at hl
    obtain ⟨k, v, hv, hp⟩ := hl
    rw [h] at hv
    simp only [Act.ok.injEq] at hv
    obtain ⟨rfl, -⟩ := hv
    have stays := hp.stays
    have completes := hp.completes
    rw [hb, hb] at stays completes
    change s.matFill.toNat + r.1.length < 61424 → w.done = false ∧ w.outbuf = false ∧ w.idx = s.matIdx ∧
      w.fill = s.matFill.toNat + r.1.length ∧ matBuf s.matIdx w = (activeMat s).write s.matFill.toNat r.1 ∧
      matBuf (!s.matIdx) w = _ at stays
    change 61424 ≤ s.matFill.toNat + r.1.length → false = false ∧ w.done = true ∧ w.outbuf = s.matIdx ∧
      w.idx = (!s.matIdx) ∧ w.fill = s.matFill.toNat + r.1.length - 61424 ∧
      matBuf s.matIdx w = (activeMat s).write s.matFill.toNat (r.1.take (61424 - s.matFill.toNat)) ∧
      matBuf (!s.matIdx) w = Memory.write _ 0 (r.1.drop (61424 - s.matFill.toNat)) at completes
    have hne : ∀ x : Bool, (!x) ≠ x := by decide
    by_cases hlt : s.matFill.toNat + r.1.length < 61424
    · obtain ⟨-, -, h3, h4, h5, h6⟩ := stays hlt
      refine ⟨fun _ => ⟨h6, fun a ha => ?_⟩, fun h => absurd h3 h⟩
      rw [h5]
      exact Memory.get?_write_outside _ _ _ _ (by omega)
    · obtain ⟨-, -, -, h4, h5, h6, h7⟩ := completes (by omega)
      refine ⟨fun h => absurd (h4.symm.trans h) (hne _), fun _ => ⟨fun a ha => ?_, fun a ha => ?_⟩⟩
      · rw [h6]
        exact Memory.get?_write_outside _ _ _ _ (by rw [List.length_take]; omega)
      · rw [h7]
        exact Memory.get?_write_outside _ _ _ _ (by rw [List.length_drop]; omega)

/-- A frame that, with its padding, is shorter than the free bytes before the markers ahead is laid. -/
theorem matLaid_of_gaps : ∀ (segs : List MatSegment) (pad : Nat) (d : List Byte),
    pad + d.length < (segs.map (·.gap)).sum → (matLaid segs pad d).isSome = true
  | [], _, _, h => absurd h (Nat.not_lt_zero _)
  | seg :: more, pad, d, h => by
    rw [List.map_cons, List.sum_cons] at h
    rw [matLaid]
    split
    · rfl
    · rw [Option.isSome_map]
      refine matLaid_of_gaps more _ _ ?_
      rw [List.length_drop]
      omega

/-- A layout that reaches the next marker: the free bytes before it, its own bytes, and the layout after it. -/
theorem matLaid_reaches {seg : MatSegment} {more : List MatSegment} {pad : Nat} {d : List Byte} {r : List Byte × Nat}
    (h : matLaid (seg :: more) pad d = some r) (hg : seg.gap ≤ pad + d.length) :
    ∃ r', matLaid more (pad - seg.gap - seg.overhead) (d.drop (seg.gap - pad)) = some r' ∧
      r.1.length = seg.gap + seg.code.length + r'.1.length := by
  rw [matLaid, if_neg (Nat.not_lt.mpr hg)] at h
  obtain ⟨r', h1, h2⟩ := Option.map_eq_some_iff.mp h
  refine ⟨r', h1, ?_⟩
  subst h2
  simp only [List.length_append, List.length_take, List.length_replicate]
  omega

/-- A frame that fits one MAT frame with its markers is laid, whatever the fill. -/
theorem matLaid_isSome {fill pad : Nat} {d : List Byte} (hf : fill ≤ 61407) (h : pad + d.length ≤ 61376) :
    (matLaid (matAhead fill) pad d).isSome = true := by
  refine matLaid_of_gaps _ _ _ ?_
  unfold matAhead
  split
  · simp [matSegments]; omega
  · split <;> simp [matSegments] <;> omega

/-- ENC_TRUEHD past its header checks (46_truehd_mat.md rules R191 to R193). -/
theorem truehdBody_timed {s : State} {t : Half} {spf : BitVec 9} {count : BitVec 5} (h : thdTiming s t spf count) :
    truehdBody s = thdPlace t { s with thdSpf := spf, thdFrameCount := count } ∧ spf ≠ 0 ∧ 10 ≤ frameLen s := by
  obtain ⟨b0, b1, b2, b3, b4, b5, b6, b7, b8, b9, rest, hd, ht, hs⟩ := h
  have hlen : 10 ≤ frameLen s := by rw [frameLen, hd]; simp
  have hbody : truehdBody s = (match thdMajorSync b4 b5 b6 b7 b8 b9 with
      | .error k => raiseError k s
      | .ok spf => thdPlace (be16 b2 b3) (thdApplySync spf s)) := by
    unfold truehdBody
    rw [hd] <;> rfl
  rw [hbody, ht]
  by_cases hm : b4 = 0xF8 ∧ b5 = 0x72 ∧ b6 = 0x6F
  · rw [if_pos hm] at hs
    obtain ⟨rate, hr, hspf, hc⟩ := hs
    have hsync : thdMajorSync b4 b5 b6 b7 b8 b9 = .ok (some (thdSamples rate)) := by
      obtain ⟨rfl, rfl, rfl⟩ := hm
      have hb : be24 0xF8 0x72 0x6F = 0xF8726F := by decide
      unfold thdMajorSync
      rw [if_pos hb]
      rcases hr with ⟨e, rfl⟩ | ⟨e, rfl⟩
      · rw [if_pos e]
      · rw [if_neg (by rw [e]; decide), if_pos e]
    have hne : ∀ r : BitVec 4, (40 : BitVec 9) <<< (r &&& 3).toNat ≠ 0 := by decide
    rw [hsync, hspf, hc]
    exact ⟨rfl, hne rate, hlen⟩
  · rw [if_neg hm] at hs
    obtain ⟨hne, rfl, rfl⟩ := hs
    have hsync : thdMajorSync b4 b5 b6 b7 b8 b9 = .ok none := by
      unfold thdMajorSync
      rw [if_neg fun e => hm (be24_inj (e.trans (by decide : (0xF8726F : BitVec 24) = be24 0xF8 0x72 0x6F)))]
    rw [hsync]
    exact ⟨rfl, hne, hlen⟩

end Sys2Proof.Machine
end

