-- ==== Sys2Proof/Laws/PerInstr.lean ====
section
/-! SUPPORT. A property of every operation as syntax, one lemma for each constructor: the numbering of
spec/opcode_table.json reaches its code, so no operation is out of the table's reach
(30_encoding.md rules R90, R92, R94). -/

namespace Sys2Proof.Laws

/-- Some number of 8, 11 or 32 bits, read as spec/opcode_table.json numbers its rows, is the operation's code. -/
def TableWord.Statement (i : Instr) : Prop :=
  ∃ nbits w, (nbits = 8 ∨ nbits = 11 ∨ nbits = 32) ∧ w < 2 ^ nbits ∧ tableCode nbits w = some (encode i)

/-- Every command word has a table number. -/
theorem tableCode_cmd (w : Word) : w.toNat < 2 ^ 32 ∧ tableCode 32 w.toNat = some (.cmd w) := by
  refine ⟨w.isLt, ?_⟩
  simp [tableCode, w.isLt]

/-- Every effective opcode has a table number. -/
theorem tableCode_eop (e : BitVec 11) : e.toNat < 2 ^ 11 ∧ tableCode 11 e.toNat = some (.eop e) := by
  refine ⟨e.isLt, ?_⟩
  simp [tableCode, e.isLt]

/-- Every micro-operation number has a table number. -/
theorem tableCode_micro (n : Byte) : n.toNat < 2 ^ 8 ∧ tableCode 8 n.toNat = some (.micro n) := by
  refine ⟨n.isLt, ?_⟩
  simp [tableCode, n.isLt]

theorem TableWord.of_cmd {i : Instr} {w : Word} (h : encode i = .cmd w) : TableWord.Statement i :=
  ⟨32, w.toNat, Or.inr (Or.inr rfl), (tableCode_cmd w).1, h ▸ (tableCode_cmd w).2⟩

theorem TableWord.of_eop {i : Instr} {e : BitVec 11} (h : encode i = .eop e) : TableWord.Statement i :=
  ⟨11, e.toNat, Or.inr (Or.inl rfl), (tableCode_eop e).1, h ▸ (tableCode_eop e).2⟩

theorem TableWord.of_micro {i : Instr} {n : Byte} (h : encode i = .micro n) : TableWord.Statement i :=
  ⟨8, n.toNat, Or.inl rfl, (tableCode_micro n).1, h ▸ (tableCode_micro n).2⟩

theorem TableWord.openStream : TableWord.Statement .openStream := TableWord.of_cmd rfl
theorem TableWord.submit : TableWord.Statement .submit := TableWord.of_cmd rfl
theorem TableWord.flush : TableWord.Statement .flush := TableWord.of_cmd rfl
theorem TableWord.closeStream : TableWord.Statement .closeStream := TableWord.of_cmd rfl
theorem TableWord.illegal (w : Word) : TableWord.Statement (.illegal w) := TableWord.of_cmd rfl
theorem TableWord.submitNotOpen : TableWord.Statement .submitNotOpen := TableWord.of_eop rfl
theorem TableWord.encAc3 : TableWord.Statement .encAc3 := TableWord.of_eop rfl
theorem TableWord.encEac3 : TableWord.Statement .encEac3 := TableWord.of_eop rfl
theorem TableWord.encDts : TableWord.Statement .encDts := TableWord.of_eop rfl
theorem TableWord.encDtshd : TableWord.Statement .encDtshd := TableWord.of_eop rfl
theorem TableWord.encTruehd : TableWord.Statement .encTruehd := TableWord.of_eop rfl
theorem TableWord.submitUnreachable (low : BitVec 1) : TableWord.Statement (.submitUnreachable low) :=
  TableWord.of_eop rfl
theorem TableWord.beginPacket : TableWord.Statement .beginPacket := TableWord.of_micro rfl
theorem TableWord.writeBytes : TableWord.Statement .writeBytes := TableWord.of_micro rfl
theorem TableWord.write16Be : TableWord.Statement .write16Be := TableWord.of_micro rfl
theorem TableWord.writePadding : TableWord.Statement .writePadding := TableWord.of_micro rfl
theorem TableWord.finalize : TableWord.Statement .finalize := TableWord.of_micro rfl
theorem TableWord.a52Parse : TableWord.Statement .a52Parse := TableWord.of_micro rfl
theorem TableWord.dtsParse : TableWord.Statement .dtsParse := TableWord.of_micro rfl
theorem TableWord.convert14 : TableWord.Statement .convert14 := TableWord.of_micro rfl

end Sys2Proof.Laws
end

