-- ==== Sys2Proof/Tests/Slice0.lean ====
section
/-! SUPPORT. Tests. The expected values come from the tables of the spec and from the vectors of
95_test_vectors.md, named where they are used. After them, for every statement with hypotheses, a state that
meets them. -/

namespace Sys2Proof.Tests

open Sys2Proof Sys2Proof.Machine

/-! ### Well-formed terms -/

/-- An illegal command that carries a legal word is refused. -/
theorem test_wellFormed_refuses : Instr.wellFormed (.illegal 1) = false ∧ Instr.wellFormed (.illegal 2) = false ∧
    Instr.wellFormed (.illegal 3) = false ∧ Instr.wellFormed (.illegal 4) = false := by decide

theorem test_wellFormed_accepts : Instr.wellFormed (.illegal 0) = true ∧ Instr.wellFormed (.illegal 5) = true ∧
    Instr.wellFormed (.illegal 0x101) = true ∧ Instr.wellFormed .submit = true := by decide

/-! ### Decoding, words written out from 30_encoding.md rules R90 to R94 -/

theorem test_decode_commands :
    decode (.cmd 0b00000000000000000000000000000001) = .ok .openStream ∧
    decode (.cmd 0b00000000000000000000000000000010) = .ok .submit ∧
    decode (.cmd 0b00000000000000000000000000000011) = .ok .flush ∧
    decode (.cmd 0b00000000000000000000000000000100) = .ok .closeStream ∧
    decode (.cmd 0b00000000000000000000000000000000) = .ok (.illegal 0) ∧
    decode (.cmd 0b00000000000000000000000000000101) = .ok (.illegal 5) ∧
    decode (.cmd 0b10000000000000000000000000000001) = .ok (.illegal 0x80000001) := by decide

theorem test_decode_effective :
    decode (.eop 0b00000000010) = .ok .submitNotOpen ∧ decode (.eop 0b00100000010) = .ok .encAc3 ∧
    decode (.eop 0b01000000010) = .ok .encEac3 ∧ decode (.eop 0b01100000010) = .ok .encDts ∧
    decode (.eop 0b10000000010) = .ok .encDtshd ∧ decode (.eop 0b10100000010) = .ok .encTruehd ∧
    decode (.eop 0b11000000010) = .ok (.submitUnreachable 0) ∧
    decode (.eop 0b11100000010) = .ok (.submitUnreachable 1) ∧
    decode (.eop 0b00100000011) = .error .eopNotSubmit := by decide

theorem test_decode_micro :
    decode (.micro 0b00000001) = .ok .beginPacket ∧ decode (.micro 0b00000010) = .ok .writeBytes ∧
    decode (.micro 0b00000011) = .ok .write16Be ∧ decode (.micro 0b00000100) = .ok .writePadding ∧
    decode (.micro 0b00000101) = .ok .finalize ∧ decode (.micro 0b00000110) = .ok .a52Parse ∧
    decode (.micro 0b00000111) = .ok .dtsParse ∧ decode (.micro 0b00001000) = .ok .convert14 ∧
    decode (.micro 0b00001001) = .error .noSuchMicroOp := by decide

theorem test_decodeTableWord : decodeTableWord 32 2 = some .submit ∧ decodeTableWord 16 0x502 = some .encTruehd ∧
    decodeTableWord 8 7 = some .dtsParse ∧ decodeTableWord 8 0 = none ∧ decodeTableWord 16 0x103 = none := by decide

/-! ### Small states -/

/-- A stream of variant `v` open with BPF 4, and a frame of 1536 samples with the bytes `d` in FRAME_IN. -/
def streamOf (v : BitVec 3) (d : List Byte) : State :=
  { State.reset with
    sOpen := true, sVariant := v, sOutRate := 48000, sBpf := 4
    frameIn := { Frame.idle with data := d, nbSamples := 1536, pts := 7, dts := 9 } }

/-- The host's next accesses. -/
def withHost (l : List HostAccess) (s : State) : State := { s with host := l }

/-- A packet in progress of capacity `cap`, with CURSOR at 8. -/
def packetOf (cap : BitVec 17) (s : State) : State := { s with obActive := true, obCap := cap, cursor := 8 }

/-- The state a step or an operation answers with, and one thing of it. -/
def after {α : Type} (f : State → α) : Host.Outcome State Fault Refusal → Option α
  | .next t => some (f t)
  | .fault _ => none
  | .refused _ => none

/-- STATUS as the host reads it. -/
def status (s : State) : Word := readRegister 0x0C s

/-- The first `n` bytes of the packet. -/
def packetHead (n : Nat) (s : State) : Option (List Byte × Nat) := s.pktOut.map fun p => (p.data.take n, p.data.length)

/-- The bytes `d` and `n` zeros. -/
def padded (d : List Byte) (n : Nat) : List Byte := d ++ List.replicate n 0

theorem padded_length (d : List Byte) (n : Nat) : (padded d n).length = d.length + n := by
  rw [padded, List.length_append, List.length_replicate]

theorem submitting_streamOf {v : BitVec 3} {d : List Byte} (h : d.length ≤ 65536) : submitting (streamOf v d) :=
  ⟨rfl, rfl, h⟩

/-- `A(128, 0x00, 0x40)` of 95_test_vectors.md section 0 with zeros for its body: an AC-3 frame of 128 bytes. -/
def ac3Frame : List Byte := padded [0x0B, 0x77, 0, 0, 0x00, 0x40] 122

/-- An E-AC-3 syncframe of 6 bytes, one block, independent. -/
def eac3Frame : List Byte := [0x0B, 0x77, 0x00, 0x02, 0x00, 0x80]

/-- The same with six blocks. -/
def eac3SixBlocks : List Byte := [0x0B, 0x77, 0x00, 0x02, 0x30, 0x80]

/-- The same with one block, dependent. -/
def eac3Dependent : List Byte := [0x0B, 0x77, 0x40, 0x02, 0x00, 0x80]

/-- The header of `D(512, 96, ·)` of 95_test_vectors.md section 0: 512 samples in 96 bytes at 48 kHz. -/
def dtsHeader96 : List Byte := [0x7F, 0xFE, 0x80, 0x01, 0xFC, 0x3C, 0x05, 0xF0, 0xB4, 0, 0, 0, 0, 0, 0, 0]

/-- That core, whole. -/
def dtsFrame : List Byte := dtsHeader96 ++ List.replicate 80 1

/-- What the reference parser reads from it. -/
def dtsRecord : DtsHeader := { variant := .be16, frameSize := 96, frameLength := 512, rate := 48000 }

/-- The header of a DTS core of `D(512, 2041, ·)`: 2041 bytes. -/
def dtsHeader2041 : List Byte := [0x7F, 0xFE, 0x80, 0x01, 0xFC, 0x3C, 0x7F, 0x80, 0xB4, 0, 0, 0, 0, 0, 0, 0]

/-- `T(10, 0x1000, major)` of 95_test_vectors.md section 0. -/
def thdMajor : List Byte := [0x12, 0x34, 0x10, 0x00, 0xF8, 0x72, 0x6F, 0xBA, 0x00, 0x00]

/-- `T(10, 0x1028, plain)`. -/
def thdPlain : List Byte := [0x12, 0x34, 0x10, 0x28, 0x00, 0x26, 0x2D, 0x34, 0x3B, 0x42]

/-! ### Registers and commands (95_test_vectors.md section 4) -/

theorem test_open_ac3 : after status (exec .openStream { State.reset with ctrl := 0x401 }) = some 0x300 := by decide

theorem test_open_dtshd :
    after status (exec .openStream { State.reset with ctrl := 0x403, outRate := 192000 }) = some 0x900 := by decide

theorem test_open_no_codec : after status (exec .openStream State.reset) = some 0x63 := by decide

theorem test_open_no_bpf : after status (exec .openStream { State.reset with ctrl := 0x001 }) = some 0x63 := by decide

theorem test_submit_not_open : after status (exec .submit State.reset) = some 0x73 := by decide

theorem test_illegal_keeps_stream : after status (exec (.illegal 7) (streamOf 1 [])) = some 0x363 := by decide

theorem test_close : after status (exec .closeStream (streamOf 5 [])) = some 0 := by decide

theorem test_flush : after status (exec .flush { streamOf 4 [] with dtshdSkip := true }) = some 0x900 := by decide

theorem test_ctrl_mask :
    after (·.ctrl) (step (withHost [.write 32 0x00 0xFFFFFFFF] State.reset)) = some 0xFF0F := by decide

theorem test_reset_registers : readRegister 0x00 State.reset = 0x400 ∧ readRegister 0x04 State.reset = 48000 ∧
    readRegister 0x0C State.reset = 0 := by decide

theorem test_read_status : after (·.busRead) (step (withHost [.read 32 0x0C] (streamOf 1 []))) = some 0x300 := by decide

theorem test_platform_reset : after (fun t => (status t, t.ctrl)) (step (withHost [.reset]
    { streamOf 1 [] with fault := true, faultCause := .overflow, ctrl := 0x403 })) = some (0, 0x400) := by decide

/-- A table word is the next operation. -/
theorem test_withFetchWord : after status (step (State.reset.withFetchWord 32 1)) = some 0x63 ∧
    after status (step (State.reset.withFetchWord 16 0x102)) = some 0x313 ∧
    after (·.uop.converted) (step (State.reset.withFetchWord 8 8)) = some [] := by decide

theorem test_effective_unreachable : step (State.reset.withFetchWord 16 0x602) = .refused .unreachableVariant :=
  rfl

/-! ### The Packet Writer (95_test_vectors.md section 2) -/

/-- W1: BEGIN(6144, 1536, 90000, 90000). -/
theorem test_w1 : after (fun t => (readRegister 0x24 t, t.obCap, t.obPts)) (exec .beginPacket { streamOf 1 [] with
    uop := { MicroPort.idle with cap := 6144, samples := 1536, pts := 90000, dts := 90000 } }) =
      some (0x80000008, 6144, 90000) := by decide

/-- W2 and W4: three source bytes, little-endian output. -/
theorem test_w2_w4 : after (fun t => (t.ob, t.cursor)) (exec .writeBytes { packetOf 6144 (streamOf 1 []) with
      uop := { MicroPort.idle with data := [0x0B, 0x77, 0x01], srcBe := true } }) =
        some ([(8, 0x77), (9, 0x0B), (10, 0x00), (11, 0x01)], 12) ∧
    after (·.ob) (exec .writeBytes { packetOf 6144 (streamOf 1 []) with
      uop := { MicroPort.idle with data := [0x0B, 0x77, 0x01], srcBe := false } }) =
        some [(8, 0x0B), (9, 0x77), (10, 0x00), (11, 0x01)] := by decide

/-- W3 and W5: the same, big-endian output. -/
theorem test_w3_w5 : after (·.ob) (exec .writeBytes { packetOf 6144 (streamOf 1 []) with
      sOutBe := true, uop := { MicroPort.idle with data := [0x0B, 0x77, 0x01], srcBe := true } }) =
        some [(8, 0x0B), (9, 0x77), (10, 0x01), (11, 0x00)] ∧
    after (·.ob) (exec .writeBytes { packetOf 6144 (streamOf 1 []) with
      sOutBe := true, uop := { MicroPort.idle with data := [0x77, 0x0B, 0x01], srcBe := false } }) =
        some [(8, 0x0B), (9, 0x77), (10, 0x01), (11, 0x00)] := by decide

/-- W6: WRITE16_BE(0x0200) in both output orders. -/
theorem test_w6 : after (fun t => (t.ob, t.cursor)) (exec .write16Be { packetOf 6144 (streamOf 1 []) with
      uop := { MicroPort.idle with value := 0x0200 } }) = some ([(8, 0x00), (9, 0x02)], 10) ∧
    after (·.ob) (exec .write16Be { packetOf 6144 (streamOf 1 []) with
      sOutBe := true, uop := { MicroPort.idle with value := 0x0200 } }) = some [(8, 0x02), (9, 0x00)] := by decide

/-- W7: WRITE_PADDING(0). -/
theorem test_w7 : after (fun t => (t.ob, t.cursor)) (exec .writePadding (packetOf 6144 (streamOf 1 []))) =
    some ([], 8) := by decide

/-- W10: the smallest packet, FINALIZE(0x15, 1) with nothing written. -/
theorem test_w10 : after (fun t => t.ob.map (·.2)) (exec .finalize { packetOf 12 (streamOf 1 []) with
    uop := { MicroPort.idle with dataType := 0x15, unit := 1 } }) =
      some [0x72, 0xF8, 0x1F, 0x4E, 0x15, 0x00, 0x00, 0x00, 0x00, 0x00, 0x00, 0x00] := by decide

/-- W11 to W13: capacities that BEGIN does not take. -/
theorem test_w11_w13 :
    after (·.faultCause) (exec .beginPacket { streamOf 1 [] with uop := { MicroPort.idle with cap := 10 } }) =
      some .badCapacity ∧
    after (·.faultCause) (exec .beginPacket { streamOf 1 [] with uop := { MicroPort.idle with cap := 8 } }) =
      some .badCapacity ∧
    after (·.errKind) (exec .beginPacket { streamOf 1 [] with uop := { MicroPort.idle with cap := 65540 } }) =
      some .resourceExhaustion := by decide

/-- FINALIZE with CURSOR inside the header is a contract fault (93_implementation_defined.md U16). -/
theorem test_finalize_low_cursor : after (fun t => (t.fault, t.cursor, t.ob)) (exec .finalize
    { packetOf 12 (streamOf 1 []) with
      cursor := 6, uop := { MicroPort.idle with dataType := 0x15, unit := 1 } }) = some (true, 6, []) := by decide

/-! ### The parsers (95_test_vectors.md section 2) -/

/-- P1 to P4: sizes and rates. -/
theorem test_p1_p4 : (a52Parse [0x0B, 0x77, 0, 0, 0x10, 0x40]).map (fun h => (h.size, h.rate)) = some (512, 48000) ∧
    (a52Parse [0x0B, 0x77, 0, 0, 0x51, 0x40]).map (fun h => (h.size, h.rate)) = some (558, 44100) ∧
    (a52Parse [0x0B, 0x77, 0, 0, 0x52, 0x40]).map (fun h => (h.size, h.rate)) = some (696, 44100) ∧
    (a52Parse [0x0B, 0x77, 0, 0, 0x90, 0x40]).map (fun h => (h.size, h.rate)) = some (768, 32000) := by decide

/-- P5 to P8: an invalid code, and E-AC-3 frames. -/
theorem test_p5_p8 : a52Parse [0x0B, 0x77, 0, 0, 0x26, 0x40] = none ∧
    (a52Parse [0x0B, 0x77, 0x01, 0x7F, 0x30, 0x80]).map (fun h => (h.size, h.blocks)) = some (768, 6) ∧
    (a52Parse [0x0B, 0x77, 0x40, 0x1F, 0x00, 0x80]).map (fun h => (h.size, h.strmtyp)) = some (64, .dependent) ∧
    (a52Parse [0x0B, 0x77, 0x00, 0xFF, 0xC0, 0x80]).map (fun h => (h.size, h.blocks, h.rate)) =
      some (512, 6, 24000) := by decide

/-- P9: a 14-bit header. -/
theorem test_p9 : convert14 [0x1F, 0xFF, 0xE8, 0x00, 0x07, 0xF0, 0x00, 0x00] false =
    [0x7F, 0xFE, 0x80, 0x01, 0xFC, 0x00, 0x00] := by decide

/-- P11: `D(512, 1006, ·)`, and the header of the 14-bit test frame of section 0. -/
theorem test_p11 : dtsParse [0x7F, 0xFE, 0x80, 0x01, 0xFC, 0x3C, 0x3E, 0xD0, 0xB4, 0, 0, 0, 0, 0, 0, 0] =
      some { variant := .be16, frameSize := 1006, frameLength := 512, rate := 48000 } ∧
    (dtsParse [0x1F, 0xFF, 0xE8, 0x00, 0x07, 0xF0, 0xFC, 0x37, 0xFC, 0x2D, 0, 0, 0, 0, 0, 0]).map
      (fun h => (h.frameSize, h.frameLength)) = some (1024, 512) := by decide +kernel

/-! ### The encapsulators (95_test_vectors.md section 3) -/

/-- What SUBMIT of a declared AC-3 frame of 6 bytes leaves. -/
def ac3Sent (d : List Byte) : State :=
  sentPacket (burst false (ac3DataType (d.getD 5 0)) 8 (outputBytes true false (d.take 6)) 6144) 1536 7 9
    (commandStart (streamOf 1 d))

/-- SUBMIT sends such a frame. -/
theorem submit_ac3 (b0 b1 b2 b3 b4 b5 : Byte) : exec .submit (streamOf 1 [b0, b1, b2, b3, b4, b5]) =
    .next (ac3Sent [b0, b1, b2, b3, b4, b5]) := by
  have h := ac3Emit_sent (n := 6) (s := commandStart (streamOf 1 [b0, b1, b2, b3, b4, b5])) rfl (by decide)
    (Nat.le_refl _) (by decide)
  have hb : submitBody (commandStart (streamOf 1 [b0, b1, b2, b3, b4, b5])) =
      ac3Emit 6 (commandStart (streamOf 1 [b0, b1, b2, b3, b4, b5])) := by
    have hl : ac3Length (commandStart (streamOf 1 [b0, b1, b2, b3, b4, b5])).frameIn = .ok 6 := rfl
    change submitWith ac3Body _ = _
    rw [submitWith_open rfl (by change 6 ≤ 65536; decide), ac3Body, hl]
    rfl
  have he : exec .submit (streamOf 1 [b0, b1, b2, b3, b4, b5]) =
      execute submitBody (streamOf 1 [b0, b1, b2, b3, b4, b5]) := rfl
  rw [he, execute_running rfl, hb, h]
  rfl

/-- As V1 and V2, with a frame of 6 bytes: bsmod 3 in the data-type code, 48 bits of payload. -/
theorem test_ac3_packet : (ac3Sent [0x0B, 0x77, 0x00, 0x00, 0x10, 0x43]).pktOut.map (·.data.take 16) =
      some [0x72, 0xF8, 0x1F, 0x4E, 0x01, 0x03, 0x30, 0x00, 0x77, 0x0B, 0x00, 0x00, 0x43, 0x10, 0x00, 0x00] ∧
    status (ac3Sent [0x0B, 0x77, 0x00, 0x00, 0x10, 0x43]) = 0x305 := by decide +kernel

/-- V5: no header to reparse. -/
theorem test_ac3_malformed : after status (exec .encAc3 (streamOf 1 [0, 0, 0, 0, 0])) = some 0x313 := by decide

/-- X1: the first of six one-block frames is absorbed. -/
theorem test_eac3_more : after (fun t => (status t, t.cursor)) (exec .submit (streamOf 2 eac3Frame)) =
    some (0x100502, 14) := by decide

/-- X2: a frame that takes the total past six. -/
theorem test_eac3_past_six : after status (exec .encEac3
    { packetOf 24576 (streamOf 2 eac3SixBlocks) with eac3Blocks := 1 }) = some 0x543 := by decide

/-- As T1, with a core of 96 bytes: code 0x000B, 768 bits, capacity 2048. -/
theorem test_dts_packet : after (fun t => (packetHead 10 t, t.pktSamples)) (exec .encDts (streamOf 3 dtsFrame)) =
    some (some ([0x72, 0xF8, 0x1F, 0x4E, 0x0B, 0x00, 0x00, 0x03, 0xFE, 0x7F], 2048), 512) := by decide +kernel

/-- As T8: 256 samples are no burst. -/
theorem test_dts_unsupported : after status (exec .encDts (streamOf 3
    [0x7F, 0xFE, 0x80, 0x01, 0xFC, 0x1C, 0x7C, 0xF0, 0xB4, 0, 0, 0, 0, 0, 0, 0])) = some 0x733 := by decide

/-- As H1, with a frame of 96 bytes and the period 512: 10 + 2 + 96 + 12 = 120 bytes. -/
theorem test_dtshd_packet : after (packetHead 22) (exec .encDtshd (streamOf 4 dtsFrame)) =
    some (some ([0x72, 0xF8, 0x1F, 0x4E, 0x11, 0x00, 0x78, 0x00, 0x00, 0x01, 0x00, 0x00, 0x00, 0x00, 0x00, 0x00,
      0xFE, 0xFE, 0x60, 0x00, 0xFE, 0x7F], 2048)) := by decide +kernel

/-- As H2: the whole frame does not fit, the core does. -/
theorem test_dtshd_core_only : after (fun t => (t.dtshdSkip, t.downgradeNotice, packetHead 8 t)) (exec .encDtshd
    (streamOf 4 (padded dtsFrame 2000))) =
      some (true, true, some ([0x72, 0xF8, 0x1F, 0x4E, 0x11, 0x00, 0x78, 0x00], 2048)) := by decide +kernel

/-- The first access unit of a stream: the start marker and the frame. -/
theorem test_truehd_first : after (fun t => (status t, readRegister 0x18 t, t.thdPrevSize)) (exec .submit
    (streamOf 5 thdMajor)) = some (0x01000B02, 0x0280001E, 30) := by decide

/-- The padding: 40 samples later, 2560 bytes less the 30 of the frame before. -/
theorem test_truehd_padding : thdPadding 0x1028 { streamOf 5 [] with
    thdPrevSize := 30, thdPrevTime := 0x1000, thdSpf := 40 } = 2530 := by decide

/-! ### States that meet the hypotheses of the statements -/

/-- Every open stream with no packet in progress and nothing aggregated meets the invariant. -/
theorem streamOf_inv {v : BitVec 3} (h0 : v ≠ 0) (h5 : v.toNat ≤ 5) (d : List Byte) (l : List HostAccess) :
    Inv (withHost l (streamOf v d)) where
  noFault := ⟨rfl, rfl⟩
  noMicro := rfl
  variant := ⟨⟨fun _ => h0, fun _ => rfl⟩, h5⟩
  bpf := fun _ h => absurd (show (4 : Byte) = 0 from h) (by decide)
  ctrl := by change (0x400 : Word) &&& ctrlWritable = 0x400; decide
  r51 := ⟨fun h => Bool.noConfusion h, fun h => Bool.noConfusion h, Nat.zero_le _,
    ⟨Nat.zero_le _, fun h => absurd rfl h⟩, Or.inl rfl, Nat.zero_le _⟩
  idle := fun _ => ⟨rfl, rfl, rfl, rfl, rfl, rfl⟩
  ownDtshd := fun _ => rfl
  ownTruehd := fun _ => ⟨rfl, rfl, rfl, rfl, rfl, rfl⟩
  obWf := Memory.wf_nil _
  mat0Wf := Memory.wf_nil _
  mat1Wf := Memory.wf_nil _
  obWritten := fun h => Bool.noConfusion h
  metadata := fun h => Bool.noConfusion h
  matFilled := ⟨bytesWritten_zero _ _, fun h => absurd rfl h, fun h => absurd (show 30708 ≤ 0 from h) (by decide)⟩
  port := ⟨rfl, rfl, rfl⟩

/-- An aggregate with `n` blocks and 6 bytes absorbed, and the next frame `d`. -/
def aggregateOf (n : BitVec 3) (d : List Byte) : State :=
  { streamOf 2 d with
    obActive := true, obCap := 24576, cursor := 14, obSamples := 6144, eac3Blocks := n
    ob := Memory.cells 8 eac3Frame }

theorem aggregateOf_inv {n : BitVec 3} (h1 : 1 ≤ n.toNat) (h5 : n.toNat ≤ 5) (d : List Byte) :
    Inv (aggregateOf n d) where
  noFault := ⟨rfl, rfl⟩
  noMicro := rfl
  variant := ⟨⟨fun _ => by change (2 : BitVec 3) ≠ 0; decide, fun _ => rfl⟩, by change (2 : BitVec 3).toNat ≤ 5; decide⟩
  bpf := fun _ h => absurd (show (4 : Byte) = 0 from h) (by decide)
  ctrl := by change (0x400 : Word) &&& ctrlWritable = 0x400; decide
  r51 := ⟨fun _ => ⟨rfl, h1, h5⟩, fun _ => ⟨rfl, by change 8 ≤ 14; decide, by change 14 ≤ 24576; decide,
      by change (14 : BitVec 17).toNat % 2 = 0; decide⟩, h5,
    ⟨Nat.zero_le _, fun h => absurd rfl h⟩, Or.inl rfl, Nat.zero_le _⟩
  idle := fun h => Bool.noConfusion h
  ownDtshd := fun _ => rfl
  ownTruehd := fun _ => ⟨rfl, rfl, rfl, rfl, rfl, rfl⟩
  obWf := by change Memory.wf 65536 (Memory.cells 8 eac3Frame); decide
  mat0Wf := Memory.wf_nil _
  mat1Wf := Memory.wf_nil _
  obWritten := fun _ x h8 h14 => by
    have h : ∀ y, y < 14 → 8 ≤ y → ((Memory.cells 8 eac3Frame).get? y).isSome = true := by decide
    exact h x h14 h8
  metadata := fun _ => by change (6144 : Word) = packetSamples 24576 4; decide
  matFilled := ⟨bytesWritten_zero _ _, fun h => absurd rfl h, fun h => absurd (show 30708 ≤ 0 from h) (by decide)⟩
  port := ⟨rfl, rfl, rfl⟩

/-- A TrueHD stream whose first frame, of 10 bytes, was absorbed, and the next frame `d`. -/
def matOf (d : List Byte) : State :=
  { streamOf 5 d with
    matFill := 30, thdPrevSize := 30, thdPrevTime := 0x1000, thdSpf := 40, thdFrameCount := 1
    mat0 := Memory.cells 0 (matStart ++ thdMajor) }

theorem matOf_inv (d : List Byte) : Inv (matOf d) where
  noFault := ⟨rfl, rfl⟩
  noMicro := rfl
  variant := ⟨⟨fun _ => by change (5 : BitVec 3) ≠ 0; decide, fun _ => rfl⟩, by change (5 : BitVec 3).toNat ≤ 5; decide⟩
  bpf := fun _ h => absurd (show (4 : Byte) = 0 from h) (by decide)
  ctrl := by change (0x400 : Word) &&& ctrlWritable = 0x400; decide
  r51 := ⟨fun h => Bool.noConfusion h, fun h => Bool.noConfusion h, Nat.zero_le _,
    ⟨by change 30 ≤ 61407; decide, fun _ => by change 20 ≤ 30; decide⟩, Or.inr (Or.inl rfl), by change 1 ≤ 24; decide⟩
  idle := fun _ => ⟨rfl, rfl, rfl, rfl, rfl, rfl⟩
  ownDtshd := fun _ => rfl
  ownTruehd := fun h => absurd rfl h
  obWf := Memory.wf_nil _
  mat0Wf := by change Memory.wf 61424 (Memory.cells 0 (matStart ++ thdMajor)); decide
  mat1Wf := Memory.wf_nil _
  obWritten := fun h => Bool.noConfusion h
  metadata := fun h => Bool.noConfusion h
  matFilled := by
    change MatFilled (Memory.cells 0 (matStart ++ thdMajor)) 30
    have h : ∀ y, y < 30 → ((Memory.cells 0 (matStart ++ thdMajor)).get? y).isSome = true := by decide
    have hs : ∀ i, i < 20 → (Memory.cells 0 (matStart ++ thdMajor)).get? (0 + i) = matStart[i]? := by decide
    exact ⟨fun x _ hx => h x (by omega), fun _ => ⟨by decide, hs⟩, fun h => absurd h (by decide)⟩
  port := ⟨rfl, rfl, rfl⟩

theorem witness_ResetSetsEveryElement : ∃ (s : State) (rest : List HostAccess),
    s.uop.pending = none ∧ s.host = .reset :: rest := ⟨withHost [.reset] (streamOf 1 []), [], rfl, rfl⟩

theorem witness_StepKeepsInv : ∃ s t : State, Inv s ∧ step s = .next t :=
  ⟨_, _, streamOf_inv (v := 1) (by decide) (by decide) [] [commandWrite 3], rfl⟩

theorem witness_LegalAccessesComplete : ∃ s : State, Inv s ∧ ∀ a ∈ s.host.head?, accessLegal a = true :=
  ⟨_, streamOf_inv (v := 5) (by decide) (by decide) thdMajor [commandWrite 2], by
    intro a h; cases h; decide⟩

/-- A stale byte of `OB`. -/
theorem witness_StaleBytesUnobservable : ∃ s t s' : State, Inv s ∧ Inv t ∧ SameButStaleBytes s t ∧ s ≠ t ∧
    step s = .next s' := by
  have hs := streamOf_inv (v := 1) (by decide) (by decide) [] [commandWrite 3]
  refine ⟨withHost [commandWrite 3] (streamOf 1 []), { withHost [commandWrite 3] (streamOf 1 []) with ob := [(40, 1)] },
    _, hs, ?_, ?_, by decide, rfl⟩
  · exact { hs with
      obWf := by change Memory.wf 65536 [(40, 1)]; decide
      matFilled := hs.matFilled
      obWritten := fun h => Bool.noConfusion h
      r51 := ⟨hs.r51.activeOnlyEac3, hs.r51.activePacket, hs.r51.blocks, hs.r51.fill, hs.r51.samples, hs.r51.count⟩ }
  · exact ⟨rfl, fun h => Bool.noConfusion h, fun _ _ _ => rfl⟩

theorem witness_DecodeOfEncode : Instr.encAc3.wellFormed = true ∧ (Instr.illegal 5).wellFormed = true := by decide

theorem witness_EncodeOfDecode : decode (.micro 8) = .ok .convert14 ∧ decode (.cmd 5) = .ok (.illegal 5) ∧
    decode (.eop 0x702) = .ok (.submitUnreachable 1) := by decide

theorem witness_StepRunsTheDecodedOperation :
    (∃ (s : State) (w : Word) (rest : List HostAccess), s.uop.pending = none ∧ s.host = .write 32 0x08 w :: rest) ∧
    ∃ (s : State) (n : Byte) (i : Instr), s.uop.pending = some n ∧ decode (.micro n) = .ok i :=
  ⟨⟨withHost [.write 32 0x08 1] State.reset, 1, [], rfl, rfl⟩,
    ⟨{ State.reset with uop := { MicroPort.idle with pending := some 1 } }, 1, .beginPacket, rfl, rfl⟩⟩

theorem witness_OtherAccesses : ∀ a : HostAccess, ∃ (s : State) (rest : List HostAccess),
    s.uop.pending = none ∧ s.host = a :: rest := fun a => ⟨withHost [a] State.reset, [], rfl, rfl⟩

/-- The offsets next to CMD and the last of the window, for the clauses of ignored writes and of reads. -/
theorem witness_OtherAccesses_offsets : ∀ o ∈ [(0x0C : Byte), 0x10, 0x2C, 0xFC],
    o.toNat % 4 = 0 ∧ o ≠ 0x00 ∧ o ≠ 0x04 ∧ o ≠ 0x08 := by decide

theorem witness_MisalignedAccessRefused :
    (∃ (s : State) (width : Nat) (o : Byte) (v : Word) (rest : List HostAccess), s.uop.pending = none ∧ width ≠ 32 ∧
      s.host = .write width o v :: rest) ∧
    ∃ (s : State) (width : Nat) (o : Byte) (rest : List HostAccess), s.uop.pending = none ∧ o.toNat % 4 ≠ 0 ∧
      s.host = .read width o :: rest :=
  ⟨⟨withHost [.write 16 8 1] State.reset, 16, 8, 1, [], rfl, by decide, rfl⟩,
    ⟨withHost [.read 32 2] State.reset, 32, 2, [], rfl, by decide, rfl⟩⟩

theorem witness_RegisterMap : 0x2C ≤ (0x2C : Byte).toNat ∧ 0x2C ≤ (0xFC : Byte).toNat := by decide

/-- The first clause at an open stream, CODEC 0, CODEC 5 and BPF 0. -/
theorem witness_OpenCommand_refused : ((streamOf 1 []).fault = false ∧ (streamOf 1 []).sOpen = true) ∧
    ((0x400 : Word).extractLsb' 0 3).toNat = 0 ∧ 4 < ((0x405 : Word).extractLsb' 0 3).toNat ∧
    (0x001 : Word).extractLsb' 8 8 = 0 := by decide

/-- The second clause at CODEC 1 and CODEC 4. -/
theorem witness_OpenCommand : ∀ c ∈ [(0x401 : Word), 0x104], ∃ s : State, s.fault = false ∧ s.ctrl = c ∧
    s.sOpen = false ∧ 1 ≤ (s.ctrl.extractLsb' 0 3).toNat ∧ (s.ctrl.extractLsb' 0 3).toNat ≤ 4 ∧
    s.ctrl.extractLsb' 8 8 ≠ 0 := by
  intro c hc
  refine ⟨{ State.reset with ctrl := c }, rfl, rfl, rfl, ?_⟩
  simp only [List.mem_cons, List.not_mem_nil, or_false] at hc
  rcases hc with rfl | rfl <;> decide

theorem witness_FlushCommand : ∃ s : State, s.fault = false ∧ s.sOpen = true := ⟨streamOf 4 [], rfl, rfl⟩

theorem witness_CloseCommand : ∃ s : State, s.fault = false ∧ s.sOpen = false := ⟨State.reset, rfl, rfl⟩

theorem witness_IllegalCommandWords : State.reset.fault = false ∧ (0x101 : Word).extractLsb' 8 24 ≠ 0 ∧
    (0 : Word).extractLsb' 0 8 = 0 ∧ 4 < ((5 : Word).extractLsb' 0 8).toNat := by decide

theorem witness_SubmitNotOpen : ∃ s : State, s.fault = false ∧ s.sOpen = false := ⟨State.reset, rfl, rfl⟩

theorem witness_OversizeFrame : ∃ s : State, s.fault = false ∧ s.sOpen = true ∧ s.sVariant ≠ 0 ∧
    65536 < s.frameIn.data.length :=
  ⟨streamOf 1 (padded [1] 65536), rfl, rfl, by change (1 : BitVec 3) ≠ 0; decide, by
    change 65536 < (padded [1] 65536).length
    rw [padded_length]; decide⟩

theorem witness_SubmitRunsTheEffectiveOpcode :
    (streamOf 0 []).sVariant.toNat ≤ 5 ∧ decode (.eop ((streamOf 0 []).sVariant ++ (0x02 : Byte))) = .ok .submitNotOpen ∧
    (streamOf 5 []).sVariant.toNat ≤ 5 ∧ decode (.eop ((streamOf 5 []).sVariant ++ (0x02 : Byte))) = .ok .encTruehd := by
  decide

theorem witness_UnreachableVariantRefused : submitting (streamOf 6 []) ∧ 5 < (streamOf 6 []).sVariant.toNat := by decide

theorem witness_FaultedIgnoresCommands : ∃ (s : State) (rest : List HostAccess), s.fault = true ∧
    s.uop.pending = none ∧ s.host = .read 32 0x0C :: rest ∧ (0x0C : Byte).toNat % 4 = 0 ∧ isCommand .flush = true :=
  ⟨{ withHost [.read 32 0x0C] State.reset with fault := true, faultCause := .overflow }, [], rfl, rfl, rfl, rfl, rfl⟩

theorem witness_FaultSetAndCleared :
    (∃ s t : State, step s = .next t ∧ s.fault = true ∧ t.fault = false) ∧
    ∃ s t : State, step s = .next t ∧ s.fault = false ∧ t.fault = true :=
  ⟨⟨{ withHost [.reset] State.reset with fault := true, faultCause := .overflow }, _, rfl, rfl, rfl⟩,
    ⟨{ State.reset with uop := { MicroPort.idle with pending := some 2 } }, _, rfl, rfl, rfl⟩⟩

/-- An error that keeps the stream, and one that flushes it. -/
theorem witness_ErrorsLeaveOnlyTheVerdict :
    (∃ t : State, exec .openStream (streamOf 1 []) = .next t ∧ t.verdict = .error ∧ t.fault = false) ∧
    ∃ t : State, exec .submit (streamOf 1 []) = .next t ∧ t.verdict = .error ∧ t.fault = false :=
  ⟨⟨_, rfl, rfl, rfl⟩, ⟨_, rfl, rfl, rfl⟩⟩

theorem witness_ErrorKindsOfEachOperation : ∀ i ∈ [Instr.encAc3, .encEac3, .encDts, .encDtshd, .encTruehd],
    after (·.errKind) (exec i (streamOf 1 [])) = some .malformedHeader := by decide

theorem witness_PktValidExactlyAfterPacket : (∃ s t : State, s.fault = false ∧ exec .submit s = .next t ∧
    t.verdict = .packet) ∧ ∃ s t : State, s.fault = false ∧ exec .flush s = .next t ∧ t.verdict = .none :=
  ⟨⟨_, _, rfl, submit_ac3 0 0 0 0 0 0, rfl⟩, ⟨streamOf 1 [], _, rfl, rfl, rfl⟩⟩

theorem witness_PacketLayout : ∃ (s t : State) (p : Packet), Inv s ∧ exec .submit s = .next t ∧ t.pktOut = some p :=
  ⟨_, _, _, streamOf_inv (v := 1) (by decide) (by decide) [0, 0, 0, 0, 0, 0] [], submit_ac3 0 0 0 0 0 0, rfl⟩

theorem witness_FlushEqualsCloseAndOpen : ∃ s c t u : State, s.sOpen = true ∧ s.sOutBe = s.ctrl.getLsbD 3 ∧
    s.sOutRate = s.outRate ∧ s.sBpf = s.ctrl.extractLsb' 8 8 ∧
    openVariant (s.ctrl.extractLsb' 0 3) s.outRate = some s.sVariant ∧ Inv s ∧
    exec .flush s = .next t ∧ exec .closeStream s = .next c ∧ exec .openStream c = .next u := by
  have h := streamOf_inv (v := 1) (by decide) (by decide) [] []
  refine ⟨{ streamOf 1 [] with ctrl := 0x401 }, _, _, _, by decide, by decide, by decide, by decide, by decide, ?_, rfl, rfl, rfl⟩
  exact { h with
    ctrl := by change (0x401 : Word) &&& ctrlWritable = 0x401; decide
    r51 := ⟨h.r51.activeOnlyEac3, h.r51.activePacket, h.r51.blocks, h.r51.fill, h.r51.samples, h.r51.count⟩ }

theorem witness_Ac3DeclaredFrame : submitting (streamOf 1 [0, 0, 0, 0, 0, 0]) ∧
    (streamOf 1 [0, 0, 0, 0, 0, 0]).sVariant = 1 ∧ (streamOf 1 [0, 0, 0, 0, 0, 0]).obActive = false ∧
    (streamOf 1 [0, 0, 0, 0, 0, 0]).frameIn.nbSamples = 1536 ∧ 6 ≤ frameLen (streamOf 1 [0, 0, 0, 0, 0, 0]) ∧
    frameLen (streamOf 1 [0, 0, 0, 0, 0, 0]) ≤ 6136 := by decide

/-- The longest frame of the clause. -/
theorem witness_Ac3DeclaredFrame_longest : submitting (streamOf 1 (padded [1] 6135)) ∧
    frameLen (streamOf 1 (padded [1] 6135)) = 6136 :=
  ⟨submitting_streamOf (by rw [padded_length]; decide), padded_length [1] 6135⟩

/-- An AC-3 frame of 128 bytes in an input of 128 whose sample count does not match. -/
theorem witness_Ac3ReparsedFrame : ∃ h : A52Header,
    (submitting { streamOf 1 ac3Frame with frameIn := { Frame.idle with data := ac3Frame } } ∧
      ({ Frame.idle with data := ac3Frame } : Frame).nbSamples ≠ 1536) ∧
    a52Parse ac3Frame = some h ∧ h.isEac3 = false ∧ h.size = 128 ∧ ac3Frame.length = 128 :=
  ⟨{ size := 128, samples := 1536, blocks := 6, isEac3 := false, strmtyp := .independent, rate := 48000 },
    by decide +kernel, by decide +kernel, rfl, rfl, padded_length _ _⟩

/-- Each clause: no header in 5 bytes, an E-AC-3 frame, a cut AC-3 frame, and a declared frame of 6137 bytes. -/
theorem witness_Ac3Errors :
    (submitting (streamOf 1 [0, 0, 0, 0, 0]) ∧ frameLen (streamOf 1 [0, 0, 0, 0, 0]) < 6 ∧
      a52Parse [0, 0, 0, 0, 0] = none) ∧
    (submitting { streamOf 1 eac3Frame with frameIn := { Frame.idle with data := eac3Frame } } ∧
      (a52Parse eac3Frame).map (·.isEac3) = some true) ∧
    (submitting { streamOf 1 (ac3Frame.take 127) with frameIn := { Frame.idle with data := ac3Frame.take 127 } } ∧
      (a52Parse (ac3Frame.take 127)).map (fun h => (h.isEac3, h.size)) = some (false, 128)) := by decide +kernel

theorem witness_Ac3Errors_capacity : submitting (streamOf 1 (padded [1] 6136)) ∧
    frameLen (streamOf 1 (padded [1] 6136)) = 6137 ∧ (streamOf 1 (padded [1] 6136)).frameIn.nbSamples = 1536 :=
  ⟨submitting_streamOf (by rw [padded_length]; decide), padded_length [1] 6136, rfl⟩

theorem eac3Frame_accepted : eac3Accepts eac3Frame 1 := ⟨_, rfl, rfl, Or.inl rfl⟩

theorem eac3SixBlocks_accepted : eac3Accepts eac3SixBlocks 6 := ⟨_, rfl, rfl, Or.inl rfl⟩

/-- An independent frame with its dependent substream. -/
theorem eac3Pair_accepted : eac3Accepts (eac3Frame ++ eac3Dependent) 1 :=
  ⟨_, rfl, rfl, Or.inr ⟨by decide, _, rfl, rfl, rfl, rfl⟩⟩

/-- One block, and, at the boundary, no blocks before it; with and without a dependent substream. -/
theorem witness_Eac3FirstFrame : ∃ (s u : State), (submitting s ∧ s.obActive = false ∧
      eac3Accepts s.frameIn.data 1 ∧ s.eac3Blocks.toNat + 1 < 6) ∧
    submitting u ∧ u.obActive = false ∧ eac3Accepts u.frameIn.data 1 ∧ u.eac3Blocks.toNat + 1 < 6 :=
  ⟨streamOf 2 eac3Frame, streamOf 2 (eac3Frame ++ eac3Dependent), ⟨by decide, rfl, eac3Frame_accepted, by decide⟩,
    by decide, rfl, eac3Pair_accepted, by decide⟩

theorem witness_Eac3LaterFrame : submitting (aggregateOf 4 eac3Frame) ∧ (aggregateOf 4 eac3Frame).obActive = true ∧
    (aggregateOf 4 eac3Frame).obCap.toNat ≤ 65536 ∧ eac3Accepts (aggregateOf 4 eac3Frame).frameIn.data 1 ∧
    (aggregateOf 4 eac3Frame).eac3Blocks.toNat + 1 < 6 ∧
    (aggregateOf 4 eac3Frame).cursor.toNat + ceil2 (frameLen (aggregateOf 4 eac3Frame)) ≤
      (aggregateOf 4 eac3Frame).obCap.toNat :=
  ⟨by decide, rfl, by decide, eac3Frame_accepted, by decide, by decide⟩

theorem witness_Eac3SixthBlock_alone : submitting (streamOf 2 eac3SixBlocks) ∧
    (streamOf 2 eac3SixBlocks).obActive = false ∧ (streamOf 2 eac3SixBlocks).eac3Blocks = 0 ∧
    eac3Accepts (streamOf 2 eac3SixBlocks).frameIn.data 6 := ⟨by decide, rfl, rfl, eac3SixBlocks_accepted⟩

theorem witness_Eac3SixthBlock : ∃ before : List Byte, Inv (aggregateOf 5 eac3Frame) ∧
    submitting (aggregateOf 5 eac3Frame) ∧ (aggregateOf 5 eac3Frame).obActive = true ∧
    eac3Accepts (aggregateOf 5 eac3Frame).frameIn.data 1 ∧ (aggregateOf 5 eac3Frame).eac3Blocks.toNat + 1 = 6 ∧
    (aggregateOf 5 eac3Frame).cursor.toNat + ceil2 (frameLen (aggregateOf 5 eac3Frame)) ≤
      (aggregateOf 5 eac3Frame).obCap.toNat ∧
    before.length = (aggregateOf 5 eac3Frame).cursor.toNat - 8 ∧ bytesAt (aggregateOf 5 eac3Frame).ob 8 before :=
  ⟨eac3Frame, aggregateOf_inv (by decide) (by decide) _, by decide, rfl, eac3Frame_accepted, by decide, by decide,
    by decide, by
      have h : ∀ i, i < 6 → (Memory.cells 8 eac3Frame).get? (8 + i) = eac3Frame[i]? := by decide
      exact h⟩

/-- Each clause: no header, a cut frame, a second header that is none, one of another length, and one that is not
dependent. -/
theorem witness_Eac3Errors :
    (∀ d ∈ [[], eac3Frame.take 5, eac3Frame ++ [0], eac3Frame ++ eac3Dependent ++ [0], eac3Frame ++ eac3Frame],
      submitting (streamOf 2 d)) ∧
    a52Parse (eac3Frame.take 5) = none ∧
    (a52Parse [0x0B, 0x77, 0x00, 0x03, 0x00, 0x80]).map (·.size) = some 8 ∧
    ((a52Parse (eac3Frame ++ [0])).map (·.size) = some 6 ∧ a52Parse ((eac3Frame ++ [0]).drop 6) = none) ∧
    (a52Parse ((eac3Frame ++ eac3Dependent ++ [0]).drop 6)).map (·.size) = some 6 ∧
    (a52Parse ((eac3Frame ++ eac3Frame).drop 6)).map (fun h => (h.size, h.isEac3, h.strmtyp)) =
      some (6, true, .independent) := by decide

/-- The byte budget, one unit too small. -/
theorem witness_Eac3Errors_budget : ∃ s : State, submitting s ∧ eac3Accepts s.frameIn.data 1 ∧ s.obActive = true ∧
    s.obCap.toNat - s.cursor.toNat < ceil2 (frameLen s) :=
  ⟨{ aggregateOf 1 eac3Frame with cursor := 24572 }, by decide, eac3Frame_accepted, rfl, by decide⟩

theorem witness_Eac3PastSix : Inv (aggregateOf 1 eac3SixBlocks) ∧ submitting (aggregateOf 1 eac3SixBlocks) ∧
    (aggregateOf 1 eac3SixBlocks).obActive = true ∧ eac3Accepts (aggregateOf 1 eac3SixBlocks).frameIn.data 6 ∧
    6 < (aggregateOf 1 eac3SixBlocks).eac3Blocks.toNat + 6 ∧
    (aggregateOf 1 eac3SixBlocks).cursor.toNat + ceil2 (frameLen (aggregateOf 1 eac3SixBlocks)) ≤
      (aggregateOf 1 eac3SixBlocks).obCap.toNat :=
  ⟨aggregateOf_inv (by decide) (by decide) _, by decide, rfl, eac3SixBlocks_accepted, by decide, by decide⟩

theorem dtsFrame_parsed : dtsParse dtsFrame = some dtsRecord := by decide +kernel

theorem dtsBurstPayload_frame : (dtsBurstPayload false .be16 (dtsFrame.take 96)).length = 96 := by
  rw [dtsPayload_length]; decide

theorem witness_DtsCorePacket : submitting (streamOf 3 dtsFrame) ∧ (streamOf 3 dtsFrame).obActive = false ∧
    dtsParse (streamOf 3 dtsFrame).frameIn.data = some dtsRecord ∧
    (dtsRecord.frameLength, (0x000B : Half)) ∈ dtsCodes ∧ dtsRecord.frameSize ≤ frameLen (streamOf 3 dtsFrame) ∧
    (dtsBurstPayload (streamOf 3 dtsFrame).sOutBe dtsRecord.variant
      ((streamOf 3 dtsFrame).frameIn.data.take dtsRecord.frameSize)).length + 8 ≤ dtsRecord.frameLength * 4 := by
  refine ⟨by decide, rfl, dtsFrame_parsed, by decide, by decide, ?_⟩
  have h : (dtsBurstPayload (streamOf 3 dtsFrame).sOutBe dtsRecord.variant
    ((streamOf 3 dtsFrame).frameIn.data.take dtsRecord.frameSize)).length = 96 := dtsBurstPayload_frame
  rw [h]; decide

/-- Each clause: 15 bytes, 256 samples, a cut core, and a core of 2041 bytes in a burst of 2048. -/
theorem witness_DtsErrors :
    (submitting (streamOf 3 (dtsHeader96.take 15)) ∧ dtsParse (dtsHeader96.take 15) = none) ∧
    ((dtsParse [0x7F, 0xFE, 0x80, 0x01, 0xFC, 0x1C, 0x7C, 0xF0, 0xB4, 0, 0, 0, 0, 0, 0, 0]).map (·.frameLength) =
      some 256 ∧ 256 ∉ dtsCodes.map (·.1)) ∧
    (submitting (streamOf 3 (dtsFrame.take 95)) ∧ dtsParse (dtsFrame.take 95) = some dtsRecord ∧
      dtsRecord.frameLength ∈ dtsCodes.map (·.1) ∧ (dtsFrame.take 95).length < dtsRecord.frameSize) ∧
    dtsParse (padded dtsHeader2041 2025) =
      some { variant := .be16, frameSize := 2041, frameLength := 512, rate := 48000 } := by decide +kernel

theorem witness_DtsErrors_capacity : submitting (streamOf 3 (padded dtsHeader2041 2025)) ∧
    2041 ≤ frameLen (streamOf 3 (padded dtsHeader2041 2025)) ∧
    512 * 4 < (dtsBurstPayload false .be16 ((padded dtsHeader2041 2025).take 2041)).length + 8 := by
  have h : (padded dtsHeader2041 2025).length = 2041 := padded_length _ _
  refine ⟨submitting_streamOf (by rw [h]; decide), Nat.le_of_eq h.symm, ?_⟩
  rw [dtsPayload_length, List.take_of_length_le (Nat.le_of_eq h)]
  change 2048 < ceil2 (padded dtsHeader2041 2025).length + 8
  rw [h]; decide

/-- A whole frame in the period 512. -/
theorem witness_DtshdWholeFrame : submitting (streamOf 4 dtsFrame) ∧ (streamOf 4 dtsFrame).obActive = false ∧
    (streamOf 4 dtsFrame).dtshdSkip = false ∧ dtsParse (streamOf 4 dtsFrame).frameIn.data = some dtsRecord ∧
    dtsRecord.rate ≠ 0 ∧ 512 = (streamOf 4 dtsFrame).sOutRate.toNat * dtsRecord.frameLength / dtsRecord.rate ∧
    (512, 0) ∈ dtshdPeriods ∧ dtsRecord.frameSize ≤ frameLen (streamOf 4 dtsFrame) ∧
    20 + ceil2 (frameLen (streamOf 4 dtsFrame)) ≤ 512 * 4 :=
  ⟨by decide, rfl, rfl, dtsFrame_parsed, by decide, by decide, by decide, by decide, by decide⟩

/-- A whole frame that does not fit, and one that fits after the flag was set. -/
theorem witness_DtshdCoreOnly :
    (submitting (streamOf 4 (padded dtsFrame 1933)) ∧
      (streamOf 4 (padded dtsFrame 1933)).obActive = false ∧
      512 * 4 < 20 + ceil2 (frameLen (streamOf 4 (padded dtsFrame 1933)))) ∧
    (submitting { streamOf 4 dtsFrame with dtshdSkip := true } ∧
      20 + ceil2 dtsRecord.frameSize ≤ 512 * 4) :=
  have h : (padded dtsFrame 1933).length = 2029 := padded_length _ _
  ⟨⟨submitting_streamOf (by rw [h]; decide), rfl, by
    have hc : frameLen (streamOf 4 (padded dtsFrame 1933)) = 2029 := h
    rw [hc]; decide⟩, by decide +kernel⟩

theorem witness_DtshdCoreOnly_parsed : dtsParse (padded dtsFrame 1933) = some dtsRecord := by
  decide +kernel

/-- Each clause: no header, SFREQ 0, a period of 511, a cut core, and a core of 2041 bytes in the period 512. -/
theorem witness_DtshdErrors :
    dtsParse [] = none ∧
    (dtsParse [0x7F, 0xFE, 0x80, 0x01, 0xFC, 0x3C, 0x05, 0xF0, 0x80, 0, 0, 0, 0, 0, 0, 0]).map (·.rate) = some 0 ∧
    47999 * dtsRecord.frameLength / dtsRecord.rate ∉ dtshdPeriods.map (·.1) ∧
    (48000 * dtsRecord.frameLength / dtsRecord.rate ∈ dtshdPeriods.map (·.1) ∧
      (dtsFrame.take 95).length < dtsRecord.frameSize) ∧
    512 * 4 < 20 + ceil2 2041 := by decide +kernel

/-- A command that sets the flag, and one that does not. -/
theorem witness_DtshdSkipIsSticky_notice : isCommand .encDtshd = true ∧ (streamOf 4 (padded dtsFrame 1933)).fault = false ∧
    after (fun t => (t.dtshdSkip, t.downgradeNotice)) (exec .encDtshd (streamOf 4 (padded dtsFrame 1933))) =
      some (true, true) ∧
    after (fun t => (t.dtshdSkip, t.downgradeNotice)) (exec .encDtshd
      { streamOf 4 dtsFrame with dtshdSkip := true, downgradeNotice := true }) = some (true, false) := by
  decide +kernel

/-- A SUBMIT that ends in an error, a FLUSH and a CLOSE, each with the flag set before. -/
theorem witness_DtshdSkipIsSticky : ∀ w ∈ [(2 : Word), 3, 4], ∃ s t : State, Inv s ∧ step s = .next t ∧
    s.dtshdSkip = true ∧ t.dtshdSkip = false := by
  intro w hw
  have h := streamOf_inv (v := 4) (by decide) (by decide) [] [commandWrite w]
  refine ⟨{ withHost [commandWrite w] (streamOf 4 []) with dtshdSkip := true }, ?_⟩
  have hi : Inv { withHost [commandWrite w] (streamOf 4 []) with dtshdSkip := true } :=
    { h with
      ownDtshd := fun h => absurd rfl h
      r51 := ⟨h.r51.activeOnlyEac3, h.r51.activePacket, h.r51.blocks, h.r51.fill, h.r51.samples, h.r51.count⟩ }
  simp only [List.mem_cons, List.not_mem_nil, or_false] at hw
  rcases hw with rfl | rfl | rfl <;> exact ⟨_, hi, rfl, rfl, rfl⟩

/-- No frame before; a padding inside the limits at both ends; one past each end. -/
theorem witness_ThdPaddingRule :
    (State.reset.thdPrevSize.toNat = 0) ∧
    (let s := { State.reset with thdPrevSize := 2560, thdSpf := 40 }
     2560 ≤ ((40 : Half).toNat + 65536 - s.thdPrevTime.toNat) % 65536 * 2560 / s.thdSpf.toNat ∧
      (480 : Half).toNat * 2560 / s.thdSpf.toNat - 2560 < 30712) ∧
    (let s := { State.reset with thdPrevSize := 2561, thdSpf := 40 }
     (40 : Half).toNat * 2560 / s.thdSpf.toNat < s.thdPrevSize.toNat) ∧
    (let s := { State.reset with thdPrevSize := 8, thdSpf := 40 }
     30712 ≤ (480 : Half).toNat * 2560 / s.thdSpf.toNat - s.thdPrevSize.toNat) := by decide

/-- A first frame of each format byte. -/
theorem witness_ThdFirstFrame : ∀ b7 ∈ [(0xBA : Byte), 0xBB], ∃ (s : State) (rate : BitVec 4),
    submitting s ∧ s.frameIn.data = 1 :: 2 :: 3 :: 4 :: 0xF8 :: 0x72 :: 0x6F :: b7 :: 0x10 :: 0x20 :: [] ∧
    (b7 = 0xBA ∧ rate = (0x10 : Byte).extractLsb' 4 4 ∨ b7 = 0xBB ∧ rate = (0x20 : Byte).extractLsb' 4 4) ∧
    s.matFill = 0 ∧ s.thdPrevSize = 0 ∧ 20 + frameLen s < 30708 := by
  intro b7 hb
  simp only [List.mem_cons, List.not_mem_nil, or_false] at hb
  rcases hb with rfl | rfl
  · exact ⟨streamOf 5 [1, 2, 3, 4, 0xF8, 0x72, 0x6F, 0xBA, 0x10, 0x20], 1, by decide⟩
  · exact ⟨streamOf 5 [1, 2, 3, 4, 0xF8, 0x72, 0x6F, 0xBB, 0x10, 0x20], 2, by decide⟩

/-- An access unit without a major sync after `matOf`'s frame: 40 samples later. -/
theorem thdTiming_plain (n : Nat) : thdTiming (matOf (padded thdPlain n)) 0x1028 40 1 :=
  ⟨0x12, 0x34, 0x10, 0x28, 0x00, 0x26, 0x2D, 0x34, 0x3B, 0x42, List.replicate n 0, rfl, by decide, by
    rw [if_neg (by decide)]
    exact ⟨by change (40 : BitVec 9) ≠ 0; decide, rfl, rfl⟩⟩

theorem thdPadding_plain (d : List Byte) : thdPadding 0x1028 { matOf d with thdSpf := 40 } = 2530 := by
  change (if (30 : Word) = 0 then 0 else thdClamp ((((0x1028 : Half) - 0x1000).toNat * Config.thdBytesPerUnit /
    (40 : BitVec 9).toNat : Nat) - ((30 : Word).toNat : Int))) = 2530
  decide

theorem frameLen_plain (n : Nat) : frameLen (matOf (padded thdPlain n)) = 10 + n := padded_length thdPlain n

theorem submitting_plain {n : Nat} (h : n ≤ 65526) : submitting (matOf (padded thdPlain n)) :=
  ⟨rfl, rfl, by rw [frameLen_plain]; simp only [Config.maxFrameBytes]; omega⟩

/-- Before the middle marker, up to one byte below it, and before the end marker; and a later major-sync unit, with
160 samples per frame after 40. -/
theorem witness_ThdFrameBeforeMarker : (∀ f ∈ [(30 : Half), 30697, 30720, 61397], ∃ s : State,
    submitting s ∧ thdTiming s 0x1028 40 0 ∧ s.matFill = f ∧
    (0 < s.matFill.toNat ∧ s.matFill.toNat + thdPadding 0x1028 { s with thdSpf := 40 } + frameLen s < 30708 ∨
      30708 < s.matFill.toNat ∧
        s.matFill.toNat + thdPadding 0x1028 { s with thdSpf := 40 } + frameLen s < 61408)) ∧
    ∃ s : State, submitting s ∧ s.thdSpf = 40 ∧ thdTiming s 0x1028 160 0 ∧ s.thdPrevSize ≠ 0 ∧
      0 < s.matFill.toNat ∧ s.matFill.toNat + thdPadding 0x1028 { s with thdSpf := 160 } + frameLen s < 30708 := by
  refine ⟨fun f hf => ⟨{ streamOf 5 thdPlain with matFill := f, thdSpf := 40 }, ?_⟩,
    matOf [0x12, 0x34, 0x10, 0x28, 0xF8, 0x72, 0x6F, 0xBB, 0x00, 0x20], by decide, rfl,
    ⟨0x12, 0x34, 0x10, 0x28, 0xF8, 0x72, 0x6F, 0xBB, 0x00, 0x20, [], rfl, by decide, by
      rw [if_pos (by decide)]; exact ⟨2, by decide, by decide, rfl⟩⟩, by decide, by decide, by decide⟩
  refine ⟨⟨rfl, rfl, by change thdPlain.length ≤ 65536; decide⟩,
    ⟨0x12, 0x34, 0x10, 0x28, 0x00, 0x26, 0x2D, 0x34, 0x3B, 0x42, [], rfl, by decide, by
    rw [if_neg (by decide)]; exact ⟨by change (40 : BitVec 9) ≠ 0; decide, rfl, rfl⟩⟩, rfl, ?_⟩
  simp only [List.mem_cons, List.not_mem_nil, or_false] at hf
  rcases hf with rfl | rfl | rfl | rfl <;> decide

/-- The shortest frame, absorbed after its padding. -/
theorem witness_ThdFramePlaced : Inv (matOf (padded thdPlain 0)) ∧ submitting (matOf (padded thdPlain 0)) ∧
    (matOf (padded thdPlain 0)).sVariant = 5 ∧ thdTiming (matOf (padded thdPlain 0)) 0x1028 40 1 ∧
    ∃ bs extra, matLaid (matAhead 30) 2530 (matOf (padded thdPlain 0)).frameIn.data = some (bs, extra) ∧
      30 + bs.length < 61424 := by
  have hl : (matOf (padded thdPlain 0)).frameIn.data.length = 10 := frameLen_plain 0
  refine ⟨matOf_inv _, submitting_plain (by decide), rfl, thdTiming_plain _, List.replicate 2530 0 ++ padded thdPlain 0, 0, ?_, ?_⟩
  · generalize hd : (matOf (padded thdPlain 0)).frameIn.data = d at hl
    have hd' : padded thdPlain 0 = d := hd
    rw [hd']
    change matLaid (⟨30678, matMiddle, 12⟩ :: _) 2530 d = _
    rw [matLaid, if_pos (by rw [hl]; decide)]
  · rw [List.length_append, List.length_replicate, padded_length]; decide

/-- The largest frame of the first clause; with its 2530 bytes of padding it passes the end marker. -/
theorem witness_ThdFramePlaced_completes : Inv (matOf (padded thdPlain 58836)) ∧
    submitting (matOf (padded thdPlain 58836)) ∧ thdTiming (matOf (padded thdPlain 58836)) 0x1028 40 1 ∧
    2530 + frameLen (matOf (padded thdPlain 58836)) = 61376 ∧
    ∃ bs extra, matLaid (matAhead 30) 2530 (matOf (padded thdPlain 58836)).frameIn.data = some (bs, extra) ∧
      61424 ≤ 30 + bs.length := by
  have hl : (matOf (padded thdPlain 58836)).frameIn.data.length = 58846 := frameLen_plain 58836
  refine ⟨matOf_inv _, submitting_plain (by decide), thdTiming_plain _, by rw [frameLen_plain], ?_⟩
  generalize (matOf (padded thdPlain 58836)).frameIn.data = d at hl
  have hs := matLaid_isSome (fill := 30) (pad := 2530) (d := d) (by decide) (by rw [hl])
  obtain ⟨⟨bs, extra⟩, h⟩ := Option.isSome_iff_exists.mp hs
  obtain ⟨r1, h1, l1⟩ := matLaid_reaches (seg := ⟨30678, matMiddle, 12⟩) h (by rw [hl]; decide)
  obtain ⟨r2, -, l2⟩ := matLaid_reaches (seg := ⟨30688, matEnd, 32⟩) h1 (by rw [List.length_drop, hl]; decide)
  exact ⟨bs, extra, h, by
    change bs.length = 30678 + 12 + r1.1.length at l1
    change r1.1.length = 30688 + 16 + r2.1.length at l2
    omega⟩

/-- Nine bytes; a major sync of another format; no major sync yet. -/
theorem witness_ThdErrors :
    (submitting (streamOf 5 (thdPlain.take 9)) ∧ frameLen (streamOf 5 (thdPlain.take 9)) < 10) ∧
    (submitting (streamOf 5 [1, 2, 3, 4, 0xF8, 0x72, 0x6F, 0xBC, 5, 6]) ∧ (0xBC : Byte) ≠ 0xBA ∧ (0xBC : Byte) ≠ 0xBB) ∧
    (submitting (streamOf 5 thdPlain) ∧ (streamOf 5 thdPlain).thdSpf = 0 ∧
      ¬ ((0x00 : Byte) = 0xF8 ∧ (0x26 : Byte) = 0x72 ∧ (0x2D : Byte) = 0x6F)) := by decide

/-- At the last fill that the scheduler leaves and at the smallest frame that overruns from there. -/
theorem witness_ThdSecondCompletion : ∃ s : State, submitting s ∧ thdTiming s 0x1028 40 0 ∧
    s.matFill.toNat ≤ 61407 ∧ thdPadding 0x1028 { s with thdSpf := 40 } = 0 ∧ 30720 ≤ s.matFill.toNat ∧
    (61408 - s.matFill.toNat) + 61376 ≤ frameLen s ∧
    matLaid (matAhead s.matFill.toNat) 0 s.frameIn.data = none := by
  have h : (padded thdPlain 61367).length = 61377 := padded_length _ _
  refine ⟨{ streamOf 5 (padded thdPlain 61367) with matFill := 61407, thdSpf := 40 },
    ⟨rfl, rfl, ?_⟩, ⟨0x12, 0x34, 0x10, 0x28, 0x00, 0x26, 0x2D, 0x34, 0x3B, 0x42, List.replicate 61367 0, rfl, by decide, by
      rw [if_neg (by decide)]; exact ⟨by change (40 : BitVec 9) ≠ 0; decide, rfl, rfl⟩⟩, ?_, rfl, ?_, ?_, ?_⟩
  · change (padded thdPlain 61367).length ≤ 65536
    rw [h]; decide
  · change (61407 : Half).toNat ≤ 61407; decide
  · change 30720 ≤ (61407 : Half).toNat; decide
  · change 61408 - (61407 : Half).toNat + 61376 ≤ (padded thdPlain 61367).length
    rw [h]; decide
  · generalize hp : padded thdPlain 61367 = d at h
    change matLaid [⟨1, matEnd, 32⟩, ⟨0, matStart, 20⟩, ⟨30688, matMiddle, 12⟩, ⟨30688, matEnd, 32⟩] 0 d = none
    simp only [matLaid, List.length_drop, h]
    simp

/-- Each clause at the capacities next to its bounds. -/
theorem witness_BeginPacket : State.reset.obActive = false ∧ (packetOf 16 State.reset).obActive = true ∧
    ((12 : Word).toNat % 4 = 0 ∧ 8 < (12 : Word).toNat) ∧
    ((65536 : Word).toNat % 4 = 0 ∧ (65536 : Word).toNat ≤ 65536) ∧
    ((65540 : Word).toNat % 4 = 0 ∧ 65536 < (65540 : Word).toNat) ∧
    ((8 : Word).toNat ≤ 8 ∧ (10 : Word).toNat % 4 ≠ 0) := by decide

/-- Each write up to exactly the capacity. -/
theorem witness_WritesAtTheCursor : ∃ s : State, s.obActive = true ∧ s.obCap.toNat ≤ 65536 ∧
    s.cursor.toNat + ceil2 s.uop.data.length ≤ s.obCap.toNat ∧ s.cursor.toNat + 2 ≤ s.obCap.toNat ∧
    s.cursor.toNat + s.uop.count.toNat ≤ s.obCap.toNat :=
  ⟨{ packetOf 12 (streamOf 1 []) with uop := { MicroPort.idle with data := [1, 2, 3], count := 4 } }, by decide⟩

theorem witness_FinalizePacket : ∀ u ∈ [(1 : Word), 8], ∃ s : State, s.obActive = true ∧ s.obCap.toNat ≤ 65536 ∧
    s.uop.dataType ≠ 0 ∧ s.uop.unit = u ∧ 8 ≤ s.cursor.toNat ∧ s.cursor.toNat ≤ s.obCap.toNat := by
  intro u _
  exact ⟨{ packetOf 12 (streamOf 1 []) with uop := { MicroPort.idle with dataType := 1, unit := u } }, rfl,
    by change (12 : BitVec 17).toNat ≤ 65536; decide, by change (1 : Half) ≠ 0; decide, rfl,
    by change 8 ≤ (8 : BitVec 17).toNat; decide, by change (8 : BitVec 17).toNat ≤ (12 : BitVec 17).toNat; decide⟩

/-- Each clause: no packet; one byte, one unit and one zero too many; a bad data type and unit; CURSOR past the
capacity, and one byte inside the header. -/
theorem witness_WriterFaults : State.reset.obActive = false ∧ (packetOf 8 State.reset).obActive = true ∧
    (packetOf 8 State.reset).obCap.toNat < (packetOf 8 State.reset).cursor.toNat + ceil2 [(1 : Byte)].length ∧
    (packetOf 8 State.reset).obCap.toNat < (packetOf 8 State.reset).cursor.toNat + 2 ∧
    (packetOf 8 State.reset).obCap.toNat < (packetOf 8 State.reset).cursor.toNat + (1 : Word).toNat ∧
    (MicroPort.idle.dataType = 0 ∧ (2 : Word) ≠ 1 ∧ (2 : Word) ≠ 8) ∧
    (packetOf 4 State.reset).obCap.toNat < (packetOf 4 State.reset).cursor.toNat ∧
    ((7 : BitVec 17).toNat < 8 ∧ (7 : BitVec 17).toNat ≤ (packetOf 8 State.reset).obCap.toNat) := by decide

theorem witness_OutputUnits : 2 * 1 + 1 < [(1 : Byte), 2, 3, 4].length ∧ [(1 : Byte), 2, 3].length % 2 = 1 := by decide

theorem witness_HeaderContracts : (a52Parse eac3Frame).isSome = true ∧ (a52Parse ac3Frame).isSome = true ∧
    (dtsParse dtsFrame).isSome = true := by decide +kernel

theorem witness_Convert14RoundTrips : (List.replicate 7 (1 : Byte)).length % 7 = 0 ∧
    (List.replicate 8 (1 : Byte)).length % 8 = 0 := by decide

theorem witness_ConfigurationWriters : ∃ s t : State, s.uop.pending = none ∧ step s = .next t ∧
    s.host.head? ≠ some .reset ∧ s.host.head? ≠ some (commandWrite 1) ∧ s.host.head? ≠ some (commandWrite 4) :=
  ⟨withHost [commandWrite 3] (streamOf 1 []), _, rfl, rfl, by decide, by decide, by decide⟩

/-- Every encapsulator ends without an error somewhere. -/
theorem witness_SubmitFrame :
    (∃ s t : State, exec .encAc3 s = .next t ∧ t.verdict ≠ .error ∧ t.pktOut.isSome = true) ∧
    after (·.verdict) (exec .encEac3 (streamOf 2 eac3Frame)) = some .more ∧
    after (·.verdict) (exec .encDts (streamOf 3 dtsFrame)) = some .packet ∧
    after (·.verdict) (exec .encDtshd (streamOf 4 dtsFrame)) = some .packet ∧
    after (fun t => (t.verdict, t.matIdx)) (exec .encTruehd (streamOf 5 thdMajor)) = some (.more, false) :=
  ⟨⟨streamOf 1 [0, 0, 0, 0, 0, 0], ac3Sent [0, 0, 0, 0, 0, 0], by
      have h := submit_ac3 0 0 0 0 0 0
      have he : exec .submit (streamOf 1 [0, 0, 0, 0, 0, 0]) = exec .encAc3 (streamOf 1 [0, 0, 0, 0, 0, 0]) := rfl
      exact he.symm.trans h, by decide, rfl⟩, by decide, by decide +kernel, by decide +kernel, by decide⟩

/-- A TrueHD frame that completes the MAT frame from the last fill that the scheduler leaves: its layout is longer than
what is left of the buffer. -/
theorem witness_SubmitFrame_completes : ∃ r, matLaid (matAhead 61407) 0 thdPlain = some r ∧ 61424 ≤ 61407 + r.1.length :=
  ⟨_, rfl, by decide⟩

end Sys2Proof.Tests
end

/-! The diagnostic registers (10_state.md rules R38 to R40): each field of the composed words, read back bit by bit. -/

namespace Sys2Proof.Machine

open BitVec (extractLsb'_append_eq_left extractLsb'_append_eq_right extractLsb'_append_eq_of_le)

/-! ### Fields of a concatenation -/

/-- A field with others above and below it. -/
theorem extractLsb'_append_append_middle {u v w : Nat} (hi : BitVec u) (mid : BitVec v) (lo : BitVec w) :
    (hi ++ mid ++ lo).extractLsb' w v = mid := by
  rw [extractLsb'_append_eq_of_le (Nat.le_refl w), Nat.sub_self, extractLsb'_append_eq_right]

/-- A bit above the lowest field. -/
theorem getLsbD_append_of_le {v w i : Nat} {hi : BitVec v} {lo : BitVec w} (h : w ≤ i) :
    (hi ++ lo).getLsbD i = hi.getLsbD (i - w) := by
  rw [BitVec.getLsbD_append, if_neg (Nat.not_lt.mpr h)]

/-- A one-bit field with others above and below it. -/
theorem getLsbD_append_ofBool_append {u w : Nat} (hi : BitVec u) (b : Bool) (lo : BitVec w) :
    (hi ++ BitVec.ofBool b ++ lo).getLsbD w = b := by
  rw [getLsbD_append_of_le (Nat.le_refl w), Nat.sub_self, BitVec.getLsbD_append, if_pos Nat.one_pos]
  cases b <;> rfl

/-- A one-bit field above all others. -/
theorem getLsbD_ofBool_append {w : Nat} (b : Bool) (lo : BitVec w) : (BitVec.ofBool b ++ lo).getLsbD w = b := by
  rw [getLsbD_append_of_le (Nat.le_refl w), Nat.sub_self]
  cases b <;> rfl

/-! ### MAT_STATUS (rule R38) -/

theorem matStatusWord_fill (s : State) : (matStatusWord s).extractLsb' 0 16 = s.matFill :=
  extractLsb'_append_eq_right

theorem matStatusWord_idx (s : State) : (matStatusWord s).getLsbD 16 = s.matIdx :=
  getLsbD_append_ofBool_append _ _ _

theorem matStatusWord_reserved_low (s : State) : (matStatusWord s).extractLsb' 17 3 = 0 :=
  (extractLsb'_append_eq_of_le (by decide)).trans (extractLsb'_append_append_middle _ _ _)

theorem matStatusWord_spf (s : State) : (matStatusWord s).extractLsb' 20 9 = s.thdSpf :=
  (extractLsb'_append_eq_of_le (by decide)).trans <|
    (extractLsb'_append_eq_of_le (by decide)).trans (extractLsb'_append_append_middle _ _ _)

theorem matStatusWord_reserved_high (s : State) : (matStatusWord s).extractLsb' 29 3 = 0 :=
  (extractLsb'_append_eq_of_le (by decide)).trans <|
    (extractLsb'_append_eq_of_le (by decide)).trans <|
      (extractLsb'_append_eq_of_le (by decide)).trans extractLsb'_append_eq_left

/-! ### THD_PREV_TIME (rule R39) -/

theorem thdPrevTimeWord_time (s : State) : (thdPrevTimeWord s).extractLsb' 0 16 = s.thdPrevTime :=
  extractLsb'_append_eq_right

theorem thdPrevTimeWord_reserved (s : State) : (thdPrevTimeWord s).extractLsb' 16 16 = 0 :=
  extractLsb'_append_eq_left

/-! ### OB_STATUS (rule R40) -/

theorem obStatusWord_cursor (s : State) : (obStatusWord s).extractLsb' 0 17 = s.cursor :=
  extractLsb'_append_eq_right

theorem obStatusWord_reserved (s : State) : (obStatusWord s).extractLsb' 17 14 = 0 :=
  extractLsb'_append_append_middle _ _ _

theorem obStatusWord_active (s : State) : (obStatusWord s).getLsbD 31 = s.obActive :=
  (getLsbD_append_of_le (by decide)).trans (getLsbD_ofBool_append _ (0 : BitVec 14))

/-! ### OB_CAP (rule R40) -/

theorem obCapWord_cap (s : State) : (obCapWord s).extractLsb' 0 17 = s.obCap :=
  extractLsb'_append_eq_right

theorem obCapWord_reserved (s : State) : (obCapWord s).extractLsb' 17 15 = 0 :=
  extractLsb'_append_eq_left

/-! ### The register window -/

theorem readRegister_matStatus (s : State) : readRegister 0x18 s = matStatusWord s := rfl

theorem readRegister_thdPrevTime (s : State) : readRegister 0x1C s = thdPrevTimeWord s := rfl

theorem readRegister_thdPrevSize (s : State) : readRegister 0x20 s = s.thdPrevSize := rfl

theorem readRegister_obStatus (s : State) : readRegister 0x24 s = obStatusWord s := rfl

theorem readRegister_obCap (s : State) : readRegister 0x28 s = obCapWord s := rfl

/-- Only CTRL and OUT_RATE store what is written (rules R25, R27, R41). -/
theorem writeRegister_readOnly {offset : Byte} (hctrl : offset ≠ 0x00) (hrate : offset ≠ 0x04) (v : Word) (s : State) :
    writeRegister offset v s = s := by
  unfold writeRegister
  split
  case h_1 h => exact absurd (BitVec.eq_of_toNat_eq h) hctrl
  case h_2 h => exact absurd (BitVec.eq_of_toNat_eq h) hrate
  case h_3 => rfl

/-- Settles O14: each register is its composed word, each field of the word is the state's element, no write
reaches one of them, and the reset values are closed facts. -/
theorem diagnosticRegisters : Obligations.DiagnosticRegisters := by
  intro s
  rw [readRegister_matStatus, readRegister_thdPrevTime, readRegister_thdPrevSize, readRegister_obStatus,
    readRegister_obCap]
  refine ⟨?matStatus, ?thdPrev, ?packetWriter, ?readOnly, ?reset⟩
  case matStatus =>
    exact ⟨matStatusWord_fill s, matStatusWord_idx s, matStatusWord_reserved_low s, matStatusWord_spf s,
      matStatusWord_reserved_high s⟩
  case thdPrev => exact ⟨thdPrevTimeWord_time s, thdPrevTimeWord_reserved s, rfl⟩
  case packetWriter =>
    exact ⟨obStatusWord_cursor s, obStatusWord_reserved s, obStatusWord_active s, obCapWord_cap s,
      obCapWord_reserved s⟩
  case readOnly =>
    intro v
    refine ⟨?_, ?_, ?_, ?_, ?_⟩ <;> exact writeRegister_readOnly (by decide) (by decide) v s
  case reset => decide

end Sys2Proof.Machine

/-! The packet port through a command (10_state.md rule R31): EXECUTE clears it first, no body fills it however it
ends, and only the handoff at the end of a PACKET does. -/

namespace Sys2Proof.Machine

/-! ### A port without a packet -/

/-- The packet port as `clearPort` leaves it (rules R31, R37). -/
def PortEmpty (s : State) : Prop :=
  s.pktValid = false ∧ s.pktLen = 0 ∧ s.pktSamples = 0 ∧ s.pktOut = none

theorem commandStart_portEmpty (s : State) : PortEmpty (commandStart s) := ⟨rfl, rfl, rfl, rfl⟩

theorem takeException_error_portEmpty (k : ErrKind) (s : State) : PortEmpty (takeException (.error k) s) :=
  ⟨rfl, rfl, rfl, rfl⟩

/-- However the operation ends in the state, with a value or raising, the port holds no packet. -/
def Act.LeavesPortEmpty {α : Type} (x : Act α) : Prop :=
  x.Ends (fun _ t => PortEmpty t) (fun _ t => PortEmpty t)

theorem Act.LeavesPortEmpty.andThen {α β : Type} {x : Act α} {f : α → State → Act β} (hx : x.LeavesPortEmpty)
    (hf : ∀ a t, PortEmpty t → (f a t).LeavesPortEmpty) : (x.andThen f).LeavesPortEmpty :=
  Act.Ends.andThen hx hf

theorem WriterOnly.portEmpty {s t : State} (h : WriterOnly s t) (hs : PortEmpty s) : PortEmpty t := by
  unfold WriterOnly at h
  rw [h]
  exact hs

section
variable {s : State} (hs : PortEmpty s)
include hs

theorem raiseError_leavesPortEmpty {α : Type} (k : ErrKind) : (raiseError k s : Act α).LeavesPortEmpty := hs

/-! ### The shared operations -/

theorem inRead_leavesPortEmpty (a n : Nat) : (inRead a n s).LeavesPortEmpty :=
  (inRead_ends a n s).mono (fun _ _ h => h ▸ hs) (fun _ _ h => h.2 ▸ hs)

theorem memRead_leavesPortEmpty (sp : Space) (a n : Nat) : (memRead sp a n s).LeavesPortEmpty :=
  (memRead_ends sp a n s).mono (fun _ _ h => h ▸ hs) (fun _ _ h => h.elim)

theorem packetBegin_leavesPortEmpty (cap : Nat) (samples : Word) (pts dts : Stamp) :
    (packetBegin cap samples pts dts s).LeavesPortEmpty :=
  (packetBegin_ends cap samples pts dts s).mono (fun _ _ h => h.1.portEmpty hs) (fun _ _ h => h.1 ▸ hs)

theorem packetWrite_leavesPortEmpty (d : List Byte) (be : Bool) : (packetWrite d be s).LeavesPortEmpty :=
  (packetWrite_ends d be s).mono (fun _ _ h => h.writer.portEmpty hs) (fun _ _ h => h.2 ▸ hs)

theorem packetFinalize_leavesPortEmpty (dt : Half) (unit : Nat) : (packetFinalize dt unit s).LeavesPortEmpty :=
  (packetFinalize_ends dt unit s).mono (fun _ _ h => h.1.writer.portEmpty hs) (fun _ _ h => h.2.writer.portEmpty hs)

/-- FINALIZE as the last operation of an encapsulator. -/
theorem packetFinalize_packet_leavesPortEmpty (dt : Half) (unit : Nat) :
    ((packetFinalize dt unit s).andThen fun _ t => .ok Verdict.packet t).LeavesPortEmpty :=
  (packetFinalize_leavesPortEmpty hs dt unit).andThen fun _ _ ht => ht

/-! ### The encapsulators -/

theorem ac3Body_leavesPortEmpty : (ac3Body s).LeavesPortEmpty := by
  unfold ac3Body
  split
  · exact raiseError_leavesPortEmpty hs _
  split
  · exact raiseError_leavesPortEmpty hs _
  · exact (packetBegin_leavesPortEmpty hs _ _ _ _).andThen fun _ _ ht =>
      (inRead_leavesPortEmpty ht _ _).andThen fun _ _ ht =>
      (packetWrite_leavesPortEmpty ht _ _).andThen fun _ _ ht =>
      (inRead_leavesPortEmpty ht _ _).andThen fun _ _ ht =>
      packetFinalize_packet_leavesPortEmpty ht _ _

theorem dtsEmit_leavesPortEmpty (h : DtsHeader) (dt : Half) : (dtsEmit h dt s).LeavesPortEmpty := by
  refine (inRead_leavesPortEmpty hs _ _).andThen fun core t ht => ?_
  dsimp only
  split
  · exact raiseError_leavesPortEmpty ht _
  · exact (packetBegin_leavesPortEmpty ht _ _ _ _).andThen fun _ _ ht =>
      (packetWrite_leavesPortEmpty ht _ _).andThen fun _ _ ht =>
      packetFinalize_packet_leavesPortEmpty ht _ _

theorem dtsBody_leavesPortEmpty : (dtsBody s).LeavesPortEmpty := by
  unfold dtsBody
  split
  · exact raiseError_leavesPortEmpty hs _
  split
  · exact raiseError_leavesPortEmpty hs _
  split
  · exact raiseError_leavesPortEmpty hs _
  · exact dtsEmit_leavesPortEmpty hs _ _

theorem dtshdDowngrade_portEmpty : PortEmpty (dtshdDowngrade s) := by
  simpa [PortEmpty] using hs

theorem dtshdAlign_leavesPortEmpty : (dtshdAlign s).LeavesPortEmpty :=
  (dtshdAlign_ends s).mono (fun _ _ h => h.writer.portEmpty hs) (fun _ _ h => h.2 ▸ hs)

theorem dtshdEmit_leavesPortEmpty (cap m subtype : Nat) (be : Bool) :
    (dtshdEmit cap m subtype be s).LeavesPortEmpty :=
  (packetBegin_leavesPortEmpty hs _ _ _ _).andThen fun _ _ ht =>
  (packetWrite_leavesPortEmpty ht _ _).andThen fun _ _ ht =>
  (packetWrite_leavesPortEmpty ht _ _).andThen fun _ _ ht =>
  (inRead_leavesPortEmpty ht _ _).andThen fun _ _ ht =>
  (packetWrite_leavesPortEmpty ht _ _).andThen fun _ _ ht =>
  (dtshdAlign_leavesPortEmpty ht).andThen fun _ _ ht =>
  packetFinalize_packet_leavesPortEmpty ht _ _

theorem dtshdBody_leavesPortEmpty : (dtshdBody s).LeavesPortEmpty := by
  unfold dtshdBody
  split
  · exact raiseError_leavesPortEmpty hs _
  split
  · exact raiseError_leavesPortEmpty hs _
  dsimp only
  split
  · exact raiseError_leavesPortEmpty hs _
  split
  · exact raiseError_leavesPortEmpty hs _
  split
  · exact raiseError_leavesPortEmpty hs _
  split
  · exact dtshdEmit_leavesPortEmpty (dtshdDowngrade_portEmpty hs) _ _ _ _
  · exact dtshdEmit_leavesPortEmpty hs _ _ _ _

theorem eac3Begin_leavesPortEmpty : (eac3Begin s).LeavesPortEmpty := by
  unfold eac3Begin
  split
  · exact hs
  · exact packetBegin_leavesPortEmpty hs _ _ _ _

theorem eac3Append_leavesPortEmpty : (eac3Append s).LeavesPortEmpty := by
  unfold eac3Append
  split
  · exact raiseError_leavesPortEmpty hs _
  · exact (inRead_leavesPortEmpty hs _ _).andThen fun _ _ ht => packetWrite_leavesPortEmpty ht _ _

theorem eac3Count_leavesPortEmpty (blocks : Nat) : (eac3Count blocks s).LeavesPortEmpty := by
  unfold eac3Count
  dsimp only
  split
  · exact hs
  split
  · exact raiseError_leavesPortEmpty hs _
  · exact (packetFinalize_leavesPortEmpty hs _ _).andThen fun _ _ ht => ht

theorem eac3Body_leavesPortEmpty : (eac3Body s).LeavesPortEmpty := by
  unfold eac3Body
  split
  · exact raiseError_leavesPortEmpty hs _
  · exact (eac3Begin_leavesPortEmpty hs).andThen fun _ _ ht =>
      (eac3Append_leavesPortEmpty ht).andThen fun _ _ ht => eac3Count_leavesPortEmpty ht _

theorem matInsert_leavesPortEmpty (pad : Nat) : (matInsert pad s).LeavesPortEmpty := by
  unfold matInsert
  split
  · exact hs
  split
  · exact hs
  · exact hs
  · trivial

theorem thdApplySync_portEmpty (spf : Option (BitVec 9)) : PortEmpty (thdApplySync spf s) := by
  simpa [PortEmpty] using hs

theorem thdEmit_leavesPortEmpty (outbuf : Bool) : (thdEmit outbuf s).LeavesPortEmpty :=
  (packetBegin_leavesPortEmpty hs _ _ _ _).andThen fun _ _ ht =>
  (memRead_leavesPortEmpty ht _ _ _).andThen fun _ _ ht =>
  (packetWrite_leavesPortEmpty ht _ _).andThen fun _ _ ht =>
  packetFinalize_packet_leavesPortEmpty ht _ _

theorem thdPlace_leavesPortEmpty (time : Half) : (thdPlace time s).LeavesPortEmpty := by
  unfold thdPlace
  split
  · exact raiseError_leavesPortEmpty hs _
  refine (matInsert_leavesPortEmpty hs _).andThen fun w t ht => ?_
  dsimp only
  split
  · exact thdEmit_leavesPortEmpty (s := thdAccount time w t) ht _
  · exact ht

theorem truehdBody_leavesPortEmpty : (truehdBody s).LeavesPortEmpty := by
  unfold truehdBody
  split
  · split
    · exact raiseError_leavesPortEmpty hs _
    · exact thdPlace_leavesPortEmpty (thdApplySync_portEmpty hs _) _
  · exact raiseError_leavesPortEmpty hs _

/-! ### The commands -/

theorem submitWith_leavesPortEmpty {enc : State → Act Verdict} (he : (enc s).LeavesPortEmpty) :
    (submitWith enc s).LeavesPortEmpty := by
  unfold submitWith
  split
  · exact raiseError_leavesPortEmpty hs _
  split
  · exact raiseError_leavesPortEmpty hs _
  · exact he

theorem submitBody_leavesPortEmpty : (submitBody s).LeavesPortEmpty := by
  unfold submitBody
  split
  · exact raiseError_leavesPortEmpty hs _
  · exact submitWith_leavesPortEmpty hs (ac3Body_leavesPortEmpty hs)
  · exact submitWith_leavesPortEmpty hs (eac3Body_leavesPortEmpty hs)
  · exact submitWith_leavesPortEmpty hs (dtsBody_leavesPortEmpty hs)
  · exact submitWith_leavesPortEmpty hs (dtshdBody_leavesPortEmpty hs)
  · exact submitWith_leavesPortEmpty hs (truehdBody_leavesPortEmpty hs)
  · exact submitWith_leavesPortEmpty hs trivial

theorem openBody_leavesPortEmpty : (openBody s).LeavesPortEmpty := by
  unfold openBody
  split
  · exact raiseError_leavesPortEmpty hs _
  split
  · exact raiseError_leavesPortEmpty hs _
  split
  · exact raiseError_leavesPortEmpty hs _
  · exact hs

theorem flushBody_leavesPortEmpty : (flushBody s).LeavesPortEmpty := by
  unfold flushBody
  split <;> exact hs

theorem closeBody_leavesPortEmpty : (closeBody s).LeavesPortEmpty := by
  unfold closeBody
  split <;> exact hs

end

/-- A command is EXECUTE around a body that leaves the port as EXECUTE cleared it. -/
theorem exec_eq_execute_of_isCommand {i : Instr} (hi : isCommand i = true) :
    ∃ body : State → Act Verdict, exec i = execute body ∧ ∀ s, PortEmpty s → (body s).LeavesPortEmpty := by
  cases i with
  | openStream => exact ⟨openBody, rfl, fun _ => openBody_leavesPortEmpty⟩
  | submit => exact ⟨submitBody, rfl, fun _ => submitBody_leavesPortEmpty⟩
  | flush => exact ⟨flushBody, rfl, fun _ => flushBody_leavesPortEmpty⟩
  | closeStream => exact ⟨closeBody, rfl, fun _ => closeBody_leavesPortEmpty⟩
  | illegal w => exact ⟨raiseError .badCommand, rfl, fun _ hs => raiseError_leavesPortEmpty hs _⟩
  | submitNotOpen => exact ⟨raiseError .notOpen, rfl, fun _ hs => raiseError_leavesPortEmpty hs _⟩
  | encAc3 => exact ⟨_, rfl, fun _ hs => submitWith_leavesPortEmpty hs (ac3Body_leavesPortEmpty hs)⟩
  | encEac3 => exact ⟨_, rfl, fun _ hs => submitWith_leavesPortEmpty hs (eac3Body_leavesPortEmpty hs)⟩
  | encDts => exact ⟨_, rfl, fun _ hs => submitWith_leavesPortEmpty hs (dtsBody_leavesPortEmpty hs)⟩
  | encDtshd => exact ⟨_, rfl, fun _ hs => submitWith_leavesPortEmpty hs (dtshdBody_leavesPortEmpty hs)⟩
  | encTruehd => exact ⟨_, rfl, fun _ hs => submitWith_leavesPortEmpty hs (truehdBody_leavesPortEmpty hs)⟩
  | submitUnreachable _ | beginPacket | writeBytes | write16Be | writePadding | finalize
  | a52Parse | dtsParse | convert14 => cases hi

/-! ### The end of a command -/

/-- PKT_VALID is 1 exactly when PKT_OUT holds a packet, and exactly when the verdict is PACKET (rule R31). -/
def PortMatchesVerdict (t : State) : Prop :=
  (t.pktValid = true ↔ t.pktOut.isSome = true) ∧ (t.pktValid = true ↔ t.verdict = .packet)

theorem portMatchesVerdict_of_portEmpty {t : State} (ht : PortEmpty t) (hv : t.verdict ≠ .packet) :
    PortMatchesVerdict t := by
  obtain ⟨hvalid, -, -, hout⟩ := ht
  simp [PortMatchesVerdict, hvalid, hout, hv]

theorem takeException_portMatchesVerdict (e : Exception) {s : State} (hs : PortEmpty s) :
    PortMatchesVerdict (takeException e s) := by
  cases e with
  | error k => exact portMatchesVerdict_of_portEmpty (takeException_error_portEmpty k s) (by simp [takeException])
  | contract c => exact portMatchesVerdict_of_portEmpty hs (by simp [takeException])

theorem finishCommand_portMatchesVerdict {v : Verdict} {s t : State} (hs : PortEmpty s)
    (h : finishCommand v s = .ok () t) : PortMatchesVerdict t := by
  have hends := finishCommand_ends v s
  rw [h] at hends
  rcases hends with ⟨-, hverdict, -, hvalid, ⟨p, hout, -⟩, -⟩ | ⟨hv, rfl⟩
  · simp [PortMatchesVerdict, hvalid, hout, hverdict]
  · exact portMatchesVerdict_of_portEmpty hs hv

theorem exec_portMatchesVerdict {s t : State} {i : Instr} (hf : s.fault = false) (hi : isCommand i = true)
    (h : exec i s = .next t) : PortMatchesVerdict t := by
  obtain ⟨body, hexec, hbody⟩ := exec_eq_execute_of_isCommand hi
  rw [hexec] at h
  rcases execute_next (hbody _ (commandStart_portEmpty s)) h with
    ⟨hfault, -⟩ | ⟨-, v, u, -, hu, hfin⟩ | ⟨-, e, u, -, hu, rfl⟩
  · rw [hf] at hfault; cases hfault
  · exact finishCommand_portMatchesVerdict hu hfin
  · exact takeException_portMatchesVerdict e hu

/-- With no micro-operation pending a step is the host's next access. -/
theorem step_hostAccess {s : State} {a : HostAccess} {rest : List HostAccess} (hp : s.uop.pending = none)
    (hh : s.host = a :: rest) : step s = hostStep a { s with host := rest } := by
  simp [step, popHost, hp, hh]

/-- Settles O28: a command ends in `finishCommand` or in an exception taken, both from an empty port, and the reset
input empties the port itself. -/
theorem pktValidExactlyAfterPacket : Obligations.PktValidExactlyAfterPacket :=
  ⟨fun _ _ _ hf hi h => exec_portMatchesVerdict hf hi h, fun _ _ hp hh => ⟨_, step_hostAccess hp hh, rfl, rfl⟩⟩

end Sys2Proof.Machine

/-! The host commands without a frame (47_dispatcher.md rules R210, R215 to R217): what each body answers, and EXECUTE
around it. -/

namespace Sys2Proof.Machine

/-! ### EXECUTE around a body that ends -/

/-- A command that returns NONE. -/
theorem execute_none {s t : State} {body : State → Act Verdict} (hf : s.fault = false)
    (hb : body (commandStart s) = .ok .none t) : execute body s = .next (recordVerdict .none .none t) := by
  rw [execute_running hf, hb]
  rfl

/-- A refused command: BAD_COMMAND or NOT_OPEN, raised before anything is written (rule R214). -/
theorem execute_turnedAway {s : State} {body : State → Act Verdict} {k : ErrKind} (hf : s.fault = false)
    (hk : errorFlushes k = false) (hb : body (commandStart s) = raiseError k (commandStart s)) :
    execute body s = .next (turnedAway k s) := by
  rw [execute_raise hf hb, takeException_keeping hk]
  rfl

/-! ### OPEN -/

theorem openVariant_eq_none {codec : BitVec 3} (h : codec.toNat = 0 ∨ 4 < codec.toNat) (rate : Word) :
    openVariant codec rate = none := by
  unfold openVariant
  split
  case h_5 => rfl
  all_goals omega

/-- The variant of each legal CODEC, OUT_RATE deciding between the two of DTS (rules R210, R218). -/
theorem openVariant_eq_some {codec : BitVec 3} (hlo : 1 ≤ codec.toNat) (hhi : codec.toNat ≤ 4) (rate : Word) :
    openVariant codec rate =
      some (if codec.toNat = 1 then 1 else if codec.toNat = 2 then 2 else if codec.toNat = 4 then 5
        else if 48000 < rate.toNat then 4 else 3) := by
  obtain hc | hc | hc | hc : codec.toNat = 1 ∨ codec.toNat = 2 ∨ codec.toNat = 3 ∨ codec.toNat = 4 := by omega
  · simp [openVariant, hc]
  · simp [openVariant, hc]
  · by_cases hr : 48000 < rate.toNat <;> simp [openVariant, hc, hr, Config.stdRate]
  · simp [openVariant, hc]

theorem openBody_refused {s : State} (h : s.sOpen = true ∨ openVariant (ctrlCodec s.ctrl) s.outRate = none ∨
    ctrlBpf s.ctrl = 0) : openBody s = raiseError .badCommand s := by
  unfold openBody
  split
  · rfl
  next hclosed =>
    split
    · rfl
    next v hv =>
      have hbpf : ctrlBpf s.ctrl = 0 := by simpa [hclosed, hv] using h
      rw [if_pos hbpf]

theorem openBody_latches {s : State} {v : BitVec 3} (ho : s.sOpen = false)
    (hv : openVariant (ctrlCodec s.ctrl) s.outRate = some v) (hb : ctrlBpf s.ctrl ≠ 0) :
    openBody s = .ok .none (openLatch v s) := by
  simp only [openBody, ho, hv, if_neg hb, Bool.false_eq_true, if_false]

/-- Settles O16: the body is refused in each of its three checks, and past them it latches the variant of its
CODEC. -/
theorem openCommand : Obligations.OpenCommand := by
  intro s hf codec bpf
  refine ⟨fun hbad => ?_, fun hclosed hlo hhi hbpf => ?_⟩
  · have hrefused : s.sOpen = true ∨ openVariant (ctrlCodec s.ctrl) s.outRate = none ∨ ctrlBpf s.ctrl = 0 := by
      rcases hbad with ho | h0 | h4 | hb
      · exact .inl ho
      · exact .inr (.inl (openVariant_eq_none (.inl h0) _))
      · exact .inr (.inl (openVariant_eq_none (.inr h4) _))
      · exact .inr (.inr hb)
    exact execute_turnedAway hf rfl (openBody_refused (s := commandStart s) hrefused)
  · have hvariant := openVariant_eq_some (codec := ctrlCodec s.ctrl) hlo hhi s.outRate
    exact execute_none hf (openBody_latches (s := commandStart s) hclosed hvariant hbpf)

/-! ### Illegal command words -/

theorem decodeCommand_eq_illegal {w : Word} (h : commandReserved w ≠ 0 ∨ commandOpcode w = 0 ∨
    4 < (commandOpcode w).toNat) : decodeCommand w = .illegal w := by
  unfold decodeCommand
  split
  · rfl
  next hreserved =>
    have hopcode : (commandOpcode w).toNat = 0 ∨ 4 < (commandOpcode w).toNat := by
      rcases h with hr | h0 | h4
      · exact absurd hr hreserved
      · exact .inl (by rw [h0]; rfl)
      · exact .inr h4
    split
    case h_5 => rfl
    all_goals omega

/-- Settles O19: the decoder keeps such a word as ILLEGAL, whose body raises at once. -/
theorem illegalCommandWords : Obligations.IllegalCommandWords := fun _ _ hf hw =>
  ⟨congrArg Except.ok (decodeCommand_eq_illegal hw), execute_turnedAway hf rfl rfl⟩

/-! ### FLUSH and CLOSE -/

theorem flushBody_opened {s : State} (ho : s.sOpen = true) : flushBody s = .ok .none (flushState s) := by
  simp [flushBody, ho]

theorem flushBody_closed {s : State} (ho : s.sOpen = false) : flushBody s = .ok .none s := by
  simp [flushBody, ho]

theorem closeBody_opened {s : State} (ho : s.sOpen = true) : closeBody s = .ok .none (closeLatch s) := by
  simp [closeBody, ho]

theorem closeBody_closed {s : State} (ho : s.sOpen = false) : closeBody s = .ok .none s := by
  simp [closeBody, ho]

/-- Settles O17: the body returns NONE, after FLUSH_STATE when a stream is open. -/
theorem flushCommand : Obligations.FlushCommand := fun s hf =>
  ⟨fun ho => execute_none hf (flushBody_opened (s := commandStart s) ho),
    fun ho => execute_none hf (flushBody_closed (s := commandStart s) ho)⟩

/-- Settles O18: the body returns NONE, after clearing the configuration when a stream is open. -/
theorem closeCommand : Obligations.CloseCommand := fun s hf =>
  ⟨fun ho => execute_none hf (closeBody_opened (s := commandStart s) ho),
    fun ho => execute_none hf (closeBody_closed (s := commandStart s) ho)⟩

end Sys2Proof.Machine

/-! The reset input (70_reset_and_hazards.md rule R260): the elements at their reset values, and the registers that
mirror them. -/

namespace Sys2Proof.Machine

/-! ### The registers that mirror elements -/

/-- STATUS with every flag and mirror 0 (rule R29). -/
theorem statusWord_eq_zero {s : State} (hs : resetValues s) : statusWord s = 0 := by
  obtain ⟨⟨hopen, hvariant, -⟩, -, ⟨hblocks, hskip⟩, ⟨-, -, -, -, -, hcount⟩, ⟨hfault, hcause⟩, -,
    ⟨hverdict, hkind, hvalid, hnotice⟩, -⟩ := hs
  rw [statusWord, hopen, hvariant, hblocks, hskip, hcount, hfault, hcause, hverdict, hkind, hvalid, hnotice]
  rfl

theorem matStatusWord_eq_zero {s : State} (hs : resetValues s) : matStatusWord s = 0 := by
  obtain ⟨-, -, -, ⟨hidx, hfill, -, -, hspf, -⟩, -⟩ := hs
  rw [matStatusWord, hidx, hfill, hspf]
  rfl

theorem thdPrevTimeWord_eq_zero {s : State} (hs : resetValues s) : thdPrevTimeWord s = 0 := by
  obtain ⟨-, -, -, ⟨-, -, -, htime, -⟩, -⟩ := hs
  rw [thdPrevTimeWord, htime]
  rfl

theorem obStatusWord_eq_zero {s : State} (hs : resetValues s) : obStatusWord s = 0 := by
  obtain ⟨-, ⟨hactive, -, hcursor, -⟩, -⟩ := hs
  rw [obStatusWord, hactive, hcursor]
  rfl

theorem obCapWord_eq_zero {s : State} (hs : resetValues s) : obCapWord s = 0 := by
  obtain ⟨-, ⟨-, hcap, -⟩, -⟩ := hs
  rw [obCapWord, hcap]
  rfl

theorem thdPrevSize_eq_zero {s : State} (hs : resetValues s) : s.thdPrevSize = 0 := by
  obtain ⟨-, -, -, ⟨-, -, hsize, -⟩, -⟩ := hs
  exact hsize

theorem readRegister_status (s : State) : readRegister 0x0C s = statusWord s := rfl

/-! ### The reset input -/

theorem reset_resetValues : resetValues State.reset := by
  unfold resetValues
  decide

/-- The reset input keeps only `host`, `busRead` and `frameIn`, none of which is in the table of rule R260. -/
theorem platformReset_resetValues (s : State) : resetValues (platformReset s) := reset_resetValues

/-- Settles O1: the step is `platformReset`, and the registers are 0 because the elements they mirror are. -/
theorem resetSetsEveryElement : Obligations.ResetSetsEveryElement := by
  refine ⟨reset_resetValues, fun s rest hp hh => ?_⟩
  have ht := platformReset_resetValues { s with host := rest }
  refine ⟨_, step_hostAccess hp hh, ht, rfl, ?_⟩
  rw [readRegister_status, readRegister_matStatus, readRegister_thdPrevTime, readRegister_thdPrevSize,
    readRegister_obStatus, readRegister_obCap]
  exact ⟨statusWord_eq_zero ht, matStatusWord_eq_zero ht, thdPrevTimeWord_eq_zero ht, thdPrevSize_eq_zero ht,
    obStatusWord_eq_zero ht, obCapWord_eq_zero ht⟩

end Sys2Proof.Machine

/-! The code formats (30_encoding.md rules R90 to R94): a command word and an effective opcode are their fields put
together again, so the decoder and the encoder are inverse. -/

namespace Sys2Proof.Machine

/-! ### Command words -/

theorem commandOpcode_toNat (w : Word) : (commandOpcode w).toNat = w.toNat % 256 := by
  simp [commandOpcode]

theorem commandReserved_toNat (w : Word) : (commandReserved w).toNat = w.toNat / 256 := by
  have := w.isLt
  simp only [commandReserved, BitVec.extractLsb'_toNat, Nat.shiftRight_eq_div_pow]
  omega

/-- A word whose reserved bits are 0 is its opcode. -/
theorem commandWord_eq_of_opcode {w : Word} {n : Nat} (hr : commandReserved w = 0) (hn : (commandOpcode w).toNat = n) :
    w = BitVec.ofNat 32 n := by
  have h1 := commandOpcode_toNat w
  have h2 : w.toNat / 256 = 0 := by rw [← commandReserved_toNat, hr]; rfl
  apply BitVec.eq_of_toNat_eq
  rw [BitVec.toNat_ofNat]
  omega

/-- The words that the decoder keeps as ILLEGAL are those other than 1 to 4 (rules R91, R101). -/
theorem decodeCommand_of_not_legal {w : Word} (h : w ∉ legalCommandWords) : decodeCommand w = .illegal w := by
  refine decodeCommand_eq_illegal ?_
  by_cases hr : commandReserved w = 0
  · refine .inr ?_
    by_contra hop
    simp only [not_or, Nat.not_lt] at hop
    have h0 : (commandOpcode w).toNat ≠ 0 := fun h => hop.1 (BitVec.eq_of_toNat_eq h)
    have hw := commandWord_eq_of_opcode hr rfl
    obtain hc | hc | hc | hc : (commandOpcode w).toNat = 1 ∨ (commandOpcode w).toNat = 2 ∨
      (commandOpcode w).toNat = 3 ∨ (commandOpcode w).toNat = 4 := by omega
    all_goals rw [hc] at hw; exact h (by rw [hw]; decide)
  · exact .inl hr

theorem decodeCommand_of_legal {w : Word} (h : w ∈ legalCommandWords) :
    encode (decodeCommand w) = .cmd w ∧ (decodeCommand w).wellFormed = true := by
  simp only [legalCommandWords, List.mem_cons, List.not_mem_nil, or_false] at h
  rcases h with rfl | rfl | rfl | rfl <;> exact ⟨rfl, rfl⟩

/-! ### Effective opcodes -/

/-- An effective opcode is its variant above its OPCODE part (rule R92). -/
theorem eop_eq_append (e : BitVec 11) : e = e.extractLsb' 8 3 ++ e.extractLsb' 0 8 := by
  rw [BitVec.extractLsb'_append_extractLsb'_eq_extractLsb' (by rfl)]
  simp

/-- The eight effective opcodes of SUBMIT (rule R92). -/
theorem decodeEop_variant (v : BitVec 3) : (decodeEop (v ++ (2 : Byte))).map (fun i => (encode i, i.wellFormed)) =
    .ok (.eop (v ++ (2 : Byte)), true) := by
  revert v
  decide

theorem encode_of_decodeEop {e : BitVec 11} {i : Instr} (h : decodeEop e = .ok i) :
    encode i = .eop e ∧ i.wellFormed = true := by
  have hop : e.extractLsb' 0 8 = (2 : Byte) := by
    by_contra hne
    rw [decodeEop, if_pos hne] at h
    cases h
  have he : e = e.extractLsb' 8 3 ++ (2 : Byte) := hop ▸ eop_eq_append e
  have hv := decodeEop_variant (e.extractLsb' 8 3)
  rw [← he, h] at hv
  simpa [Except.map] using hv

/-! ### Micro-operation numbers -/

theorem encode_of_decodeMicro {n : Byte} {i : Instr} (h : decodeMicro n = .ok i) :
    encode i = .micro n ∧ i.wellFormed = true := by
  have code : ∀ k : Nat, n.toNat = k → BitVec.ofNat 8 k = n := fun k hk => by simp [← hk]
  unfold decodeMicro at h
  split at h
  case h_9 => cases h
  all_goals
    next hk =>
      cases h
      exact ⟨congrArg CodeWord.micro (code _ hk), rfl⟩

/-! ### The three formats -/

theorem encode_of_decodeCommand (w : Word) :
    encode (decodeCommand w) = .cmd w ∧ (decodeCommand w).wellFormed = true := by
  by_cases h : w ∈ legalCommandWords
  · exact decodeCommand_of_legal h
  · rw [decodeCommand_of_not_legal h]
    exact ⟨rfl, by simpa [Instr.wellFormed] using h⟩

/-- Settles O6: the four command words and the internal codes are closed facts, and the word of a well-formed ILLEGAL
is none of the four. -/
theorem decodeOfEncode : Obligations.DecodeOfEncode := by
  intro i hi
  cases i with
  | illegal w => exact congrArg Except.ok (decodeCommand_of_not_legal (by simpa [Instr.wellFormed] using hi))
  | submitUnreachable low => revert low; decide
  | _ => rfl

/-- Settles O7: format by format. -/
theorem encodeOfDecode : Obligations.EncodeOfDecode := by
  intro c i h
  cases c with
  | cmd w =>
    obtain rfl : decodeCommand w = i := by simpa [decode] using h
    exact encode_of_decodeCommand w
  | eop e => exact encode_of_decodeEop h
  | micro n => exact encode_of_decodeMicro h

/-- Settles O8: closed facts of the decoder. -/
theorem sampleCodesDecode : Obligations.SampleCodesDecode := ⟨rfl, rfl, rfl, rfl, rfl, rfl, rfl, rfl⟩

end Sys2Proof.Machine

/-! STATUS (10_state.md rule R29): each field of the composed word, read back. The word is peeled from its low end, one
field at a time. -/

namespace Sys2Proof.Machine

open BitVec (extractLsb'_append_eq_left extractLsb'_append_eq_right extractLsb'_append_eq_of_le)

/-! ### Fields of a concatenation -/

/-- A field that is wholly above the lowest one. -/
theorem extractLsb'_append_above {v w start len : Nat} {hi : BitVec v} {lo : BitVec w} (h : w ≤ start) :
    (hi ++ lo).extractLsb' start len = hi.extractLsb' (start - w) len := extractLsb'_append_eq_of_le h

/-- The lowest field of a concatenation. -/
theorem extractLsb'_append_lowest {v w : Nat} {hi : BitVec v} {lo : BitVec w} :
    (hi ++ lo).extractLsb' 0 w = lo := extractLsb'_append_eq_right

/-- The lowest bit of a concatenation above a one-bit field. -/
theorem getLsbD_append_ofBool {v : Nat} (hi : BitVec v) (b : Bool) : (hi ++ BitVec.ofBool b).getLsbD 0 = b := by
  rw [BitVec.getLsbD_append, if_pos Nat.one_pos]
  cases b <;> rfl

/-- The lowest bit of a concatenation above a reserved bit. -/
theorem getLsbD_append_zero_bit {v : Nat} (hi : BitVec v) : (hi ++ (0 : BitVec 1)).getLsbD 0 = false := by
  rw [BitVec.getLsbD_append, if_pos Nat.one_pos]
  rfl

/-! ### STATUS -/

section
variable (s : State)

theorem statusWord_verdict : (statusWord s).extractLsb' 0 2 = verdictCode s.verdict := extractLsb'_append_lowest

theorem statusWord_errKind : (statusWord s).extractLsb' 4 3 = errKindCode s.errKind := by
  unfold statusWord
  simp (disch := decide) only [extractLsb'_append_above, Nat.reduceSub, extractLsb'_append_lowest]

theorem statusWord_sVariant : (statusWord s).extractLsb' 9 3 = s.sVariant := by
  unfold statusWord
  simp (disch := decide) only [extractLsb'_append_above, Nat.reduceSub, extractLsb'_append_lowest]

theorem statusWord_faultCause : (statusWord s).extractLsb' 16 3 = faultCauseCode s.faultCause := by
  unfold statusWord
  simp (disch := decide) only [extractLsb'_append_above, Nat.reduceSub, extractLsb'_append_lowest]

theorem statusWord_eac3Blocks : (statusWord s).extractLsb' 20 3 = s.eac3Blocks := by
  unfold statusWord
  simp (disch := decide) only [extractLsb'_append_above, Nat.reduceSub, extractLsb'_append_lowest]

theorem statusWord_thdFrameCount : (statusWord s).extractLsb' 24 5 = s.thdFrameCount := by
  unfold statusWord
  simp (disch := decide) only [extractLsb'_append_above, Nat.reduceSub, extractLsb'_append_lowest]

theorem statusWord_reserved : (statusWord s).extractLsb' 29 3 = 0 := by
  unfold statusWord
  simp (disch := decide) only [extractLsb'_append_above, Nat.reduceSub, BitVec.extractLsb'_eq_self]

/-- The one-bit fields, from bit 2 up. -/
theorem statusWord_flags :
    (statusWord s).getLsbD 2 = s.pktValid ∧ (statusWord s).getLsbD 8 = s.sOpen ∧
    (statusWord s).getLsbD 12 = s.dtshdSkip ∧ (statusWord s).getLsbD 13 = s.downgradeNotice ∧
    (statusWord s).getLsbD 14 = s.fault := by
  unfold statusWord
  refine ⟨?_, ?_, ?_, ?_, ?_⟩ <;>
    simp (disch := decide) only [getLsbD_append_of_le, Nat.reduceSub, getLsbD_append_ofBool]

/-- The reserved bits between the fields, from bit 3 up. -/
theorem statusWord_gaps :
    (statusWord s).getLsbD 3 = false ∧ (statusWord s).getLsbD 7 = false ∧ (statusWord s).getLsbD 15 = false ∧
    (statusWord s).getLsbD 19 = false ∧ (statusWord s).getLsbD 23 = false := by
  unfold statusWord
  refine ⟨?_, ?_, ?_, ?_, ?_⟩ <;>
    simp (disch := decide) only [getLsbD_append_of_le, Nat.reduceSub, getLsbD_append_zero_bit]

end

/-- Settles O13: each field of the word is the code of the state's element, no write reaches the word, and its reset
value is a closed fact. -/
theorem statusFields : Obligations.StatusFields := by
  intro s r
  obtain ⟨h2, h8, h12, h13, h14⟩ := statusWord_flags s
  obtain ⟨h3, h7, h15, h19, h23⟩ := statusWord_gaps s
  refine ⟨(statusWord_verdict s).trans ?verdict, h2, h3, (statusWord_errKind s).trans ?errKind, h7, h8,
    statusWord_sVariant s, h12, h13, h14, h15, (statusWord_faultCause s).trans ?cause, h19, statusWord_eac3Blocks s,
    h23, statusWord_thdFrameCount s, statusWord_reserved s, ?readOnly, ?reset⟩
  case verdict => cases s.verdict <;> rfl
  case errKind => cases s.errKind <;> rfl
  case cause => cases s.faultCause <;> rfl
  case readOnly => exact fun v => writeRegister_readOnly (by decide) (by decide) v s
  case reset => exact statusWord_eq_zero reset_resetValues

end Sys2Proof.Machine

/-! A step that is no command (10_state.md rules R24 to R28, 20_memory.md rule R76), and which operation a command or a
micro-operation runs. -/

namespace Sys2Proof.Machine

/-- Settles O9: the host's word stands first in the list, and the port's number is taken from it. -/
theorem stepRunsTheDecodedOperation : Obligations.StepRunsTheDecodedOperation := by
  refine ⟨fun s w rest hp hh => ⟨decodeCommand w, rfl, step_hostAccess hp hh⟩, fun s n i hn hi => ?_⟩
  have hmicro : decodeMicro n = .ok i := hi
  simp only [step, hn, microStep, hmicro]
  rfl

/-- A legal access is 32 bits wide at a multiple of 4 (rule R41). -/
theorem legalAccess_iff {width : Nat} {o : Byte} : legalAccess width o = true ↔ width = 32 ∧ o.toNat % 4 = 0 := by
  simp [legalAccess]

theorem hostStep_read {o : Byte} (h : o.toNat % 4 = 0) (s : State) :
    hostStep (.read 32 o) s = .next { s with busRead := readRegister o s } :=
  if_pos (legalAccess_iff.mpr ⟨rfl, h⟩)

theorem hostStep_write {o : Byte} (h : o.toNat % 4 = 0) (hc : o ≠ cmdOffset) (v : Word) (s : State) :
    hostStep (.write 32 o v) s = .next (writeRegister o v s) := by
  simp [hostStep, legalAccess_iff.mpr ⟨rfl, h⟩, hc]

/-- Settles O10: a write that is no command stores what its offset stores, and the other accesses are one field
each. -/
theorem otherAccesses : Obligations.OtherAccesses := by
  intro s a rest hp hh
  refine ⟨fun v ha => ?_, fun v ha => ?_, fun v o ha h4 hctrl hrate hcmd => ?_, fun o ha h4 => ?_, fun f ha => ?_⟩ <;>
    rw [step_hostAccess hp hh, ha]
  · rfl
  · rfl
  · rw [hostStep_write h4 hcmd, writeRegister_readOnly hctrl hrate]
  · exact hostStep_read h4 _
  · rfl

/-- Settles O11: the access is checked before anything else. -/
theorem misalignedAccessRefused : Obligations.MisalignedAccessRefused := by
  intro s width o v rest hp hbad hh
  have hl : legalAccess width o = false := by
    rw [← Bool.not_eq_true, legalAccess_iff]
    omega
  rcases hh with hh | hh <;> rw [step_hostAccess hp hh] <;> simp [hostStep, hl]

/-- An offset from 0x2C on is reserved (rule R24). -/
theorem readRegister_reserved {o : Byte} (h : 0x2C ≤ o.toNat) (s : State) : readRegister o s = 0 := by
  unfold readRegister
  split
  case h_11 => rfl
  all_goals omega

/-- Settles O12: the offsets with an element of their own, and the reserved ones. -/
theorem registerMap : Obligations.RegisterMap := fun s =>
  ⟨rfl, rfl, rfl, rfl, rfl, rfl, fun _ h => readRegister_reserved h s⟩

/-- Settles O15: the byte is in the range written or outside it. -/
theorem storedBytesAndNoOthers : Obligations.StoredBytesAndNoOthers := by
  intro m a bs x
  split
  next h => exact Memory.get?_write_inside m a bs x h.1 h.2
  next h => exact Memory.get?_write_outside m a bs x (by omega)

end Sys2Proof.Machine

/-! SUBMIT up to its encapsulator (47_dispatcher.md rule R211), and the commands while FAULT is 1 (10_state.md rule
R35). -/

namespace Sys2Proof.Machine

/-! ### EXECUTE around a body -/

/-- EXECUTE runs its body in the state with the packet port cleared, and nowhere else. -/
theorem execute_congr {s : State} {body body' : State → Act Verdict}
    (h : body (commandStart s) = body' (commandStart s)) : execute body s = execute body' s := by
  simp only [execute, h]

/-- A command whose body raises a flushing error before anything is written (rule R214). -/
theorem execute_rejected {s : State} {body : State → Act Verdict} {k : ErrKind} (hf : s.fault = false)
    (hk : errorFlushes k = true) (hb : body (commandStart s) = raiseError k (commandStart s)) :
    execute body s = .next (rejected k s) := by
  rw [execute_raise hf hb, takeException_flushing hk]
  rfl

/-! ### SUBMIT's own checks -/

theorem submitWith_closed {s : State} (ho : s.sOpen = false) (enc : State → Act Verdict) :
    submitWith enc s = raiseError .notOpen s := by
  simp [submitWith, ho]

theorem submitWith_oversize {s : State} (ho : s.sOpen = true) (hl : Config.maxFrameBytes < frameLen s)
    (enc : State → Act Verdict) : submitWith enc s = raiseError .sizeMismatch s := by
  simp [submitWith, ho, hl]

/-- SUBMIT runs an encapsulator behind its own checks, except in a stream of variant NONE. -/
theorem submitBody_eq_submitWith {s : State} (hv : s.sVariant ≠ 0) : ∃ enc, submitBody s = submitWith enc s := by
  unfold submitBody
  split
  case h_1 h => exact absurd (BitVec.eq_of_toNat_eq h) hv
  all_goals exact ⟨_, rfl⟩

theorem submitBody_variantNone {s : State} (hv : s.sVariant = 0) : submitBody s = raiseError .notOpen s := by
  simp [submitBody, hv]

theorem submitBody_closed {s : State} (ho : s.sOpen = false) : submitBody s = raiseError .notOpen s := by
  by_cases hv : s.sVariant = 0
  · exact submitBody_variantNone hv
  · obtain ⟨enc, he⟩ := submitBody_eq_submitWith hv
    rw [he, submitWith_closed ho]

theorem submitBody_oversize {s : State} (hv : s.sVariant ≠ 0) (ho : s.sOpen = true)
    (hl : Config.maxFrameBytes < frameLen s) : submitBody s = raiseError .sizeMismatch s := by
  obtain ⟨enc, he⟩ := submitBody_eq_submitWith hv
  rw [he, submitWith_oversize ho hl]

/-- The encapsulator of each effective opcode, as an instruction. -/
def isEncapsulator (i : Instr) : Prop :=
  ∃ enc : State → Act Verdict, exec i = execute (submitWith enc)

theorem isEncapsulator_of_mem {i : Instr} (h : i ∈ [Instr.encAc3, .encEac3, .encDts, .encDtshd, .encTruehd]) :
    isEncapsulator i := by
  simp only [List.mem_cons, List.not_mem_nil, or_false] at h
  rcases h with rfl | rfl | rfl | rfl | rfl <;> exact ⟨_, rfl⟩

/-- Settles O20: the effective opcode raises at once, and with no stream open so does every SUBMIT. -/
theorem submitNotOpen : Obligations.SubmitNotOpen := by
  refine fun s hf => ⟨execute_turnedAway hf rfl rfl, fun ho i hi => ?_⟩
  rw [List.mem_cons] at hi
  rcases hi with rfl | hi
  · exact execute_turnedAway hf rfl (submitBody_closed (s := commandStart s) ho)
  · obtain ⟨enc, he⟩ := isEncapsulator_of_mem hi
    rw [he]
    exact execute_turnedAway hf rfl (submitWith_closed (s := commandStart s) ho enc)

/-- Settles O21: SUBMIT checks the length before its encapsulator runs. -/
theorem oversizeFrame : Obligations.OversizeFrame := by
  intro s hf ho hv hl i hi
  rw [List.mem_cons] at hi
  rcases hi with rfl | hi
  · exact execute_rejected hf rfl (submitBody_oversize (s := commandStart s) hv ho hl)
  · obtain ⟨enc, he⟩ := isEncapsulator_of_mem hi
    rw [he]
    exact execute_rejected hf rfl (submitWith_oversize (s := commandStart s) ho hl enc)

/-! ### SUBMIT's routing (rule R92) -/

/-- The instruction that SUBMIT runs in a stream of each latched variant. -/
theorem exec_submit_of_variant (s : State) :
    (s.sVariant = 1 → exec .submit s = exec .encAc3 s) ∧ (s.sVariant = 2 → exec .submit s = exec .encEac3 s) ∧
    (s.sVariant = 3 → exec .submit s = exec .encDts s) ∧ (s.sVariant = 4 → exec .submit s = exec .encDtshd s) ∧
    (s.sVariant = 5 → exec .submit s = exec .encTruehd s) := by
  refine ⟨?_, ?_, ?_, ?_, ?_⟩ <;>
    exact fun hv => execute_congr (s := s) (body := submitBody) (by simp [submitBody, commandStart, clearPort, hv])

theorem exec_submit_of_variantNone {s : State} (hv : s.sVariant = 0) : exec .submit s = exec .submitNotOpen s :=
  execute_congr (s := s) (submitBody_variantNone (s := commandStart s) hv)

/-- The variants that OPEN latches, and NONE (10_state.md rule R52). -/
theorem variant_cases {v : BitVec 3} (h : v.toNat ≤ 5) : v = 0 ∨ v = 1 ∨ v = 2 ∨ v = 3 ∨ v = 4 ∨ v = 5 := by
  revert v
  decide

/-- Settles O22: variant by variant, both sides are EXECUTE around the same encapsulator. -/
theorem submitRunsTheEffectiveOpcode : Obligations.SubmitRunsTheEffectiveOpcode := by
  intro s i hv hi
  obtain ⟨h1, h2, h3, h4, h5⟩ := exec_submit_of_variant s
  have decoded : ∀ (v : BitVec 3) (j : Instr), s.sVariant = v → decode (.eop (v ++ (2 : Byte))) = .ok j → j = i := by
    rintro v j rfl hj
    exact Except.ok.inj (hj.symm.trans hi)
  rcases variant_cases hv with hv | hv | hv | hv | hv | hv
  · exact decoded 0 .submitNotOpen hv rfl ▸ exec_submit_of_variantNone hv
  · exact decoded 1 .encAc3 hv rfl ▸ h1 hv
  · exact decoded 2 .encEac3 hv rfl ▸ h2 hv
  · exact decoded 3 .encDts hv rfl ▸ h3 hv
  · exact decoded 4 .encDtshd hv rfl ▸ h4 hv
  · exact decoded 5 .encTruehd hv rfl ▸ h5 hv

theorem submitBody_unreachable {s : State} (hv : 5 < s.sVariant.toNat) :
    submitBody s = submitWith (fun _ => .refuse .unreachableVariant) s := by
  unfold submitBody
  split
  case h_7 => rfl
  all_goals omega

/-- Settles O23: both are the refusal of the variant, behind SUBMIT's own checks in the second. -/
theorem unreachableVariantRefused : Obligations.UnreachableVariantRefused := by
  refine ⟨fun _ _ => rfl, fun s hs hv => ?_⟩
  have hroute : exec .submit s = execute (submitWith fun _ => .refuse .unreachableVariant) s :=
    execute_congr (submitBody_unreachable (s := commandStart s) hv)
  rw [hroute, acceptable hs]
  rfl

/-- Settles O24: EXECUTE ignores its body, and a register read is no command. -/
theorem faultedIgnoresCommands : Obligations.FaultedIgnoresCommands := by
  refine ⟨fun s i hf hi => ?_, fun s o rest _ hp hh h4 => ?_⟩
  · obtain ⟨body, hexec, -⟩ := exec_eq_execute_of_isCommand hi
    rw [hexec, execute_faulted hf]
  · rw [step_hostAccess hp hh, hostStep_read h4]
    rfl

end Sys2Proof.Machine

/-! The micro-operations run alone (41_packet_writer.md, 40_header_parsers.md section 1; the port is the model's own,
notes/assumptions/5.md). -/

namespace Sys2Proof.Machine

/-! ### BEGIN -/

/-- Settles O51: BEGIN's checks in their order, and the exception of each taken. -/
theorem beginPacket : Obligations.BeginPacket := by
  intro s cap
  have hexec : exec .beginPacket s = settle (packetBegin cap s.uop.samples s.uop.pts s.uop.dts s) := rfl
  rw [hexec]
  unfold packetBegin
  refine ⟨fun ha h4 h8 hc => ?_, fun ha h4 hc => ?_, fun ha hbad => ?_, fun ha => ?_⟩
  · rw [if_neg (by simp [ha]), if_neg (by omega), if_neg (c := Config.outbufBytes < cap) (Nat.not_lt.mpr hc)]
    rfl
  · rw [if_neg (by simp [ha]), if_neg (by omega), if_pos (c := Config.outbufBytes < cap) hc]
    rfl
  · rw [if_neg (by simp [ha]), if_pos hbad]
    rfl
  · rw [if_pos ha]
    rfl

/-! ### The writing primitives -/

theorem outputBytes_bigEndian_pair (outBe : Bool) (v : Half) :
    outputBytes true outBe [highByte v, lowByte v] = unitBytes outBe v := by
  cases outBe <;> rfl

theorem ceil2_pair (a b : Byte) : ceil2 [a, b].length = 2 := by simp [ceil2]

/-- WRITE16_BE on any packet in progress that it fits (rule R132). -/
theorem packetWrite16_at {s : State} {v : Half} (ha : s.obActive = true)
    (hf : s.cursor.toNat + 2 ≤ s.obCap.toNat) (hc : s.obCap.toNat ≤ 65536) :
    packetWrite16 v s = .ok () { s with
      ob := s.ob.write s.cursor.toNat (unitBytes s.sOutBe v), cursor := BitVec.ofNat 17 (s.cursor.toNat + 2) } := by
  unfold packetWrite16
  rw [packetWrite_at ha (by rwa [ceil2_pair]) hc, outputBytes_bigEndian_pair, ceil2_pair]

/-- Settles O52: what each primitive does on a packet in progress that it fits. -/
theorem writesAtTheCursor : Obligations.WritesAtTheCursor := fun _ ha hc =>
  ⟨fun hf => congrArg settle (packetWrite_at ha hf hc), fun hf => congrArg settle (packetWrite16_at ha hf hc),
    fun hf => congrArg settle (packetPad_at ha hf hc)⟩

/-! ### FINALIZE -/

/-- FINALIZE on any packet in progress whose CURSOR lies between the header and the capacity (rule R134). -/
theorem packetFinalize_at {s : State} {dt : Half} {unit : Nat} (ha : s.obActive = true) (hc : s.obCap.toNat ≤ 65536)
    (hd : dt ≠ 0) (hu : unit = 1 ∨ unit = 8) (h8 : 8 ≤ s.cursor.toNat) (hle : s.cursor.toNat ≤ s.obCap.toNat) :
    packetFinalize dt unit s = .ok () { s with
      ob := (s.ob.write 0 (headerBytes s.sOutBe dt (lengthField s.cursor.toNat unit))).write s.cursor.toNat
        (List.replicate (s.obCap.toNat - s.cursor.toNat) 0),
      cursor := s.obCap } := by
  have hbad : ¬ (dt = 0 ∨ unit ≠ 1 ∧ unit ≠ 8) := by
    rintro (h | h)
    · exact hd h
    · omega
  have hsize : ¬ spaceSize .ob < 0 + (headerBytes s.sOutBe dt (lengthField s.cursor.toNat unit)).length := by
    rw [headerBytes_length]
    decide
  simp only [packetFinalize, ha, Bool.not_true, Bool.false_eq_true, if_false, if_neg hbad,
    if_neg (Nat.not_lt.mpr hle), Config.hdr, if_neg (Nat.not_lt.mpr h8), obWrite, if_neg hsize, Act.ok_andThen]
  by_cases hlt : s.cursor.toNat < s.obCap.toNat
  · have hend : s.cursor.toNat + (s.obCap.toNat - s.cursor.toNat) = s.obCap.toNat := by omega
    rw [if_pos hlt]
    have hpad := packetPad_at (n := s.obCap.toNat - s.cursor.toNat)
      (s := { s with ob := s.ob.write 0 (headerBytes s.sOutBe dt (lengthField s.cursor.toNat unit)) }) ha
      (Nat.le_of_eq hend) hc
    simpa only [hend, BitVec.ofNat_toNat, BitVec.setWidth_eq, ha] using hpad
  · have heq : s.cursor = s.obCap := BitVec.eq_of_toNat_eq (by omega)
    rw [if_neg hlt, ← heq, Nat.sub_self, List.replicate_zero, Memory.write_nil]

/-- The units of the length field that FINALIZE takes (rule R98). -/
theorem unit_toNat_iff (u : Word) : (u.toNat = 1 ∨ u.toNat = 8) ↔ (u = 1 ∨ u = 8) := by
  have e : ∀ k : Word, u.toNat = k.toNat ↔ u = k := fun k => BitVec.toNat_inj
  exact or_congr (e 1) (e 8)

/-- Settles O53: FINALIZE's stores on a packet in progress. -/
theorem finalizePacket : Obligations.FinalizePacket := by
  intro s ha hc hd hu h8 hle unit
  exact congrArg settle (packetFinalize_at ha hc hd ((unit_toNat_iff _).mpr hu) h8 hle)

/-! ### Contract faults -/

theorem packetWrite_notActive {s : State} (ha : s.obActive = false) (d : List Byte) (be : Bool) :
    packetWrite d be s = raiseFault .notActive s := by
  simp [packetWrite, ha]

theorem packetPad_notActive {s : State} (ha : s.obActive = false) (n : Nat) :
    packetPad n s = raiseFault .notActive s := by
  simp [packetPad, ha]

theorem packetFinalize_notActive {s : State} (ha : s.obActive = false) (dt : Half) (unit : Nat) :
    packetFinalize dt unit s = raiseFault .notActive s := by
  simp [packetFinalize, ha]

theorem packetWrite_overflow {s : State} {d : List Byte} (ha : s.obActive = true)
    (h : s.obCap.toNat < s.cursor.toNat + ceil2 d.length) (be : Bool) :
    packetWrite d be s = raiseFault .overflow s := by
  simp [packetWrite, ha, h]

theorem packetPad_overflow {s : State} {n : Nat} (ha : s.obActive = true)
    (h : s.obCap.toNat < s.cursor.toNat + n) : packetPad n s = raiseFault .overflow s := by
  simp [packetPad, ha, h]

theorem packetFinalize_badOperands {s : State} {dt : Half} {unit : Nat} (ha : s.obActive = true)
    (h : dt = 0 ∨ unit ≠ 1 ∧ unit ≠ 8) : packetFinalize dt unit s = raiseFault .badFinalize s := by
  unfold packetFinalize
  rw [if_neg (by simp [ha]), if_pos h]

theorem packetFinalize_overflow {s : State} {dt : Half} {unit : Nat} (ha : s.obActive = true)
    (h : ¬ (dt = 0 ∨ unit ≠ 1 ∧ unit ≠ 8)) (hlt : s.obCap.toNat < s.cursor.toNat) :
    packetFinalize dt unit s = raiseFault .overflow s := by
  unfold packetFinalize
  rw [if_neg (by simp [ha]), if_neg h, if_pos hlt]

theorem packetFinalize_lowCursor {s : State} {dt : Half} {unit : Nat} (ha : s.obActive = true)
    (h : ¬ (dt = 0 ∨ unit ≠ 1 ∧ unit ≠ 8)) (hle : s.cursor.toNat ≤ s.obCap.toNat) (h8 : s.cursor.toNat < 8) :
    packetFinalize dt unit s = raiseFault (contractCause Config.finalizeLowCursorCause) s := by
  unfold packetFinalize
  rw [if_neg (by simp [ha]), if_neg h, if_neg (Nat.not_lt.mpr hle),
    if_pos (c := s.cursor.toNat < Config.hdr) h8]

/-- Settles O54: each check of the primitives, in its order. -/
theorem writerFaults : Obligations.WriterFaults := by
  intro s faulted
  have hunit := unit_toNat_iff s.uop.unit
  refine ⟨fun ha i hi => ?_, fun ha h => congrArg settle (packetWrite_overflow ha h _),
    fun ha h => congrArg settle (packetWrite_overflow ha (by rwa [ceil2_pair]) _),
    fun ha h => congrArg settle (packetPad_overflow ha h),
    fun ha h => congrArg settle (packetFinalize_badOperands ha (h.imp_right ?_)),
    fun ha hd hu hlt => congrArg settle (packetFinalize_overflow ha ?_ hlt), fun ha hd hu hle h8 =>
      ⟨_, contractCause_ne_none _, congrArg settle (packetFinalize_lowCursor ha ?_ hle h8)⟩⟩
  · simp only [List.mem_cons, List.not_mem_nil, or_false] at hi
    rcases hi with rfl | rfl | rfl | rfl
    · exact congrArg settle (packetWrite_notActive ha _ _)
    · exact congrArg settle (packetWrite_notActive ha _ _)
    · exact congrArg settle (packetPad_notActive ha _)
    · exact congrArg settle (packetFinalize_notActive ha _ _)
  · rw [← not_or, ← not_or, hunit]
    exact id
  all_goals
    rintro (h | h)
    · exact hd h
    · rw [← not_or, hunit] at h
      exact h hu

/-- Settles O56: each parser's arm is its result put in the port. -/
theorem parsersRunAlone : Obligations.ParsersRunAlone := fun _ => ⟨rfl, rfl, rfl⟩

/-! ### Output units (20_memory.md section 2) -/

/-- A source pair goes out as it stands or exchanged (rule R131). -/
theorem outputBytes_pair (srcBe outBe : Bool) (b0 b1 : Byte) (d : List Byte) : outputBytes srcBe outBe (b0 :: b1 :: d) =
    (if srcBe = outBe then b0 else b1) :: (if srcBe = outBe then b1 else b0) :: outputBytes srcBe outBe d := by
  rw [outputBytes]
  split <;> rfl

theorem outputBytes_getElem?_pair (srcBe outBe : Bool) : ∀ (d : List Byte) (k : Nat), 2 * k + 1 < d.length →
    (outputBytes srcBe outBe d)[2 * k]? = (if srcBe = outBe then d[2 * k]? else d[2 * k + 1]?) ∧
    (outputBytes srcBe outBe d)[2 * k + 1]? = (if srcBe = outBe then d[2 * k + 1]? else d[2 * k]?)
  | b0 :: b1 :: d, 0, _ => by
    rw [outputBytes_pair]
    split <;> exact ⟨rfl, rfl⟩
  | b0 :: b1 :: d, k + 1, h => by
    rw [outputBytes_pair]
    exact outputBytes_getElem?_pair srcBe outBe d k (by simp only [List.length_cons] at h; omega)
  | [_], k, h => absurd h (by simp)
  | [], k, h => absurd h (by simp)

/-- An odd last byte is the high byte of a final unit whose low byte is 0 (rule R131). -/
theorem outputBytes_getElem?_odd (srcBe outBe : Bool) : ∀ d : List Byte, d.length % 2 = 1 →
    (outputBytes srcBe outBe d)[if outBe then d.length - 1 else d.length]? = d[d.length - 1]? ∧
    (outputBytes srcBe outBe d)[if outBe then d.length else d.length - 1]? = some 0
  | b0 :: b1 :: d, h => by
    have hd : d.length % 2 = 1 := by simp only [List.length_cons] at h; omega
    obtain ⟨n, hn⟩ : ∃ n, d.length = n + 1 := ⟨d.length - 1, by omega⟩
    have ih := outputBytes_getElem?_odd srcBe outBe d hd
    rw [outputBytes_pair]
    rw [hn] at ih
    simp only [List.length_cons, hn]
    cases outBe <;> exact ih
  | [b], _ => by
    have hhigh : highByte (be16 b 0) = b := BitVec.extractLsb'_append_eq_left
    have hlow : lowByte (be16 b 0) = 0 := BitVec.extractLsb'_append_eq_right
    cases outBe <;> exact ⟨congrArg some hhigh, congrArg some hlow⟩
  | [], h => absurd h (by decide)

/-- Settles O55: pair by pair along the recursion of `outputBytes`, and the final unit. -/
theorem outputUnits : Obligations.OutputUnits := fun srcBe outBe d =>
  ⟨outputBytes_length srcBe outBe d, outputBytes_getElem?_pair srcBe outBe d, outputBytes_getElem?_odd srcBe outBe d⟩

end Sys2Proof.Machine

/-! The reference header parsers (40_header_parsers.md rules R115 to R119; presumed, notes/assumptions/8.md): the bounds
that every accepted header meets. -/

namespace Sys2Proof.Machine

/-! ### A52_PARSE -/

/-- The frame sizes of AC-3 in words, over the codes that the parser accepts (rule R116). -/
theorem ac3FrameWords_bounds : ∀ f < 3, ∀ c < 38, 64 ≤ ac3FrameWords f c ∧ ac3FrameWords f c ≤ 1920 := by
  decide

theorem eac3BlocksRate_blocks {b4 : Byte} {blocks rate : Nat} (h : eac3BlocksRate b4 = some (blocks, rate)) :
    blocks = 1 ∨ blocks = 2 ∨ blocks = 3 ∨ blocks = 6 := by
  unfold eac3BlocksRate at h
  dsimp only at h
  split at h <;> split at h <;> simp at h <;> omega

/-- An E-AC-3 header (rule R117): its size field has 11 bits. -/
theorem eac3Parse_some {b2 b3 b4 : Byte} {bsid : Nat} {h : A52Header} (hp : eac3Parse b2 b3 b4 bsid = some h) :
    2 ≤ h.size ∧ h.size ≤ 4096 ∧ (h.blocks = 1 ∨ h.blocks = 2 ∨ h.blocks = 3 ∨ h.blocks = 6) ∧
      h.samples = 256 * h.blocks ∧ h.isEac3 = true := by
  unfold eac3Parse at hp
  split at hp
  · cases hp
  split at hp
  next st blocks rate _ hb =>
    cases hp
    have hsize := (b2.extractLsb' 0 3 ++ b3).isLt
    exact ⟨by dsimp only; omega, by dsimp only; omega, eac3BlocksRate_blocks hb, rfl, rfl⟩
  · cases hp

/-- What the parser accepts is an E-AC-3 header or an AC-3 header, an independent frame of six blocks in 128 to 3840
bytes (rule R116). -/
theorem a52Parse_some {b : List Byte} {h : A52Header} (hp : a52Parse b = some h) :
    (2 ≤ h.size ∧ h.size ≤ 4096 ∧ (h.blocks = 1 ∨ h.blocks = 2 ∨ h.blocks = 3 ∨ h.blocks = 6) ∧
      h.samples = 256 * h.blocks ∧ h.isEac3 = true) ∨
    (128 ≤ h.size ∧ h.size ≤ 3840 ∧ h.blocks = 6 ∧ h.samples = 1536 ∧ h.isEac3 = false ∧
      h.strmtyp = .independent) := by
  unfold a52Parse at hp
  split at hp
  next b0 b1 b2 b3 b4 b5 _ =>
    split at hp
    · cases hp
    dsimp only at hp
    split at hp
    · exact .inl (eac3Parse_some hp)
    split at hp
    · cases hp
    next hcodes =>
      cases hp
      have hf := (b4.extractLsb' 6 2).isLt
      have hw := ac3FrameWords_bounds (b4.extractLsb' 6 2).toNat (by omega) (b4.extractLsb' 0 6).toNat (by omega)
      exact .inr ⟨by dsimp only; omega, by dsimp only; omega, rfl, rfl, rfl, rfl⟩
  · cases hp

theorem a52Parse_size {b : List Byte} {h : A52Header} (hp : a52Parse b = some h) : 2 ≤ h.size ∧ h.size ≤ 4096 := by
  rcases a52Parse_some hp with ⟨hlo, hhi, -⟩ | ⟨hlo, hhi, -⟩ <;> omega

theorem a52Parse_blocks {b : List Byte} {h : A52Header} (hp : a52Parse b = some h) :
    h.blocks = 1 ∨ h.blocks = 2 ∨ h.blocks = 3 ∨ h.blocks = 6 := by
  rcases a52Parse_some hp with ⟨-, -, hb, -⟩ | ⟨-, -, hb, -⟩
  · exact hb
  · exact .inr (.inr (.inr hb))

theorem a52Parse_ac3 {b : List Byte} {h : A52Header} (hp : a52Parse b = some h) (he : h.isEac3 = false) :
    128 ≤ h.size ∧ h.size ≤ 3840 ∧ h.blocks = 6 ∧ h.strmtyp = .independent := by
  rcases a52Parse_some hp with ⟨-, -, -, -, he'⟩ | ⟨hlo, hhi, hb, -, -, hs⟩
  · rw [he] at he'
    cases he'
  · exact ⟨hlo, hhi, hb, hs⟩

/-! ### DTS_PARSE -/

theorem dtsField_lt (h : List Byte) (first width : Nat) : dtsField h first width < 2 ^ width :=
  Nat.mod_lt _ (Nat.two_pow_pos width)

/-- A core's header (rule R119): the size field has 14 bits and is at least 95, the block count 7 bits and at
least 5. -/
theorem dtsParse_some {b : List Byte} {h : DtsHeader} (hp : dtsParse b = some h) :
    16 ≤ b.length ∧ 96 ≤ h.frameSize ∧ h.frameSize ≤ 18724 ∧ 192 ≤ h.frameLength ∧ h.frameLength ≤ 4096 ∧
      h.frameLength % 32 = 0 := by
  unfold dtsParse at hp
  split at hp
  · cases hp
  next hlen =>
    split at hp
    · cases hp
    next v _ =>
      dsimp only at hp
      split at hp
      · cases hp
      next hfields =>
        cases hp
        have hblocks := dtsField_lt (dtsNormalise v b) 39 7
        have hsize := dtsField_lt (dtsNormalise v b) 46 14
        have hframe : 96 ≤ dtsFrameSize v (dtsField (dtsNormalise v b) 46 14 + 1) ∧
            dtsFrameSize v (dtsField (dtsNormalise v b) 46 14 + 1) ≤ 18724 := by
          cases v <;> simp only [dtsFrameSize] <;> omega
        exact ⟨by omega, hframe.1, hframe.2, by dsimp only; omega, by dsimp only; omega, by dsimp only; omega⟩

/-- Settles O57: the two forms of an A52 header, and the field widths of a DTS header. -/
theorem headerContracts : Obligations.HeaderContracts := by
  refine ⟨fun b h hp => ?_, fun b h hp => ?_⟩
  · obtain ⟨hlo, hhi⟩ := a52Parse_size hp
    have hsamples : h.samples < 2 ^ 32 := by
      rcases a52Parse_some hp with ⟨-, -, hb, hs, -⟩ | ⟨-, -, -, hs, -⟩ <;> omega
    refine ⟨by omega, hhi, a52Parse_blocks hp, hsamples, fun he => ?_⟩
    obtain ⟨-, -, hb, hs⟩ := a52Parse_ac3 hp he
    exact ⟨hb, hs⟩
  · obtain ⟨hlen, hlo, hrest⟩ := dtsParse_some hp
    exact ⟨hlen, by omega, hrest⟩

end Sys2Proof.Machine

/-! CONVERT14 and REPACK14 (40_header_parsers.md rule R120; presumed, notes/assumptions/8.md). Every bit string whose
length is a multiple of `n` spells values of `n` bits, so both conversions are regroupings of one bit string. -/

namespace Sys2Proof.Machine

/-! ### Values and their bits -/

theorem bitsOf_length {w : Nat} (n : Nat) (v : BitVec w) : (bitsOf n v).length = n := by
  simp [bitsOf]

theorem length_flatMap_bitsOf {w : Nat} (n : Nat) (vs : List (BitVec w)) :
    (vs.flatMap (bitsOf n)).length = n * vs.length := by
  induction vs with
  | nil => rfl
  | cons v vs ih => rw [List.flatMap_cons, List.length_append, bitsOf_length, ih, List.length_cons,
    Nat.mul_succ, Nat.add_comm]

/-- Every `n` bits are the bits of a value. -/
theorem exists_bitsOf_eq {n : Nat} {l : List Bool} (h : l.length = n) : ∃ v : BitVec n, bitsOf n v = l := by
  subst h
  refine ⟨BitVec.ofBoolListBE l, List.ext_getElem (bitsOf_length _ _) fun i h1 h2 => ?_⟩
  have hi : l.length - 1 - (l.length - 1 - i) = i := by omega
  simp [bitsOf, BitVec.getLsbD_ofBoolListBE, hi, h2]
  omega

/-- A bit string of whole groups of `n` bits. -/
theorem exists_flatMap_bitsOf_eq {n : Nat} (hn : 0 < n) : ∀ (k : Nat) (l : List Bool), l.length = n * k →
    ∃ vs : List (BitVec n), vs.flatMap (bitsOf n) = l
  | 0, l, h => ⟨[], (List.eq_nil_of_length_eq_zero h).symm⟩
  | k + 1, l, h => by
    rw [Nat.mul_succ] at h
    obtain ⟨v, hv⟩ := exists_bitsOf_eq (n := n) (l := l.take n) (by rw [List.length_take]; omega)
    obtain ⟨vs, hvs⟩ := exists_flatMap_bitsOf_eq hn k (l.drop n) (by rw [List.length_drop]; omega)
    exact ⟨v :: vs, by rw [List.flatMap_cons, hv, hvs, List.take_append_drop]⟩

/-! ### Bytes of a bit string -/

theorem byteOfBits_bits (v : Byte) : byteOfBits (v.getLsbD 7) (v.getLsbD 6) (v.getLsbD 5) (v.getLsbD 4) (v.getLsbD 3)
    (v.getLsbD 2) (v.getLsbD 1) (v.getLsbD 0) = v := by
  revert v
  decide

theorem bytesOfBits_bitsOf : ∀ cs : List Byte, bytesOfBits (cs.flatMap (bitsOf 8)) = cs
  | [] => rfl
  | c :: cs => by
    rw [List.flatMap_cons]
    exact congrArg₂ List.cons (byteOfBits_bits c) (bytesOfBits_bitsOf cs)

theorem bytesOfBits_length : ∀ l : List Bool, (bytesOfBits l).length = l.length / 8
  | _ :: _ :: _ :: _ :: _ :: _ :: _ :: _ :: rest => by
    simp only [bytesOfBits, List.length_cons, bytesOfBits_length rest]
    omega
  | [] | [_] | [_, _] | [_, _, _] | [_, _, _, _] | [_, _, _, _, _] | [_, _, _, _, _, _] | [_, _, _, _, _, _, _] => by
    simp [bytesOfBits]

/-! ### Words -/

theorem wordsOf_length (le : Bool) : ∀ b : List Byte, (wordsOf le b).length = b.length / 2
  | _ :: _ :: b => by
    simp only [wordsOf, List.length_cons, wordsOf_length le b]
    omega
  | [] | [_] => by simp [wordsOf]

theorem wordsOf_bytesOfWord (le : Bool) (w : Half) (rest : List Byte) :
    wordsOf le (bytesOfWord le w ++ rest) = w :: wordsOf le rest := by
  have hw : be16 (highByte w) (lowByte w) = w := by
    unfold be16 highByte lowByte
    rw [BitVec.extractLsb'_append_extractLsb'_eq_extractLsb' (by rfl)]
    simp
  cases le <;> exact congrArg (· :: wordsOf _ rest) hw

theorem packWord14_low (v : BitVec 14) : (packWord14 v).extractLsb' 0 14 = v := BitVec.extractLsb'_append_eq_right

/-- The low 14 bits of a word are the bits of its 14-bit field. -/
theorem bitsOf14_word (w : Half) : bitsOf 14 (w.extractLsb' 0 14) = bitsOf 14 w := by
  refine List.ext_getElem (by simp [bitsOf]) fun i h1 h2 => ?_
  simp [bitsOf]
  omega

theorem bitsOf14_packWord14 (v : BitVec 14) : bitsOf 14 (packWord14 v) = bitsOf 14 v := by
  rw [← bitsOf14_word, packWord14_low]

theorem flatMap_bitsOf14_words (ws : List Half) :
    (ws.map (·.extractLsb' 0 14)).flatMap (bitsOf 14) = ws.flatMap (bitsOf 14) := by
  rw [List.flatMap_map]
  exact congrArg (List.flatMap · ws) (funext bitsOf14_word)

theorem flatMap_bitsOf14_packWord14 (vs : List (BitVec 14)) :
    (vs.map packWord14).flatMap (bitsOf 14) = vs.flatMap (bitsOf 14) := by
  rw [List.flatMap_map]
  exact congrArg (List.flatMap · vs) (funext bitsOf14_packWord14)

/-- Fourteen bits put together again. -/
theorem ofBool_bits14 (v : BitVec 14) : BitVec.ofBool (v.getLsbD 13) ++ BitVec.ofBool (v.getLsbD 12) ++
    BitVec.ofBool (v.getLsbD 11) ++ BitVec.ofBool (v.getLsbD 10) ++ BitVec.ofBool (v.getLsbD 9) ++
    BitVec.ofBool (v.getLsbD 8) ++ BitVec.ofBool (v.getLsbD 7) ++ BitVec.ofBool (v.getLsbD 6) ++
    BitVec.ofBool (v.getLsbD 5) ++ BitVec.ofBool (v.getLsbD 4) ++ BitVec.ofBool (v.getLsbD 3) ++
    BitVec.ofBool (v.getLsbD 2) ++ BitVec.ofBool (v.getLsbD 1) ++ BitVec.ofBool (v.getLsbD 0) = v := by
  apply BitVec.eq_of_getLsbD_eq
  intro i hi
  interval_cases i <;> simp (disch := decide) only [getLsbD_append_of_le, Nat.reduceSub, getLsbD_append_ofBool]
  rw [BitVec.getLsbD_ofBool]
  rfl

/-- REPACK14 of whole groups of 14 bits. -/
theorem wordsOf_repackBits (le : Bool) : ∀ vs : List (BitVec 14),
    wordsOf le (repackBits le (vs.flatMap (bitsOf 14))) = vs.map packWord14
  | [] => rfl
  | v :: vs => by
    have hgroup : repackBits le (bitsOf 14 v ++ vs.flatMap (bitsOf 14)) =
        bytesOfWord le (packWord14 v) ++ repackBits le (vs.flatMap (bitsOf 14)) :=
      congrArg (fun u => bytesOfWord le (packWord14 u) ++ repackBits le (vs.flatMap (bitsOf 14))) (ofBool_bits14 v)
    rw [List.flatMap_cons, hgroup, wordsOf_bytesOfWord, wordsOf_repackBits le vs, List.map_cons]

/-! ### The round trips -/

theorem convert14_length (b : List Byte) (le : Bool) : (convert14 b le).length = 14 * (b.length / 2) / 8 := by
  rw [convert14, bytesOfBits_length, length_flatMap_bitsOf, wordsOf_length]

theorem convert14_repack14 {c : List Byte} (h : c.length % 7 = 0) (le : Bool) : convert14 (repack14 c le) le = c := by
  obtain ⟨vs, hvs⟩ := exists_flatMap_bitsOf_eq (n := 14) (by decide) (4 * (c.length / 7)) (c.flatMap (bitsOf 8))
    (by rw [length_flatMap_bitsOf]; omega)
  rw [convert14, repack14, ← hvs, wordsOf_repackBits, flatMap_bitsOf14_packWord14, hvs, bytesOfBits_bitsOf]

theorem repack14_convert14 {b : List Byte} (h : b.length % 8 = 0) (le : Bool) :
    (wordsOf le (repack14 (convert14 b le) le)).map (·.extractLsb' 0 14) = (wordsOf le b).map (·.extractLsb' 0 14) := by
  obtain ⟨cs, hcs⟩ := exists_flatMap_bitsOf_eq (n := 8) (by decide) (7 * (b.length / 8))
    ((wordsOf le b).flatMap (bitsOf 14)) (by rw [length_flatMap_bitsOf, wordsOf_length]; omega)
  rw [repack14, convert14, ← hcs, bytesOfBits_bitsOf, hcs, ← flatMap_bitsOf14_words, wordsOf_repackBits, List.map_map]
  exact (List.map_congr_left fun v _ => packWord14_low v).trans (List.map_id _)

/-- Settles O58: the length along the recursions, and both round trips as regroupings of one bit string. -/
theorem convert14RoundTrips : Obligations.Convert14RoundTrips :=
  ⟨convert14_length, fun _ le h => convert14_repack14 h le, fun _ le h => repack14_convert14 h le⟩

end Sys2Proof.Machine

/-! ENC_AC3 (42_ac3.md section on ENC_AC3): the length that is sent, and the burst or the error it leads to. -/

namespace Sys2Proof.Machine

/-! ### A SUBMIT that hands its packet over -/

/-- A SUBMIT whose encapsulator ends in a packet handed over. -/
theorem submit_sent {s : State} {enc : State → Act Verdict} {b : List Byte} {samples : Word} {pts dts : Stamp}
    (h : submitting s) (he : (enc (commandStart s)).andThen finishCommand =
      .ok () (sentPacket b samples pts dts (commandStart s))) :
    execute (submitWith enc) s = .next { handedOver b samples pts dts s with ob := s.ob.write 0 b } := by
  rw [acceptable h, he]
  rfl

/-! ### The length sent (rules R150, R151) -/

section
variable {f : Frame} {h : A52Header}

theorem ac3Length_declared (hr : ac3NeedsReparse f = false) : ac3Length f = .ok f.data.length := by
  simp [ac3Length, hr]

theorem ac3Length_noHeader (hr : ac3NeedsReparse f = true) (hp : a52Parse f.data = none) :
    ac3Length f = .error .malformedHeader := by
  simp [ac3Length, hr, hp]

theorem ac3Length_eac3 (hr : ac3NeedsReparse f = true) (hp : a52Parse f.data = some h) (he : h.isEac3 = true) :
    ac3Length f = .error .unsupportedFraming := by
  simp [ac3Length, hr, hp, he]

theorem ac3Length_short (hr : ac3NeedsReparse f = true) (hp : a52Parse f.data = some h) (he : h.isEac3 = false)
    (hl : f.data.length < h.size) : ac3Length f = .error .sizeMismatch := by
  simp [ac3Length, hr, hp, he, hl]

theorem ac3Length_recovered (hr : ac3NeedsReparse f = true) (hp : a52Parse f.data = some h) (he : h.isEac3 = false)
    (hl : h.size ≤ f.data.length) : ac3Length f = .ok h.size := by
  obtain ⟨hlo, -⟩ := a52Parse_ac3 hp he
  have h6 : ¬ h.size < 6 := by omega
  simp [ac3Length, hr, hp, he, Nat.not_lt.mpr hl, h6]

end

/-- No reparse is due for a frame of 6 to 6144 bytes with 1536 samples (rule R151). -/
theorem ac3NeedsReparse_eq_false_iff (f : Frame) : ac3NeedsReparse f = false ↔
    6 ≤ f.data.length ∧ f.data.length ≤ 6144 ∧ f.nbSamples = 1536 := by
  rw [← Bool.not_eq_true, ac3NeedsReparse_iff]
  simp only [not_or, Nat.not_lt, not_not]

/-! ### The body -/

section
variable {s : State} {n : Nat}

theorem ac3Body_error {k : ErrKind} (hl : ac3Length s.frameIn = .error k) : ac3Body s = raiseError k s := by
  simp [ac3Body, hl]

theorem ac3Body_oversize (hl : ac3Length s.frameIn = .ok n) (hf : 6144 < ceil2 n + 8) :
    ac3Body s = raiseError .sizeMismatch s := by
  rw [ac3Body, hl]
  exact if_pos hf

/-- A frame that fits the capacity goes out in one burst. -/
theorem ac3Body_sent (ha : s.obActive = false) (hl : ac3Length s.frameIn = .ok n) (hf : ceil2 n + 8 ≤ 6144) :
    (ac3Body s).andThen finishCommand = .ok () (sentPacket (burst s.sOutBe
      (ac3DataType (s.frameIn.data.getD 5 0)) 8 (outputBytes true s.sOutBe (s.frameIn.data.take n)) 6144)
      1536 s.frameIn.pts s.frameIn.dts s) := by
  obtain ⟨h6, hn⟩ := ac3Length_ok hl
  have hbody : ac3Body s = ac3Emit n s := by
    rw [ac3Body, hl]
    exact if_neg (Nat.not_lt.mpr hf)
  rw [hbody, ac3Emit_sent ha h6 hn hf]

end

/-- Settles O31: the declared length is the frame's own, and it fits. -/
theorem ac3DeclaredFrame : Obligations.Ac3DeclaredFrame := by
  intro s i hi hs ha hsamples hlo hhi dt b
  have hroute : exec i s = execute (submitWith ac3Body) s := by
    rcases hi with rfl | ⟨rfl, hv⟩
    · rfl
    · exact (exec_submit_of_variant s).1 hv
  have hl : ac3Length s.frameIn = .ok (frameLen s) :=
    ac3Length_declared ((ac3NeedsReparse_eq_false_iff _).mpr ⟨hlo, Nat.le_trans hhi (by decide), hsamples⟩)
  have hsent := ac3Body_sent (s := commandStart s) ha hl (by simp only [ceil2]; omega)
  have hwhole : s.frameIn.data.take (frameLen s) = s.frameIn.data := List.take_length
  rw [commandStart_frameIn, hwhole] at hsent
  exact hroute.trans (submit_sent hs hsent)

/-- Settles O32: the recovered length lies inside the frame, and the parser's sizes fit the capacity. -/
theorem ac3ReparsedFrame : Obligations.Ac3ReparsedFrame := by
  intro s h hs ha hr hp he hl dt b
  obtain ⟨-, hhi, -⟩ := a52Parse_ac3 hp he
  exact submit_sent hs (ac3Body_sent (s := commandStart s) ha
    (ac3Length_recovered ((ac3NeedsReparse_iff _).mpr hr) hp he hl) (by simp only [ceil2]; omega))

/-- Settles O33: each error is one of the length's, or the fit of a declared length. -/
theorem ac3Errors : Obligations.Ac3Errors := by
  intro s hs reparse
  have raised : ∀ {k : ErrKind}, errorFlushes k = true → ac3Length s.frameIn = .error k →
      exec .encAc3 s = .next (rejected k s) :=
    fun hk hl => submit_raise hs hk (ac3Body_error (s := commandStart s) hl)
  have trigger : reparse → ac3NeedsReparse s.frameIn = true := (ac3NeedsReparse_iff _).mpr
  refine ⟨fun hr hp => raised rfl (ac3Length_noHeader (trigger hr) hp), fun h hr hp =>
    ⟨fun he => raised rfl (ac3Length_eac3 (trigger hr) hp he),
      fun he hl => raised rfl (ac3Length_short (trigger hr) hp he hl), fun he => ?_⟩, fun hr hlen => ?_⟩
  · obtain ⟨hlo, hhi, -⟩ := a52Parse_ac3 hp he
    exact ⟨hlo, hhi⟩
  · have hl : ac3Length s.frameIn = .ok (frameLen s) := ac3Length_declared (by
      rw [← Bool.not_eq_true, ac3NeedsReparse_iff]
      exact hr)
    exact submit_raise hs rfl (ac3Body_oversize (s := commandStart s) hl (by simp only [ceil2]; omega))

end Sys2Proof.Machine

/-! ENC_EAC3 (43_eac3.md section on ENC_EAC3): the frame is appended to the packet in progress, and the block total
decides what becomes of it. -/

namespace Sys2Proof.Machine

/-! ### The header checks (rules R160, R161) -/

section
variable {d : List Byte} {h1 h2 : A52Header}

theorem eac3Blocks_noHeader (hp : a52Parse d = none) : eac3Blocks d = .error .malformedHeader := by
  simp [eac3Blocks, hp]

theorem eac3Blocks_short (hp : a52Parse d = some h1) (hl : d.length < h1.size) :
    eac3Blocks d = .error .sizeMismatch := by
  simp [eac3Blocks, hp, hl]

theorem eac3Blocks_second {k : ErrKind} (hp : a52Parse d = some h1) (hl : h1.size < d.length)
    (hc : eac3CheckSecond (d.drop h1.size) = .error k) : eac3Blocks d = .error k := by
  simp [eac3Blocks, hp, hl, Nat.lt_asymm hl, hc]

theorem eac3CheckSecond_noHeader (hp : a52Parse d = none) : eac3CheckSecond d = .error .malformedHeader := by
  simp [eac3CheckSecond, hp]

theorem eac3CheckSecond_size (hp : a52Parse d = some h2) (hs : h2.size ≠ d.length) :
    eac3CheckSecond d = .error .sizeMismatch := by
  simp [eac3CheckSecond, hp, hs]

theorem eac3CheckSecond_kind (hp : a52Parse d = some h2) (hs : h2.size = d.length)
    (hk : h2.isEac3 = false ∨ h2.strmtyp ≠ .dependent) : eac3CheckSecond d = .error .unsupportedFraming := by
  simp only [eac3CheckSecond, hp, hs, ne_eq, not_true_eq_false, if_false]
  rw [if_pos hk]

/-- Two syncframes of the reference parser have at most 8192 bytes (notes/assumptions/8.md). -/
theorem eac3Accepts_length {n : Nat} (h : eac3Accepts d n) : d.length ≤ 8192 := by
  obtain ⟨h1, hp1, -, hs | ⟨-, h2, hp2, hs, -⟩⟩ := h
  · have := (a52Parse_size hp1).2
    omega
  · have := (a52Parse_size hp1).2
    have := (a52Parse_size hp2).2
    omega

end

/-! ### The packet with the frame appended -/

/-- Appending a frame that fits to the packet in progress (rule R160). -/
theorem eac3Append_ok {m : Memory} {cap : Nat} {samples : Word} {pts dts : Stamp} {p : List Byte} {s : State}
    (hf : 8 + p.length + ceil2 (frameLen s) ≤ cap) (hc : cap ≤ 65536) :
    eac3Append (withPacket m cap samples pts dts p s) =
      .ok () (withPacket m cap samples pts dts (p ++ outputBytes true s.sOutBe s.frameIn.data) s) := by
  have hcur := withPacket_cursor (m := m) (samples := samples) (pts := pts) (dts := dts) (s := s) (p := p)
    (Nat.le_trans (Nat.le_add_right _ _) hf) hc
  have hcap := withPacket_obCap (m := m) (samples := samples) (pts := pts) (dts := dts) (s := s) (p := p) hc
  have hroom : ¬ cap - (Config.hdr + p.length) < ceil2 (frameLen s) := by simp only [Config.hdr]; omega
  unfold eac3Append
  rw [hcur, hcap, frameLen_withPacket, if_neg hroom, inRead_ok (by rw [frameLen_withPacket, Nat.zero_add])]
  simp only [Act.ok_andThen, withPacket_frameIn, List.drop_zero, frameLen, List.take_length]
  exact packetWrite_ok hf hc

section
variable {s : State} {blocks : Nat}

theorem eac3Body_error {k : ErrKind} (hb : eac3Blocks s.frameIn.data = .error k) : eac3Body s = raiseError k s := by
  simp [eac3Body, hb]

/-- The first frame of an aggregate begins the packet and is its payload. -/
theorem eac3Body_first (ha : s.obActive = false) (hacc : eac3Accepts s.frameIn.data blocks) :
    eac3Body s = eac3Count blocks (withPacket s.ob 24576 (packetSamples 24576 s.sBpf) s.frameIn.pts s.frameIn.dts
      (outputBytes true s.sOutBe s.frameIn.data) s) := by
  have hlen : frameLen s ≤ 8192 := eac3Accepts_length hacc
  have hbegin : eac3Begin s = .ok () (withPacket s.ob 24576 (packetSamples 24576 s.sBpf) s.frameIn.pts s.frameIn.dts
      [] s) := by
    simp only [eac3Begin, ha, Bool.false_eq_true, if_false]
    exact packetBegin_ok ha (by decide) (by decide) (by decide)
  rw [eac3Body, eac3Blocks_eq_ok.mpr hacc]
  simp only [hbegin, Act.ok_andThen]
  rw [eac3Append_ok (by simp only [ceil2, List.length_nil]; omega) (by decide)]
  rfl

theorem eac3Body_later (ha : s.obActive = true) (hacc : eac3Accepts s.frameIn.data blocks) :
    eac3Body s = (eac3Append s).andThen fun _ t => eac3Count blocks t := by
  simp [eac3Body, eac3Blocks_eq_ok.mpr hacc, eac3Begin, ha]

/-- A later frame that fits stands at CURSOR. -/
theorem eac3Body_appended (ha : s.obActive = true) (hacc : eac3Accepts s.frameIn.data blocks)
    (hf : s.cursor.toNat + ceil2 (frameLen s) ≤ s.obCap.toNat) (hc : s.obCap.toNat ≤ 65536) :
    eac3Body s = eac3Count blocks { s with
      ob := s.ob.write s.cursor.toNat (outputBytes true s.sOutBe s.frameIn.data),
      cursor := BitVec.ofNat 17 (s.cursor.toNat + ceil2 (frameLen s)) } := by
  rw [eac3Body_later ha hacc, eac3Append_at ha hf hc, Act.ok_andThen]

theorem eac3Body_overBudget (ha : s.obActive = true) (hacc : eac3Accepts s.frameIn.data blocks)
    (hf : s.obCap.toNat - s.cursor.toNat < ceil2 (frameLen s)) : eac3Body s = raiseError .sizeMismatch s := by
  rw [eac3Body_later ha hacc, eac3Append, if_pos hf]
  rfl

end

/-- The sixth block: the burst of the payload so far stands on PKT_OUT, and the block counter is 0 (rule R162). -/
theorem eac3Count_sent {m : Memory} {samples : Word} {pts dts : Stamp} {p : List Byte} {s : State} {blocks : Nat}
    (hb : s.eac3Blocks.toNat + blocks = 6) (hp : 8 + p.length ≤ 24576) :
    (eac3Count blocks (withPacket m 24576 samples pts dts p s)).andThen finishCommand =
      .ok () { sentPacket (burst s.sOutBe 0x0015 1 p 24576) samples pts dts s with
        eac3Blocks := 0, ob := m.write 0 (burst s.sOutBe 0x0015 1 p 24576) } := by
  have hfinish : ∀ b, { finishedPacket m 24576 samples pts dts b s with eac3Blocks := 0 } =
      finishedPacket m 24576 samples pts dts b { s with eac3Blocks := 0 } := fun _ => rfl
  rw [eac3Count_six (s := withPacket m 24576 samples pts dts p s) hb,
    packetFinalize_ok hp (by decide) (by decide) (.inl rfl)]
  simp only [Act.ok_andThen, hfinish, finishCommand]
  rw [handoff_finished (burst_length hp) (by decide)]
  rfl

/-- Settles O34: BEGIN, the frame as the payload, and a total below six. -/
theorem eac3FirstFrame : Obligations.Eac3FirstFrame := by
  intro s blocks hs ha hacc hb
  have hbody := (eac3Body_first (s := commandStart s) ha hacc).trans (eac3Count_more hb)
  change execute (submitWith eac3Body) s = _
  rw [acceptable hs, hbody]
  simp only [withPacket, outputBytes_length, Config.hdr]
  rfl

/-- Settles O35: the frame at CURSOR and a total below six. -/
theorem eac3LaterFrame : Obligations.Eac3LaterFrame := by
  intro s blocks hs ha hc hacc hb hf
  have hbody := (eac3Body_appended (s := commandStart s) ha hacc hf hc).trans (eac3Count_more hb)
  change execute (submitWith eac3Body) s = _
  rw [acceptable hs, hbody]
  rfl

/-- A state of the invariant with a packet in progress is the payload so far put over its own `OB`. -/
theorem Inv.eq_withPacket {s : State} {p : List Byte} (hi : Inv s) (ha : s.obActive = true)
    (hp : p.length = s.cursor.toNat - 8) (hb : bytesAt s.ob 8 p) :
    s = withPacket s.ob 24576 s.obSamples s.obPts s.obDts p s := by
  obtain ⟨hcap, h8, -⟩ := hi.r51.activePacket ha
  have h := Machine.eq_withPacket ha hi.obWf hp h8 hb
  rw [hcap] at h
  exact h.symm

/-- Settles O36: the payload is the frame alone, or the bytes before it with the frame appended. -/
theorem eac3SixthBlock : Obligations.Eac3SixthBlock := by
  constructor
  · intro s hs ha h0 hacc b
    have hl : frameLen s ≤ 8192 := eac3Accepts_length hacc
    change execute (submitWith eac3Body) s = _
    rw [acceptable hs, eac3Body_first (s := commandStart s) ha hacc,
      eac3Count_sent (by rw [commandStart_eac3Blocks, h0]; rfl)
        (by rw [outputBytes_length]; show 8 + ceil2 (frameLen s) ≤ _; simp only [ceil2]; omega)]
    show _ = Host.Outcome.next { handedOver b (packetSamples 24576 s.sBpf) s.frameIn.pts s.frameIn.dts s with
      eac3Blocks := s.eac3Blocks, ob := s.ob.write 0 b }
    rw [h0]
    rfl
  · intro s blocks before hi hs ha hacc hb hf hlen hbytes b
    obtain ⟨hcap, h8, -⟩ := hi.r51.activePacket ha
    have hcap' : s.obCap.toNat = 24576 := hcap
    have hstart : commandStart s = withPacket s.ob 24576 s.obSamples s.obPts s.obDts before (commandStart s) :=
      congrArg commandStart (hi.eq_withPacket ha hlen hbytes)
    have hfit : 8 + before.length + ceil2 (frameLen s) ≤ 24576 := by
      have h8' : 8 ≤ s.cursor.toNat := h8
      omega
    have happend : eac3Append (commandStart s) = .ok () (withPacket s.ob 24576 s.obSamples s.obPts s.obDts
        (before ++ outputBytes true s.sOutBe s.frameIn.data) (commandStart s)) :=
      (congrArg eac3Append hstart).trans (eac3Append_ok hfit (by decide))
    change execute (submitWith eac3Body) s = _
    rw [acceptable hs, eac3Body_later (s := commandStart s) ha hacc, happend]
    simp only [Act.ok_andThen]
    rw [eac3Count_sent (s := commandStart s) hb
      (by rw [List.length_append, outputBytes_length, ← Nat.add_assoc]; exact hfit)]
    rfl

/-- Settles O37: the header checks raise before BEGIN, and the byte budget before the append. -/
theorem eac3Errors : Obligations.Eac3Errors := by
  intro s hs
  have raised : ∀ {k : ErrKind}, errorFlushes k = true → eac3Blocks s.frameIn.data = .error k →
      exec .encEac3 s = .next (rejected k s) :=
    fun hk hb => submit_raise hs hk (eac3Body_error (s := commandStart s) hb)
  have dropped : ∀ n : Nat, (s.frameIn.data.drop n).length = frameLen s - n := fun _ => List.length_drop
  refine ⟨fun hp => raised rfl (eac3Blocks_noHeader hp), fun h1 hp =>
    ⟨fun hl => raised rfl (eac3Blocks_short hp hl),
      fun hl hp2 => raised rfl (eac3Blocks_second hp hl (eac3CheckSecond_noHeader hp2)),
      fun h2 hl hp2 => ⟨fun hsize => ?_, fun hsize hk => ?_⟩⟩, fun blocks hacc ha hf => ?_⟩
  · exact raised rfl (eac3Blocks_second hp hl (eac3CheckSecond_size hp2 (by rwa [dropped])))
  · exact raised rfl (eac3Blocks_second hp hl (eac3CheckSecond_kind hp2 (by rwa [dropped]) hk))
  · exact submit_raise hs rfl (eac3Body_overBudget (s := commandStart s) ha hacc hf)

/-- Settles O38: the frame at CURSOR, and a total past six that flushes it. -/
theorem eac3PastSix : Obligations.Eac3PastSix := by
  intro s blocks hi hs ha hacc hb hf
  obtain ⟨hcap, -⟩ := hi.r51.activePacket ha
  have hc : s.obCap.toNat ≤ 65536 := hcap.trans_le (by decide)
  have hbody := (eac3Body_appended (s := commandStart s) ha hacc hf hc).trans (eac3Count_past hb)
  change execute (submitWith eac3Body) s = _
  rw [acceptable hs, hbody]
  rfl

end Sys2Proof.Machine

/-! ENC_DTS and ENC_DTSHD (44_dts.md, 45_dtshd.md): the checks in their order, and the burst past them. -/

namespace Sys2Proof.Machine

/-! ### ENC_DTS -/

/-- The sample counts of rule R172 and their codes. -/
theorem dtsDataType_eq_some_iff {n : Nat} {dt : Half} : dtsDataType n = some dt ↔ (n, dt) ∈ dtsCodes := by
  unfold dtsDataType
  split <;> simp_all [dtsCodes, eq_comm]

theorem dtsDataType_eq_none_iff {n : Nat} : dtsDataType n = none ↔ n ∉ dtsCodes.map (·.1) := by
  unfold dtsDataType
  split <;> simp_all [dtsCodes]

/-- A frame length of the table, with a code that is not 0. -/
theorem dtsCodes_cases {n : Nat} {dt : Half} (h : (n, dt) ∈ dtsCodes) : (n = 512 ∨ n = 1024 ∨ n = 2048) ∧ dt ≠ 0 := by
  simp only [dtsCodes, List.mem_cons, Prod.mk.injEq, List.not_mem_nil, or_false] at h
  rcases h with ⟨rfl, rfl⟩ | ⟨rfl, rfl⟩ | ⟨rfl, rfl⟩ <;> decide

section
variable {s : State} {h : DtsHeader}

theorem dtsBody_noHeader (hp : dtsParse s.frameIn.data = none) : dtsBody s = raiseError .malformedHeader s := by
  simp [dtsBody, hp]

theorem dtsBody_framing (hp : dtsParse s.frameIn.data = some h) (hl : h.frameLength ∉ dtsCodes.map (·.1)) :
    dtsBody s = raiseError .unsupportedFraming s := by
  simp [dtsBody, hp, dtsDataType_eq_none_iff.mpr hl]

theorem dtsBody_short {dt : Half} (hp : dtsParse s.frameIn.data = some h) (hl : (h.frameLength, dt) ∈ dtsCodes)
    (hn : frameLen s < h.frameSize) : dtsBody s = raiseError .sizeMismatch s := by
  simp [dtsBody, hp, dtsDataType_eq_some_iff.mpr hl, hn]

theorem dtsBody_emits {dt : Half} (hp : dtsParse s.frameIn.data = some h) (hl : (h.frameLength, dt) ∈ dtsCodes)
    (hn : h.frameSize ≤ frameLen s) : dtsBody s = dtsEmit h dt s := by
  simp [dtsBody, hp, dtsDataType_eq_some_iff.mpr hl, Nat.not_lt.mpr hn]

/-- A core whose payload does not fit its sample count (rule R174). -/
theorem dtsEmit_oversize {dt : Half} (hn : h.frameSize ≤ frameLen s)
    (hf : h.frameLength * 4 <
      (dtsBurstPayload s.sOutBe h.variant (s.frameIn.data.take h.frameSize)).length + 8) :
    dtsEmit h dt s = raiseError .sizeMismatch s := by
  rw [dtsPayload_length] at hf
  rw [dtsEmit, inRead_ok (by rwa [Nat.zero_add])]
  exact if_pos hf

end

theorem exists_mem_dtsCodes {n : Nat} (h : n ∈ dtsCodes.map (·.1)) : ∃ dt, (n, dt) ∈ dtsCodes := by
  obtain ⟨⟨n, dt⟩, hc, rfl⟩ := List.mem_map.mp h
  exact ⟨dt, hc⟩

/-- Settles O39: the checks pass, and the core goes out in one burst. -/
theorem dtsCorePacket : Obligations.DtsCorePacket := by
  intro s h dt hs ha hp hl hn p b hf
  obtain ⟨hlen, hd⟩ := dtsCodes_cases hl
  refine submit_sent hs ?_
  rw [dtsBody_emits (s := commandStart s) hp hl hn]
  exact dtsEmit_sent (s := commandStart s) ha hlen hd hn hf

/-- Settles O40: each check of the body, and the fit of the payload. -/
theorem dtsErrors : Obligations.DtsErrors := by
  intro s hs
  refine ⟨fun hp => submit_raise hs rfl (dtsBody_noHeader (s := commandStart s) hp), fun h hp =>
    ⟨fun hl => submit_raise hs rfl (dtsBody_framing (s := commandStart s) hp hl), fun hl hn => ?_, fun hl hn hf => ?_⟩⟩
  · obtain ⟨dt, hc⟩ := exists_mem_dtsCodes hl
    exact submit_raise hs rfl (dtsBody_short (s := commandStart s) hp hc hn)
  · obtain ⟨dt, hc⟩ := exists_mem_dtsCodes hl
    exact submit_raise hs rfl ((dtsBody_emits (s := commandStart s) hp hc hn).trans
      (dtsEmit_oversize (s := commandStart s) hn hf))

/-! ### ENC_DTSHD -/

/-- The periods of rule R182 and their subtypes. -/
theorem dtshdSubtype_eq_some_iff {n st : Nat} : dtshdSubtype n = some st ↔ (n, st) ∈ dtshdPeriods := by
  unfold dtshdSubtype
  split <;> simp_all [dtshdPeriods, eq_comm]

theorem dtshdSubtype_eq_none_iff {n : Nat} : dtshdSubtype n = none ↔ n ∉ dtshdPeriods.map (·.1) := by
  unfold dtshdSubtype
  split <;> simp_all [dtshdPeriods]

theorem exists_mem_dtshdPeriods {n : Nat} (h : n ∈ dtshdPeriods.map (·.1)) : ∃ st, (n, st) ∈ dtshdPeriods := by
  obtain ⟨⟨n, st⟩, hc, rfl⟩ := List.mem_map.mp h
  exact ⟨st, hc⟩

/-- The capacity of a period is a multiple of 16 inside `OB`. -/
theorem dtshdPeriods_capacity {n st : Nat} (h : (n, st) ∈ dtshdPeriods) : n * 4 % 16 = 0 ∧ n * 4 ≤ 65536 := by
  simp only [dtshdPeriods, List.mem_cons, Prod.mk.injEq, List.not_mem_nil, or_false] at h
  omega

section
variable {s : State} {h : DtsHeader} {st : Nat}

theorem dtshdBody_noHeader (hp : dtsParse s.frameIn.data = none) : dtshdBody s = raiseError .malformedHeader s := by
  simp [dtshdBody, hp]

theorem dtshdBody_noRate (hp : dtsParse s.frameIn.data = some h) (hr : h.rate = 0) :
    dtshdBody s = raiseError .malformedHeader s := by
  simp [dtshdBody, hp, hr]

theorem dtshdBody_framing (hp : dtsParse s.frameIn.data = some h) (hr : h.rate ≠ 0)
    (hl : dtshdPeriod s.sOutRate h ∉ dtshdPeriods.map (·.1)) : dtshdBody s = raiseError .unsupportedFraming s := by
  simp [dtshdBody, hp, hr, dtshdSubtype_eq_none_iff.mpr hl]

theorem dtshdBody_short (hp : dtsParse s.frameIn.data = some h) (hr : h.rate ≠ 0)
    (hl : (dtshdPeriod s.sOutRate h, st) ∈ dtshdPeriods) (hn : frameLen s < h.frameSize) :
    dtshdBody s = raiseError .sizeMismatch s := by
  simp [dtshdBody, hp, hr, dtshdSubtype_eq_some_iff.mpr hl, hn]

theorem dtshdBody_oversize (hp : dtsParse s.frameIn.data = some h) (hr : h.rate ≠ 0)
    (hl : (dtshdPeriod s.sOutRate h, st) ∈ dtshdPeriods) (hn : h.frameSize ≤ frameLen s)
    (hf : dtshdPeriod s.sOutRate h * 4 < 20 + ceil2 h.frameSize) : dtshdBody s = raiseError .sizeMismatch s := by
  simp [dtshdBody, hp, hr, dtshdSubtype_eq_some_iff.mpr hl, Nat.not_lt.mpr hn, dtshdOverhead, hf]

/-- Past the checks the frame goes core-only or whole (rule R183). -/
theorem dtshdBody_emits (hp : dtsParse s.frameIn.data = some h) (hr : h.rate ≠ 0)
    (hl : (dtshdPeriod s.sOutRate h, st) ∈ dtshdPeriods) (hn : h.frameSize ≤ frameLen s)
    (hf : 20 + ceil2 h.frameSize ≤ dtshdPeriod s.sOutRate h * 4) :
    dtshdBody s = if dtshdCoreOnly (dtshdPeriod s.sOutRate h * 4) s then
        dtshdEmit (dtshdPeriod s.sOutRate h * 4) h.frameSize st (dtshdSourceBe h.variant) (dtshdDowngrade s)
      else dtshdEmit (dtshdPeriod s.sOutRate h * 4) (frameLen s) st (dtshdSourceBe h.variant) s := by
  simp [dtshdBody, hp, hr, dtshdSubtype_eq_some_iff.mpr hl, Nat.not_lt.mpr hn, dtshdOverhead, Nat.not_lt.mpr hf]

theorem dtshdCoreOnly_iff {cap : Nat} : dtshdCoreOnly cap s = true ↔
    s.dtshdSkip = true ∨ cap < 20 + ceil2 (frameLen s) := by
  rw [dtshdCoreOnly, Bool.or_eq_true, decide_eq_true_iff]
  rfl

end

theorem ceil2_mono {m n : Nat} (h : m ≤ n) : ceil2 m ≤ ceil2 n := by
  unfold ceil2
  omega

/-- Settles O41: the whole frame fits, so it is not core-only. -/
theorem dtshdWholeFrame : Obligations.DtshdWholeFrame := by
  intro s h period st hs ha hskip hp hr hperiod hl hn hf b
  obtain ⟨h16, hc⟩ := dtshdPeriods_capacity hl
  subst hperiod
  have hcore : ¬ dtshdCoreOnly (dtshdPeriod (commandStart s).sOutRate h * 4) (commandStart s) = true := by
    rw [dtshdCoreOnly_iff]
    rintro (hk | hk)
    · rw [commandStart_dtshdSkip, hskip] at hk
      cases hk
    · exact absurd hf (Nat.not_le.mpr hk)
  have hsent := dtshdEmit_sent (m := frameLen s) (st := st) (v := h.variant) (s := commandStart s) ha h16 hc
    (Nat.le_refl _) hf
  have hwhole : s.frameIn.data.take (frameLen s) = s.frameIn.data := List.take_length
  rw [commandStart_frameIn, hwhole] at hsent
  refine submit_sent hs ?_
  rw [dtshdBody_emits (s := commandStart s) hp hr hl hn (Nat.le_trans (Nat.add_le_add_left (ceil2_mono hn) 20) hf),
    if_neg hcore]
  exact hsent

/-- What the downgrade leaves at the start of a command: the flag set, and the notice exactly when it was not
(rule R183). -/
theorem dtshdDowngrade_commandStart (s : State) : dtshdDowngrade (commandStart s) =
    { commandStart s with dtshdSkip := true, downgradeNotice := !s.dtshdSkip } := by
  cases hk : s.dtshdSkip <;> simp [dtshdDowngrade, commandStart, clearPort, hk]

/-- Settles O43: each check of the body. -/
theorem dtshdErrors : Obligations.DtshdErrors := by
  intro s hs
  refine ⟨fun hp => submit_raise hs rfl (dtshdBody_noHeader (s := commandStart s) hp), fun h hp =>
    ⟨fun hr => submit_raise hs rfl (dtshdBody_noRate (s := commandStart s) hp hr), fun hr =>
      ⟨fun hl => submit_raise hs rfl (dtshdBody_framing (s := commandStart s) hp hr hl), fun hl hn => ?_,
        fun hl hn hf => ?_⟩⟩⟩
  · obtain ⟨st, hc⟩ := exists_mem_dtshdPeriods hl
    exact submit_raise hs rfl (dtshdBody_short (s := commandStart s) hp hr hc hn)
  · obtain ⟨st, hc⟩ := exists_mem_dtshdPeriods hl
    exact submit_raise hs rfl (dtshdBody_oversize (s := commandStart s) hp hr hc hn hf)

end Sys2Proof.Machine

namespace Sys2Proof.Laws

open Sys2Proof.Machine

/-- Settles O42: the frame goes core-only from the downgraded state. -/
theorem dtshdCoreOnly : Obligations.DtshdCoreOnly := by
  intro s h period st hs ha hp hr hperiod hl hn hf hcause b
  obtain ⟨h16, hc⟩ := dtshdPeriods_capacity hl
  subst hperiod
  have hsent := dtshdEmit_sent (m := h.frameSize) (st := st) (v := h.variant)
    (s := { commandStart s with dtshdSkip := true, downgradeNotice := !s.dtshdSkip }) ha h16 hc hn hf
  have hcore : Machine.dtshdCoreOnly (dtshdPeriod (commandStart s).sOutRate h * 4) (commandStart s) = true :=
    dtshdCoreOnly_iff.mpr hcause
  change execute (submitWith dtshdBody) s = _
  rw [acceptable hs, dtshdBody_emits (s := commandStart s) hp hr hl hn hf, if_pos hcore, dtshdDowngrade_commandStart]
  exact congrArg settle hsent

end Sys2Proof.Laws

/-! ENC_TRUEHD (46_truehd_mat.md): the padding rule, the errors before a frame is placed, and what a placed frame
leaves, read off from the layout `matLaid`. -/

namespace Sys2Proof.Machine

/-! ### The padding (rule R194) -/

/-- The difference of two input timings, modulo 65536. -/
theorem toNat_timing_sub (t p : Half) : (t - p).toNat = (t.toNat + 65536 - p.toNat) % 65536 := by
  have := p.isLt
  rw [BitVec.toNat_sub]
  congr 1
  omega

theorem thdClamp_sub (bytes prev : Nat) : thdClamp ((bytes : Int) - (prev : Int)) =
    if prev ≤ bytes ∧ bytes - prev < 30712 then bytes - prev else 0 := by
  have hlimit : (Config.matPadLimit : Int) = 30712 := rfl
  by_cases h : prev ≤ bytes ∧ bytes - prev < 30712
  · rw [if_pos h, thdClamp, if_neg (by omega)]
    omega
  · rw [if_neg h, thdClamp, if_pos (by omega)]

theorem thdPadding_noFrame {s : State} (h : s.thdPrevSize = 0) (t : Half) : thdPadding t s = 0 := if_pos h

theorem thdPadding_eq {s : State} (h : s.thdPrevSize ≠ 0) (t : Half) : thdPadding t s =
    let bytes := ((t.toNat + 65536 - s.thdPrevTime.toNat) % 65536) * 2560 / s.thdSpf.toNat
    if s.thdPrevSize.toNat ≤ bytes ∧ bytes - s.thdPrevSize.toNat < 30712 then bytes - s.thdPrevSize.toNat else 0 := by
  rw [thdPadding, if_neg h, toNat_timing_sub]
  exact thdClamp_sub _ _

/-- Settles O45: the three cases of the padding with its difference of timings. -/
theorem thdPaddingRule : Obligations.ThdPaddingRule := by
  intro s t bytes prev
  have hne : prev ≠ 0 → s.thdPrevSize ≠ 0 := fun h h0 => h (congrArg BitVec.toNat h0)
  refine ⟨fun h => thdPadding_noFrame (BitVec.eq_of_toNat_eq h) t, fun h hle hlt => ?_, fun h hout => ?_⟩
  · exact (thdPadding_eq (hne h) t).trans (if_pos ⟨hle, hlt⟩)
  · refine (thdPadding_eq (hne h) t).trans (if_neg ?_)
    rintro ⟨hle, hlt⟩
    omega

/-! ### Errors before the frame is placed -/

theorem truehdBody_short {s : State} (h : frameLen s < 10) : truehdBody s = raiseError .malformedHeader s := by
  unfold truehdBody
  split
  next hd =>
    rw [frameLen, hd] at h
    simp only [List.length_cons] at h
    omega
  · rfl

section
variable {s : State} {b0 b1 b2 b3 b4 b5 b6 b7 b8 b9 : Byte} {rest : List Byte}

theorem truehdBody_badSync {k : ErrKind}
    (hd : s.frameIn.data = b0 :: b1 :: b2 :: b3 :: b4 :: b5 :: b6 :: b7 :: b8 :: b9 :: rest)
    (hm : thdMajorSync b4 b5 b6 b7 b8 b9 = .error k) : truehdBody s = raiseError k s := by
  unfold truehdBody
  split
  next hd' =>
    rw [hd] at hd'
    cases hd'
    rw [hm]
  next hno => exact absurd hd (hno _ _ _ _ _ _ _ _ _ _ _)

theorem truehdBody_place {spf : Option (BitVec 9)}
    (hd : s.frameIn.data = b0 :: b1 :: b2 :: b3 :: b4 :: b5 :: b6 :: b7 :: b8 :: b9 :: rest)
    (hm : thdMajorSync b4 b5 b6 b7 b8 b9 = .ok spf) : truehdBody s = thdPlace (be16 b2 b3) (thdApplySync spf s) := by
  unfold truehdBody
  split
  next hd' =>
    rw [hd] at hd'
    cases hd'
    rw [hm]
  next hno => exact absurd hd (hno _ _ _ _ _ _ _ _ _ _ _)

end

theorem thdMajorSync_badFormat {b7 : Byte} (ha : b7 ≠ 0xBA) (hb : b7 ≠ 0xBB) (b8 b9 : Byte) :
    thdMajorSync 0xF8 0x72 0x6F b7 b8 b9 = .error .malformedHeader := by
  have hsync : be24 0xF8 0x72 0x6F = 0xF8726F := by decide
  rw [thdMajorSync, if_pos hsync, if_neg ha, if_neg hb]

theorem thdMajorSync_none {b4 b5 b6 : Byte} (h : ¬ (b4 = 0xF8 ∧ b5 = 0x72 ∧ b6 = 0x6F)) (b7 b8 b9 : Byte) :
    thdMajorSync b4 b5 b6 b7 b8 b9 = .ok none :=
  if_neg fun e => h (be24_inj (e.trans (by decide : (0xF8726F : BitVec 24) = be24 0xF8 0x72 0x6F)))

theorem thdPlace_noSync {s : State} (h : s.thdSpf = 0) (t : Half) : thdPlace t s = raiseError .stateViolation s :=
  if_pos h

/-- Settles O49: too short, a major sync of another format, and no major sync before. -/
theorem thdErrors : Obligations.ThdErrors := by
  intro s hs
  refine ⟨fun hl => submit_raise hs rfl (truehdBody_short (s := commandStart s) hl),
    fun b0 b1 b2 b3 b4 b5 b6 b7 b8 b9 rest hd => ⟨fun h4 h5 h6 ha hb => ?_, fun hm h0 => ?_⟩⟩
  · subst h4 h5 h6
    exact submit_raise hs rfl (truehdBody_badSync (s := commandStart s) hd (thdMajorSync_badFormat ha hb b8 b9))
  · exact submit_raise hs rfl ((truehdBody_place (s := commandStart s) hd (thdMajorSync_none hm b7 b8 b9)).trans
      (thdPlace_noSync (s := commandStart s) h0 _))

/-! ### The MAT buffers of the state -/

/-- The state elements that MAT_INSERT wrote, buffer by buffer. -/
theorem matCommit_eq_withMat (i : Bool) (w : MatWork) (s : State) : matCommit w s =
    { withMat (!i) (matBuf (!i) w) (withMat i (matBuf i w) s) with
      matFill := BitVec.ofNat 16 w.fill, matIdx := w.idx } := by
  cases i <;> rfl

/-- Putting back the other buffer's own bytes changes nothing. -/
theorem withMat_other_self (i : Bool) (m : Memory) (s : State) :
    withMat (!i) (spaceOf (matSpace (!i)) s) (withMat i m s) = withMat i m s := by
  cases i <;> rfl

theorem activeMat_eq_ite (s : State) : activeMat s = if s.matIdx then s.mat1 else s.mat0 := by
  unfold activeMat
  cases s.matIdx <;> rfl

theorem activeMat_congr {s t : State} (hi : t.matIdx = s.matIdx) (h0 : t.mat0 = s.mat0) (h1 : t.mat1 = s.mat1) :
    activeMat t = activeMat s := by
  rw [activeMat_eq_ite, activeMat_eq_ite, hi, h0, h1]

/-- A write to the buffer of an index, field by field. -/
theorem withMat_write (i : Bool) (a : Nat) (bs : List Byte) (s : State) :
    withMat i ((spaceOf (matSpace i) s).write a bs) s =
      { s with mat0 := if i then s.mat0 else s.mat0.write a bs, mat1 := if i then s.mat1.write a bs else s.mat1 } := by
  cases i <;> rfl

theorem withMat_eq_ite (i : Bool) (m : Memory) (s : State) :
    withMat i m s = { s with mat0 := if i then s.mat0 else m, mat1 := if i then m else s.mat1 } := by
  cases i <;> rfl

/-- What MAT_INSERT of a frame with a layout leaves (rule R195): the bytes at the fill, or, past the end of the MAT
frame, the rest from the start of the other buffer. -/
theorem matInsert_commits {pad : Nat} {s : State} {bs : List Byte} {extra : Nat} (hf : s.matFill.toNat ≤ 61408)
    (hn : 0 < frameLen s) (hl : matLaid (matAhead s.matFill.toNat) pad s.frameIn.data = some (bs, extra)) :
    ∃ w, matInsert pad s = .ok w (matCommit w s) ∧ w.total = frameLen s + extra ∧
      (s.matFill.toNat + bs.length < 61424 → w.done = false ∧ w.fill = s.matFill.toNat + bs.length ∧
        matCommit w s = { withMat s.matIdx ((activeMat s).write s.matFill.toNat bs) s with
          matFill := BitVec.ofNat 16 (s.matFill.toNat + bs.length) }) ∧
      (61424 ≤ s.matFill.toNat + bs.length → w.done = true ∧ w.fill = s.matFill.toNat + bs.length - 61424 ∧
        w.outbuf = s.matIdx ∧
        matBuf s.matIdx w = (activeMat s).write s.matFill.toNat (bs.take (61424 - s.matFill.toNat)) ∧
        matCommit w s = { withMat (!s.matIdx)
            ((spaceOf (matSpace (!s.matIdx)) s).write 0 (bs.drop (61424 - s.matFill.toNat)))
            (withMat s.matIdx ((activeMat s).write s.matFill.toNat (bs.take (61424 - s.matFill.toNat))) s) with
          matFill := BitVec.ofNat 16 (s.matFill.toNat + bs.length - 61424), matIdx := !s.matIdx }) := by
  have hlaid := matInsert_laid (pad := pad) hf hn
  rw [hl] at hlaid
  obtain ⟨i, w, hw, hp⟩ := hlaid
  have hbuf : ∀ j, matBuf j (matWork i (frameLen s) pad s) = spaceOf (matSpace j) s := by intro j; cases j <;> rfl
  refine ⟨w, hw, hp.total, fun hlt => ?_, fun hge => ?_⟩
  · obtain ⟨hdone, -, hidx, hfill, hown, hother⟩ := hp.stays hlt
    refine ⟨hdone, hfill, ?_⟩
    rw [matCommit_eq_withMat s.matIdx]
    change matBuf s.matIdx w = (matBuf s.matIdx (matWork i (frameLen s) pad s)).write s.matFill.toNat bs at hown
    change matBuf (!s.matIdx) w = matBuf (!s.matIdx) (matWork i (frameLen s) pad s) at hother
    rw [hown, hother, hbuf, hbuf, hfill, hidx, withMat_other_self]
    simp only [withMat_eq_ite]
    rfl
  · obtain ⟨-, hdone, hout, hidx, hfill, hown, hother⟩ := hp.completes hge
    change matBuf s.matIdx w = (matBuf s.matIdx (matWork i (frameLen s) pad s)).write s.matFill.toNat _ at hown
    change matBuf (!s.matIdx) w = _ at hother
    rw [hbuf] at hown
    refine ⟨hdone, hfill, hout, hown, ?_⟩
    rw [matCommit_eq_withMat s.matIdx, hown, hother, hbuf, hfill, hidx]
    rfl

/-! ### A frame that is absorbed -/

/-- A frame that does not complete the MAT frame (rules R191, R198). -/
theorem thdPlace_absorbed {t : Half} {s : State} {bs : List Byte} {extra : Nat} (h0 : s.thdSpf ≠ 0)
    (hf : s.matFill.toNat ≤ 61408) (hn : 0 < frameLen s)
    (hl : matLaid (matAhead s.matFill.toNat) (thdPadding t s) s.frameIn.data = some (bs, extra))
    (hlt : s.matFill.toNat + bs.length < 61424) :
    thdPlace t s = .ok .more { withMat s.matIdx ((activeMat s).write s.matFill.toNat bs) s with
      matFill := BitVec.ofNat 16 (s.matFill.toNat + bs.length), thdPrevSize := BitVec.ofNat 32 (frameLen s + extra),
      thdPrevTime := t, thdFrameCount := BitVec.ofNat 5 (min (s.thdFrameCount.toNat + 1) 24) } := by
  obtain ⟨w, hw, htotal, hstays, -⟩ := matInsert_commits hf hn hl
  obtain ⟨hdone, -, hcommit⟩ := hstays hlt
  rw [thdPlace, if_neg h0, hw, Act.ok_andThen]
  simp only [hdone, Bool.false_eq_true, if_false, hcommit, thdAccount, htotal, thdCount, withMat_eq_ite]

/-- A SUBMIT that absorbs its TrueHD frame. -/
theorem exec_encTruehd_absorbed {s : State} {t : Half} {spf : BitVec 9} {count : BitVec 5} {bs : List Byte}
    {extra : Nat} (hs : submitting s) (ht : thdTiming s t spf count) (hf : s.matFill.toNat ≤ 61408)
    (hl : matLaid (matAhead s.matFill.toNat) (thdPadding t { s with thdSpf := spf }) s.frameIn.data = some (bs, extra))
    (hlt : s.matFill.toNat + bs.length < 61424) :
    exec .encTruehd s = .next { withMat s.matIdx ((activeMat s).write s.matFill.toNat bs) (absorbed s) with
      matFill := BitVec.ofNat 16 (s.matFill.toNat + bs.length), thdPrevSize := BitVec.ofNat 32 (frameLen s + extra),
      thdPrevTime := t, thdSpf := spf, thdFrameCount := BitVec.ofNat 5 (min (count.toNat + 1) 24) } := by
  obtain ⟨hbody, h0, h10⟩ := truehdBody_timed (s := commandStart s) ht
  have h10' : 0 < frameLen s := Nat.lt_of_lt_of_le (by decide) h10
  change execute (submitWith truehdBody) s = _
  rw [acceptable hs, hbody,
    thdPlace_absorbed (s := { commandStart s with thdSpf := spf, thdFrameCount := count }) h0 hf h10' hl hlt]
  have hm : activeMat { commandStart s with thdSpf := spf, thdFrameCount := count } = activeMat s :=
    activeMat_congr rfl rfl rfl
  rw [hm]
  simp only [withMat_eq_ite]
  rfl

/-- A frame that with its padding stays before the next marker is laid as it is. -/
theorem matLaid_before {seg : MatSegment} {pad : Nat} {d : List Byte} (h : pad + d.length < seg.gap)
    (more : List MatSegment) : matLaid (seg :: more) pad d = some (List.replicate pad 0 ++ d, 0) := if_pos h

/-- Settles O47: the layout ends before the first marker ahead. -/
theorem thdFrameBeforeMarker : Obligations.ThdFrameBeforeMarker := by
  intro s t spf count hs ht pad fill hfit
  have hl : matLaid (matAhead fill) pad s.frameIn.data = some (List.replicate pad 0 ++ s.frameIn.data, 0) := by
    have hlen : s.frameIn.data.length = frameLen s := rfl
    unfold matAhead
    split
    · omega
    · split <;> exact matLaid_before (by dsimp only; omega) _
  have hsum : fill + (List.replicate pad (0 : Byte) ++ s.frameIn.data).length = fill + pad + frameLen s := by
    rw [List.length_append, List.length_replicate, Nat.add_assoc]
    rfl
  have h := exec_encTruehd_absorbed hs ht (by omega) hl (by omega)
  have hm : activeMat s = spaceOf (matSpace s.matIdx) (absorbed s) :=
    (activeMat_congr (t := absorbed s) rfl rfl rfl).symm
  rw [hsum, hm, withMat_write] at h
  exact h

/-- Settles O46: the start marker is due at once, and the frame ends before the middle one. -/
theorem thdFirstFrame : Obligations.ThdFirstFrame := by
  intro s b0 b1 b2 b3 b7 b8 b9 rest rate hs hd hrate hfill hprev hlen
  have ht : thdTiming s (be16 b2 b3) ((40 : BitVec 9) <<< (rate &&& 3).toNat) 0 :=
    ⟨b0, b1, b2, b3, 0xF8, 0x72, 0x6F, b7, b8, b9, rest, hd, rfl, (if_pos ⟨rfl, rfl, rfl⟩).mpr ⟨rate, hrate, rfl, rfl⟩⟩
  have hlen' : s.frameIn.data.length = frameLen s := rfl
  have hl : matLaid (matAhead 0) 0 s.frameIn.data = some (matStart ++ s.frameIn.data, 20) := by
    have hrest := matLaid_before (seg := ⟨30688, matMiddle, 12⟩) (pad := 0) (d := s.frameIn.data)
      (by dsimp only; omega) ([⟨30688, matEnd, 32⟩] ++ matSegments)
    rw [matAhead, if_pos rfl, matSegments, List.cons_append, matLaid, if_neg (Nat.not_lt_zero _)]
    exact congrArg (Option.map _) hrest
  have h0 : s.matFill.toNat = 0 := congrArg BitVec.toNat hfill
  have hsum : 0 + (matStart ++ s.frameIn.data).length = 20 + frameLen s := by
    rw [Nat.zero_add, List.length_append]
    rfl
  have hpad := thdPadding_noFrame (s := { s with thdSpf := (40 : BitVec 9) <<< (rate &&& 3).toNat }) hprev (be16 b2 b3)
  have h := exec_encTruehd_absorbed (bs := matStart ++ s.frameIn.data) (extra := 20) hs ht (by rw [h0]; decide)
    (by rw [h0, hpad]; exact hl) (by rw [h0, hsum]; omega)
  have hm : activeMat s = spaceOf (matSpace s.matIdx) (absorbed s) :=
    (activeMat_congr (t := absorbed s) rfl rfl rfl).symm
  rw [h0, hsum, hm, withMat_write, Nat.add_comm (frameLen s)] at h
  exact h

/-! ### A frame without a place (rule R196) -/

theorem thdPlace_second {t : Half} {s : State} (h0 : s.thdSpf ≠ 0) (hf : s.matFill.toNat ≤ 61408) (hn : 0 < frameLen s)
    (hl : matLaid (matAhead s.matFill.toNat) (thdPadding t s) s.frameIn.data = none) :
    ∃ w, thdPlace t s = raiseError .sizeMismatch (matCommit w s) := by
  have hlaid := matInsert_laid (pad := thdPadding t s) hf hn
  rw [hl] at hlaid
  obtain ⟨w, hw⟩ := hlaid
  exact ⟨w, by rw [thdPlace, if_neg h0, hw]; rfl⟩

/-- With no padding, a frame as long as all the free bytes before the markers ahead has no layout. -/
theorem matLaid_eq_none_of_gaps : ∀ (segs : List MatSegment) (d : List Byte),
    (segs.map (·.gap)).sum ≤ d.length → matLaid segs 0 d = none
  | [], _, _ => rfl
  | seg :: more, d, h => by
    rw [List.map_cons, List.sum_cons] at h
    have hrest : matLaid more 0 (d.drop seg.gap) = none :=
      matLaid_eq_none_of_gaps more _ (by rw [List.length_drop]; omega)
    rw [matLaid, if_neg (by omega)]
    simp only [Nat.zero_sub, Nat.sub_zero, hrest, Option.map_none]

/-- Settles O50: the insertion ends at the second end marker, and the flush leaves only buffer bytes. -/
theorem thdSecondCompletion : Obligations.ThdSecondCompletion := by
  intro s t spf count hs ht hf pad
  have hnone : matLaid (matAhead s.matFill.toNat) pad s.frameIn.data = none →
      ∃ m0 m1 : Memory, exec .encTruehd s = .next { rejected .sizeMismatch s with mat0 := m0, mat1 := m1 } := by
    intro hl
    obtain ⟨hbody, h0, h10⟩ := truehdBody_timed (s := commandStart s) ht
    obtain ⟨w, hw⟩ := thdPlace_second (t := t) (s := { commandStart s with thdSpf := spf, thdFrameCount := count }) h0
      (Nat.le_trans hf (by decide)) (Nat.lt_of_lt_of_le (by decide) h10) hl
    refine ⟨w.mat0, w.mat1, ?_⟩
    change execute (submitWith truehdBody) s = _
    rw [acceptable hs, hbody, hw]
    rfl
  refine ⟨hnone, fun hpad hlo hlen => hnone ?_⟩
  rw [hpad]
  refine matLaid_eq_none_of_gaps _ _ ?_
  rw [matAhead, if_neg (by omega), if_neg (by omega)]
  simp only [matSegments, List.cons_append, List.nil_append, List.map_cons, List.map_nil, List.sum_cons, List.sum_nil]
  exact Nat.le_trans (by omega) hlen

/-! ### A frame that completes the MAT frame -/

/-- The loop's invariant holds of what MAT_INSERT places, with nothing left to do (Laws/Mat.lean). -/
theorem matInsert_ok {pad : Nat} {s u : State} {w : MatWork} (h : matInsert pad s = .ok w u)
    (hf : MatFilled (activeMat s) s.matFill.toNat) (h0 : s.mat0.wf Config.matFrameSize)
    (h1 : s.mat1.wf Config.matFrameSize) :
    MatOk s.frameIn.data w ∧ matGoesOn w = false := by
  unfold matInsert at h
  split at h
  · cases h
  next i hi =>
    split at h
    next hl =>
      cases h
      exact (matWork_ok hi hf h0 h1).loop _ hl
    · cases h
    · cases h

/-- Bytes that stand inside a longer sequence that stands. -/
theorem bytesAt_slice {m : Memory} {whole bs : List Byte} {a : Nat} (hw : bytesAt m 0 whole) (hb : bytesAt m a bs)
    (hl : a + bs.length ≤ whole.length) : (whole.drop a).take bs.length = bs := by
  refine List.ext_getElem? fun i => ?_
  by_cases hi : i < bs.length
  · rw [List.getElem?_take_of_lt hi, List.getElem?_drop, ← hb i hi, ← hw (a + i) (by omega), Nat.zero_add]
  · rw [List.getElem?_eq_none (by rw [List.length_take]; omega), List.getElem?_eq_none (by omega)]

/-- What stands before a written sequence, and the sequence, stand together. -/
theorem bytesAt_append_write {m : Memory} {before bs : List Byte} (hb : bytesAt m 0 before) :
    bytesAt (m.write before.length bs) 0 (before ++ bs) := by
  intro i hi
  rw [Nat.zero_add]
  rw [List.length_append] at hi
  by_cases hlt : i < before.length
  · rw [Memory.get?_write_outside _ _ _ _ (.inl hlt), List.getElem?_append_left hlt, ← hb i hlt, Nat.zero_add]
  · rw [Memory.get?_write_inside _ _ _ _ (by omega) (by omega), List.getElem?_append_right (by omega)]

/-- The bytes of a completed MAT frame, of which `before` stood when the frame came (rules R190, R197). -/
theorem completed_bytes {b before bs : List Byte} {w : MatWork} {m : Memory} (hw : MatOk b w) (hdone : w.done = true)
    (hm : matBuf w.outbuf w = m.write before.length bs) (hb : bytesAt m 0 before)
    (hl : (before ++ bs).length = 61424) :
    (before ++ bs).take 20 = matStart ∧ ((before ++ bs).drop 30708).take 12 = matMiddle ∧
      (before ++ bs).drop 61408 = matEnd ∧ (matBuf w.outbuf w).read? 0 61424 = some (before ++ bs) := by
  obtain ⟨-, -, hstart, hmiddle, hend⟩ := hw.complete hdone
  have hwhole : bytesAt (matBuf w.outbuf w) 0 (before ++ bs) := hm ▸ bytesAt_append_write hb
  have hread := Memory.read?_of_bytesAt (hw.wf w.outbuf) hwhole
  have htail := bytesAt_slice hwhole hend (by rw [hl]; decide)
  rw [hl] at hread
  rw [List.take_of_length_le (by rw [List.length_drop, hl]; decide)] at htail
  exact ⟨bytesAt_slice hwhole hstart (by rw [hl]; decide), bytesAt_slice hwhole hmiddle (by rw [hl]; decide), htail,
    hread⟩

/-- With no packet in progress, a frame that completes the MAT frame sends it (rules R191, R197). -/
theorem thdPlace_sent {t : Half} {s u : State} {w : MatWork} {whole : List Byte}
    (hw : matInsert (thdPadding t s) s = .ok w u) (h0 : s.thdSpf ≠ 0) (ha : u.obActive = false) (hdone : w.done = true)
    (hr : (spaceOf (matSpace w.outbuf) u).read? 0 61424 = some whole) :
    (thdPlace t s).andThen finishCommand =
      .ok () (sentPacket (burst u.sOutBe 0x0016 1 (outputBytes true u.sOutBe whole) 61440)
        (packetSamples 61440 u.sBpf) u.frameIn.pts u.frameIn.dts (thdAccount t w u)) := by
  have hr' : (spaceOf (matSpace w.outbuf) (thdAccount t w u)).read? 0 61424 = some whole := by
    cases hb : w.outbuf <;> rw [hb] at hr <;> exact hr
  rw [thdPlace, if_neg h0, hw, Act.ok_andThen]
  simp only [hdone, if_true]
  exact thdEmit_sent (s := thdAccount t w u) ha hr'

theorem spaceOf_matCommit (i : Bool) (w : MatWork) (s : State) : spaceOf (matSpace i) (matCommit w s) = matBuf i w := by
  cases i <;> rfl

/-- A SUBMIT whose TrueHD frame completes the MAT frame, over the bytes `before` of the active buffer. -/
theorem exec_encTruehd_sent {s : State} {t : Half} {spf : BitVec 9} {count : BitVec 5} {bs before : List Byte}
    {extra : Nat} (hi : Inv s) (hs : submitting s) (hv : s.sVariant = 5) (ht : thdTiming s t spf count)
    (hl : matLaid (matAhead s.matFill.toNat) (thdPadding t { s with thdSpf := spf }) s.frameIn.data = some (bs, extra))
    (hge : 61424 ≤ s.matFill.toNat + bs.length) (hlen : before.length = s.matFill.toNat)
    (hbefore : bytesAt (activeMat s) 0 before) :
    let whole := before ++ bs.take (61424 - s.matFill.toNat)
    let b := burst s.sOutBe 0x0016 1 (outputBytes true s.sOutBe whole) 61440
    let other := (spaceOf (matSpace (!s.matIdx)) s).write 0 (bs.drop (61424 - s.matFill.toNat))
    whole.length = 61424 ∧ whole.take 20 = matStart ∧ (whole.drop 30708).take 12 = matMiddle ∧
    whole.drop 61408 = matEnd ∧
    exec .encTruehd s = .next { withMat (!s.matIdx) other
        (withMat s.matIdx ((activeMat s).write s.matFill.toNat (bs.take (61424 - s.matFill.toNat)))
          (handedOver b (packetSamples 61440 s.sBpf) s.frameIn.pts s.frameIn.dts s)) with
      ob := s.ob.write 0 b, matIdx := !s.matIdx, matFill := BitVec.ofNat 16 (s.matFill.toNat + bs.length - 61424),
      thdPrevSize := BitVec.ofNat 32 (frameLen s + extra), thdPrevTime := t, thdSpf := spf, thdFrameCount := 0 } := by
  intro whole b other
  obtain ⟨hbody, h0, h10⟩ := truehdBody_timed (s := commandStart s) ht
  have hf := hi.r51.fill.1
  obtain ⟨w, hw, htotal, -, hcompletes⟩ :=
    matInsert_commits (s := { commandStart s with thdSpf := spf, thdFrameCount := count })
      (Nat.le_trans hf (by decide)) (Nat.lt_of_lt_of_le (by decide) h10) hl
  obtain ⟨hdone, -, hout, hown, hcommit⟩ := hcompletes hge
  have hm : activeMat { commandStart s with thdSpf := spf, thdFrameCount := count } = activeMat s :=
    activeMat_congr rfl rfl rfl
  rw [hm] at hown hcommit
  have hok := (matInsert_ok hw (hm.symm ▸ hi.matFilled) hi.mat0Wf hi.mat1Wf).1
  have hwhole : whole.length = 61424 := by
    rw [List.length_append, List.length_take, hlen]
    omega
  have hbuf : matBuf w.outbuf w = (activeMat s).write before.length (bs.take (61424 - s.matFill.toNat)) := by
    rw [hout, hlen]
    exact hown
  obtain ⟨hstart, hmiddle, hend, hread⟩ := completed_bytes hok hdone hbuf hbefore hwhole
  refine ⟨hwhole, hstart, hmiddle, hend, ?_⟩
  have hidle : s.obActive = false := by
    by_contra ha
    have := (hi.r51.activeOnlyEac3 (by simpa using ha)).1
    rw [hv] at this
    exact absurd this (by decide)
  have hsent := thdPlace_sent hw h0 hidle hdone
    ((congrArg (Memory.read? · 0 61424) (spaceOf_matCommit _ w _)).trans hread)
  change execute (submitWith truehdBody) s = _
  rw [acceptable hs, hbody, hsent, hcommit]
  simp only [thdAccount, htotal, hdone, thdCount, if_true, withMat_eq_ite]
  rfl

/-- Settles O48: the layout of `matLaid` is what the insertion loop leaves, and the loop's invariant bounds the fill
and gives the markers of a completed MAT frame. -/
theorem thdFramePlaced : Obligations.ThdFramePlaced := by
  intro s t spf count hi hs hv ht pad fill
  have hf : fill ≤ 61407 := hi.r51.fill.1
  refine ⟨fun hlen => matLaid_isSome hf hlen, fun bs extra hl => ?_⟩
  obtain ⟨-, -, h10⟩ := truehdBody_timed (s := commandStart s) ht
  obtain ⟨w, hw, -, hstays, hcompletes⟩ := matInsert_commits (s := { s with thdSpf := spf })
    (Nat.le_trans hf (by decide)) (Nat.lt_of_lt_of_le (by decide) h10) hl
  have hm : activeMat { s with thdSpf := spf } = activeMat s := activeMat_congr rfl rfl rfl
  obtain ⟨hok, hgo⟩ := matInsert_ok hw (hm.symm ▸ hi.matFilled) hi.mat0Wf hi.mat1Wf
  obtain ⟨-, hlo, hhi, -⟩ := hok.filled hgo
  refine ⟨fun hlt => ?_, fun hge => ?_⟩
  · obtain ⟨-, hfill, -⟩ := hstays hlt
    rw [hfill] at hlo hhi
    exact ⟨hlo, hhi, exec_encTruehd_absorbed hs ht (Nat.le_trans hf (by decide)) hl hlt⟩
  · obtain ⟨-, hfill, -⟩ := hcompletes hge
    rw [hfill] at hlo hhi
    exact ⟨hlo, hhi, fun before hlen hbefore => exec_encTruehd_sent hi hs hv ht hl hge hlen hbefore⟩

end Sys2Proof.Machine

/-! Which elements a command can write, however it ends (10_state.md rules R42 to R44): a body that ends with a value, a
framing error or a contract fault leaves a state that differs from its own only in the elements of the stream. -/

namespace Sys2Proof.Machine

/-! ### Two laws of one operation -/

theorem Act.Ends.and {α : Type} {x : Act α} {P P' : α → State → Prop} {Q Q' : Exception → State → Prop}
    (h : x.Ends P Q) (h' : x.Ends P' Q') : x.Ends (fun a t => P a t ∧ P' a t) (fun e t => Q e t ∧ Q' e t) := by
  cases x with
  | ok a s => exact ⟨h, h'⟩
  | raise e s => exact ⟨h, h'⟩
  | stop r => trivial
  | refuse r => trivial

/-! ### The elements of the stream that a SUBMIT writes -/

/-- Only the Packet Writer's elements, the aggregation state of E-AC-3 and TrueHD, and buffer bytes differ. -/
def StreamOnly (s t : State) : Prop :=
  t = { s with obActive := t.obActive, obCap := t.obCap, cursor := t.cursor, obSamples := t.obSamples,
               obPts := t.obPts, obDts := t.obDts, ob := t.ob, eac3Blocks := t.eac3Blocks, matIdx := t.matIdx,
               matFill := t.matFill, thdPrevSize := t.thdPrevSize, thdPrevTime := t.thdPrevTime, thdSpf := t.thdSpf,
               thdFrameCount := t.thdFrameCount, mat0 := t.mat0, mat1 := t.mat1 }

theorem StreamOnly.refl (s : State) : StreamOnly s s := rfl

theorem StreamOnly.trans {s t u : State} (h1 : StreamOnly s t) (h2 : StreamOnly t u) : StreamOnly s u := by
  unfold StreamOnly at *
  rw [h1] at h2
  exact h2

theorem StreamOnly.of_writer {s t : State} (h : WriterOnly s t) : StreamOnly s t := by
  unfold WriterOnly at h
  unfold StreamOnly
  rw [h]

/-- However the operation ends in the state, only elements of the stream differ from `s`. -/
def Act.WritesStream {α : Type} (s : State) (x : Act α) : Prop :=
  x.Ends (fun _ t => StreamOnly s t) (fun _ t => StreamOnly s t)

theorem Act.WritesStream.andThen {α β : Type} {s : State} {x : Act α} {f : α → State → Act β}
    (hx : x.WritesStream s) (hf : ∀ a t, (f a t).WritesStream t) : (x.andThen f).WritesStream s :=
  Act.Ends.andThen hx fun a t ht => (hf a t).mono (fun _ _ h => ht.trans h) (fun _ _ h => ht.trans h)

theorem raiseError_writesStream {α : Type} (k : ErrKind) (s : State) : (raiseError k s : Act α).WritesStream s :=
  .refl s

theorem ok_writesStream {α : Type} (a : α) (s : State) : (Act.ok a s).WritesStream s := .refl s

section
variable (s : State)

theorem inRead_writesStream (a n : Nat) : (inRead a n s).WritesStream s :=
  (inRead_ends a n s).mono (fun _ _ h => h ▸ .refl s) (fun _ _ h => h.2 ▸ .refl s)

theorem memRead_writesStream (sp : Space) (a n : Nat) : (memRead sp a n s).WritesStream s :=
  (memRead_ends sp a n s).mono (fun _ _ h => h ▸ .refl s) (fun _ _ h => h.elim)

theorem packetBegin_writesStream (cap : Nat) (samples : Word) (pts dts : Stamp) :
    (packetBegin cap samples pts dts s).WritesStream s :=
  (packetBegin_ends cap samples pts dts s).mono (fun _ _ h => .of_writer h.1) (fun _ _ h => h.1 ▸ .refl s)

theorem packetWrite_writesStream (d : List Byte) (be : Bool) : (packetWrite d be s).WritesStream s :=
  (packetWrite_ends d be s).mono (fun _ _ h => .of_writer h.writer) (fun _ _ h => h.2 ▸ .refl s)

theorem packetFinalize_writesStream (dt : Half) (unit : Nat) : (packetFinalize dt unit s).WritesStream s :=
  (packetFinalize_ends dt unit s).mono (fun _ _ h => .of_writer h.1.writer) (fun _ _ h => .of_writer h.2.writer)

theorem dtshdAlign_writesStream : (dtshdAlign s).WritesStream s :=
  (dtshdAlign_ends s).mono (fun _ _ h => .of_writer h.writer) (fun _ _ h => h.2 ▸ .refl s)

/-- FINALIZE as the last operation of an encapsulator. -/
theorem packetFinalize_packet_writesStream (dt : Half) (unit : Nat) :
    ((packetFinalize dt unit s).andThen fun _ t => .ok Verdict.packet t).WritesStream s :=
  (packetFinalize_writesStream s dt unit).andThen fun _ t => ok_writesStream _ t

/-! ### The encapsulators -/

theorem ac3Body_writesStream : (ac3Body s).WritesStream s := by
  unfold ac3Body
  split
  · exact raiseError_writesStream _ s
  split
  · exact raiseError_writesStream _ s
  · exact (packetBegin_writesStream s _ _ _ _).andThen fun _ t => (inRead_writesStream t _ _).andThen fun _ t =>
      (packetWrite_writesStream t _ _).andThen fun _ t => (inRead_writesStream t _ _).andThen fun _ t =>
      packetFinalize_packet_writesStream t _ _

theorem dtsEmit_writesStream (h : DtsHeader) (dt : Half) : (dtsEmit h dt s).WritesStream s := by
  refine (inRead_writesStream s _ _).andThen fun core t => ?_
  dsimp only
  split
  · exact raiseError_writesStream _ t
  · exact (packetBegin_writesStream t _ _ _ _).andThen fun _ t => (packetWrite_writesStream t _ _).andThen fun _ t =>
      packetFinalize_packet_writesStream t _ _

theorem dtsBody_writesStream : (dtsBody s).WritesStream s := by
  unfold dtsBody
  split
  · exact raiseError_writesStream _ s
  split
  · exact raiseError_writesStream _ s
  split
  · exact raiseError_writesStream _ s
  · exact dtsEmit_writesStream s _ _

theorem dtshdEmit_writesStream (cap m subtype : Nat) (be : Bool) : (dtshdEmit cap m subtype be s).WritesStream s :=
  (packetBegin_writesStream s _ _ _ _).andThen fun _ t => (packetWrite_writesStream t _ _).andThen fun _ t =>
  (packetWrite_writesStream t _ _).andThen fun _ t => (inRead_writesStream t _ _).andThen fun _ t =>
  (packetWrite_writesStream t _ _).andThen fun _ t => (dtshdAlign_writesStream t).andThen fun _ t =>
  packetFinalize_packet_writesStream t _ _

/-- ENC_DTSHD writes the stream of the state it began in, or of that state downgraded. -/
theorem dtshdBody_writesStream : (dtshdBody s).WritesStream s ∨ (dtshdBody s).WritesStream (dtshdDowngrade s) := by
  unfold dtshdBody
  split
  · exact .inl (raiseError_writesStream _ s)
  split
  · exact .inl (raiseError_writesStream _ s)
  dsimp only
  split
  · exact .inl (raiseError_writesStream _ s)
  split
  · exact .inl (raiseError_writesStream _ s)
  split
  · exact .inl (raiseError_writesStream _ s)
  split
  · exact .inr (dtshdEmit_writesStream _ _ _ _ _)
  · exact .inl (dtshdEmit_writesStream s _ _ _ _)

theorem eac3Begin_writesStream : (eac3Begin s).WritesStream s := by
  unfold eac3Begin
  split
  · exact ok_writesStream _ s
  · exact packetBegin_writesStream s _ _ _ _

theorem eac3Append_writesStream : (eac3Append s).WritesStream s := by
  unfold eac3Append
  split
  · exact raiseError_writesStream _ s
  · exact (inRead_writesStream s _ _).andThen fun _ t => packetWrite_writesStream t _ _

theorem eac3Count_writesStream (blocks : Nat) : (eac3Count blocks s).WritesStream s := by
  have hcount : ∀ (t : State) (n : BitVec 3), StreamOnly t { t with eac3Blocks := n } := fun _ _ => rfl
  unfold eac3Count
  dsimp only
  split
  · exact hcount s _
  split
  · exact raiseError_writesStream _ s
  · exact (packetFinalize_writesStream s _ _).andThen fun _ t => hcount t 0

theorem eac3Body_writesStream : (eac3Body s).WritesStream s := by
  unfold eac3Body
  split
  · exact raiseError_writesStream _ s
  · exact (eac3Begin_writesStream s).andThen fun _ t => (eac3Append_writesStream t).andThen fun _ t =>
      eac3Count_writesStream t _

theorem matInsert_writesStream (pad : Nat) : (matInsert pad s).WritesStream s := by
  have hcommit : ∀ w, StreamOnly s (matCommit w s) := fun _ => rfl
  unfold matInsert
  split
  · exact .refl s
  split
  · exact hcommit _
  · exact hcommit _
  · trivial

theorem thdEmit_writesStream (outbuf : Bool) : (thdEmit outbuf s).WritesStream s :=
  (packetBegin_writesStream s _ _ _ _).andThen fun _ t => (memRead_writesStream t _ _ _).andThen fun _ t =>
  (packetWrite_writesStream t _ _).andThen fun _ t => packetFinalize_packet_writesStream t _ _

theorem thdPlace_writesStream (time : Half) : (thdPlace time s).WritesStream s := by
  unfold thdPlace
  split
  · exact raiseError_writesStream _ s
  refine (matInsert_writesStream s _).andThen fun w t => ?_
  have haccount : StreamOnly t (thdAccount time w t) := rfl
  dsimp only
  split
  · exact (thdEmit_writesStream (thdAccount time w t) _).mono (fun _ _ h => haccount.trans h)
      (fun _ _ h => haccount.trans h)
  · exact haccount

theorem truehdBody_writesStream : (truehdBody s).WritesStream s := by
  unfold truehdBody
  split
  · split
    · exact raiseError_writesStream _ s
    next spf _ =>
      have hsync : StreamOnly s (thdApplySync spf s) := by cases spf <;> rfl
      exact (thdPlace_writesStream _ _).mono (fun _ _ h => hsync.trans h) (fun _ _ h => hsync.trans h)
  · exact raiseError_writesStream _ s

end

/-! ### SUBMIT -/

/-- What a SUBMIT raises: an error that flushes, with nothing written but elements that the flush clears and buffer
bytes; NOT_OPEN, with nothing written; or a contract fault. -/
def SubmitRaises (s : State) (e : Exception) (t : State) : Prop :=
  (∃ k, e = .error k ∧ k ∈ [ErrKind.malformedHeader, .sizeMismatch, .unsupportedFraming, .stateViolation] ∧
    TruehdOnly s t) ∨ (e = .error .notOpen ∧ t = s) ∨ isContract e

/-- What the body of a SUBMIT can do: it writes the stream of the state it began in, or of that state downgraded, and
ends in a packet, in a request for more, or in an exception. -/
structure SubmitLaw (s : State) (x : Act Verdict) : Prop where
  writes : x.WritesStream s ∨ x.WritesStream (dtshdDowngrade s)
  ends : x.Ends (fun v _ => v = .packet ∨ v = .more) (SubmitRaises s)

theorem SubmitRaises.of_raises {kinds : List ErrKind} {s t : State} {e : Exception}
    (hk : ∀ k ∈ kinds, k ∈ [ErrKind.malformedHeader, .sizeMismatch, .unsupportedFraming, .stateViolation])
    (h : Raises kinds s e t) : SubmitRaises s e t := by
  rcases h with ⟨k, hmem, he, rfl⟩ | hc
  · exact .inl ⟨k, he, hk k hmem, rfl⟩
  · exact .inr (.inr hc)

section
variable (s : State)

theorem ac3Body_law : SubmitLaw s (ac3Body s) :=
  ⟨.inl (ac3Body_writesStream s), (ac3Body_ends s).mono (fun _ _ h => .inl h.1) fun _ _ => .of_raises (by decide)⟩

theorem dtsBody_law : SubmitLaw s (dtsBody s) :=
  ⟨.inl (dtsBody_writesStream s), (dtsBody_ends s).mono (fun _ _ h => .inl h.1) fun _ _ => .of_raises (by decide)⟩

theorem dtshdBody_law : SubmitLaw s (dtshdBody s) :=
  ⟨dtshdBody_writesStream s, (dtshdBody_ends s).mono (fun _ _ h => .inl h.1) fun _ _ => .of_raises (by decide)⟩

theorem eac3Body_law : SubmitLaw s (eac3Body s) := by
  refine ⟨.inl (eac3Body_writesStream s), (eac3Body_ends s).mono (fun _ _ h => ?_) fun _ _ h => ?_⟩
  · exact h.2.elim (fun h => .inr h.1) fun h => .inl h.1
  · rcases h with ⟨k, hk, he, ht⟩ | hc
    · exact .inl ⟨k, he, hk, .of_writer ht⟩
    · exact .inr (.inr hc)

theorem truehdBody_law : SubmitLaw s (truehdBody s) := by
  have hkinds : ∀ k ∈ [ErrKind.malformedHeader, .sizeMismatch, .stateViolation],
      k ∈ [ErrKind.malformedHeader, .sizeMismatch, .unsupportedFraming, .stateViolation] := by decide
  refine ⟨.inl (truehdBody_writesStream s), (truehdBody_ends s).mono (fun _ _ h => ?_) fun _ _ h => ?_⟩
  · exact h.2.elim (fun h => .inr h.1) fun h => .inl h.1
  · rcases h with ⟨k, hk, he, ht⟩ | hc
    · exact .inl ⟨k, he, hkinds k hk, ht⟩
    · exact .inr (.inr hc)

theorem notOpen_law : SubmitLaw s (raiseError .notOpen s) :=
  ⟨.inl (raiseError_writesStream _ s), .inr (.inl ⟨rfl, rfl⟩)⟩

theorem submitWith_law {enc : State → Act Verdict} (he : SubmitLaw s (enc s)) : SubmitLaw s (submitWith enc s) := by
  unfold submitWith
  split
  · exact notOpen_law s
  split
  · exact ⟨.inl (raiseError_writesStream _ s), .inl ⟨_, rfl, by decide, rfl⟩⟩
  · exact he

theorem submitBody_law : SubmitLaw s (submitBody s) := by
  unfold submitBody
  split
  · exact notOpen_law s
  · exact submitWith_law s (ac3Body_law s)
  · exact submitWith_law s (eac3Body_law s)
  · exact submitWith_law s (dtsBody_law s)
  · exact submitWith_law s (dtshdBody_law s)
  · exact submitWith_law s (truehdBody_law s)
  · exact submitWith_law s ⟨.inl trivial, trivial⟩

end

/-- SUBMIT and its effective opcodes. -/
def isSubmit : Instr → Bool
  | .submit | .submitNotOpen | .encAc3 | .encEac3 | .encDts | .encDtshd | .encTruehd => true
  | _ => false

/-- A SUBMIT is EXECUTE around a body with the law of SUBMIT. -/
theorem exec_submit_eq_execute {i : Instr} (hi : isSubmit i = true) :
    ∃ body : State → Act Verdict, exec i = execute body ∧ ∀ s, SubmitLaw s (body s) := by
  cases i with
  | submit => exact ⟨submitBody, rfl, submitBody_law⟩
  | submitNotOpen => exact ⟨raiseError .notOpen, rfl, notOpen_law⟩
  | encAc3 => exact ⟨_, rfl, fun s => submitWith_law s (ac3Body_law s)⟩
  | encEac3 => exact ⟨_, rfl, fun s => submitWith_law s (eac3Body_law s)⟩
  | encDts => exact ⟨_, rfl, fun s => submitWith_law s (dtsBody_law s)⟩
  | encDtshd => exact ⟨_, rfl, fun s => submitWith_law s (dtshdBody_law s)⟩
  | encTruehd => exact ⟨_, rfl, fun s => submitWith_law s (truehdBody_law s)⟩
  | _ => cases hi

/-- However a SUBMIT ends in a state. -/
theorem exec_submit_next {i : Instr} {s t : State} (hi : isSubmit i = true) (h : exec i s = .next t) :
    (s.fault = true ∧ t = s) ∨
    (s.fault = false ∧ ∃ u, (StreamOnly (commandStart s) u ∨ StreamOnly (dtshdDowngrade (commandStart s)) u) ∧
      ((∃ v, (v = .packet ∨ v = .more) ∧ finishCommand v u = .ok () t) ∨
        ∃ e, SubmitRaises (commandStart s) e u ∧ t = takeException e u)) := by
  obtain ⟨body, hexec, hlaw⟩ := exec_submit_eq_execute hi
  obtain ⟨hwrites, hends⟩ := hlaw (commandStart s)
  have hboth : (body (commandStart s)).Ends
      (fun v u => (v = .packet ∨ v = .more) ∧
        (StreamOnly (commandStart s) u ∨ StreamOnly (dtshdDowngrade (commandStart s)) u))
      (fun e u => SubmitRaises (commandStart s) e u ∧
        (StreamOnly (commandStart s) u ∨ StreamOnly (dtshdDowngrade (commandStart s)) u)) := by
    rcases hwrites with hw | hw
    · exact (hends.and hw).mono (fun _ _ h => ⟨h.1, .inl h.2⟩) (fun _ _ h => ⟨h.1, .inl h.2⟩)
    · exact (hends.and hw).mono (fun _ _ h => ⟨h.1, .inr h.2⟩) (fun _ _ h => ⟨h.1, .inr h.2⟩)
  rw [hexec] at h
  rcases execute_next hboth h with hf | ⟨hf, v, u, -, ⟨hv, hu⟩, hfin⟩ | ⟨hf, e, u, -, ⟨he, hu⟩, ht⟩
  · exact .inl hf
  · exact .inr ⟨hf, u, hu, .inl ⟨v, hv, hfin⟩⟩
  · exact .inr ⟨hf, u, hu, .inr ⟨e, he, ht⟩⟩

/-! ### The other commands -/

/-- However OPEN ends. -/
theorem exec_open_next {s t : State} (h : exec .openStream s = .next t) :
    (s.fault = true ∧ t = s) ∨ (s.fault = false ∧ (t = turnedAway .badCommand s ∨
      ∃ v, s.sOpen = false ∧ openVariant (ctrlCodec s.ctrl) s.outRate = some v ∧ ctrlBpf s.ctrl ≠ 0 ∧
        t = recordVerdict .none .none (openLatch v (commandStart s)))) := by
  cases hf : s.fault with
  | true => exact .inl ⟨rfl, by rw [show exec .openStream s = _ from execute_faulted hf _] at h; cases h; rfl⟩
  | false =>
    refine .inr ⟨rfl, ?_⟩
    have turned : openBody (commandStart s) = raiseError .badCommand (commandStart s) →
        t = turnedAway .badCommand s := by
      intro hb
      rw [show exec .openStream s = _ from execute_turnedAway hf rfl hb] at h
      cases h
      rfl
    cases ho : s.sOpen with
    | true => exact .inl (turned (openBody_refused (.inl ho)))
    | false =>
      cases hv : openVariant (ctrlCodec s.ctrl) s.outRate with
      | none => exact .inl (turned (openBody_refused (.inr (.inl hv))))
      | some v =>
        by_cases hb : ctrlBpf s.ctrl = 0
        · exact .inl (turned (openBody_refused (.inr (.inr hb))))
        · have hlatch : exec .openStream s = .next (recordVerdict .none .none (openLatch v (commandStart s))) :=
            execute_none hf (openBody_latches (s := commandStart s) ho hv hb)
          rw [hlatch] at h
          cases h
          exact .inr ⟨v, rfl, rfl, hb, rfl⟩

/-- FLUSH, CLOSE and an illegal command, when they execute. -/
theorem exec_flush_eq {s : State} (hf : s.fault = false) : exec .flush s =
    .next (recordVerdict .none .none (if s.sOpen then flushState (commandStart s) else commandStart s)) :=
  execute_none hf (body := flushBody) rfl

theorem exec_close_eq {s : State} (hf : s.fault = false) : exec .closeStream s =
    .next (recordVerdict .none .none (if s.sOpen then closeLatch (commandStart s) else commandStart s)) :=
  execute_none hf (body := closeBody) rfl

theorem exec_illegal_eq {s : State} (hf : s.fault = false) (w : Word) :
    exec (.illegal w) s = .next (turnedAway .badCommand s) := execute_turnedAway hf rfl rfl

end Sys2Proof.Machine

/-! However a step ends in a state, and what it does to the configuration (10_state.md rules R27, R41, R42). -/

namespace Sys2Proof.Machine

/-! ### The steps -/

/-- However a step ends in a state: a micro-operation alone, no access left, or the host's next access. -/
theorem step_next {s t : State} (h : step s = .next t) :
    (∃ n i, s.uop.pending = some n ∧ decodeMicro n = .ok i ∧ exec i (clearPending s) = .next t) ∨
    (s.uop.pending = none ∧ s.host = [] ∧ t = s) ∨
    (s.uop.pending = none ∧ ∃ a rest, s.host = a :: rest ∧ hostStep a (popHost s) = .next t) := by
  unfold step at h
  split at h
  next n hn =>
    unfold microStep at h
    split at h
    next i hi => exact .inl ⟨n, i, hn, hi, h⟩
    · cases h
  next hn =>
    split at h
    next hh =>
      cases h
      exact .inr (.inl ⟨hn, hh, rfl⟩)
    next a rest hh => exact .inr (.inr ⟨hn, a, rest, hh, h⟩)

/-- The state after a host access that is neither the reset nor a command: only FRAME_IN, `busRead`, CTRL and OUT_RATE
can differ (rules R25, R27, R41, R45). -/
def RegistersOnly (s t : State) : Prop :=
  t = { s with frameIn := t.frameIn, busRead := t.busRead, ctrl := t.ctrl, outRate := t.outRate }

theorem writeRegister_registersOnly (o : Byte) (v : Word) (s : State) : RegistersOnly s (writeRegister o v s) := by
  unfold writeRegister
  split <;> rfl

/-- However a host access ends in a state. -/
theorem hostStep_next {a : HostAccess} {s t : State} (h : hostStep a s = .next t) :
    (a = .reset ∧ t = platformReset s) ∨ RegistersOnly s t ∨
    (∃ w, a = commandWrite w ∧ exec (decodeCommand w) s = .next t) := by
  cases a with
  | reset =>
    cases h
    exact .inl ⟨rfl, rfl⟩
  | drive f =>
    cases h
    exact .inr (.inl rfl)
  | read width o =>
    simp only [hostStep] at h
    split at h
    · cases h
      exact .inr (.inl rfl)
    · cases h
  | write width o v =>
    simp only [hostStep] at h
    split at h
    · cases h
    next hl =>
      split at h
      next hc =>
        have hwidth := (legalAccess_iff.mp (by simpa using hl)).1
        exact .inr (.inr ⟨v, by rw [commandWrite, hwidth, hc], h⟩)
      · cases h
        exact .inr (.inl (writeRegister_registersOnly o v s))

/-- The four command words, and the others (30_encoding.md rule R91). -/
theorem decodeCommand_cases (w : Word) :
    (w = 1 ∧ decodeCommand w = .openStream) ∨ (w = 2 ∧ decodeCommand w = .submit) ∨
    (w = 3 ∧ decodeCommand w = .flush) ∨ (w = 4 ∧ decodeCommand w = .closeStream) ∨ decodeCommand w = .illegal w := by
  by_cases h : w ∈ legalCommandWords
  · simp only [legalCommandWords, List.mem_cons, List.not_mem_nil, or_false] at h
    rcases h with rfl | rfl | rfl | rfl <;> decide
  · exact .inr (.inr (.inr (.inr (decodeCommand_of_not_legal h))))

/-! ### The end of a SUBMIT -/

/-- The elements that taking an exception and ending a command leave alone. -/
structure SameConfig (s t : State) : Prop where
  sOpen : t.sOpen = s.sOpen
  sVariant : t.sVariant = s.sVariant
  sOutBe : t.sOutBe = s.sOutBe
  sOutRate : t.sOutRate = s.sOutRate
  sBpf : t.sBpf = s.sBpf
  uop : t.uop = s.uop

theorem SameConfig.refl (s : State) : SameConfig s s := ⟨rfl, rfl, rfl, rfl, rfl, rfl⟩

theorem commandStart_sameConfig (s : State) : SameConfig s (commandStart s) := ⟨rfl, rfl, rfl, rfl, rfl, rfl⟩

theorem SameConfig.trans {s t u : State} (h : SameConfig s t) (h' : SameConfig t u) : SameConfig s u :=
  ⟨h'.sOpen.trans h.sOpen, h'.sVariant.trans h.sVariant, h'.sOutBe.trans h.sOutBe, h'.sOutRate.trans h.sOutRate,
    h'.sBpf.trans h.sBpf, h'.uop.trans h.uop⟩

theorem StreamOnly.sameConfig {s t : State} (h : StreamOnly s t) : SameConfig s t := by
  unfold StreamOnly at h
  rw [h]
  exact ⟨rfl, rfl, rfl, rfl, rfl, rfl⟩

theorem takeException_sameConfig (e : Exception) (s : State) : SameConfig s (takeException e s) := by
  cases e with
  | error k => cases hk : errorFlushes k <;> simp only [takeException, hk] <;> exact ⟨rfl, rfl, rfl, rfl, rfl, rfl⟩
  | contract c => exact ⟨rfl, rfl, rfl, rfl, rfl, rfl⟩

/-- What the end of a command changes: the packet port, the verdict, and the elements of a packet handed over. -/
def EndOnly (s t : State) : Prop :=
  t = { s with pktOut := t.pktOut, pktLen := t.pktLen, pktSamples := t.pktSamples, pktValid := t.pktValid,
               obActive := t.obActive, obCap := t.obCap, cursor := t.cursor, obSamples := t.obSamples,
               obPts := t.obPts, obDts := t.obDts, verdict := t.verdict, errKind := t.errKind }

/-- The verdict of a command that ends, and the elements it leaves alone. -/
theorem finishCommand_endOnly {v : Verdict} {s t : State} (h : finishCommand v s = .ok () t) :
    t.verdict = v ∧ t.errKind = .none ∧ EndOnly s t := by
  have hends := finishCommand_ends v s
  rw [h] at hends
  rcases hends with ⟨hv, hverdict, hkind, -, -, ht⟩ | ⟨-, rfl⟩
  · refine ⟨hverdict.trans hv.symm, hkind, ?_⟩
    unfold EndOnly
    rw [ht]
  · exact ⟨rfl, rfl, rfl⟩

theorem EndOnly.sameConfig {s t : State} (h : EndOnly s t) : SameConfig s t := by
  unfold EndOnly at h
  rw [h]
  exact ⟨rfl, rfl, rfl, rfl, rfl, rfl⟩

theorem dtshdDowngrade_sameConfig (s : State) : SameConfig s (dtshdDowngrade s) := by
  constructor <;> simp

theorem exec_submit_sameConfig {i : Instr} {s t : State} (hi : isSubmit i = true) (h : exec i s = .next t) :
    SameConfig s t := by
  rcases exec_submit_next hi h with ⟨-, rfl⟩ | ⟨-, u, hu, hend⟩
  · exact .refl t
  have hstart : SameConfig s u := by
    rcases hu with hu | hu
    · exact (commandStart_sameConfig s).trans hu.sameConfig
    · exact (commandStart_sameConfig s).trans ((dtshdDowngrade_sameConfig _).trans hu.sameConfig)
  rcases hend with ⟨v, -, hfin⟩ | ⟨e, -, rfl⟩
  · exact hstart.trans (finishCommand_endOnly hfin).2.2.sameConfig
  · exact hstart.trans (takeException_sameConfig e u)

/-! ### The configuration (rule R42) -/

theorem RegistersOnly.sameConfig {s t : State} (h : RegistersOnly s t) : SameConfig s t := by
  unfold RegistersOnly at h
  rw [h]
  exact ⟨rfl, rfl, rfl, rfl, rfl, rfl⟩

theorem exec_flush_sameConfig {s t : State} (h : exec .flush s = .next t) : SameConfig s t := by
  cases hf : s.fault with
  | true =>
    rw [show exec .flush s = _ from execute_faulted hf _] at h
    cases h
    exact .refl s
  | false =>
    rw [exec_flush_eq hf] at h
    cases h
    split <;> exact ⟨rfl, rfl, rfl, rfl, rfl, rfl⟩

theorem exec_illegal_sameConfig {w : Word} {s t : State} (h : exec (.illegal w) s = .next t) : SameConfig s t := by
  cases hf : s.fault with
  | true =>
    rw [show exec (.illegal w) s = _ from execute_faulted hf _] at h
    cases h
    exact .refl s
  | false =>
    rw [exec_illegal_eq hf] at h
    cases h
    exact ⟨rfl, rfl, rfl, rfl, rfl, rfl⟩

/-- OPEN and CLOSE leave the micro-operation port alone. -/
theorem exec_open_uop {s t : State} (h : exec .openStream s = .next t) : t.uop = s.uop := by
  rcases exec_open_next h with ⟨-, rfl⟩ | ⟨-, rfl | ⟨v, -, -, -, rfl⟩⟩ <;> rfl

theorem exec_close_uop {s t : State} (h : exec .closeStream s = .next t) : t.uop = s.uop := by
  cases hf : s.fault with
  | true =>
    rw [show exec .closeStream s = _ from execute_faulted hf _] at h
    cases h
    rfl
  | false =>
    rw [exec_close_eq hf] at h
    cases h
    split <;> rfl

/-- Settles O59: only OPEN and CLOSE among the commands latch, and none reaches the port. -/
theorem configurationWriters : Obligations.ConfigurationWriters := by
  intro s t hp h
  have settled : SameConfig (popHost s) t → (s.host.head? ≠ some .reset → t.uop = s.uop) ∧
      (s.host.head? ≠ some .reset → s.host.head? ≠ some (commandWrite 1) → s.host.head? ≠ some (commandWrite 4) →
        t.sOpen = s.sOpen ∧ t.sVariant = s.sVariant ∧ t.sOutBe = s.sOutBe ∧ t.sOutRate = s.sOutRate ∧
          t.sBpf = s.sBpf) :=
    fun hc => ⟨fun _ => hc.uop, fun _ _ _ => ⟨hc.sOpen, hc.sVariant, hc.sOutBe, hc.sOutRate, hc.sBpf⟩⟩
  rcases step_next h with ⟨n, i, hn, -⟩ | ⟨-, -, rfl⟩ | ⟨-, a, rest, hh, ha⟩
  · rw [hp] at hn
    cases hn
  · exact settled ⟨rfl, rfl, rfl, rfl, rfl, rfl⟩
  have hhead : s.host.head? = some a := by rw [hh]; rfl
  rcases hostStep_next ha with ⟨rfl, rfl⟩ | hreg | ⟨w, rfl, hexec⟩
  · exact ⟨fun hne => absurd hhead hne, fun hne => absurd hhead hne⟩
  · exact settled hreg.sameConfig
  rcases decodeCommand_cases w with ⟨rfl, hd⟩ | ⟨rfl, hd⟩ | ⟨rfl, hd⟩ | ⟨rfl, hd⟩ | hd <;> rw [hd] at hexec
  · exact ⟨fun _ => (exec_open_uop hexec :), fun _ hne => absurd hhead hne⟩
  · exact settled (exec_submit_sameConfig rfl hexec)
  · exact settled (exec_flush_sameConfig hexec)
  · exact ⟨fun _ => (exec_close_uop hexec :), fun _ _ hne => absurd hhead hne⟩
  · exact settled (exec_illegal_sameConfig hexec)

end Sys2Proof.Machine

/-! FAULT, errors and the downgrade notice (10_state.md rules R33 to R35; 60_exceptions.md sections 1 and 3). -/

namespace Sys2Proof.Machine

/-! ### FAULT (rule R35) -/

/-- The step does not clear FAULT, and sets it only with VERDICT = ERROR, ERRKIND = NONE and a cause. -/
def FaultLaw (s t : State) : Prop :=
  (s.fault = true → t.fault = true) ∧
  (s.fault = false → t.fault = true → t.verdict = .error ∧ t.errKind = .none ∧ t.faultCause ≠ .none)

theorem FaultLaw.of_same {s t : State} (h : t.fault = s.fault) : FaultLaw s t :=
  ⟨fun hs => h.trans hs, fun hs ht => absurd (ht.symm.trans (h.trans hs)) (by decide)⟩

theorem takeException_error_fault (k : ErrKind) (s : State) : (takeException (.error k) s).fault = s.fault := by
  cases hk : errorFlushes k <;> simp only [takeException, hk] <;> rfl

theorem FaultLaw.of_exception {s u : State} {e : Exception} (hu : u.fault = s.fault)
    (he : (∃ k, e = .error k) ∨ isContract e) : FaultLaw s (takeException e u) := by
  rcases he with ⟨k, rfl⟩ | ⟨c, rfl, hc⟩
  · exact .of_same ((takeException_error_fault k u).trans hu)
  · exact ⟨fun _ => rfl, fun _ _ => ⟨rfl, rfl, hc⟩⟩

/-- A primitive run alone. -/
theorem FaultLaw.of_settle {x : Act Unit} {s t : State} (hx : x.Ends (fun _ u => u.fault = s.fault)
    (fun e u => u.fault = s.fault ∧ ((∃ k, e = .error k) ∨ isContract e))) (h : settle x = .next t) : FaultLaw s t := by
  rcases settle_eq_next.mp h with rfl | ⟨e, u, rfl, rfl⟩
  · exact .of_same hx
  · exact .of_exception hx.1 hx.2

theorem WriterOnly.fault {s t : State} (h : WriterOnly s t) : t.fault = s.fault := by
  unfold WriterOnly at h
  rw [h]

theorem packetWrite_faultLaw {s t : State} (d : List Byte) (be : Bool) (h : settle (packetWrite d be s) = .next t) :
    FaultLaw s t :=
  .of_settle ((packetWrite_ends d be s).mono (fun _ _ h => h.writer.fault) fun _ _ h => ⟨h.2 ▸ rfl, .inr h.1⟩) h

theorem StreamOnly.fault {s t : State} (h : StreamOnly s t) : t.fault = s.fault := by
  unfold StreamOnly at h
  rw [h]

theorem EndOnly.fault {s t : State} (h : EndOnly s t) : t.fault = s.fault := by
  unfold EndOnly at h
  rw [h]

theorem SubmitRaises.isException {s u : State} {e : Exception} (h : SubmitRaises s e u) :
    (∃ k, e = .error k) ∨ isContract e := by
  rcases h with ⟨k, he, -⟩ | ⟨he, -⟩ | hc
  · exact .inl ⟨k, he⟩
  · exact .inl ⟨_, he⟩
  · exact .inr hc

theorem exec_submit_faultLaw {i : Instr} {s t : State} (hi : isSubmit i = true) (h : exec i s = .next t) :
    FaultLaw s t := by
  rcases exec_submit_next hi h with ⟨-, rfl⟩ | ⟨-, u, hu, hend⟩
  · exact .of_same rfl
  have hfault : u.fault = s.fault := by
    rcases hu with hu | hu
    · exact hu.fault
    · exact hu.fault.trans (dtshdDowngrade_fault _)
  rcases hend with ⟨v, -, hfin⟩ | ⟨e, he, rfl⟩
  · exact .of_same ((finishCommand_endOnly hfin).2.2.fault.trans hfault)
  · exact .of_exception hfault he.isException

/-- A command that is no SUBMIT keeps FAULT. -/
theorem exec_other_fault {i : Instr} {s t : State} (hi : isCommand i = true) (hs : isSubmit i = false)
    (h : exec i s = .next t) : t.fault = s.fault := by
  cases hf : s.fault with
  | true =>
    rw [faultedIgnoresCommands.1 s i hf hi] at h
    cases h
    exact hf
  | false =>
    cases i with
    | openStream =>
      rcases exec_open_next h with ⟨hft, -⟩ | ⟨-, rfl | ⟨v, -, -, -, rfl⟩⟩
      · rw [hf] at hft
        cases hft
      · exact hf
      · exact hf
    | flush =>
      rw [exec_flush_eq hf] at h
      cases h
      split <;> exact hf
    | closeStream =>
      rw [exec_close_eq hf] at h
      cases h
      split <;> exact hf
    | illegal w =>
      rw [exec_illegal_eq hf] at h
      cases h
      exact hf
    | submit | submitNotOpen | encAc3 | encEac3 | encDts | encDtshd | encTruehd => cases hs
    | submitUnreachable _ | beginPacket | writeBytes | write16Be | writePadding | finalize | a52Parse | dtsParse
    | convert14 => cases hi

theorem exec_faultLaw {i : Instr} {s t : State} (h : exec i s = .next t) : FaultLaw s t := by
  by_cases hs : isSubmit i = true
  · exact exec_submit_faultLaw hs h
  have hs' : isSubmit i = false := by simpa using hs
  cases i with
  | openStream | flush | closeStream | illegal _ => exact .of_same (exec_other_fault rfl hs' h)
  | submit | submitNotOpen | encAc3 | encEac3 | encDts | encDtshd | encTruehd => cases hs'
  | submitUnreachable _ => cases h
  | beginPacket =>
    refine .of_settle ((packetBegin_ends _ _ _ _ s).mono (fun _ _ h => h.1.fault) fun _ _ h => ⟨h.1 ▸ rfl, ?_⟩) h
    exact h.2.elim .inr fun h => .inl ⟨_, h.1⟩
  | writeBytes => exact packetWrite_faultLaw _ _ h
  | write16Be => exact packetWrite_faultLaw _ _ h
  | writePadding =>
    exact .of_settle ((packetPad_ends _ s).mono (fun _ _ h => h.writer.fault) fun _ _ h => ⟨h.2 ▸ rfl, .inr h.1⟩) h
  | finalize =>
    exact .of_settle ((packetFinalize_ends _ _ s).mono (fun _ _ h => h.1.writer.fault)
      fun _ _ h => ⟨h.2.writer.fault, .inr h.1⟩) h
  | a52Parse | dtsParse | convert14 =>
    cases h
    exact .of_same rfl

/-- Settles O25: every operation keeps the law of FAULT, and the only other step that can write it is the reset. -/
theorem faultSetAndCleared : Obligations.FaultSetAndCleared := by
  intro s t h
  have settled : FaultLaw s t → (s.fault = true → t.fault = false → s.uop.pending = none ∧ s.host.head? = some .reset) ∧
      (s.fault = false → t.fault = true → t.verdict = .error ∧ t.errKind = .none ∧ t.faultCause ≠ .none) :=
    fun hl => ⟨fun hs ht => absurd ((hl.1 hs).symm.trans ht) (by decide), hl.2⟩
  rcases step_next h with ⟨n, i, -, -, hexec⟩ | ⟨-, -, rfl⟩ | ⟨hp, a, rest, hh, ha⟩
  · exact settled (exec_faultLaw hexec :)
  · exact settled (.of_same rfl)
  rcases hostStep_next ha with ⟨rfl, rfl⟩ | hreg | ⟨w, -, hexec⟩
  · exact ⟨fun _ _ => ⟨hp, by rw [hh]; rfl⟩, fun _ ht => by cases ht⟩
  · have hfault : t.fault = s.fault := by
      unfold RegistersOnly at hreg
      rw [hreg]
      rfl
    exact settled (.of_same hfault)
  · exact settled (exec_faultLaw hexec :)

/-! ### Framing errors (60_exceptions.md rules R230, R239) -/

/-- What the flush and the verdict of an error leave of a state in which only elements of the stream differ. -/
theorem takeException_of_truehdOnly {s u : State} {k : ErrKind} (hk : errorFlushes k = true)
    (hu : TruehdOnly (commandStart s) u) :
    takeException (.error k) u = { rejected k s with ob := u.ob, mat0 := u.mat0, mat1 := u.mat1 } := by
  rw [takeException_flushing hk]
  exact congrArg (fun u => recordVerdict .error k (clearPort (flushState u))) hu

/-- A command that ends in ERROR with no contract fault: the state as it was refused, or as the flush leaves it. -/
def ErrorLaw (s t : State) : Prop :=
  ((t.errKind = .badCommand ∨ t.errKind = .notOpen) ∧ t = turnedAway t.errKind s) ∨
  (t.errKind ∈ [ErrKind.malformedHeader, .sizeMismatch, .unsupportedFraming, .stateViolation] ∧
    t = { rejected t.errKind s with ob := t.ob, mat0 := t.mat0, mat1 := t.mat1 })

theorem errorFlushes_of_mem {k : ErrKind}
    (h : k ∈ [ErrKind.malformedHeader, .sizeMismatch, .unsupportedFraming, .stateViolation]) :
    errorFlushes k = true := by
  revert k
  decide

theorem exec_submit_errorLaw {i : Instr} {s t : State} (hi : isSubmit i = true) (hf : s.fault = false)
    (h : exec i s = .next t) (hv : t.verdict = .error) (ht : t.fault = false) : ErrorLaw s t := by
  rcases exec_submit_next hi h with ⟨hfault, -⟩ | ⟨-, u, hu, ⟨v, hpm, hfin⟩ | ⟨e, he, rfl⟩⟩
  · rw [hf] at hfault
    cases hfault
  · rw [(finishCommand_endOnly hfin).1] at hv
    rw [hv] at hpm
    simp at hpm
  · rcases he with ⟨k, rfl, hk, htr⟩ | ⟨rfl, rfl⟩ | ⟨c, rfl, -⟩
    · have hstate := takeException_of_truehdOnly (errorFlushes_of_mem hk) htr
      rw [hstate]
      exact .inr ⟨hk, rfl⟩
    · exact .inl ⟨.inr rfl, rfl⟩
    · cases ht

theorem exec_command_errorLaw {i : Instr} {s t : State} (hi : isCommand i = true) (hf : s.fault = false)
    (h : exec i s = .next t) (hv : t.verdict = .error) (ht : t.fault = false) : ErrorLaw s t := by
  cases i with
  | openStream =>
    rcases exec_open_next h with ⟨hft, -⟩ | ⟨-, rfl | ⟨v, -, -, -, rfl⟩⟩
    · rw [hf] at hft
      cases hft
    · exact .inl ⟨.inl rfl, rfl⟩
    · cases hv
  | flush =>
    rw [exec_flush_eq hf] at h
    cases h
    cases hv
  | closeStream =>
    rw [exec_close_eq hf] at h
    cases h
    cases hv
  | illegal w =>
    rw [exec_illegal_eq hf] at h
    cases h
    exact .inl ⟨.inl rfl, rfl⟩
  | submit | submitNotOpen | encAc3 | encEac3 | encDts | encDtshd | encTruehd =>
    exact exec_submit_errorLaw rfl hf h hv ht
  | submitUnreachable _ | beginPacket | writeBytes | write16Be | writePadding | finalize | a52Parse | dtsParse
  | convert14 => cases hi

/-- Settles O26: the port is empty after an error, and the two forms of `ErrorLaw` are the two of the statement. -/
theorem errorsLeaveOnlyTheVerdict : Obligations.ErrorsLeaveOnlyTheVerdict := by
  intro s t i hf hi h hv ht
  have hport : t.pktValid = false := by
    have hmatch := (exec_portMatchesVerdict hf hi h).2
    rw [hv] at hmatch
    simpa using hmatch
  refine ⟨hport, ?_⟩
  rcases exec_command_errorLaw hi hf h hv ht with hkept | ⟨hk, hstate⟩
  · exact .inl hkept
  · have hne : ∀ k ∈ [ErrKind.malformedHeader, .sizeMismatch, .unsupportedFraming, .stateViolation],
        k ≠ .none ∧ k ≠ .badCommand ∧ k ≠ .notOpen := by decide
    obtain ⟨h1, h2, h3⟩ := hne _ hk
    exact .inr ⟨h1, h2, h3, hstate⟩

/-! ### The error kinds of each encapsulator (60_exceptions.md rule R232) -/

/-- In an open stream a SUBMIT raises SIZE_MISMATCH for the length, or what its encapsulator raises. -/
theorem submitWith_errKind {enc : State → Act Verdict} {kinds : List ErrKind} {s t : State} (hf : s.fault = false)
    (ho : s.sOpen = true) (hsize : ErrKind.sizeMismatch ∈ kinds)
    (he : (enc (commandStart s)).Ends (fun _ _ => True) (fun e _ => (∃ k ∈ kinds, e = .error k) ∨ isContract e))
    (h : execute (submitWith enc) s = .next t) : t.errKind ∈ ErrKind.none :: kinds := by
  have hends : (submitWith enc (commandStart s)).Ends (fun _ _ => True)
      (fun e _ => (∃ k ∈ kinds, e = .error k) ∨ isContract e) := by
    by_cases hl : frameLen s ≤ Config.maxFrameBytes
    · rw [submitWith_open (s := commandStart s) ho hl]
      exact he
    · rw [submitWith_oversize (s := commandStart s) ho (Nat.not_le.mp hl)]
      exact .inl ⟨_, hsize, rfl⟩
  rcases execute_next hends h with ⟨hft, -⟩ | ⟨-, v, u, -, -, hfin⟩ | ⟨-, e, u, -, hk, rfl⟩
  · rw [hf] at hft
    cases hft
  · rw [(finishCommand_endOnly hfin).2.1]
    exact List.mem_cons_self
  · rcases hk with ⟨k, hmem, rfl⟩ | ⟨c, rfl, -⟩
    · exact List.mem_cons_of_mem _ hmem
    · exact List.mem_cons_self

theorem Raises.kinds {kinds : List ErrKind} {s t : State} {e : Exception} (h : Raises kinds s e t) :
    (∃ k ∈ kinds, e = .error k) ∨ isContract e :=
  h.imp_left fun ⟨k, hk, he, _⟩ => ⟨k, hk, he⟩

/-- Settles O27: the kinds of each encapsulator, and SUBMIT's own SIZE_MISMATCH among them. -/
theorem errorKindsOfEachOperation : Obligations.ErrorKindsOfEachOperation := by
  intro s t hf ho
  refine ⟨fun h => ?_, fun h => ?_, fun h => ?_, fun h => ?_, fun h => ?_⟩
  · exact submitWith_errKind hf ho (by decide) ((ac3Body_ends _).mono (fun _ _ _ => trivial) fun _ _ => Raises.kinds) h
  · exact submitWith_errKind hf ho (by decide) ((eac3Body_ends _).mono (fun _ _ _ => trivial) fun _ _ h =>
      h.imp_left fun ⟨k, hk, he, _⟩ => ⟨k, hk, he⟩) h
  · exact submitWith_errKind hf ho (by decide) ((dtsBody_ends _).mono (fun _ _ _ => trivial) fun _ _ => Raises.kinds) h
  · exact submitWith_errKind hf ho (by decide)
      ((dtshdBody_ends _).mono (fun _ _ _ => trivial) fun _ _ => Raises.kinds) h
  · exact submitWith_errKind hf ho (by decide) ((truehdBody_ends _).mono (fun _ _ _ => trivial) fun _ _ h =>
      h.imp_left fun ⟨k, hk, he, _⟩ => ⟨k, hk, he⟩) h

/-! ### The downgrade (rules R33, R34) -/

/-- The notice stands exactly when the command set the sticky flag. -/
def NoticeLaw (s t : State) : Prop := t.downgradeNotice = true ↔ s.dtshdSkip = false ∧ t.dtshdSkip = true

theorem NoticeLaw.of_cleared {s t : State} (hn : t.downgradeNotice = false)
    (hk : t.dtshdSkip = s.dtshdSkip ∨ t.dtshdSkip = false) : NoticeLaw s t := by
  unfold NoticeLaw
  rcases hk with hk | hk <;> rw [hn, hk] <;> cases s.dtshdSkip <;> decide

theorem StreamOnly.downgrade {s t : State} (h : StreamOnly s t) :
    t.downgradeNotice = s.downgradeNotice ∧ t.dtshdSkip = s.dtshdSkip := by
  unfold StreamOnly at h
  rw [h]
  exact ⟨rfl, rfl⟩

theorem EndOnly.downgrade {s t : State} (h : EndOnly s t) :
    t.downgradeNotice = s.downgradeNotice ∧ t.dtshdSkip = s.dtshdSkip := by
  unfold EndOnly at h
  rw [h]
  exact ⟨rfl, rfl⟩

/-- In the state a SUBMIT's body leaves, the flag is as it was with no notice, or set with the notice if it was not. -/
theorem submitBody_downgrade {s u : State}
    (hu : StreamOnly (commandStart s) u ∨ StreamOnly (dtshdDowngrade (commandStart s)) u) :
    (u.downgradeNotice = false ∧ u.dtshdSkip = s.dtshdSkip) ∨
    (u.downgradeNotice = (!s.dtshdSkip) ∧ u.dtshdSkip = true) := by
  rcases hu with hu | hu
  · exact .inl hu.downgrade
  · rw [dtshdDowngrade_commandStart] at hu
    exact .inr hu.downgrade

theorem NoticeLaw.of_body {s u : State} (h : (u.downgradeNotice = false ∧ u.dtshdSkip = s.dtshdSkip) ∨
    (u.downgradeNotice = (!s.dtshdSkip) ∧ u.dtshdSkip = true)) : NoticeLaw s u := by
  rcases h with ⟨hn, hk⟩ | ⟨hn, hk⟩
  · exact .of_cleared hn (.inl hk)
  · unfold NoticeLaw
    rw [hn, hk]
    cases s.dtshdSkip <;> decide

theorem exec_submit_notice {i : Instr} {s t : State} (hi : isSubmit i = true) (hf : s.fault = false)
    (h : exec i s = .next t) : NoticeLaw s t := by
  rcases exec_submit_next hi h with ⟨hft, -⟩ | ⟨-, u, hu, ⟨v, -, hfin⟩ | ⟨e, he, rfl⟩⟩
  · rw [hf] at hft
    cases hft
  · have hlaw := NoticeLaw.of_body (submitBody_downgrade hu)
    obtain ⟨hn, hk⟩ := (finishCommand_endOnly hfin).2.2.downgrade
    unfold NoticeLaw at hlaw ⊢
    rwa [hn, hk]
  · rcases he with ⟨k, rfl, hk, htr⟩ | ⟨rfl, rfl⟩ | ⟨c, rfl, -⟩
    · rw [takeException_of_truehdOnly (errorFlushes_of_mem hk) htr]
      exact .of_cleared rfl (.inr rfl)
    · exact .of_cleared rfl (.inl rfl)
    · exact (NoticeLaw.of_body (submitBody_downgrade hu) :)

theorem exec_command_notice {i : Instr} {s t : State} (hi : isCommand i = true) (hf : s.fault = false)
    (h : exec i s = .next t) : NoticeLaw s t := by
  cases i with
  | openStream =>
    rcases exec_open_next h with ⟨hft, -⟩ | ⟨-, rfl | ⟨v, -, -, -, rfl⟩⟩
    · rw [hf] at hft
      cases hft
    · exact .of_cleared rfl (.inl rfl)
    · exact .of_cleared rfl (.inr rfl)
  | flush =>
    rw [exec_flush_eq hf] at h
    cases h
    split
    · exact .of_cleared rfl (.inr rfl)
    · exact .of_cleared rfl (.inl rfl)
  | closeStream =>
    rw [exec_close_eq hf] at h
    cases h
    split
    · exact .of_cleared rfl (.inr rfl)
    · exact .of_cleared rfl (.inl rfl)
  | illegal w =>
    rw [exec_illegal_eq hf] at h
    cases h
    exact .of_cleared rfl (.inl rfl)
  | submit | submitNotOpen | encAc3 | encEac3 | encDts | encDtshd | encTruehd => exact exec_submit_notice rfl hf h
  | submitUnreachable _ | beginPacket | writeBytes | write16Be | writePadding | finalize | a52Parse | dtsParse
  | convert14 => cases hi

theorem takeException_verdict (e : Exception) (s : State) : (takeException e s).verdict = .error := by
  cases e <;> rfl

/-- A SUBMIT that clears the sticky flag ends in an error. -/
theorem exec_submit_clears_skip {s t : State} (h : exec .submit s = .next t) (hs : s.dtshdSkip = true)
    (ht : t.dtshdSkip = false) : t.verdict = .error := by
  rcases exec_submit_next rfl h with ⟨-, rfl⟩ | ⟨-, u, hu, ⟨v, -, hfin⟩ | ⟨e, -, rfl⟩⟩
  · rw [hs] at ht
    cases ht
  · have hu' : u.dtshdSkip = true := (submitBody_downgrade hu).elim (fun h => h.2.trans hs) (fun h => h.2)
    rw [(finishCommand_endOnly hfin).2.2.downgrade.2, hu'] at ht
    cases ht
  · exact takeException_verdict e u

/-- A reserved command word leaves the sticky flag. -/
theorem exec_illegal_dtshdSkip {w : Word} {s t : State} (hf : s.fault = false) (h : exec (.illegal w) s = .next t) :
    t.dtshdSkip = s.dtshdSkip := by
  rw [exec_illegal_eq hf] at h
  exact (congrArg State.dtshdSkip (Host.Outcome.next.inj h)).symm

/-- Settles O44: a stream whose flag is set is open, so OPEN does not flush it; the notice by command. -/
theorem dtshdSkipIsSticky : Obligations.DtshdSkipIsSticky := by
  refine ⟨fun s t hi h hs ht => ?_, fun s t i hf hc h => exec_command_notice hc hf h⟩
  have hopen : s.sOpen = true := by
    by_contra ho
    have hv : s.sVariant = 0 := by
      by_contra hne
      exact ho (hi.variant.1.mpr hne)
    have := hi.ownDtshd (by rw [hv]; decide)
    rw [hs] at this
    cases this
  have kept : t.dtshdSkip = s.dtshdSkip → False := fun hk => by
    rw [hk, hs] at ht
    cases ht
  rcases step_next h with ⟨n, i, hn, -⟩ | ⟨-, -, rfl⟩ | ⟨-, a, rest, hh, ha⟩
  · rw [hi.noMicro] at hn
    cases hn
  · exact absurd rfl kept
  have hhead : s.host.head? = some a := by rw [hh]; rfl
  rcases hostStep_next ha with ⟨rfl, -⟩ | hreg | ⟨w, rfl, hexec⟩
  · exact .inl hhead
  · refine absurd ?_ kept
    unfold RegistersOnly at hreg
    rw [hreg]
    rfl
  have hf : (popHost s).fault = false := hi.noFault.1
  rcases decodeCommand_cases w with ⟨rfl, hd⟩ | ⟨rfl, hd⟩ | ⟨rfl, hd⟩ | ⟨rfl, hd⟩ | hd <;> rw [hd] at hexec
  · rcases exec_open_next hexec with ⟨hft, -⟩ | ⟨-, rfl | ⟨v, hclosed, -⟩⟩
    · rw [hf] at hft
      cases hft
    · exact absurd rfl kept
    · exact absurd (hopen.symm.trans hclosed) (by decide)
  · exact .inr (.inr (.inr ⟨hhead, exec_submit_clears_skip hexec hs ht⟩))
  · exact .inr (.inl hhead)
  · exact .inr (.inr (.inl hhead))
  · exact (kept ((exec_illegal_dtshdSkip hf hexec).trans rfl)).elim

/-! ### FLUSH, CLOSE and OPEN -/

/-- Latching what stands changes nothing. -/
theorem latch_self {s : State} {o be : Bool} {rate : Word} {bpf : Byte} (ho : s.sOpen = o) (hbe : s.sOutBe = be)
    (hrate : s.sOutRate = rate) (hbpf : s.sBpf = bpf) :
    s = { s with sOpen := o, sOutBe := be, sOutRate := rate, sBpf := bpf } := by
  subst ho hbe hrate hbpf
  rfl

/-- Settles O30: CLOSE then OPEN latches the configuration that stood, over the same flushed state. -/
theorem flushEqualsCloseAndOpen : Obligations.FlushEqualsCloseAndOpen := by
  intro s c t u hi ho hbe hrate hbpf hv hflush hclose hopen
  have hf := hi.noFault.1
  rw [exec_flush_eq hf, if_pos ho] at hflush
  rw [exec_close_eq hf, if_pos ho] at hclose
  cases hflush
  cases hclose
  have hne : ctrlBpf s.ctrl ≠ 0 := fun h0 => hi.bpf ho (hbpf.trans h0)
  have hlatched := execute_none (s := recordVerdict .none .none (closeLatch (commandStart s))) (body := openBody) hf
    (openBody_latches rfl hv hne)
  refine Eq.trans ?_ (Host.Outcome.next.inj (hlatched.symm.trans hopen))
  exact congrArg (fun s => recordVerdict .none .none (flushState (commandStart s))) (latch_self ho hbe hrate hbpf)

end Sys2Proof.Machine

/-! What a SUBMIT that is no error leaves unchanged (10_state.md rule R44, 20_memory.md section 1). -/

namespace Sys2Proof.Machine

/-! ### The operation ends in its own body -/

/-- A SUBMIT that is no error: ignored while faulted, or its encapsulator ended with a verdict. -/
theorem submit_ends {enc : State → Act Verdict} {P : Verdict → State → Prop} {Q : Exception → State → Prop}
    {s t : State} (he : (enc (commandStart s)).Ends P Q) (h : execute (submitWith enc) s = .next t)
    (hv : t.verdict ≠ .error) : t = s ∨ ∃ v u, P v u ∧ finishCommand v u = .ok () t := by
  have hbody : (submitWith enc (commandStart s)).Ends P fun _ _ => True := by
    unfold submitWith
    split
    · trivial
    split
    · trivial
    · exact he.mono (fun _ _ h => h) fun _ _ _ => trivial
  rcases execute_next hbody h with ⟨-, ht⟩ | ⟨-, v, u, -, hP, hfin⟩ | ⟨-, e, u, -, -, rfl⟩
  · exact .inl ht
  · exact .inr ⟨v, u, hP, hfin⟩
  · exact absurd (takeException_verdict e u) hv

/-- The bytes of `OB` that a packet handed over does not cover. -/
theorem finishCommand_packet {s u t : State} (hk : KeepsFrom u.obCap.toNat s u)
    (h : finishCommand .packet u = .ok () t) : ∀ p, t.pktOut = some p → KeepsFrom p.data.length s t := by
  have hends := finishCommand_ends .packet u
  rw [h] at hends
  rcases hends with ⟨-, -, -, -, ⟨q, hq, hlen⟩, ht⟩ | ⟨hne, -⟩
  · intro p hp a ha
    cases hq.symm.trans hp
    have hob : t.ob = u.ob := by rw [ht]
    rw [hob]
    exact hk a (hlen ▸ ha)
  · exact absurd rfl hne

theorem finishCommand_more {u t : State} (h : finishCommand .more u = .ok () t) : t = recordVerdict .more .none u := by
  cases h
  rfl

theorem EndOnly.ob {s t : State} (h : EndOnly s t) : t.ob = s.ob := by
  unfold EndOnly at h
  rw [h]

/-! ### The aggregation state -/

/-- The aggregation state of TrueHD and its buffers stay. -/
def TruehdStays (s t : State) : Prop :=
  t.matIdx = s.matIdx ∧ t.matFill = s.matFill ∧ t.thdPrevSize = s.thdPrevSize ∧ t.thdPrevTime = s.thdPrevTime ∧
    t.thdSpf = s.thdSpf ∧ t.thdFrameCount = s.thdFrameCount ∧ t.mat0 = s.mat0 ∧ t.mat1 = s.mat1

theorem TruehdStays.refl (s : State) : TruehdStays s s := ⟨rfl, rfl, rfl, rfl, rfl, rfl, rfl, rfl⟩

section
variable {s t u : State}

theorem WriterOnly.aggregation (h : WriterOnly s u) (he : EndOnly u t) :
    t.eac3Blocks = s.eac3Blocks ∧ t.dtshdSkip = s.dtshdSkip ∧ TruehdStays s t := by
  unfold WriterOnly at h
  unfold EndOnly at he
  rw [he, h]
  exact ⟨rfl, rfl, .refl _⟩

theorem DtshdOnly.aggregation (h : DtshdOnly s u) (he : EndOnly u t) :
    t.eac3Blocks = s.eac3Blocks ∧ TruehdStays s t := by
  obtain ⟨h, -⟩ := h
  unfold EndOnly at he
  rw [he, h]
  exact ⟨rfl, .refl _⟩

theorem Eac3Only.aggregation (h : Eac3Only s u) (he : EndOnly u t) : t.dtshdSkip = s.dtshdSkip ∧ TruehdStays s t := by
  unfold Eac3Only at h
  unfold EndOnly at he
  rw [he, h]
  exact ⟨rfl, .refl _⟩

theorem TruehdOnly.aggregation (h : TruehdOnly s u) (he : EndOnly u t) :
    t.eac3Blocks = s.eac3Blocks ∧ t.dtshdSkip = s.dtshdSkip := by
  unfold TruehdOnly at h
  unfold EndOnly at he
  rw [he, h]
  exact ⟨rfl, rfl⟩

theorem Eac3Only.pktOut (h : Eac3Only s t) : t.pktOut = s.pktOut := by
  unfold Eac3Only at h
  rw [h]

theorem TruehdOnly.pktOut (h : TruehdOnly s t) : t.pktOut = s.pktOut := by
  unfold TruehdOnly at h
  rw [h]

end

theorem EndOnly.truehdStays {s t : State} (h : EndOnly s t) : TruehdStays s t := by
  unfold EndOnly at h
  rw [h]
  exact ⟨rfl, rfl, rfl, rfl, rfl, rfl, rfl, rfl⟩

/-! ### The MAT buffers -/

/-- The bytes of the MAT buffers that a TrueHD frame leaves (20_memory.md section 1): those below the fill and past the
new one, and, once the MAT frame is complete, those of the other buffer past the new fill. -/
structure MatSpan (s t : State) : Prop where
  same : t.matIdx = s.matIdx → spaceOf (matSpace (!s.matIdx)) t = spaceOf (matSpace (!s.matIdx)) s ∧
    ∀ a, (a < s.matFill.toNat ∨ t.matFill.toNat ≤ a) → (activeMat t).get? a = (activeMat s).get? a
  flipped : t.matIdx ≠ s.matIdx →
    (∀ a, (a < s.matFill.toNat ∨ 61424 ≤ a) →
      (spaceOf (matSpace s.matIdx) t).get? a = (spaceOf (matSpace s.matIdx) s).get? a) ∧
    ∀ a, t.matFill.toNat ≤ a → (activeMat t).get? a = (spaceOf (matSpace t.matIdx) s).get? a

theorem MatSpan.refl (s : State) : MatSpan s s := ⟨fun _ => ⟨rfl, fun _ _ => rfl⟩, fun h => absurd rfl h⟩

theorem spaceOf_matSpace_congr {s t : State} (h0 : t.mat0 = s.mat0) (h1 : t.mat1 = s.mat1) (i : Bool) :
    spaceOf (matSpace i) t = spaceOf (matSpace i) s := by
  cases i
  · exact h0
  · exact h1

theorem MatSpan.of_same_end {s t u : State} (h : MatSpan s t) (hi : u.matIdx = t.matIdx) (hf : u.matFill = t.matFill)
    (h0 : u.mat0 = t.mat0) (h1 : u.mat1 = t.mat1) : MatSpan s u := by
  have hspace := spaceOf_matSpace_congr h0 h1
  have hactive := activeMat_congr hi h0 h1
  constructor
  · rw [hi, hf, hactive, hspace]
    exact h.same
  · rw [hi, hf, hactive, hspace]
    exact h.flipped

theorem MatSpan.of_same_start {s s' t : State} (h : MatSpan s t) (hi : s'.matIdx = s.matIdx)
    (hf : s'.matFill = s.matFill) (h0 : s'.mat0 = s.mat0) (h1 : s'.mat1 = s.mat1) : MatSpan s' t := by
  have hspace := spaceOf_matSpace_congr h0 h1
  have hactive := activeMat_congr hi h0 h1
  constructor
  · rw [hi, hf, hactive, hspace]
    exact h.same
  · rw [hi, hf, hspace, hspace]
    exact h.flipped

theorem activeMat_matCommit (w : MatWork) (s : State) : activeMat (matCommit w s) = matBuf w.idx w :=
  spaceOf_matCommit w.idx w s

/-- MAT_INSERT's reach in the state. -/
theorem matInsert_matSpan {pad : Nat} {s u : State} {w : MatWork} (hn : 0 < frameLen s)
    (h : matInsert pad s = .ok w u) : MatSpan s u := by
  obtain ⟨rfl, hle, hsame, hflip⟩ := matInsert_span hn h
  have hfill : (BitVec.ofNat 16 w.fill).toNat = w.fill := by
    rw [BitVec.toNat_ofNat]
    omega
  constructor
  · intro hi
    obtain ⟨hother, hactive⟩ := hsame hi
    rw [spaceOf_matCommit, activeMat_matCommit, matCommit_matFill, hfill, show w.idx = s.matIdx from hi]
    exact ⟨hother, hactive⟩
  · intro hi
    obtain ⟨hactive, hother⟩ := hflip hi
    have hidx : w.idx = !s.matIdx := Bool.eq_not_of_ne hi
    rw [spaceOf_matCommit, activeMat_matCommit, matCommit_matFill, hfill, matCommit_matIdx, hidx]
    exact ⟨hactive, hother⟩

theorem thdPlace_matSpan {time : Half} {s : State} (hn : 0 < frameLen s) :
    (thdPlace time s).Ends (fun _ u => MatSpan s u) fun _ _ => True := by
  unfold thdPlace
  split
  · trivial
  cases hm : matInsert (thdPadding time s) s with
  | ok w u =>
    have hspan : MatSpan s (thdAccount time w u) := (matInsert_matSpan hn hm).of_same_end rfl rfl rfl rfl
    rw [Act.ok_andThen]
    dsimp only
    split
    · refine (thdEmit_ends w.outbuf _).mono (fun _ x hx => ?_) fun _ _ _ => trivial
      have hw := hx.2.writer
      unfold WriterOnly at hw
      rw [hw]
      exact hspan.of_same_end rfl rfl rfl rfl
    · exact hspan
  | raise e u => trivial
  | stop r => trivial
  | refuse r => trivial

/-- The reach of ENC_TRUEHD (rules R191, R195): a frame of fewer than ten bytes is not placed. -/
theorem truehdBody_matSpan (s : State) : (truehdBody s).Ends (fun _ u => MatSpan s u) fun _ _ => True := by
  by_cases hl : frameLen s < 10
  · rw [truehdBody_short hl]
    trivial
  have hn : 0 < frameLen s := by omega
  unfold truehdBody
  split
  · split
    · trivial
    next spf _ =>
      cases spf with
      | none => exact thdPlace_matSpan hn
      | some n =>
        exact (thdPlace_matSpan (s := thdApplySync (some n) s) hn).mono
          (fun _ _ h => h.of_same_start rfl rfl rfl rfl) fun _ _ _ => trivial
  · trivial

/-! ### The frame of each operation -/

/-- What a SUBMIT that is no error leaves, operation by operation: the conclusion of O60 but for the elements that no
encapsulator writes. -/
structure WritesOwn (i : Instr) (s t : State) : Prop where
  blocks : i ≠ .encEac3 → t.eac3Blocks = s.eac3Blocks
  skip : i ≠ .encDtshd → t.dtshdSkip = s.dtshdSkip
  truehd : i ≠ .encTruehd → TruehdStays s t
  packet : ∀ p, t.pktOut = some p → KeepsFrom p.data.length s t
  appended : i = .encEac3 → t.verdict ≠ .packet →
    let start := if s.obActive then s.cursor.toNat else 8
    ∀ a, (a < start ∨ start + ceil2 (frameLen s) ≤ a) → t.ob.get? a = s.ob.get? a
  absorbed : i ≠ .encEac3 → t.verdict ≠ .packet → t.ob = s.ob
  mat : i = .encTruehd → MatSpan s t

theorem WritesOwn.refl (i : Instr) (s : State) : WritesOwn i s s :=
  ⟨fun _ => rfl, fun _ => rfl, fun _ => .refl s, fun _ _ => .refl _ s, fun _ _ => fun _ _ => rfl,
    fun _ _ => rfl, fun _ => .refl s⟩

section
variable {s t : State}

/-- An operation that builds its packet in one SUBMIT and writes no aggregation state. -/
theorem WritesOwn.of_built {i : Instr} (hi : i ≠ .encEac3) (hd : i ≠ .encTruehd) {v : Verdict} {u : State}
    (hu : v = .packet ∧ Built (commandStart s) u) (hfin : finishCommand v u = .ok () t) : WritesOwn i s t := by
  obtain ⟨rfl, hbuilt⟩ := hu
  obtain ⟨hverdict, -, hend⟩ := finishCommand_endOnly hfin
  obtain ⟨hblocks, hskip, htruehd⟩ := hbuilt.writer.aggregation hend
  exact ⟨fun _ => hblocks, fun _ => hskip, fun _ => htruehd, finishCommand_packet hbuilt.keeps hfin,
    fun h => absurd h hi, fun _ hne => absurd hverdict hne, fun h => absurd h hd⟩

theorem encAc3_writesOwn (h : exec .encAc3 s = .next t) (hv : t.verdict ≠ .error) : WritesOwn .encAc3 s t := by
  rcases submit_ends (ac3Body_ends _) h hv with rfl | ⟨v, u, hu, hfin⟩
  · exact .refl _ t
  · exact .of_built (by decide) (by decide) hu hfin

theorem encDts_writesOwn (h : exec .encDts s = .next t) (hv : t.verdict ≠ .error) : WritesOwn .encDts s t := by
  rcases submit_ends (dtsBody_ends _) h hv with rfl | ⟨v, u, hu, hfin⟩
  · exact .refl _ t
  · exact .of_built (by decide) (by decide) hu hfin

theorem encDtshd_writesOwn (h : exec .encDtshd s = .next t) (hv : t.verdict ≠ .error) : WritesOwn .encDtshd s t := by
  rcases submit_ends (dtshdBody_ends _) h hv with rfl | ⟨v, u, ⟨rfl, honly, hkeeps⟩, hfin⟩
  · exact .refl _ t
  obtain ⟨hverdict, -, hend⟩ := finishCommand_endOnly hfin
  obtain ⟨hblocks, htruehd⟩ := honly.aggregation hend
  exact ⟨fun _ => hblocks, fun h => absurd rfl h, fun _ => htruehd, finishCommand_packet hkeeps hfin,
    fun h => absurd h (by decide), fun _ hne => absurd hverdict hne, fun h => absurd h (by decide)⟩

theorem encEac3_writesOwn (h : exec .encEac3 s = .next t) (hv : t.verdict ≠ .error) : WritesOwn .encEac3 s t := by
  rcases submit_ends (eac3Body_ends _) h hv with rfl | ⟨v, u, ⟨honly, hbytes⟩, hfin⟩
  · exact .refl _ t
  obtain ⟨hverdict, -, hend⟩ := finishCommand_endOnly hfin
  obtain ⟨hskip, htruehd⟩ := honly.aggregation hend
  have mk : (∀ p, t.pktOut = some p → KeepsFrom p.data.length s t) → (t.verdict ≠ .packet →
      ∀ a, (a < (if s.obActive then s.cursor.toNat else 8) ∨
        (if s.obActive then s.cursor.toNat else 8) + ceil2 (frameLen s) ≤ a) → t.ob.get? a = s.ob.get? a) →
      WritesOwn .encEac3 s t :=
    fun hp ha => ⟨fun h => absurd rfl h, fun _ => hskip, fun _ => htruehd, hp, fun _ => ha, fun h => absurd rfl h,
      fun h => absurd h (by decide)⟩
  rcases hbytes with ⟨rfl, hb⟩ | ⟨rfl, hk⟩
  · cases finishCommand_more hfin
    refine mk (fun p hp => ?_) fun _ => hb
    cases honly.pktOut.symm.trans hp
  · exact mk (finishCommand_packet hk hfin) fun hne => absurd hverdict hne

theorem encTruehd_writesOwn (h : exec .encTruehd s = .next t) (hv : t.verdict ≠ .error) :
    WritesOwn .encTruehd s t := by
  rcases submit_ends ((truehdBody_ends _).and (truehdBody_matSpan _)) h hv with
    rfl | ⟨v, u, ⟨⟨honly, hbytes⟩, hspan⟩, hfin⟩
  · exact .refl _ t
  obtain ⟨hverdict, -, hend⟩ := finishCommand_endOnly hfin
  obtain ⟨hblocks, hskip⟩ := honly.aggregation hend
  have hmat : MatSpan s t := by
    obtain ⟨hidx, hfill, -, -, -, -, h0, h1⟩ := hend.truehdStays
    exact (hspan.of_same_end hidx hfill h0 h1).of_same_start rfl rfl rfl rfl
  have mk : (∀ p, t.pktOut = some p → KeepsFrom p.data.length s t) → (t.verdict ≠ .packet → t.ob = s.ob) →
      WritesOwn .encTruehd s t :=
    fun hp ha => ⟨fun _ => hblocks, fun _ => hskip, fun h => absurd rfl h, hp, fun h => absurd h (by decide),
      fun _ => ha, fun _ => hmat⟩
  rcases hbytes with ⟨rfl, hob⟩ | ⟨rfl, hk⟩
  · cases finishCommand_more hfin
    refine mk (fun p hp => ?_) fun _ => hob
    cases honly.pktOut.symm.trans hp
  · exact mk (finishCommand_packet hk hfin) fun hne => absurd hverdict hne

theorem exec_writesOwn {i : Instr} (hi : i ∈ [Instr.encAc3, .encEac3, .encDts, .encDtshd, .encTruehd])
    (h : exec i s = .next t) (hv : t.verdict ≠ .error) : WritesOwn i s t ∧ isSubmit i = true := by
  simp only [List.mem_cons, List.not_mem_nil, or_false] at hi
  rcases hi with rfl | rfl | rfl | rfl | rfl
  · exact ⟨encAc3_writesOwn h hv, rfl⟩
  · exact ⟨encEac3_writesOwn h hv, rfl⟩
  · exact ⟨encDts_writesOwn h hv, rfl⟩
  · exact ⟨encDtshd_writesOwn h hv, rfl⟩
  · exact ⟨encTruehd_writesOwn h hv, rfl⟩

end

/-! ### What no SUBMIT writes -/

/-- The registers the host wrote, the input frame, FAULT and what lies outside the formatter. -/
structure HostSide (s t : State) : Prop where
  ctrl : t.ctrl = s.ctrl
  outRate : t.outRate = s.outRate
  frameIn : t.frameIn = s.frameIn
  fault : t.fault = s.fault
  faultCause : t.faultCause = s.faultCause
  host : t.host = s.host
  busRead : t.busRead = s.busRead

theorem HostSide.refl (s : State) : HostSide s s := ⟨rfl, rfl, rfl, rfl, rfl, rfl, rfl⟩

theorem HostSide.trans {s t u : State} (h : HostSide s t) (h' : HostSide t u) : HostSide s u :=
  ⟨h'.ctrl.trans h.ctrl, h'.outRate.trans h.outRate, h'.frameIn.trans h.frameIn, h'.fault.trans h.fault,
    h'.faultCause.trans h.faultCause, h'.host.trans h.host, h'.busRead.trans h.busRead⟩

theorem StreamOnly.hostSide {s t : State} (h : StreamOnly s t) : HostSide s t := by
  unfold StreamOnly at h
  rw [h]
  exact ⟨rfl, rfl, rfl, rfl, rfl, rfl, rfl⟩

theorem EndOnly.hostSide {s t : State} (h : EndOnly s t) : HostSide s t := by
  unfold EndOnly at h
  rw [h]
  exact ⟨rfl, rfl, rfl, rfl, rfl, rfl, rfl⟩

theorem commandStart_hostSide (s : State) : HostSide s (commandStart s) := ⟨rfl, rfl, rfl, rfl, rfl, rfl, rfl⟩

theorem dtshdDowngrade_hostSide (s : State) : HostSide s (dtshdDowngrade s) := by
  constructor <;> simp

theorem exec_submit_hostSide {i : Instr} {s t : State} (hi : isSubmit i = true) (h : exec i s = .next t)
    (hv : t.verdict ≠ .error) : HostSide s t := by
  rcases exec_submit_next hi h with ⟨-, rfl⟩ | ⟨-, u, hu, hend⟩
  · exact .refl t
  rcases hend with ⟨v, -, hfin⟩ | ⟨e, -, rfl⟩
  · refine HostSide.trans ?_ (finishCommand_endOnly hfin).2.2.hostSide
    rcases hu with hu | hu
    · exact (commandStart_hostSide s).trans hu.hostSide
    · exact (commandStart_hostSide s).trans ((dtshdDowngrade_hostSide _).trans hu.hostSide)
  · exact absurd (takeException_verdict e u) hv

/-- Settles O60: what no SUBMIT writes, and what each encapsulator leaves. -/
theorem submitFrame : Obligations.SubmitFrame := by
  intro s t i hi h hv
  obtain ⟨hown, hsubmit⟩ := exec_writesOwn hi h hv
  have hhost := exec_submit_hostSide hsubmit h hv
  have hconfig := exec_submit_sameConfig hsubmit h
  exact ⟨⟨hhost.ctrl, hhost.outRate, hhost.frameIn, hconfig.sOpen, hconfig.sVariant, hconfig.sOutBe, hconfig.sOutRate,
    hconfig.sBpf, hhost.fault, hhost.faultCause, hhost.host, hhost.busRead, hconfig.uop⟩, hown.blocks, hown.skip,
    hown.truehd, hown.packet, hown.appended, hown.absorbed, fun h => (hown.mat h).same, fun h => (hown.mat h).flipped⟩

end Sys2Proof.Machine

/-! The invariant between commands (10_state.md rule R51), taken apart: the clauses about the configuration and the
port, those about the Packet Writer, and those about the MAT buffers. -/

namespace Sys2Proof.Machine

/-! ### The invariant in parts -/

/-- What the packet port shows agrees with PKT_OUT (10_state.md rules R31, R37). -/
def PortShows (s : State) : Prop :=
  match s.pktOut with
  | none => s.pktValid = false ∧ s.pktLen = 0 ∧ s.pktSamples = 0
  | some p => s.pktValid = true ∧ s.pktLen.toNat = p.data.length ∧ s.pktSamples = p.nbSamples

/-- The clauses of `Inv` that no aggregate in progress takes part in. -/
structure InvBase (s : State) : Prop where
  noFault : s.fault = false ∧ s.faultCause = .none
  noMicro : s.uop.pending = none
  variant : (s.sOpen = true ↔ s.sVariant ≠ 0) ∧ s.sVariant.toNat ≤ 5
  bpf : s.sOpen = true → s.sBpf ≠ 0
  ctrl : s.ctrl &&& ctrlWritable = s.ctrl
  ownDtshd : s.sVariant ≠ 4 → s.dtshdSkip = false
  obWf : s.ob.wf Config.outbufBytes
  mat0Wf : s.mat0.wf Config.matFrameSize
  mat1Wf : s.mat1.wf Config.matFrameSize
  port : PortShows s

/-- The clauses of `Inv` about the packet in progress and the block counter. -/
structure InvWriter (s : State) : Prop where
  activeOnlyEac3 : s.obActive = true → s.sVariant = 2 ∧ 1 ≤ s.eac3Blocks.toNat ∧ s.eac3Blocks.toNat ≤ 5
  activePacket : s.obActive = true → s.obCap.toNat = Config.eac3Capacity ∧ Config.hdr ≤ s.cursor.toNat ∧
    s.cursor.toNat ≤ s.obCap.toNat ∧ s.cursor.toNat % 2 = 0
  idle : s.obActive = false →
    s.obCap = 0 ∧ s.cursor = 0 ∧ s.obSamples = 0 ∧ s.obPts = 0 ∧ s.obDts = 0 ∧ s.eac3Blocks = 0
  obWritten : s.obActive = true → bytesWritten s.ob Config.hdr (s.cursor.toNat - Config.hdr)
  metadata : s.obActive = true → s.obSamples = packetSamples Config.eac3Capacity s.sBpf

/-- The clauses of `Inv` about the MAT buffers and the TrueHD timing. -/
structure InvMat (s : State) : Prop where
  fill : s.matFill.toNat ≤ 61407 ∧ (s.thdPrevSize ≠ 0 → 20 ≤ s.matFill.toNat)
  samples : s.thdSpf = 0 ∨ s.thdSpf = 40 ∨ s.thdSpf = 80 ∨ s.thdSpf = 160 ∨ s.thdSpf = 320
  count : s.thdFrameCount.toNat ≤ 24
  ownTruehd : s.sVariant ≠ 5 →
    s.matIdx = false ∧ s.matFill = 0 ∧ s.thdPrevSize = 0 ∧ s.thdPrevTime = 0 ∧ s.thdSpf = 0 ∧ s.thdFrameCount = 0
  matFilled : MatFilled (activeMat s) s.matFill.toNat

section
variable {s : State}

theorem InvWriter.blocks (h : InvWriter s) : s.eac3Blocks.toNat ≤ 5 := by
  cases ha : s.obActive with
  | true => exact (h.activeOnlyEac3 ha).2.2
  | false =>
    rw [(h.idle ha).2.2.2.2.2]
    decide

/-- The parts make up the invariant. -/
theorem inv_iff : Inv s ↔ InvBase s ∧ InvWriter s ∧ InvMat s :=
  ⟨fun h => ⟨⟨h.noFault, h.noMicro, h.variant, h.bpf, h.ctrl, h.ownDtshd, h.obWf, h.mat0Wf, h.mat1Wf, h.port⟩,
      ⟨h.r51.activeOnlyEac3, h.r51.activePacket, h.idle, h.obWritten, h.metadata⟩,
      ⟨h.r51.fill, h.r51.samples, h.r51.count, h.ownTruehd, h.matFilled⟩⟩,
    fun ⟨hb, hw, hm⟩ => ⟨hb.noFault, hb.noMicro, hb.variant, hb.bpf, hb.ctrl,
      ⟨hw.activeOnlyEac3, hw.activePacket, hw.blocks, hm.fill, hm.samples, hm.count⟩, hw.idle, hb.ownDtshd,
      hm.ownTruehd, hb.obWf, hb.mat0Wf, hb.mat1Wf, hw.obWritten, hw.metadata, hm.matFilled, hb.port⟩⟩

theorem matFilled_zero (m : Memory) : MatFilled m 0 :=
  ⟨bytesWritten_zero m 0, fun h => absurd rfl h, fun h => absurd h (by decide)⟩

/-- No packet in progress and no block counted. -/
theorem InvWriter.of_idle (ha : s.obActive = false) (hcap : s.obCap = 0) (hcursor : s.cursor = 0)
    (hsamples : s.obSamples = 0) (hpts : s.obPts = 0) (hdts : s.obDts = 0) (hblocks : s.eac3Blocks = 0) :
    InvWriter s := by
  have hno : s.obActive = true → False := fun h => by rw [ha] at h; cases h
  exact ⟨fun h => (hno h).elim, fun h => (hno h).elim, fun _ => ⟨hcap, hcursor, hsamples, hpts, hdts, hblocks⟩,
    fun h => (hno h).elim, fun h => (hno h).elim⟩

/-- Nothing in the MAT buffers. -/
theorem InvMat.of_idle (h : s.matIdx = false ∧ s.matFill = 0 ∧ s.thdPrevSize = 0 ∧ s.thdPrevTime = 0 ∧ s.thdSpf = 0 ∧
    s.thdFrameCount = 0) : InvMat s := by
  obtain ⟨-, hfill, hprev, -, hspf, hcount⟩ := id h
  refine ⟨⟨?_, fun hne => absurd hprev hne⟩, .inl hspf, ?_, fun _ => h, ?_⟩
  · rw [hfill]
    decide
  · rw [hcount]
    decide
  · rw [hfill]
    exact matFilled_zero _

end

theorem PortShows.idle {s : State} (ho : s.pktOut = none) (hv : s.pktValid = false) (hl : s.pktLen = 0)
    (hn : s.pktSamples = 0) : PortShows s := by
  unfold PortShows
  rw [ho]
  exact ⟨hv, hl, hn⟩

/-! ### A state with other bytes in its buffers -/

/-- `s` with other bytes in its buffers. -/
def withBuffers (o a b : Memory) (s : State) : State := { s with ob := o, mat0 := a, mat1 := b }

theorem SameButStaleBytes.refl (s : State) : SameButStaleBytes s s :=
  ⟨rfl, fun _ => sameBytes_refl _ _ _, sameBytes_refl _ _ _⟩

/-- Buffers that can replace those of `s`: the live bytes are the same. -/
theorem sameButStaleBytes_withBuffers {s : State} {o a b : Memory}
    (hpayload : s.obActive = true → sameBytes s.ob o Config.hdr (s.cursor.toNat - Config.hdr))
    (hfilled : sameBytes (activeMat s) (activeMat (withBuffers o a b s)) 0 s.matFill.toNat) :
    SameButStaleBytes s (withBuffers o a b s) := ⟨rfl, hpayload, hfilled⟩

theorem sameBytes_zero (m m' : Memory) (a : Nat) : sameBytes m m' a 0 := fun x h1 h2 => by omega

/-- With no aggregate in progress every byte is stale. -/
theorem SameButStaleBytes.of_idle {s : State} (o a b : Memory) (ha : s.obActive = false) (hf : s.matFill = 0) :
    SameButStaleBytes s (withBuffers o a b s) := by
  refine sameButStaleBytes_withBuffers (fun h => ?_) ?_
  · rw [ha] at h
    cases h
  · rw [hf]
    exact sameBytes_zero _ _ _

/-- Buffers that differ from those of a state of the invariant only in stale bytes, in a state of the invariant. -/
structure Twins (o a b : Memory) (s : State) : Prop where
  left : Inv s
  right : Inv (withBuffers o a b s)
  same : SameButStaleBytes s (withBuffers o a b s)

theorem Twins.self {s : State} (h : Inv s) : Twins s.ob s.mat0 s.mat1 s := ⟨h, h, .refl s⟩

theorem Twins.of_same {s t : State} (hs : Inv s) (ht : Inv t) (h : SameButStaleBytes s t) :
    t = withBuffers t.ob t.mat0 t.mat1 s ∧ Twins t.ob t.mat0 t.mat1 s :=
  ⟨h.rest, hs, h.rest ▸ ht, h.rest ▸ h⟩

/-! ### Two outcomes that differ in stale bytes -/

/-- Both outcomes are next states, the first one with the invariant and `P`, which differ only in stale bytes. -/
def Alike (P : State → Prop) (x y : Host.Outcome State Fault Refusal) : Prop :=
  ∃ s o a b, x = .next s ∧ y = .next (withBuffers o a b s) ∧ Inv s ∧ SameButStaleBytes s (withBuffers o a b s) ∧ P s

/-! ### What lies outside the stream -/

/-- Only the registers the host reads and writes, the packet port, the verdict, FRAME_IN and the host's accesses
differ. -/
def OutsideOnly (s t : State) : Prop :=
  t = { s with ctrl := t.ctrl, outRate := t.outRate, verdict := t.verdict, errKind := t.errKind,
               pktValid := t.pktValid, downgradeNotice := t.downgradeNotice, pktLen := t.pktLen,
               pktSamples := t.pktSamples, frameIn := t.frameIn, pktOut := t.pktOut, host := t.host,
               busRead := t.busRead }

section
variable {s t : State}

theorem OutsideOnly.inv (h : OutsideOnly s t) (hi : Inv s) (hc : t.ctrl &&& ctrlWritable = t.ctrl)
    (hp : PortShows t) : Inv t := by
  unfold OutsideOnly at h
  have hm : activeMat t = activeMat s := activeMat_congr (by rw [h]) (by rw [h]) (by rw [h])
  have hfilled : MatFilled (activeMat t) t.matFill.toNat := by
    rw [hm, h]
    exact hi.matFilled
  obtain ⟨hb, hw, hmat⟩ := inv_iff.mp hi
  refine inv_iff.mpr ⟨?_, ?_, ?_, ?_, ?_, ?_, hfilled⟩
  · have hother : t.fault = s.fault ∧ t.faultCause = s.faultCause ∧ t.uop = s.uop ∧ t.sOpen = s.sOpen ∧
        t.sVariant = s.sVariant ∧ t.sBpf = s.sBpf ∧ t.dtshdSkip = s.dtshdSkip ∧ t.ob = s.ob ∧ t.mat0 = s.mat0 ∧
        t.mat1 = s.mat1 := by
      rw [h]
      exact ⟨rfl, rfl, rfl, rfl, rfl, rfl, rfl, rfl, rfl, rfl⟩
    obtain ⟨h1, h2, h3, h4, h5, h6, h7, h8, h9, h10⟩ := hother
    exact ⟨h1 ▸ h2 ▸ hb.noFault, h3 ▸ hb.noMicro, h4 ▸ h5 ▸ hb.variant, h4 ▸ h6 ▸ hb.bpf, hc, h5 ▸ h7 ▸ hb.ownDtshd,
      h8 ▸ hb.obWf, h9 ▸ hb.mat0Wf, h10 ▸ hb.mat1Wf, hp⟩
  · rw [h]
    exact ⟨hw.activeOnlyEac3, hw.activePacket, hw.idle, hw.obWritten, hw.metadata⟩
  · rw [h]
    exact hmat.fill
  · rw [h]
    exact hmat.samples
  · rw [h]
    exact hmat.count
  · rw [h]
    exact hmat.ownTruehd

theorem OutsideOnly.same {o a b : Memory} (h : OutsideOnly s t) (hs : SameButStaleBytes s (withBuffers o a b s)) :
    SameButStaleBytes t (withBuffers o a b t) := by
  unfold OutsideOnly at h
  have hm : activeMat t = activeMat s := activeMat_congr (by rw [h]) (by rw [h]) (by rw [h])
  have hm' : activeMat (withBuffers o a b t) = activeMat (withBuffers o a b s) :=
    activeMat_congr (by rw [h]; rfl) rfl rfl
  refine sameButStaleBytes_withBuffers ?_ ?_
  · rw [h]
    exact hs.payload
  · rw [hm, hm', h]
    exact hs.filled

/-- An operation that changes only what lies outside the stream. -/
theorem Alike.outside {o a b : Memory} {P : State → Prop} {x y : Host.Outcome State Fault Refusal}
    (ht : Twins o a b s) (h : OutsideOnly s t) (hc : t.ctrl &&& ctrlWritable = t.ctrl) (hp : PortShows t) (hP : P t)
    (hx : x = .next t) (hy : y = .next (withBuffers o a b t)) : Alike P x y :=
  ⟨t, o, a, b, hx, hy, h.inv ht.left hc hp, h.same ht.same, hP⟩

end

/-- Settles O2: nothing is open, in progress or filled. -/
theorem invHoldsAtReset : Obligations.InvHoldsAtReset :=
  inv_iff.mpr ⟨⟨⟨rfl, rfl⟩, rfl, ⟨by decide, by decide⟩, by decide, by decide, fun _ => rfl, Memory.wf_nil _,
    Memory.wf_nil _, Memory.wf_nil _, ⟨rfl, rfl, rfl⟩⟩, .of_idle rfl rfl rfl rfl rfl rfl rfl,
    .of_idle ⟨rfl, rfl, rfl, rfl, rfl, rfl⟩⟩

end Sys2Proof.Machine

/-! The burst layout (30_encoding.md rules R95 to R98), and the SUBMITs of the variants that send each frame in one
packet: AC-3, DTS and DTS-HD. -/

namespace Sys2Proof.Machine

/-! ### The burst -/

theorem be16_highByte_lowByte (v : Half) : be16 (highByte v) (lowByte v) = v := by
  unfold be16 highByte lowByte
  rw [BitVec.extractLsb'_append_extractLsb'_eq_extractLsb' (by rfl)]
  simp

/-- The four fields of the header. -/
theorem unitAt_headerBytes (be : Bool) (dt len : Half) (rest : List Byte) :
    unitAt be (headerBytes be dt len ++ rest) 0 = 0xF872 ∧ unitAt be (headerBytes be dt len ++ rest) 2 = 0x4E1F ∧
    unitAt be (headerBytes be dt len ++ rest) 4 = dt ∧ unitAt be (headerBytes be dt len ++ rest) 6 = len := by
  cases be <;>
    exact ⟨be16_highByte_lowByte _, be16_highByte_lowByte _, be16_highByte_lowByte _, be16_highByte_lowByte _⟩

/-- Zeros after the payload. -/
theorem burst_tail {be : Bool} {dt : Half} {unit cap k : Nat} {p : List Byte} (hlo : 8 + p.length ≤ k) (hhi : k < cap) :
    (burst be dt unit p cap)[k]? = some 0 := by
  have h8 : (headerBytes be dt (BitVec.ofNat 16 (p.length * unit))).length = 8 := headerBytes_length _ _ _
  rw [burst, List.getElem?_append_right (by omega), List.getElem?_append_right (by omega), List.getElem?_replicate,
    if_pos (by simp only [Config.hdr]; omega)]

/-- The capacity, the sample metadata, the data type, and what is known of the payload's length and its unit, variant by
variant (30_encoding.md rules R96 to R98). -/
def VariantFields (s : State) (cap : Nat) (samples : Word) (dt : Half) (len unit : Nat) : Prop :=
  (s.sVariant = 1 ∧ cap = 6144 ∧ samples = 1536 ∧ unit = 8 ∧ dt &&& 0xF8FF = 0x0001) ∨
  (s.sVariant = 2 ∧ cap = 24576 ∧ samples = BitVec.ofNat 32 (24576 / s.sBpf.toNat) ∧ unit = 1 ∧ dt = 0x0015) ∨
  (s.sVariant = 3 ∧ unit = 8 ∧ ∃ c ∈ dtsCodes, cap = c.1 * 4 ∧ samples = BitVec.ofNat 32 c.1 ∧ dt = c.2) ∨
  (s.sVariant = 4 ∧ unit = 1 ∧ len % 16 = 8 ∧ samples = BitVec.ofNat 32 (cap / s.sBpf.toNat) ∧
    ∃ c ∈ dtshdPeriods, cap = c.1 * 4 ∧ dt = 0x0011 ||| (BitVec.ofNat 16 c.2 <<< 8)) ∨
  (s.sVariant = 5 ∧ cap = 61440 ∧ samples = BitVec.ofNat 32 (61440 / s.sBpf.toNat) ∧ unit = 1 ∧ len = 61424 ∧
    dt = 0x0016)

/-- A packet with the layout of its variant. -/
def Laid (s : State) (p : Packet) : Prop :=
  unitAt s.sOutBe p.data 0 = 0xF872 ∧ unitAt s.sOutBe p.data 2 = 0x4E1F ∧
  ∃ len unit : Nat, 8 + len ≤ p.data.length ∧ (unitAt s.sOutBe p.data 6).toNat = len * unit ∧
    (∀ k, 8 + len ≤ k → k < p.data.length → p.data[k]? = some 0) ∧
    VariantFields s p.data.length p.nbSamples (unitAt s.sOutBe p.data 4) len unit

theorem Laid.of_burst {s : State} {dt : Half} {unit cap : Nat} {payload : List Byte} {samples : Word} {pts dts : Stamp}
    (hfit : 8 + payload.length ≤ cap) (hlen : payload.length * unit < 65536)
    (hv : VariantFields s cap samples dt payload.length unit) :
    Laid s { data := burst s.sOutBe dt unit payload cap, nbSamples := samples, pts := pts, dts := dts } := by
  obtain ⟨h0, h2, h4, h6⟩ := unitAt_headerBytes s.sOutBe dt (BitVec.ofNat 16 (payload.length * unit))
    (payload ++ List.replicate (cap - Config.hdr - payload.length) 0)
  have hcap : (burst s.sOutBe dt unit payload cap).length = cap := burst_length hfit
  refine ⟨h0, h2, payload.length, unit, hcap.symm ▸ hfit, ?_, fun k hlo hhi => burst_tail hlo (hcap ▸ hhi), ?_⟩
  · refine (congrArg BitVec.toNat h6).trans ?_
    rw [BitVec.toNat_ofNat]
    exact Nat.mod_eq_of_lt hlen
  · dsimp only
    rw [hcap, show unitAt s.sOutBe (burst s.sOutBe dt unit payload cap) 4 = dt from h4]
    exact hv

/-- Every packet fits `OB`. -/
theorem Laid.length_le {s : State} {p : Packet} (h : Laid s p) : p.data.length ≤ 65536 := by
  obtain ⟨-, -, len, unit, -, -, -, hv⟩ := h
  rcases hv with ⟨-, hcap, -⟩ | ⟨-, hcap, -⟩ | ⟨-, -, c, hc, hcap, -⟩ | ⟨-, -, -, -, c, hc, hcap, -⟩ | ⟨-, hcap, -⟩
  · omega
  · omega
  · obtain ⟨hn, -⟩ := dtsCodes_cases (n := c.1) (dt := c.2) hc
    omega
  · obtain ⟨-, hle⟩ := dtshdPeriods_capacity (n := c.1) (st := c.2) hc
    omega
  · omega

/-- The packet of a state on PKT_OUT has the layout of the variant of `s`. -/
def PacketLaid (s t : State) : Prop := ∀ p, t.pktOut = some p → Laid s p

theorem PacketLaid.of_none {s t : State} (h : t.pktOut = none) : PacketLaid s t := by
  intro p hp
  rw [h] at hp
  cases hp

/-- The sample metadata of an open stream (rule R97). -/
theorem packetSamples_open {s : State} (hi : Inv s) (ho : s.sOpen = true) (cap : Nat) :
    packetSamples cap s.sBpf = BitVec.ofNat 32 (cap / s.sBpf.toNat) := if_neg (hi.bpf ho)

/-! ### A frame that is rejected, and one that is sent -/

/-- The state after a SUBMIT that sent the packet `p` and left nothing aggregated. -/
def sentState (p : Packet) (skip notice : Bool) (s : State) : State :=
  { handedOver p.data p.nbSamples p.pts p.dts s with
    ob := s.ob.write 0 p.data, eac3Blocks := 0, dtshdSkip := skip, downgradeNotice := notice }

theorem sentState_eq {p : Packet} {skip : Bool} {s : State} (h0 : s.eac3Blocks = 0) (hk : s.dtshdSkip = skip) :
    sentState p skip false s = { handedOver p.data p.nbSamples p.pts p.dts s with ob := s.ob.write 0 p.data } := by
  rw [sentState, ← h0, ← hk]
  rfl

section
variable {s : State} {o a b : Memory} {x y : Host.Outcome State Fault Refusal}

/-- A frame rejected, whatever it wrote into the buffers: the flush leaves nothing aggregated. -/
theorem Alike.rejected {k : ErrKind} {o' a' b' o'' a'' b'' : Memory} (hi : Inv s) (ho : o'.wf Config.outbufBytes)
    (ha : a'.wf Config.matFrameSize) (hb : b'.wf Config.matFrameSize)
    (hx : x = .next (withBuffers o' a' b' (rejected k s))) (hy : y = .next (withBuffers o'' a'' b'' (rejected k s))) :
    Alike (PacketLaid s) x y :=
  ⟨_, _, _, _, hx, hy, inv_iff.mpr ⟨⟨hi.noFault, hi.noMicro, hi.variant, hi.bpf, hi.ctrl, fun _ => rfl, ho, ha, hb,
      .idle rfl rfl rfl rfl⟩, .of_idle rfl rfl rfl rfl rfl rfl rfl, .of_idle ⟨rfl, rfl, rfl, rfl, rfl, rfl⟩⟩,
    .of_idle _ _ _ rfl rfl, .of_none rfl⟩

/-- A packet sent in a stream of another variant than TrueHD. -/
theorem Alike.sent {p : Packet} {skip notice : Bool} (ht : Twins o a b s) (hv : s.sVariant ≠ 5)
    (hskip : s.sVariant ≠ 4 → skip = false) (hp : Laid s p) (hx : x = .next (sentState p skip notice s))
    (hy : y = .next (sentState p skip notice (withBuffers o a b s))) : Alike (PacketLaid s) x y := by
  have hi := ht.left
  have htruehd := hi.ownTruehd hv
  have hlen := hp.length_le
  have hport : (BitVec.ofNat 32 p.data.length).toNat = p.data.length := by
    rw [BitVec.toNat_ofNat]
    omega
  refine ⟨_, o.write 0 p.data, a, b, hx, hy, inv_iff.mpr ⟨⟨hi.noFault, hi.noMicro, hi.variant, hi.bpf, hi.ctrl, hskip,
      Memory.wf_write hi.obWf _ _ ?_, hi.mat0Wf, hi.mat1Wf, ⟨rfl, hport, rfl⟩⟩, .of_idle rfl rfl rfl rfl rfl rfl rfl,
      .of_idle htruehd⟩, .of_idle _ _ _ rfl htruehd.2.1, ?_⟩
  · rw [Nat.zero_add]
    exact hlen
  · intro q hq
    cases hq
    exact hp

/-- Whatever bytes stand in the buffers, SUBMIT rejects its frame with one error, or sends one packet. -/
def EndsAlike (s : State) : Prop :=
  (∃ k, ∀ o a b, exec .submit (withBuffers o a b s) = .next (rejected k (withBuffers o a b s))) ∨
  (∃ p skip notice, Laid s p ∧ (s.sVariant ≠ 4 → skip = false) ∧
    ∀ o a b, exec .submit (withBuffers o a b s) = .next (sentState p skip notice (withBuffers o a b s)))

/-- A frame rejected before anything is written. -/
theorem Alike.raised {k : ErrKind} (hi : Inv s) (hx : x = .next (Machine.rejected k s))
    (hy : y = .next (Machine.rejected k (withBuffers o a b s))) : Alike (PacketLaid s) x y :=
  .rejected (o' := s.ob) (a' := s.mat0) (b' := s.mat1) hi hi.obWf hi.mat0Wf hi.mat1Wf hx hy

theorem EndsAlike.alike (h : EndsAlike s) (ht : Twins o a b s) (hv : s.sVariant ≠ 5) :
    Alike (PacketLaid s) (exec .submit s) (exec .submit (withBuffers o a b s)) := by
  rcases h with ⟨k, hk⟩ | ⟨p, skip, notice, hp, hskip, hsent⟩
  · exact .raised ht.left (hk s.ob s.mat0 s.mat1) (hk o a b)
  · exact .sent ht hv hskip hp (hsent s.ob s.mat0 s.mat1) (hsent o a b)

end

/-! ### The errors -/

/-- Every kind that an encapsulator raises flushes. -/
theorem errorFlushes_of_raises {kinds : List ErrKind} {P : Verdict → State → Prop} {enc : State → Act Verdict}
    {s : State} {k : ErrKind} (hk : ∀ k ∈ kinds, errorFlushes k = true) (he : (enc s).Ends P (Raises kinds s))
    (h : enc s = raiseError k s) : errorFlushes k = true := by
  rw [h] at he
  rcases he with ⟨k', hmem, hke, -⟩ | ⟨c, hc, -⟩
  · cases hke
    exact hk _ hmem
  · cases hc

/-- With no packet in progress, as in every variant but E-AC-3. -/
theorem Inv.obActive_eq_false {s : State} (hi : Inv s) (hv : s.sVariant ≠ 2) : s.obActive = false := by
  by_contra h
  exact hv (hi.r51.activeOnlyEac3 (by simpa using h)).1

theorem Inv.eac3Blocks_eq_zero {s : State} (hi : Inv s) (ha : s.obActive = false) : s.eac3Blocks = 0 :=
  (hi.idle ha).2.2.2.2.2

/-! ### AC-3 -/

/-- The data type of AC-3 is 0x0001 outside the bits of bsmod (rule R152). -/
theorem ac3DataType_masked (c : Byte) : ac3DataType c &&& 0xF8FF = 0x0001 := by
  revert c
  decide

theorem ac3_endsAlike {s : State} (hi : Inv s) (hs : submitting s) (hv : s.sVariant = 1) : EndsAlike s := by
  have ha := hi.obActive_eq_false (by rw [hv]; decide)
  have route : ∀ o a b, exec .submit (withBuffers o a b s) = execute (submitWith ac3Body) (withBuffers o a b s) :=
    fun o a b => (exec_submit_of_variant (withBuffers o a b s)).1 hv
  cases hl : ac3Length s.frameIn with
  | error k =>
    have hk := errorFlushes_of_raises (k := k) (by decide) (ac3Body_ends s) (ac3Body_error hl)
    exact .inl ⟨k, fun o a b => (route o a b).trans (submit_raise hs hk (ac3Body_error hl))⟩
  | ok n =>
    by_cases hf : 6144 < ceil2 n + 8
    · exact .inl ⟨_, fun o a b => (route o a b).trans (submit_raise hs rfl (ac3Body_oversize hl hf))⟩
    have hf' : ceil2 n + 8 ≤ 6144 := Nat.le_of_not_lt hf
    obtain ⟨-, hn⟩ := ac3Length_ok hl
    have hpayload : (outputBytes true s.sOutBe (s.frameIn.data.take n)).length = ceil2 n := by
      rw [outputBytes_length, List.length_take, Nat.min_eq_left hn]
    refine .inr ⟨⟨_, 1536, s.frameIn.pts, s.frameIn.dts⟩, false, false, Laid.of_burst (unit := 8) (cap := 6144)
      (payload := outputBytes true s.sOutBe (s.frameIn.data.take n)) (dt := ac3DataType (s.frameIn.data.getD 5 0))
      (by omega) (by omega) (.inl ⟨hv, rfl, rfl, rfl, ac3DataType_masked _⟩), fun _ => rfl, fun o a b => ?_⟩
    rw [sentState_eq (s := withBuffers o a b s) (hi.eac3Blocks_eq_zero ha) (hi.ownDtshd (by rw [hv]; decide)), route]
    exact submit_sent (s := withBuffers o a b s) hs (ac3Body_sent (s := commandStart (withBuffers o a b s)) ha hl hf')

/-! ### DTS -/

theorem dts_endsAlike {s : State} (hi : Inv s) (hs : submitting s) (hv : s.sVariant = 3) : EndsAlike s := by
  have ha := hi.obActive_eq_false (by rw [hv]; decide)
  have route : ∀ o a b, exec .submit (withBuffers o a b s) = exec .encDts (withBuffers o a b s) :=
    fun o a b => (exec_submit_of_variant (withBuffers o a b s)).2.2.1 hv
  have errors := fun o a b => dtsErrors (withBuffers o a b s) hs
  cases hp : dtsParse s.frameIn.data with
  | none => exact .inl ⟨_, fun o a b => (route o a b).trans ((errors o a b).1 hp)⟩
  | some h =>
    by_cases hc : h.frameLength ∈ dtsCodes.map (·.1)
    case neg => exact .inl ⟨_, fun o a b => (route o a b).trans (((errors o a b).2 h hp).1 hc)⟩
    by_cases hn : h.frameSize ≤ frameLen s
    case neg =>
      exact .inl ⟨_, fun o a b => (route o a b).trans (((errors o a b).2 h hp).2.1 hc (Nat.lt_of_not_le hn))⟩
    by_cases hf : (dtsBurstPayload s.sOutBe h.variant (s.frameIn.data.take h.frameSize)).length + 8 ≤ h.frameLength * 4
    case neg =>
      exact .inl ⟨_, fun o a b => (route o a b).trans (((errors o a b).2 h hp).2.2 hc hn (Nat.lt_of_not_le hf))⟩
    obtain ⟨dt, hdt⟩ := exists_mem_dtsCodes hc
    obtain ⟨hlen, -⟩ := dtsCodes_cases hdt
    refine .inr ⟨⟨_, BitVec.ofNat 32 h.frameLength, s.frameIn.pts, s.frameIn.dts⟩, false, false,
      Laid.of_burst (unit := 8) (cap := h.frameLength * 4) (dt := dt)
        (payload := dtsBurstPayload s.sOutBe h.variant (s.frameIn.data.take h.frameSize)) (by omega) (by omega)
        (.inr (.inr (.inl ⟨hv, rfl, _, hdt, rfl, rfl, rfl⟩))), fun _ => rfl, fun o a b => ?_⟩
    rw [sentState_eq (s := withBuffers o a b s) (hi.eac3Blocks_eq_zero ha) (hi.ownDtshd (by rw [hv]; decide)), route]
    exact dtsCorePacket (withBuffers o a b s) h dt hs ha hp hdt hn hf

/-! ### DTS-HD -/

/-- The burst of the first `m` bytes of a DTS-HD frame. -/
theorem dtshd_laid {s : State} {v : DtsVariant} {m period st : Nat} {pts dts : Stamp} (hi : Inv s) (ho : s.sOpen = true)
    (hv : s.sVariant = 4) (hl : (period, st) ∈ dtshdPeriods) (hm : m ≤ frameLen s) (hf : 20 + ceil2 m ≤ period * 4) :
    Laid s ⟨burst s.sOutBe (dtshdDataType st) 1 (dtshdPayload s.sOutBe v (s.frameIn.data.take m)) (period * 4),
      packetSamples (period * 4) s.sBpf, pts, dts⟩ := by
  obtain ⟨h16, hcap⟩ := dtshdPeriods_capacity hl
  obtain ⟨halign, hbound⟩ := dtshdPayload_length s.sOutBe v (s.frameIn.data.take m)
  rw [List.length_take, Nat.min_eq_left (show m ≤ s.frameIn.data.length from hm)] at hbound
  exact Laid.of_burst (by omega) (by omega)
    (.inr (.inr (.inr (.inl ⟨hv, rfl, halign, packetSamples_open hi ho _, _, hl, rfl, rfl⟩))))

theorem dtshd_endsAlike {s : State} (hi : Inv s) (hs : submitting s) (hv : s.sVariant = 4) : EndsAlike s := by
  have ha := hi.obActive_eq_false (by rw [hv]; decide)
  have h0 := hi.eac3Blocks_eq_zero ha
  have route : ∀ o a b, exec .submit (withBuffers o a b s) = exec .encDtshd (withBuffers o a b s) :=
    fun o a b => (exec_submit_of_variant (withBuffers o a b s)).2.2.2.1 hv
  have errors := fun o a b => dtshdErrors (withBuffers o a b s) hs
  cases hp : dtsParse s.frameIn.data with
  | none => exact .inl ⟨_, fun o a b => (route o a b).trans ((errors o a b).1 hp)⟩
  | some h =>
    by_cases hr : h.rate = 0
    · exact .inl ⟨_, fun o a b => (route o a b).trans (((errors o a b).2 h hp).1 hr)⟩
    have checks := fun o a b => ((errors o a b).2 h hp).2 hr
    by_cases hc : dtshdPeriod s.sOutRate h ∈ dtshdPeriods.map (·.1)
    case neg => exact .inl ⟨_, fun o a b => (route o a b).trans ((checks o a b).1 hc)⟩
    by_cases hn : h.frameSize ≤ frameLen s
    case neg => exact .inl ⟨_, fun o a b => (route o a b).trans ((checks o a b).2.1 hc (Nat.lt_of_not_le hn))⟩
    by_cases hf : 20 + ceil2 h.frameSize ≤ dtshdPeriod s.sOutRate h * 4
    case neg => exact .inl ⟨_, fun o a b => (route o a b).trans ((checks o a b).2.2 hc hn (Nat.lt_of_not_le hf))⟩
    obtain ⟨st, hst⟩ := exists_mem_dtshdPeriods hc
    by_cases hcore : s.dtshdSkip = true ∨ dtshdPeriod s.sOutRate h * 4 < 20 + ceil2 (frameLen s)
    · refine .inr ⟨_, true, !s.dtshdSkip, dtshd_laid (v := h.variant) (pts := s.frameIn.pts) (dts := s.frameIn.dts) hi
        hs.2.1 hv hst hn hf, fun hne => absurd hv hne, fun o a b => ?_⟩
      rw [route, Laws.dtshdCoreOnly (withBuffers o a b s) h _ st hs ha hp hr rfl hst hn hf hcore, sentState,
        ← show (withBuffers o a b s).eac3Blocks = 0 from h0]
      rfl
    · rw [not_or, Nat.not_lt, Bool.not_eq_true] at hcore
      obtain ⟨hskip, hwhole⟩ := hcore
      have hlaid := dtshd_laid (v := h.variant) (pts := s.frameIn.pts) (dts := s.frameIn.dts) hi hs.2.1 hv hst
        (Nat.le_refl _) hwhole
      have htake : s.frameIn.data.take (frameLen s) = s.frameIn.data := List.take_length
      rw [htake] at hlaid
      refine .inr ⟨_, false, false, hlaid, fun _ => rfl, fun o a b => ?_⟩
      rw [sentState_eq (s := withBuffers o a b s) h0 hskip, route]
      exact dtshdWholeFrame (withBuffers o a b s) h _ st hs ha hskip hp hr rfl hst hn hwhole

end Sys2Proof.Machine

/-! The SUBMIT of an E-AC-3 stream: its payload so far is the only live part of `OB` (20_memory.md rule R74). -/

namespace Sys2Proof.Machine

/-! ### A frame that is appended -/

/-- The state after a SUBMIT that appended the bytes `bs` at `start` to the packet in progress. -/
def appendedState (start : Nat) (bs : List Byte) (samples : Word) (pts dts : Stamp) (blocks : Nat) (s : State) :
    State :=
  { absorbed s with
    obActive := true, obCap := 24576, cursor := BitVec.ofNat 17 (start + bs.length), obSamples := samples,
    obPts := pts, obDts := dts, ob := s.ob.write start bs, eac3Blocks := BitVec.ofNat 3 blocks }

/-- A later frame leaves the packet's own elements. -/
theorem appendedState_later {start : Nat} {bs : List Byte} {blocks : Nat} {s : State} (ha : s.obActive = true)
    (hcap : s.obCap.toNat = 24576) : appendedState start bs s.obSamples s.obPts s.obDts blocks s =
      { absorbed s with cursor := BitVec.ofNat 17 (start + bs.length), ob := s.ob.write start bs,
                        eac3Blocks := BitVec.ofNat 3 blocks } := by
  have hcap' : s.obCap = 24576 := BitVec.eq_of_toNat_eq hcap
  rw [appendedState, ← hcap', ← ha]
  rfl

section
variable {start blocks : Nat} {bs : List Byte} {samples : Word} {pts dts : Stamp} {s : State}

theorem appendedState_cursor (h : start + bs.length ≤ 24576) :
    (appendedState start bs samples pts dts blocks s).cursor.toNat = start + bs.length := by
  change (BitVec.ofNat 17 (start + bs.length)).toNat = start + bs.length
  rw [BitVec.toNat_ofNat]
  omega

theorem appendedState_eac3Blocks (h : blocks ≤ 5) :
    (appendedState start bs samples pts dts blocks s).eac3Blocks.toNat = blocks := by
  change (BitVec.ofNat 3 blocks).toNat = blocks
  rw [BitVec.toNat_ofNat]
  omega

/-- Appending leaves the TrueHD state. -/
theorem InvMat.of_appended (h : s.matIdx = false ∧ s.matFill = 0 ∧ s.thdPrevSize = 0 ∧ s.thdPrevTime = 0 ∧
    s.thdSpf = 0 ∧ s.thdFrameCount = 0) : InvMat (appendedState start bs samples pts dts blocks s) := by
  refine .of_idle ?_
  unfold appendedState
  exact h

/-- The payload with a frame appended to what has been written. -/
theorem InvWriter.of_appended (hv : s.sVariant = 2) (hstart : 8 ≤ start)
    (heven : (start + bs.length) % 2 = 0) (hfit : start + bs.length ≤ 24576) (hblocks : 1 ≤ blocks ∧ blocks ≤ 5)
    (hsamples : samples = packetSamples 24576 s.sBpf) (hwritten : bytesWritten s.ob 8 (start - 8)) :
    InvWriter (appendedState start bs samples pts dts blocks s) := by
  have hcursor := appendedState_cursor (samples := samples) (pts := pts) (dts := dts) (blocks := blocks) (s := s) hfit
  have hcount := appendedState_eac3Blocks (start := start) (bs := bs) (samples := samples) (pts := pts) (dts := dts)
    (s := s) hblocks.2
  have hactive : (appendedState start bs samples pts dts blocks s).obActive ≠ false := show true ≠ false by decide
  refine ⟨fun _ => ⟨hv, ?_⟩, fun _ => ⟨rfl, ?_⟩, fun h => absurd h hactive, fun _ => ?_, fun _ => hsamples⟩
  · rw [hcount]
    exact hblocks
  · rw [hcursor]
    exact ⟨Nat.le_add_right_of_le hstart, hfit, heven⟩
  · rw [hcursor]
    have hw := bytesWritten_write hwritten bs
    rwa [Nat.add_sub_cancel' hstart, ← Nat.sub_add_comm hstart] at hw

end

section
variable {s : State} {o a b : Memory} {x y : Host.Outcome State Fault Refusal}

/-- A frame appended at the same place in both. -/
theorem Alike.appended {start blocks : Nat} {bs : List Byte} {samples : Word} {pts dts : Stamp} (ht : Twins o a b s)
    (hv : s.sVariant = 2) (hstart : 8 ≤ start) (heven : (start + bs.length) % 2 = 0) (hfit : start + bs.length ≤ 24576)
    (hblocks : 1 ≤ blocks ∧ blocks ≤ 5) (hsamples : samples = packetSamples 24576 s.sBpf)
    (hwritten : bytesWritten s.ob 8 (start - 8)) (hsame : sameBytes s.ob o 8 (start - 8))
    (hx : x = .next (appendedState start bs samples pts dts blocks s))
    (hy : y = .next (appendedState start bs samples pts dts blocks (withBuffers o a b s))) :
    Alike (PacketLaid s) x y := by
  have hi := ht.left
  have htruehd := hi.ownTruehd (by rw [hv]; decide)
  have hcursor := appendedState_cursor (samples := samples) (pts := pts) (dts := dts) (blocks := blocks) (s := s) hfit
  have hbase : InvBase (appendedState start bs samples pts dts blocks s) :=
    ⟨hi.noFault, hi.noMicro, hi.variant, hi.bpf, hi.ctrl, hi.ownDtshd,
      Memory.wf_write hi.obWf _ _ (Nat.le_trans hfit (by decide)), hi.mat0Wf, hi.mat1Wf, .idle rfl rfl rfl rfl⟩
  refine ⟨_, o.write start bs, a, b, hx, hy, inv_iff.mpr ⟨hbase,
      .of_appended hv hstart heven hfit hblocks hsamples hwritten, .of_appended htruehd⟩,
    sameButStaleBytes_withBuffers (fun _ => ?_) ?_, .of_none rfl⟩
  · rw [hcursor]
    have hw := sameBytes_write hsame bs
    rwa [Nat.add_sub_cancel' hstart, ← Nat.sub_add_comm hstart] at hw
  · have hfill : (appendedState start bs samples pts dts blocks s).matFill = 0 := by
      unfold appendedState
      exact htruehd.2.1
    rw [hfill]
    exact sameBytes_zero _ _ _

/-! ### The frame of an open E-AC-3 stream -/

/-- The packets of E-AC-3 have the layout of their variant. -/
theorem eac3_laid {payload : List Byte} {pts dts : Stamp} (hi : Inv s) (ho : s.sOpen = true) (hv : s.sVariant = 2)
    (hl : 8 + payload.length ≤ 24576) :
    Laid s ⟨burst s.sOutBe 0x0015 1 payload 24576, packetSamples 24576 s.sBpf, pts, dts⟩ :=
  Laid.of_burst hl (by omega) (.inr (.inl ⟨hv, rfl, packetSamples_open hi ho _, rfl, rfl⟩))

/-- The blocks of an accepted frame. -/
theorem eac3Accepts_blocks {d : List Byte} {n : Nat} (h : eac3Accepts d n) : 1 ≤ n ∧ n ≤ 6 := by
  obtain ⟨h1, hp, rfl, -⟩ := h
  have := a52Parse_blocks hp
  omega

/-- A frame for which no packet is in progress: it begins one, or is a whole one. -/
theorem eac3_alike_first {blocks : Nat} (ht : Twins o a b s) (hs : submitting s) (hv : s.sVariant = 2)
    (ha : s.obActive = false) (hacc : eac3Accepts s.frameIn.data blocks) :
    Alike (PacketLaid s) (exec .encEac3 s) (exec .encEac3 (withBuffers o a b s)) := by
  have hi := ht.left
  have h0 := hi.eac3Blocks_eq_zero ha
  have hcount : s.eac3Blocks.toNat = 0 := congrArg BitVec.toNat h0
  have hlen : (outputBytes true s.sOutBe s.frameIn.data).length = ceil2 (frameLen s) := outputBytes_length _ _ _
  have hframe : frameLen s ≤ 8192 := eac3Accepts_length hacc
  obtain ⟨hlo, hhi⟩ := eac3Accepts_blocks hacc
  by_cases h6 : blocks = 6
  · subst h6
    refine .sent ht (by rw [hv]; decide) (fun _ => rfl)
      (eac3_laid (payload := outputBytes true s.sOutBe s.frameIn.data) (pts := s.frameIn.pts) (dts := s.frameIn.dts) hi
        hs.2.1 hv (by rw [hlen, ceil2]; omega)) (notice := false) ?_ ?_
    · rw [sentState_eq h0 (hi.ownDtshd (by rw [hv]; decide))]
      exact eac3SixthBlock.1 s hs ha h0 hacc
    · rw [sentState_eq (s := withBuffers o a b s) h0 (hi.ownDtshd (by rw [hv]; decide))]
      exact eac3SixthBlock.1 (withBuffers o a b s) hs ha h0 hacc
  · have first : ∀ o a b, exec .encEac3 (withBuffers o a b s) = .next (appendedState 8
        (outputBytes true s.sOutBe s.frameIn.data) (packetSamples 24576 s.sBpf) s.frameIn.pts s.frameIn.dts blocks
        (withBuffers o a b s)) := by
      intro o a b
      have h := eac3FirstFrame (withBuffers o a b s) blocks hs ha hacc (hcount.symm ▸ by omega)
      rw [show (withBuffers o a b s).eac3Blocks.toNat = 0 from hcount, Nat.zero_add] at h
      rw [h, appendedState, hlen]
      rfl
    exact .appended ht hv (Nat.le_refl 8) (by rw [hlen, ceil2]; omega) (by rw [hlen, ceil2]; omega) (by omega) rfl
      (bytesWritten_zero _ _) (sameBytes_zero _ _ _) (first s.ob s.mat0 s.mat1) (first o a b)

/-- The same live bytes stand in both. -/
theorem bytesAt_of_sameBytes {m m' : Memory} {x n : Nat} {bs : List Byte} (h : sameBytes m m' x n)
    (hn : bs.length = n) (hb : bytesAt m x bs) : bytesAt m' x bs := fun i hi => by
  rw [← h (x + i) (Nat.le_add_right _ _) (by omega), hb i hi]

theorem sentState_skip {p : Packet} {skip : Bool} (hk : s.dtshdSkip = skip) : sentState p skip false s =
    { handedOver p.data p.nbSamples p.pts p.dts s with eac3Blocks := 0, ob := s.ob.write 0 p.data } := by
  rw [← hk]
  rfl

/-- A frame that follows the payload of the packet in progress. -/
theorem eac3_alike_later {blocks : Nat} (ht : Twins o a b s) (hs : submitting s) (hv : s.sVariant = 2)
    (ha : s.obActive = true) (hacc : eac3Accepts s.frameIn.data blocks) :
    Alike (PacketLaid s) (exec .encEac3 s) (exec .encEac3 (withBuffers o a b s)) := by
  have hi := ht.left
  obtain ⟨hcap, h8, hle, heven⟩ := hi.r51.activePacket ha
  have hcap' : s.obCap.toNat = 24576 := hcap
  have h8' : 8 ≤ s.cursor.toNat := h8
  have hlen : (outputBytes true s.sOutBe s.frameIn.data).length = ceil2 (frameLen s) := outputBytes_length _ _ _
  by_cases hf : s.cursor.toNat + ceil2 (frameLen s) ≤ s.obCap.toNat
  case neg =>
    have hover : s.obCap.toNat - s.cursor.toNat < ceil2 (frameLen s) := by omega
    exact .raised hi ((eac3Errors s hs).2.2 blocks hacc ha hover)
      ((eac3Errors (withBuffers o a b s) hs).2.2 blocks hacc ha hover)
  rcases Nat.lt_trichotomy (s.eac3Blocks.toNat + blocks) 6 with hlt | heq | hgt
  · obtain ⟨hlo, -⟩ := eac3Accepts_blocks hacc
    have later : ∀ o a b, exec .encEac3 (withBuffers o a b s) = .next (appendedState s.cursor.toNat
        (outputBytes true s.sOutBe s.frameIn.data) s.obSamples s.obPts s.obDts (s.eac3Blocks.toNat + blocks)
        (withBuffers o a b s)) := by
      intro o a b
      have h := eac3LaterFrame (withBuffers o a b s) blocks hs ha (hcap'.trans_le (by decide)) hacc hlt hf
      have hstate := appendedState_later (start := s.cursor.toNat) (bs := outputBytes true s.sOutBe s.frameIn.data)
        (blocks := s.eac3Blocks.toNat + blocks) (s := withBuffers o a b s) ha hcap'
      rw [hlen] at hstate
      exact h.trans (congrArg _ hstate.symm)
    exact .appended ht hv h8' (by rw [hlen, ceil2]; omega) (by rw [hlen]; omega) (by omega) (hi.metadata ha)
      (hi.obWritten ha) (ht.same.payload ha) (later s.ob s.mat0 s.mat1) (later o a b)
  · obtain ⟨before, hbl, hbytes⟩ := bytesAt_of_written (hi.obWritten ha)
    have hbytes' : bytesAt o 8 before := bytesAt_of_sameBytes (ht.same.payload ha) hbl hbytes
    have hskip := hi.ownDtshd (by rw [hv]; decide)
    have hbl' : before.length = s.cursor.toNat - 8 := hbl
    have hlaid := eac3_laid (payload := before ++ outputBytes true s.sOutBe s.frameIn.data) (pts := s.obPts)
      (dts := s.obDts) hi hs.2.1 hv (by rw [List.length_append, hlen, hbl']; omega)
    rw [← show s.obSamples = packetSamples 24576 s.sBpf from hi.metadata ha] at hlaid
    have six : ∀ o a b, Inv (withBuffers o a b s) → bytesAt o 8 before → exec .encEac3 (withBuffers o a b s) = .next
        (sentState ⟨burst s.sOutBe 0x0015 1 (before ++ outputBytes true s.sOutBe s.frameIn.data) 24576, s.obSamples,
          s.obPts, s.obDts⟩ false false (withBuffers o a b s)) := by
      intro o a b hit hbt
      rw [sentState_skip (s := withBuffers o a b s) hskip]
      exact eac3SixthBlock.2 (withBuffers o a b s) blocks before hit hs ha hacc heq hf hbl' hbt
    exact .sent ht (by rw [hv]; decide) (fun _ => rfl) hlaid (six s.ob s.mat0 s.mat1 hi hbytes)
      (six o a b ht.right hbytes')
  · exact .rejected (o' := s.ob.write s.cursor.toNat (outputBytes true s.sOutBe s.frameIn.data)) (a' := s.mat0)
      (b' := s.mat1) (o'' := o.write s.cursor.toNat (outputBytes true s.sOutBe s.frameIn.data)) (a'' := a) (b'' := b) hi
      (Memory.wf_write hi.obWf _ _ (by rw [hlen]; simp only [Config.outbufBytes]; omega)) hi.mat0Wf hi.mat1Wf
      (eac3PastSix s blocks hi hs ha hacc hgt hf) (eac3PastSix (withBuffers o a b s) blocks ht.right hs ha hacc hgt hf)

theorem eac3Kinds_flush : ∀ k ∈ [ErrKind.malformedHeader, .sizeMismatch, .unsupportedFraming, .stateViolation],
    errorFlushes k = true := by decide

/-- The kinds of the header checks flush. -/
theorem eac3Blocks_error_flushes {k : ErrKind} (h : eac3Blocks s.frameIn.data = .error k) : errorFlushes k = true := by
  have hends := eac3Body_ends s
  rw [eac3Body_error h] at hends
  rcases hends with ⟨k', hmem, hke, -⟩ | ⟨c, hc, -⟩
  · exact Exception.error.inj hke ▸ eac3Kinds_flush k' hmem
  · cases hc

theorem eac3_alike (ht : Twins o a b s) (hs : submitting s) (hv : s.sVariant = 2) :
    Alike (PacketLaid s) (exec .submit s) (exec .submit (withBuffers o a b s)) := by
  rw [(exec_submit_of_variant s).2.1 hv, (exec_submit_of_variant (withBuffers o a b s)).2.1 hv]
  cases hb : eac3Blocks s.frameIn.data with
  | error k =>
    have hk := eac3Blocks_error_flushes hb
    exact .raised ht.left (submit_raise hs hk (eac3Body_error hb))
      (submit_raise (s := withBuffers o a b s) hs hk (eac3Body_error hb))
  | ok blocks =>
    have hacc := eac3Blocks_eq_ok.mp hb
    cases ha : s.obActive with
    | false => exact eac3_alike_first ht hs hv ha hacc
    | true => exact eac3_alike_later ht hs hv ha hacc

end

end Sys2Proof.Machine

/-! The SUBMIT of a TrueHD stream: the active MAT buffer up to its fill is the only live part of the MAT buffers
(20_memory.md rules R72, R74). -/

namespace Sys2Proof.Machine

/-! ### Both MAT buffers of a state -/

/-- `s` with `m` as the MAT buffer of index `i` and `m'` as the other one. -/
def withMats (i : Bool) (m m' : Memory) (s : State) : State :=
  { s with mat0 := if i then m' else m, mat1 := if i then m else m' }

theorem withMat_eq_withMats (i : Bool) (m : Memory) (s : State) :
    withMat i m s = withMats i m (spaceOf (matSpace (!i)) s) s := by
  cases i <;> rfl

theorem withMat_withMat (i : Bool) (m m' : Memory) (s : State) :
    withMat (!i) m' (withMat i m s) = withMats i m m' s := by
  cases i <;> rfl

/-- The active buffer of a state whose buffers are `m` for the index `i` and `m'` for the other one. -/
theorem activeMat_of_index {i : Bool} {s : State} {m m' : Memory} (h : s.matIdx = i)
    (h0 : s.mat0 = if i then m' else m) (h1 : s.mat1 = if i then m else m') : activeMat s = m := by
  rw [activeMat_eq_ite, h, h0, h1]
  cases i <;> rfl

theorem activeMat_of_flipped {i : Bool} {s : State} {m m' : Memory} (h : s.matIdx = !i)
    (h0 : s.mat0 = if i then m' else m) (h1 : s.mat1 = if i then m else m') : activeMat s = m' := by
  rw [activeMat_eq_ite, h, h0, h1]
  cases i <;> rfl

theorem Inv.mat_wf {s : State} (hi : Inv s) (i : Bool) : (spaceOf (matSpace i) s).wf Config.matFrameSize := by
  cases i
  · exact hi.mat0Wf
  · exact hi.mat1Wf

/-! ### The invariant after a frame was placed -/

/-- The MAT buffers after a frame that ended at `n` in the active buffer. -/
theorem InvMat.of_placed {s : State} {n : Nat} {spf : BitVec 9} (hv : s.sVariant = 5)
    (hfill : s.matFill = BitVec.ofNat 16 n) (hn : 20 ≤ n ∧ n ≤ 61407) (hs : s.thdSpf = spf)
    (hspf : spf = 0 ∨ spf = 40 ∨ spf = 80 ∨ spf = 160 ∨ spf = 320) (hcount : s.thdFrameCount.toNat ≤ 24)
    (hm : MatFilled (activeMat s) n) : InvMat s := by
  have hnat : s.matFill.toNat = n := by
    rw [hfill, BitVec.toNat_ofNat]
    omega
  refine ⟨?_, hs ▸ hspf, hcount, fun hne => absurd hv hne, ?_⟩
  · rw [hnat]
    exact ⟨hn.2, fun _ => hn.1⟩
  · rw [hnat]
    exact hm

/-- What the loop leaves in the buffers: the active one filled as far as it says, with its markers (rule R72). -/
theorem matLaid_filled {s : State} {pad : Nat} {bs : List Byte} {extra : Nat} (hi : Inv s) (hn : 0 < frameLen s)
    (hl : matLaid (matAhead s.matFill.toNat) pad s.frameIn.data = some (bs, extra)) :
    (s.matFill.toNat + bs.length < 61424 →
      MatFilled ((activeMat s).write s.matFill.toNat bs) (s.matFill.toNat + bs.length)) ∧
    (61424 ≤ s.matFill.toNat + bs.length →
      MatFilled ((spaceOf (matSpace (!s.matIdx)) s).write 0 (bs.drop (61424 - s.matFill.toNat)))
        (s.matFill.toNat + bs.length - 61424)) := by
  obtain ⟨w, hw, -, hstays, hcompletes⟩ := matInsert_commits (Nat.le_trans hi.r51.fill.1 (by decide)) hn hl
  obtain ⟨hok, hgo⟩ := matInsert_ok hw hi.matFilled hi.mat0Wf hi.mat1Wf
  have hfilled := (hok.filled hgo).1
  rw [← activeMat_matCommit w s] at hfilled
  refine ⟨fun hlt => ?_, fun hge => ?_⟩
  · obtain ⟨-, hfill, hcommit⟩ := hstays hlt
    rw [withMat_eq_withMats] at hcommit
    rw [hfill, activeMat_of_index (i := s.matIdx) (by rw [hcommit]; rfl) (by rw [hcommit]; rfl)
      (by rw [hcommit]; rfl)] at hfilled
    exact hfilled
  · obtain ⟨-, hfill, -, -, hcommit⟩ := hcompletes hge
    rw [withMat_withMat] at hcommit
    rw [hfill, activeMat_of_flipped (i := s.matIdx) (by rw [hcommit]) (by rw [hcommit]; rfl)
      (by rw [hcommit]; rfl)] at hfilled
    exact hfilled

/-! ### Two states whose MAT buffers were written alike -/

section
variable {s u : State} {o a b : Memory} {x y : Host.Outcome State Fault Refusal}

/-- The MAT buffers of index `i` and the other one replaced in two states that agree in everything but buffer bytes. -/
theorem Alike.mats {i : Bool} {P : State → Prop} {m m' n n' : Memory} (hi : Inv (withMats i m m' u))
    (hP : P (withMats i m m' u)) (ha : u.obActive = false)
    (hsame : sameBytes (activeMat (withMats i m m' u)) (activeMat (withMats i n n' u)) 0 u.matFill.toNat)
    (hx : x = .next (withMats i m m' u)) (hy : y = .next (withMats i n n' (withBuffers o a b u))) : Alike P x y := by
  refine ⟨_, o, if i then n' else n, if i then n else n', hx, hy, hi,
    sameButStaleBytes_withBuffers (fun h => ?_) ?_, hP⟩
  · exact absurd (h.symm.trans ha) (by decide)
  · have hother : activeMat (withBuffers o (if i then n' else n) (if i then n else n') (withMats i m m' u)) =
        activeMat (withMats i n n' u) := activeMat_congr rfl rfl rfl
    rw [hother]
    exact hsame

/-! ### The header of a TrueHD frame -/

theorem exists_ten_of_length {d : List Byte} (h : 10 ≤ d.length) : ∃ b0 b1 b2 b3 b4 b5 b6 b7 b8 b9 rest,
    d = b0 :: b1 :: b2 :: b3 :: b4 :: b5 :: b6 :: b7 :: b8 :: b9 :: rest := by
  match d with
  | b0 :: b1 :: b2 :: b3 :: b4 :: b5 :: b6 :: b7 :: b8 :: b9 :: rest => exact ⟨_, _, _, _, _, _, _, _, _, _, _, rfl⟩
  | [] | [_] | [_, _] | [_, _, _] | [_, _, _, _] | [_, _, _, _, _] | [_, _, _, _, _, _] | [_, _, _, _, _, _, _]
  | [_, _, _, _, _, _, _, _] | [_, _, _, _, _, _, _, _, _] => simp at h

/-- Whatever bytes stand in the buffers, the header is refused with one error, or it times the frame. -/
theorem thd_refused_or_timed (hs : submitting s) :
    (∃ k, ∀ o a b, exec .encTruehd (withBuffers o a b s) = .next (rejected k (withBuffers o a b s))) ∨
    ∃ t spf count, thdTiming s t spf count := by
  have errors := fun o a b => thdErrors (withBuffers o a b s) hs
  by_cases hl : frameLen s < 10
  · exact .inl ⟨_, fun o a b => (errors o a b).1 hl⟩
  obtain ⟨b0, b1, b2, b3, b4, b5, b6, b7, b8, b9, rest, hd⟩ := exists_ten_of_length (Nat.le_of_not_lt hl)
  have header := fun o a b => (errors o a b).2 b0 b1 b2 b3 b4 b5 b6 b7 b8 b9 rest hd
  by_cases hm : b4 = 0xF8 ∧ b5 = 0x72 ∧ b6 = 0x6F
  · have timed : ∀ rate : BitVec 4, (b7 = 0xBA ∧ rate = b8.extractLsb' 4 4 ∨ b7 = 0xBB ∧ rate = b9.extractLsb' 4 4) →
        thdTiming s (be16 b2 b3) ((40 : BitVec 9) <<< (rate &&& 3).toNat) 0 := fun rate hrate =>
      ⟨b0, b1, b2, b3, b4, b5, b6, b7, b8, b9, rest, hd, rfl, (if_pos hm).mpr ⟨rate, hrate, rfl, rfl⟩⟩
    by_cases hba : b7 = 0xBA
    · exact .inr ⟨_, _, _, timed _ (.inl ⟨hba, rfl⟩)⟩
    by_cases hbb : b7 = 0xBB
    · exact .inr ⟨_, _, _, timed _ (.inr ⟨hbb, rfl⟩)⟩
    · exact .inl ⟨_, fun o a b => (header o a b).1 hm.1 hm.2.1 hm.2.2 hba hbb⟩
  · by_cases h0 : s.thdSpf = 0
    · exact .inl ⟨_, fun o a b => (header o a b).2 hm h0⟩
    · exact .inr ⟨be16 b2 b3, s.thdSpf, s.thdFrameCount, b0, b1, b2, b3, b4, b5, b6, b7, b8, b9, rest, hd, rfl,
        (if_neg hm).mpr ⟨h0, rfl, rfl⟩⟩

/-- The samples per frame of a timed frame are one of the four of rule R192, or those of the stream. -/
theorem thdTiming_spf {t : Half} {spf : BitVec 9} {count : BitVec 5} (hi : Inv s) (h : thdTiming s t spf count) :
    spf = 0 ∨ spf = 40 ∨ spf = 80 ∨ spf = 160 ∨ spf = 320 := by
  obtain ⟨b0, b1, b2, b3, b4, b5, b6, b7, b8, b9, rest, -, -, hcase⟩ := h
  split at hcase
  · obtain ⟨rate, -, rfl, -⟩ := hcase
    revert rate
    decide
  · obtain ⟨-, rfl, -⟩ := hcase
    exact hi.r51.samples

/-! ### A frame with no place -/

/-- However MAT_INSERT raises, the buffers keep their canonical form. -/
theorem matInsert_raise_wf (hf : MatFilled (activeMat s) s.matFill.toNat) (h0 : s.mat0.wf Config.matFrameSize)
    (h1 : s.mat1.wf Config.matFrameSize) (pad : Nat) : (matInsert pad s).Ends (fun _ _ => True)
      (fun _ u => u.mat0.wf Config.matFrameSize ∧ u.mat1.wf Config.matFrameSize) := by
  unfold matInsert
  split
  · exact ⟨h0, h1⟩
  next i hn =>
    split
    · trivial
    next w hw =>
      have hwf := (matWork_ok hn hf h0 h1).loop_second _ hw
      exact ⟨hwf false, hwf true⟩
    · trivial

theorem thdPlace_second_wf {t : Half} (h0 : s.thdSpf ≠ 0) (hn : 0 < frameLen s) (hle : s.matFill.toNat ≤ 61408)
    (hf : MatFilled (activeMat s) s.matFill.toNat) (hm0 : s.mat0.wf Config.matFrameSize)
    (hm1 : s.mat1.wf Config.matFrameSize)
    (hl : matLaid (matAhead s.matFill.toNat) (thdPadding t s) s.frameIn.data = none) :
    ∃ w, thdPlace t s = raiseError .sizeMismatch (matCommit w s) ∧ w.mat0.wf Config.matFrameSize ∧
      w.mat1.wf Config.matFrameSize := by
  have hlaid := matInsert_laid (pad := thdPadding t s) hle hn
  rw [hl] at hlaid
  obtain ⟨w, hw⟩ := hlaid
  have hwf := matInsert_raise_wf hf hm0 hm1 (thdPadding t s)
  rw [hw] at hwf
  refine ⟨w, ?_, hwf⟩
  rw [thdPlace, if_neg h0, hw]
  rfl

theorem exec_encTruehd_second {t : Half} {spf : BitVec 9} {count : BitVec 5} (hi : Inv s) (hs : submitting s)
    (ht : thdTiming s t spf count)
    (hl : matLaid (matAhead s.matFill.toNat) (thdPadding t { s with thdSpf := spf }) s.frameIn.data = none) :
    ∃ m0 m1, Memory.wf Config.matFrameSize m0 ∧ Memory.wf Config.matFrameSize m1 ∧
      exec .encTruehd s = .next (withBuffers s.ob m0 m1 (rejected .sizeMismatch s)) := by
  obtain ⟨hbody, h0, h10⟩ := truehdBody_timed (s := commandStart s) ht
  have hm : activeMat { commandStart s with thdSpf := spf, thdFrameCount := count } = activeMat s :=
    activeMat_congr rfl rfl rfl
  obtain ⟨w, hw, hw0, hw1⟩ :=
    thdPlace_second_wf (t := t) (s := { commandStart s with thdSpf := spf, thdFrameCount := count }) h0
      (Nat.lt_of_lt_of_le (by decide) h10) (Nat.le_trans hi.r51.fill.1 (by decide)) (hm.symm ▸ hi.matFilled) hi.mat0Wf
      hi.mat1Wf hl
  refine ⟨w.mat0, w.mat1, hw0, hw1, ?_⟩
  change execute (submitWith truehdBody) s = _
  rw [acceptable hs, hbody, hw]
  rfl

/-! ### A frame that is absorbed -/

/-- The state after a TrueHD frame that ended at `n` in the active buffer, but for the MAT buffers' bytes. -/
def placedState (n prev : Nat) (time : Half) (spf : BitVec 9) (count : BitVec 5) (s : State) : State :=
  { absorbed s with
    matFill := BitVec.ofNat 16 n, thdPrevSize := BitVec.ofNat 32 prev, thdPrevTime := time, thdSpf := spf,
    thdFrameCount := BitVec.ofNat 5 (min (count.toNat + 1) 24) }

/-- The state after a TrueHD frame that completed the MAT frame and ended at `n` in the other buffer, but for the MAT
buffers' bytes. -/
def completedState (p : Packet) (n prev : Nat) (time : Half) (spf : BitVec 9) (s : State) : State :=
  { handedOver p.data p.nbSamples p.pts p.dts s with
    ob := s.ob.write 0 p.data, matIdx := !s.matIdx, matFill := BitVec.ofNat 16 n, thdPrevSize := BitVec.ofNat 32 prev,
    thdPrevTime := time, thdSpf := spf, thdFrameCount := 0 }

theorem wf_ite {i : Bool} {m m' : Memory} {n : Nat} (h : m.wf n) (h' : m'.wf n) : (if i then m else m').wf n := by
  cases i
  · exact h'
  · exact h

section
variable {p : Packet} {n prev : Nat} {time : Half} {spf : BitVec 9} {count : BitVec 5} {i : Bool} {m m' : Memory}

theorem placedState_base (hi : Inv s) (hm : m.wf Config.matFrameSize) (hm' : m'.wf Config.matFrameSize) :
    InvBase (withMats i m m' (placedState n prev time spf count s)) := by
  unfold withMats placedState
  exact ⟨hi.noFault, hi.noMicro, hi.variant, hi.bpf, hi.ctrl, hi.ownDtshd, hi.obWf, wf_ite hm' hm, wf_ite hm hm',
    .idle rfl rfl rfl rfl⟩

theorem completedState_base (hi : Inv s) (hp : p.data.length ≤ 65536) (hm : m.wf Config.matFrameSize)
    (hm' : m'.wf Config.matFrameSize) : InvBase (withMats i m m' (completedState p n prev time spf s)) := by
  have hlen : (BitVec.ofNat 32 p.data.length).toNat = p.data.length := by
    rw [BitVec.toNat_ofNat]
    omega
  have hob : (s.ob.write 0 p.data).wf Config.outbufBytes := Memory.wf_write hi.obWf _ _ (by rw [Nat.zero_add]; exact hp)
  unfold withMats completedState
  exact ⟨hi.noFault, hi.noMicro, hi.variant, hi.bpf, hi.ctrl, hi.ownDtshd, hob, wf_ite hm' hm, wf_ite hm hm',
    ⟨rfl, hlen, rfl⟩⟩

theorem placedState_writer (hi : Inv s) (ha : s.obActive = false) :
    InvWriter (withMats i m m' (placedState n prev time spf count s)) := by
  obtain ⟨hcap, hcursor, hsamples, hpts, hdts, hblocks⟩ := hi.idle ha
  unfold withMats placedState
  exact .of_idle ha hcap hcursor hsamples hpts hdts hblocks

theorem completedState_writer (h : s.eac3Blocks = 0) :
    InvWriter (withMats i m m' (completedState p n prev time spf s)) := by
  unfold withMats completedState
  exact .of_idle rfl rfl rfl rfl rfl rfl h

theorem placedState_mat (hv : s.sVariant = 5) (hi : s.matIdx = i) (hn : 20 ≤ n ∧ n ≤ 61407)
    (hspf : spf = 0 ∨ spf = 40 ∨ spf = 80 ∨ spf = 160 ∨ spf = 320) (hfilled : MatFilled m n) :
    InvMat (withMats i m m' (placedState n prev time spf count s)) := by
  have hidx : (withMats i m m' (placedState n prev time spf count s)).matIdx = i := by
    unfold withMats placedState
    exact hi
  have hactive := activeMat_of_index hidx rfl rfl
  rw [← hactive] at hfilled
  unfold withMats placedState at *
  refine .of_placed hv rfl hn rfl hspf ?_ hfilled
  dsimp only
  rw [BitVec.toNat_ofNat]
  omega

theorem completedState_mat (hv : s.sVariant = 5) (hi : s.matIdx = i) (hn : 20 ≤ n ∧ n ≤ 61407)
    (hspf : spf = 0 ∨ spf = 40 ∨ spf = 80 ∨ spf = 160 ∨ spf = 320) (hfilled : MatFilled m' n) :
    InvMat (withMats i m m' (completedState p n prev time spf s)) := by
  have hactive := activeMat_of_flipped (s := withMats i m m' (completedState p n prev time spf s))
    (congrArg (! ·) hi) rfl rfl
  rw [← hactive] at hfilled
  unfold withMats completedState at *
  exact .of_placed hv rfl hn rfl hspf (Nat.zero_le 24) hfilled

theorem placedState_index : (withMats i m m' (placedState n prev time spf count s)).matIdx = s.matIdx := by
  unfold withMats placedState
  rfl

theorem completedState_index : (withMats i m m' (completedState p n prev time spf s)).matIdx = !s.matIdx := by
  unfold withMats completedState
  rfl

/-- The fill of a MAT buffer fits its register. -/
theorem toNat_fill (h : n ≤ 61407) : (BitVec.ofNat 16 n).toNat = n := by
  rw [BitVec.toNat_ofNat]
  omega

end

/-- The outcome of an absorbed frame, with both MAT buffers written out. -/
theorem absorbed_eq_placedState (m : Memory) (n prev : Nat) (time : Half) (spf : BitVec 9) (count : BitVec 5)
    (s : State) :
    { withMat s.matIdx m (absorbed s) with
      matFill := BitVec.ofNat 16 n, thdPrevSize := BitVec.ofNat 32 prev, thdPrevTime := time, thdSpf := spf,
      thdFrameCount := BitVec.ofNat 5 (min (count.toNat + 1) 24) } =
    withMats s.matIdx m (spaceOf (matSpace (!s.matIdx)) s) (placedState n prev time spf count s) := by
  have hother : spaceOf (matSpace (!s.matIdx)) (absorbed s) = spaceOf (matSpace (!s.matIdx)) s :=
    spaceOf_matSpace_congr rfl rfl _
  rw [withMat_eq_withMats, hother]
  rfl

/-- The outcome of a frame that completes the MAT frame, with both MAT buffers written out. -/
theorem handedOver_eq_completedState (p : Packet) (m m' : Memory) (n prev : Nat) (time : Half) (spf : BitVec 9)
    (s : State) :
    { withMat (!s.matIdx) m' (withMat s.matIdx m (handedOver p.data p.nbSamples p.pts p.dts s)) with
      ob := s.ob.write 0 p.data, matIdx := !s.matIdx, matFill := BitVec.ofNat 16 n,
      thdPrevSize := BitVec.ofNat 32 prev, thdPrevTime := time, thdSpf := spf, thdFrameCount := 0 } =
    withMats s.matIdx m m' (completedState p n prev time spf s) := by
  rw [withMat_withMat]
  rfl

/-- A frame laid before the end of the MAT frame in both. -/
theorem thd_alike_absorbed {t : Half} {spf : BitVec 9} {count : BitVec 5} {bs : List Byte} {extra : Nat}
    (ht : Twins o a b s) (hs : submitting s) (hv : s.sVariant = 5) (htime : thdTiming s t spf count)
    (hl : matLaid (matAhead s.matFill.toNat) (thdPadding t { s with thdSpf := spf }) s.frameIn.data = some (bs, extra))
    (hlt : s.matFill.toNat + bs.length < 61424) :
    Alike (PacketLaid s) (exec .encTruehd s) (exec .encTruehd (withBuffers o a b s)) := by
  have hi := ht.left
  have hn : 0 < frameLen s := Nat.lt_of_lt_of_le (by decide) (truehdBody_timed htime).2.2
  obtain ⟨hlo, hhi, hx⟩ := (thdFramePlaced s t spf count hi hs hv htime).2 bs extra hl |>.1 hlt
  obtain ⟨-, -, hy⟩ := (thdFramePlaced (withBuffers o a b s) t spf count ht.right hs hv htime).2 bs extra hl |>.1 hlt
  rw [absorbed_eq_placedState] at hx hy
  have hfilled := (matLaid_filled hi hn hl).1 hlt
  have hm : ((activeMat s).write s.matFill.toNat bs).wf Config.matFrameSize :=
    Memory.wf_write (hi.mat_wf s.matIdx) _ _ (Nat.le_of_lt hlt)
  have hsame := sameBytes_write ht.same.filled bs
  rw [Nat.zero_add] at hsame
  refine .mats (inv_iff.mpr ⟨placedState_base hi hm (hi.mat_wf (!s.matIdx)),
    placedState_writer hi (hi.obActive_eq_false (by rw [hv]; decide)),
    placedState_mat hv rfl ⟨hlo, hhi⟩ (thdTiming_spf hi htime) hfilled⟩) (.of_none rfl)
    (hi.obActive_eq_false (by rw [hv]; decide)) ?_ hx hy
  rw [activeMat_of_index placedState_index rfl rfl, activeMat_of_index placedState_index rfl rfl]
  change sameBytes _ _ 0 (BitVec.ofNat 16 (s.matFill.toNat + bs.length)).toNat
  rw [toNat_fill hhi]
  exact hsame

/-- The packet of a completed MAT frame has the layout of its variant. -/
theorem truehd_laid {whole : List Byte} {pts dts : Stamp} (hi : Inv s) (ho : s.sOpen = true) (hv : s.sVariant = 5)
    (hl : whole.length = 61424) :
    Laid s ⟨burst s.sOutBe 0x0016 1 (outputBytes true s.sOutBe whole) 61440, packetSamples 61440 s.sBpf, pts, dts⟩ := by
  have hlen : (outputBytes true s.sOutBe whole).length = 61424 := by
    rw [outputBytes_length, hl]
    rfl
  exact Laid.of_burst (by omega) (by omega)
    (.inr (.inr (.inr (.inr ⟨hv, rfl, packetSamples_open hi ho _, rfl, hlen, rfl⟩))))

/-- A frame that completes the MAT frame in both: the bytes before it are the same, so the packet is. -/
theorem thd_alike_completed {t : Half} {spf : BitVec 9} {count : BitVec 5} {bs : List Byte} {extra : Nat}
    (ht : Twins o a b s) (hs : submitting s) (hv : s.sVariant = 5) (htime : thdTiming s t spf count)
    (hl : matLaid (matAhead s.matFill.toNat) (thdPadding t { s with thdSpf := spf }) s.frameIn.data = some (bs, extra))
    (hge : 61424 ≤ s.matFill.toNat + bs.length) :
    Alike (PacketLaid s) (exec .encTruehd s) (exec .encTruehd (withBuffers o a b s)) := by
  have hi := ht.left
  have hn : 0 < frameLen s := Nat.lt_of_lt_of_le (by decide) (truehdBody_timed htime).2.2
  obtain ⟨hlo, hhi, hplaced⟩ := (thdFramePlaced s t spf count hi hs hv htime).2 bs extra hl |>.2 hge
  obtain ⟨-, -, hplaced'⟩ :=
    (thdFramePlaced (withBuffers o a b s) t spf count ht.right hs hv htime).2 bs extra hl |>.2 hge
  obtain ⟨before, hlen, hbefore⟩ := bytesAt_of_written hi.matFilled.written
  obtain ⟨hwhole, -, -, -, hx⟩ := hplaced before hlen hbefore
  obtain ⟨-, -, -, -, hy⟩ := hplaced' before hlen (bytesAt_of_sameBytes ht.same.filled hlen hbefore)
  have hfill := hi.r51.fill.1
  have hlaid := truehd_laid (pts := s.frameIn.pts) (dts := s.frameIn.dts) hi hs.2.1 hv hwhole
  have hfilled := (matLaid_filled hi hn hl).2 hge
  have hm : ((activeMat s).write s.matFill.toNat (bs.take (61424 - s.matFill.toNat))).wf Config.matFrameSize :=
    Memory.wf_write (hi.mat_wf s.matIdx) _ _ (by rw [List.length_take, Config.matFrameSize]; omega)
  have hm' : ((spaceOf (matSpace (!s.matIdx)) s).write 0 (bs.drop (61424 - s.matFill.toNat))).wf
      Config.matFrameSize :=
    Memory.wf_write (hi.mat_wf (!s.matIdx)) _ _ (by rw [List.length_drop, Config.matFrameSize]; omega)
  have hx' := hx.trans (congrArg _ (handedOver_eq_completedState ⟨_, _, _, _⟩ _ _ _ _ t spf s))
  have hy' := hy.trans (congrArg _ (handedOver_eq_completedState ⟨_, _, _, _⟩ _ _ _ _ t spf (withBuffers o a b s)))
  refine .mats (o := o.write 0 _) (inv_iff.mpr ⟨completedState_base hi hlaid.length_le hm hm',
    completedState_writer (hi.eac3Blocks_eq_zero (hi.obActive_eq_false (by rw [hv]; decide))),
    completedState_mat hv rfl ⟨hlo, hhi⟩ (thdTiming_spf hi htime) hfilled⟩) ?_ rfl ?_ hx' hy'
  · intro q hq
    cases hq
    exact hlaid
  · rw [activeMat_of_flipped completedState_index rfl rfl, activeMat_of_flipped completedState_index rfl rfl]
    change sameBytes _ _ 0 (BitVec.ofNat 16 (s.matFill.toNat + bs.length - 61424)).toNat
    rw [toNat_fill hhi]
    have hsame := sameBytes_write (sameBytes_zero (spaceOf (matSpace (!s.matIdx)) s)
      (spaceOf (matSpace (!s.matIdx)) (withBuffers o a b s)) 0) (bs.drop (61424 - s.matFill.toNat))
    rw [Nat.zero_add, Nat.zero_add, List.length_drop] at hsame
    rw [show s.matFill.toNat + bs.length - 61424 = bs.length - (61424 - s.matFill.toNat) by omega]
    exact hsame

theorem thd_alike (ht : Twins o a b s) (hs : submitting s) (hv : s.sVariant = 5) :
    Alike (PacketLaid s) (exec .submit s) (exec .submit (withBuffers o a b s)) := by
  rw [(exec_submit_of_variant s).2.2.2.2 hv, (exec_submit_of_variant (withBuffers o a b s)).2.2.2.2 hv]
  have hi := ht.left
  rcases thd_refused_or_timed hs with ⟨k, hk⟩ | ⟨t, spf, count, htime⟩
  · exact .raised hi (hk s.ob s.mat0 s.mat1) (hk o a b)
  cases hl : matLaid (matAhead s.matFill.toNat) (thdPadding t { s with thdSpf := spf }) s.frameIn.data with
  | none =>
    obtain ⟨m0, m1, hm0, hm1, hx⟩ := exec_encTruehd_second hi hs htime hl
    obtain ⟨n0, n1, -, -, hy⟩ := exec_encTruehd_second (s := withBuffers o a b s) ht.right hs htime hl
    exact .rejected hi hi.obWf hm0 hm1 hx (o'' := o) (a'' := n0) (b'' := n1) hy
  | some r =>
    obtain ⟨bs, extra⟩ := r
    rcases Nat.lt_or_ge (s.matFill.toNat + bs.length) 61424 with hlt | hge
    · exact thd_alike_absorbed ht hs hv htime hl hlt
    · exact thd_alike_completed ht hs hv htime hl hge

end

end Sys2Proof.Machine

/-! Every step from a state of the invariant (10_state.md rule R51, 20_memory.md rule R74): two states that differ only
in stale bytes step to states of the invariant that differ only in them. -/

namespace Sys2Proof.Machine

/-! ### SUBMIT -/

section
variable {s : State} {o a b : Memory}

theorem Inv.portShows (hi : Inv s) : PortShows s := (inv_iff.mp hi).1.port

/-- A command that is turned away leaves the stream as it was (47_dispatcher.md rule R214). -/
theorem Alike.turnedAway {k : ErrKind} {P : State → Prop} {x y : Host.Outcome State Fault Refusal} (ht : Twins o a b s)
    (hP : P (turnedAway k s)) (hx : x = .next (turnedAway k s)) (hy : y = .next (turnedAway k (withBuffers o a b s))) :
    Alike P x y :=
  .outside (t := Machine.turnedAway k s) ht rfl ht.left.ctrl (.idle rfl rfl rfl rfl) hP hx hy

theorem submit_alike (ht : Twins o a b s) :
    Alike (PacketLaid s) (exec .submit s) (exec .submit (withBuffers o a b s)) := by
  have hi := ht.left
  have hf := hi.noFault.1
  cases ho : s.sOpen with
  | false =>
    exact .turnedAway ht (.of_none rfl) ((submitNotOpen s hf).2 ho _ (List.mem_cons_self ..))
      ((submitNotOpen (withBuffers o a b s) hf).2 ho _ (List.mem_cons_self ..))
  | true =>
    have hv := hi.variant.1.mp ho
    by_cases hl : frameLen s ≤ Config.maxFrameBytes
    case neg =>
      have hlong := Nat.lt_of_not_le hl
      exact .raised hi (oversizeFrame s hf ho hv hlong _ (List.mem_cons_self ..))
        (oversizeFrame (withBuffers o a b s) hf ho hv hlong _ (List.mem_cons_self ..))
    have hs : submitting s := ⟨hf, ho, hl⟩
    rcases variant_cases hi.variant.2 with h | h | h | h | h | h
    · exact absurd h hv
    · exact (ac3_endsAlike hi hs h).alike ht (by rw [h]; decide)
    · exact eac3_alike ht hs h
    · exact (dts_endsAlike hi hs h).alike ht (by rw [h]; decide)
    · exact (dtshd_endsAlike hi hs h).alike ht (by rw [h]; decide)
    · exact thd_alike ht hs h

end

/-- Settles O29: the packet of the outcome that the frame of each variant leads to. -/
theorem packetLayout : Obligations.PacketLayout := by
  intro s t p hi h hp
  obtain ⟨u, -, -, -, hu, -, -, -, hlaid⟩ := submit_alike (Twins.self hi)
  rw [hu] at h
  cases h
  exact hlaid p hp

/-! ### The other commands -/

section
variable {s u : State} {o a b : Memory} {P : State → Prop} {x y : Host.Outcome State Fault Refusal}

theorem Alike.mono {Q : State → Prop} (h : Alike P x y) (hPQ : ∀ s, P s → Q s) : Alike Q x y := by
  obtain ⟨s, o, a, b, hx, hy, hi, hs, hP⟩ := h
  exact ⟨s, o, a, b, hx, hy, hi, hs, hPQ s hP⟩

/-- A state that a flush left: every element of the aggregation state is 0 (10_state.md rule R47). -/
theorem Alike.flushed (hb : InvBase u) (hu : flushState u = u) (hP : P u) (hx : x = .next u)
    (hy : y = .next (withBuffers o a b u)) : Alike P x y := by
  have hw : InvWriter (flushState u) := .of_idle rfl rfl rfl rfl rfl rfl rfl
  have hm : InvMat (flushState u) := .of_idle ⟨rfl, rfl, rfl, rfl, rfl, rfl⟩
  have hsame : SameButStaleBytes (flushState u) (withBuffers o a b (flushState u)) := .of_idle o a b rfl rfl
  rw [hu] at hw hm hsame
  exact ⟨u, o, a, b, hx, hy, inv_iff.mpr ⟨hb, hw, hm⟩, hsame, hP⟩

/-- OPEN never latches NONE, nor a variant past TrueHD (47_dispatcher.md rule R210). -/
theorem openVariant_bounds {codec : BitVec 3} {rate : Word} {v : BitVec 3} (h : openVariant codec rate = some v) :
    v ≠ 0 ∧ v.toNat ≤ 5 := by
  unfold openVariant at h
  split at h
  · cases h
    decide
  · cases h
    decide
  · split at h
    · cases h
      decide
    · cases h
      decide
  · cases h
    decide
  · cases h

theorem exec_open_refused (hf : s.fault = false) (h : s.sOpen = true ∨ openVariant (ctrlCodec s.ctrl) s.outRate = none ∨
    ctrlBpf s.ctrl = 0) : exec .openStream s = .next (turnedAway .badCommand s) :=
  execute_turnedAway hf rfl (openBody_refused (s := commandStart s) h)

theorem exec_open_latches {v : BitVec 3} (hf : s.fault = false) (ho : s.sOpen = false)
    (hv : openVariant (ctrlCodec s.ctrl) s.outRate = some v) (hb : ctrlBpf s.ctrl ≠ 0) :
    exec .openStream s = .next (recordVerdict .none .none (openLatch v (commandStart s))) :=
  execute_none hf (openBody_latches (s := commandStart s) ho hv hb)

theorem open_alike (ht : Twins o a b s) :
    Alike (fun _ => True) (exec .openStream s) (exec .openStream (withBuffers o a b s)) := by
  have hi := ht.left
  have hf := hi.noFault.1
  have refused : (s.sOpen = true ∨ openVariant (ctrlCodec s.ctrl) s.outRate = none ∨ ctrlBpf s.ctrl = 0) →
      Alike (fun _ => True) (exec .openStream s) (exec .openStream (withBuffers o a b s)) := fun h =>
    .turnedAway ht trivial (exec_open_refused hf h) (exec_open_refused (s := withBuffers o a b s) hf h)
  cases ho : s.sOpen with
  | true => exact refused (.inl ho)
  | false =>
    cases hv : openVariant (ctrlCodec s.ctrl) s.outRate with
    | none => exact refused (.inr (.inl hv))
    | some v =>
      by_cases hb : ctrlBpf s.ctrl = 0
      · exact refused (.inr (.inr hb))
      obtain ⟨hne, hle⟩ := openVariant_bounds hv
      exact .flushed (u := recordVerdict .none .none (openLatch v (commandStart s))) ⟨hi.noFault, hi.noMicro,
        ⟨iff_of_true rfl hne, hle⟩, fun _ => hb, hi.ctrl, fun _ => rfl, hi.obWf, hi.mat0Wf, hi.mat1Wf,
        .idle rfl rfl rfl rfl⟩ rfl trivial (exec_open_latches hf ho hv hb)
        (exec_open_latches (s := withBuffers o a b s) hf ho hv hb)

theorem flush_alike (ht : Twins o a b s) :
    Alike (fun _ => True) (exec .flush s) (exec .flush (withBuffers o a b s)) := by
  have hi := ht.left
  have hx := exec_flush_eq hi.noFault.1
  have hy := exec_flush_eq (s := withBuffers o a b s) hi.noFault.1
  cases ho : s.sOpen with
  | true =>
    rw [if_pos ho] at hx
    rw [if_pos (show (withBuffers o a b s).sOpen = true from ho)] at hy
    exact .flushed (u := recordVerdict .none .none (flushState (commandStart s))) ⟨hi.noFault, hi.noMicro, hi.variant,
      hi.bpf, hi.ctrl, fun _ => rfl, hi.obWf, hi.mat0Wf, hi.mat1Wf, .idle rfl rfl rfl rfl⟩ rfl trivial hx hy
  | false =>
    have hno : ¬ s.sOpen = true := by rw [ho]; decide
    rw [if_neg hno] at hx
    rw [if_neg (show ¬ (withBuffers o a b s).sOpen = true from hno)] at hy
    exact .outside (t := recordVerdict .none .none (commandStart s)) ht rfl hi.ctrl (.idle rfl rfl rfl rfl) trivial hx
      hy

theorem close_alike (ht : Twins o a b s) :
    Alike (fun _ => True) (exec .closeStream s) (exec .closeStream (withBuffers o a b s)) := by
  have hi := ht.left
  have hx := exec_close_eq hi.noFault.1
  have hy := exec_close_eq (s := withBuffers o a b s) hi.noFault.1
  cases ho : s.sOpen with
  | true =>
    rw [if_pos ho] at hx
    rw [if_pos (show (withBuffers o a b s).sOpen = true from ho)] at hy
    exact .flushed (u := recordVerdict .none .none (closeLatch (commandStart s))) ⟨hi.noFault, hi.noMicro,
      ⟨iff_of_false Bool.false_ne_true (fun h => h rfl), Nat.zero_le 5⟩, fun h => absurd h Bool.false_ne_true, hi.ctrl,
      fun _ => rfl, hi.obWf, hi.mat0Wf, hi.mat1Wf, .idle rfl rfl rfl rfl⟩ rfl trivial hx hy
  | false =>
    have hno : ¬ s.sOpen = true := by rw [ho]; decide
    rw [if_neg hno] at hx
    rw [if_neg (show ¬ (withBuffers o a b s).sOpen = true from hno)] at hy
    exact .outside (t := recordVerdict .none .none (commandStart s)) ht rfl hi.ctrl (.idle rfl rfl rfl rfl) trivial hx
      hy

theorem command_alike (ht : Twins o a b s) (w : Word) :
    Alike (fun _ => True) (exec (decodeCommand w) s) (exec (decodeCommand w) (withBuffers o a b s)) := by
  rcases decodeCommand_cases w with ⟨-, hd⟩ | ⟨-, hd⟩ | ⟨-, hd⟩ | ⟨-, hd⟩ | hd <;> rw [hd]
  · exact open_alike ht
  · exact (submit_alike ht).mono fun _ _ => trivial
  · exact flush_alike ht
  · exact close_alike ht
  · exact .turnedAway ht trivial (exec_illegal_eq ht.left.noFault.1 w)
      (exec_illegal_eq (s := withBuffers o a b s) ht.left.noFault.1 w)

/-! ### The host's accesses -/

theorem writeRegister_outside (off : Byte) (v : Word) (s : State) : OutsideOnly s (writeRegister off v s) := by
  unfold writeRegister
  split <;> rfl

/-- The reserved bits of CTRL stay 0 (10_state.md rules R25, R41). -/
theorem writeRegister_ctrl (off : Byte) (v : Word) (hi : Inv s) :
    (writeRegister off v s).ctrl &&& ctrlWritable = (writeRegister off v s).ctrl := by
  unfold writeRegister
  split
  · show v &&& ctrlWritable &&& ctrlWritable = v &&& ctrlWritable
    rw [BitVec.and_assoc, BitVec.and_self]
  · exact hi.ctrl
  · exact hi.ctrl

theorem writeRegister_port (off : Byte) (v : Word) (hi : Inv s) : PortShows (writeRegister off v s) := by
  unfold writeRegister
  split
  · exact hi.portShows
  · exact hi.portShows
  · exact hi.portShows

theorem writeRegister_withBuffers (off : Byte) (v : Word) (s : State) :
    writeRegister off v (withBuffers o a b s) = withBuffers o a b (writeRegister off v s) := by
  unfold writeRegister
  split <;> rfl

/-- The reset input sets what the invariant reads to its reset value. -/
theorem platformReset_base (s : State) : InvBase (platformReset s) :=
  have hb := (inv_iff.mp invHoldsAtReset).1
  ⟨hb.noFault, hb.noMicro, hb.variant, hb.bpf, hb.ctrl, hb.ownDtshd, hb.obWf, hb.mat0Wf, hb.mat1Wf, hb.port⟩

theorem hostStep_alike {acc : HostAccess} (ht : Twins o a b s) (hl : accessLegal acc = true) :
    Alike (fun _ => True) (hostStep acc s) (hostStep acc (withBuffers o a b s)) := by
  have hi := ht.left
  cases acc with
  | reset => exact .flushed (o := []) (a := []) (b := []) (platformReset_base s) rfl trivial rfl rfl
  | drive f => exact .outside (t := { s with frameIn := f }) ht rfl hi.ctrl hi.portShows trivial rfl rfl
  | read width off =>
    have hl' : legalAccess width off = true := hl
    exact .outside (t := { s with busRead := readRegister off s }) ht rfl hi.ctrl hi.portShows trivial (if_pos hl')
      (if_pos hl')
  | write width off v =>
    have hl' : ¬ (!legalAccess width off) = true := by rw [show legalAccess width off = true from hl]; decide
    simp only [hostStep, if_neg hl']
    split
    · exact command_alike ht v
    · exact .outside ht (writeRegister_outside off v s) (writeRegister_ctrl off v hi) (writeRegister_port off v hi)
        trivial rfl (congrArg _ (writeRegister_withBuffers off v s))

/-- An access that the host interface cannot make is refused. -/
theorem hostStep_not_legal {acc : HostAccess} {t : State} (h : hostStep acc s = .next t) : accessLegal acc = true := by
  cases acc with
  | reset => rfl
  | drive f => rfl
  | read width off =>
    by_contra hl
    rw [hostStep, if_neg (show ¬ legalAccess width off = true from hl)] at h
    cases h
  | write width off v =>
    by_contra hl
    have hno : (!legalAccess width off) = true := by rw [Bool.not_eq_true']; exact Bool.eq_false_of_not_eq_true hl
    rw [hostStep, if_pos hno] at h
    cases h

/-! ### The step -/

theorem Twins.popHost (ht : Twins o a b s) : Twins o a b (popHost s) :=
  have hs : OutsideOnly s (Machine.popHost s) := rfl
  have ht' : OutsideOnly (withBuffers o a b s) (withBuffers o a b (Machine.popHost s)) := rfl
  ⟨hs.inv ht.left ht.left.ctrl ht.left.portShows, ht'.inv ht.right ht.left.ctrl ht.left.portShows, hs.same ht.same⟩

theorem step_of_host {acc : HostAccess} {rest : List HostAccess} (hp : s.uop.pending = none)
    (hh : s.host = acc :: rest) : step s = hostStep acc (popHost s) := by
  unfold step
  rw [hp, hh]

theorem step_of_no_host (hp : s.uop.pending = none) (hh : s.host = []) : step s = .next s := by
  unfold step
  rw [hp, hh]

/-- Two states that differ only in stale bytes step to such states, unless the access is refused. -/
theorem step_alike (ht : Twins o a b s) (hl : ∀ acc ∈ s.host.head?, accessLegal acc = true) :
    Alike (fun _ => True) (step s) (step (withBuffers o a b s)) := by
  have hp := ht.left.noMicro
  cases hh : s.host with
  | nil =>
    exact ⟨s, o, a, b, step_of_no_host hp hh, step_of_no_host (s := withBuffers o a b s) hp hh, ht.left, ht.same,
      trivial⟩
  | cons acc rest =>
    rw [step_of_host hp hh, step_of_host (s := withBuffers o a b s) hp hh]
    exact hostStep_alike ht.popHost (hl acc (by rw [hh]; rfl))

/-- A step of a state of the invariant makes a legal access. -/
theorem head_legal_of_step {t : State} (hi : Inv s) (h : step s = .next t) :
    ∀ acc ∈ s.host.head?, accessLegal acc = true := by
  intro acc hacc
  cases hh : s.host with
  | nil =>
    rw [hh] at hacc
    cases hacc
  | cons acc' rest =>
    rw [hh] at hacc
    cases hacc
    rw [step_of_host hi.noMicro hh] at h
    exact hostStep_not_legal h

end

/-- Settles O3. -/
theorem stepKeepsInv : Obligations.StepKeepsInv := by
  intro s t hi h
  obtain ⟨u, -, -, -, hu, -, hinv, -⟩ := step_alike (Twins.self hi) (head_legal_of_step hi h)
  rw [hu] at h
  cases h
  exact hinv

/-- Settles O4. -/
theorem legalAccessesComplete : Obligations.LegalAccessesComplete := by
  intro s hi hl
  obtain ⟨u, -, -, -, hu, -⟩ := step_alike (Twins.self hi) hl
  exact ⟨u, hu⟩

/-- Settles O5: both states step alike, and PKT_OUT is no buffer. -/
theorem staleBytesUnobservable : Obligations.StaleBytesUnobservable := by
  intro s t s' hs ht hsame h
  obtain ⟨heq, htwins⟩ := Twins.of_same hs ht hsame
  obtain ⟨u, o, a, b, hu, hv, -, hsame', -⟩ := step_alike htwins (head_legal_of_step hs h)
  rw [hu] at h
  cases h
  rw [← heq] at hv
  exact ⟨_, hv, hsame', rfl⟩

end Sys2Proof.Machine
